-- ==== Sys2Proof/Word.lean ====
section
/-! DEFINITION. The word types of the machine (`00_scope.md` R5, R7) and the types of operand fields. -/

namespace Sys2Proof

/-- A register, a data word, a data address, an instruction address: 32 bits (R5). -/
abbrev Word := BitVec 32

/-- A byte of instruction memory (`20_memory.md` R110). -/
abbrev Byte := BitVec 8

/-- A register index 0..31, already mapped from the 3-bit field of a 16-bit form (`30_encoding.md` R144, R160). -/
abbrev Reg := BitVec 5

/-- A condition register index 0..7 (`10_state.md` R35). -/
abbrev CReg := BitVec 3

/-- An interrupt source 0..11: 0..3 coprocessors, 4..11 external interrupts 0..7 (`10_state.md` R68). -/
abbrev Source := Fin 12

end Sys2Proof
end

