-- ==== Sys2Proof/Syntax.lean ====
section
/-! DEFINITION. The decoded instruction of `30_encoding.md` R144: one of the 67 mnemonics with its operands. Register
indices are 5 bits wide and already mapped (R160, R161); an immediate whose width depends on the form is the integer
before extension (R150), the others are the bit field that holds them. -/

namespace Sys2Proof

/-- The condition codes of `10_state.md` R37. -/
inductive Cond where
  | c | egt | elt | eq | gt | lt | ne | nc
deriving DecidableEq, Repr

/-- The form of one of the 41 instructions that may be conditional (R163): unconditional 32-bit, conditional 32-bit
with its `(cond, creg)`, or 16-bit. -/
inductive Form where
  | w32
  | cex (cond : Cond) (creg : CReg)
  | w16
deriving DecidableEq, Repr

/-- The form of an instruction that is never conditional (R164) and exists in both modes. -/
inductive Width where
  | w32 | w16
deriving DecidableEq, Repr

/-- The 67 instructions of R141, in the order of spec/opcode_table.json. -/
inductive Instr where
  | nop (w : Width)
  | add (f : Form) (dreg sreg1 sreg2 : Reg)
  | addi (f : Form) (dreg sreg1 : Reg) (imm : Int)
  | addiu (f : Form) (dreg sreg1 : Reg) (imm : Nat)
  | addu (f : Form) (dreg sreg1 sreg2 : Reg)
  | mulhi (f : Form) (dreg : Reg)
  | muli (f : Form) (dreg sreg1 : Reg) (imm : Int)
  | muls (f : Form) (dreg sreg1 sreg2 : Reg)
  | mulu (f : Form) (dreg sreg1 sreg2 : Reg)
  | mulus (f : Form) (dreg sreg1 sreg2 : Reg)
  | muls16 (f : Form) (dreg sreg1 sreg2 : Reg)
  | mulu16 (f : Form) (dreg sreg1 sreg2 : Reg)
  | mulus16 (f : Form) (dreg sreg1 sreg2 : Reg)
  | sub (f : Form) (dreg sreg1 sreg2 : Reg)
  | subu (f : Form) (dreg sreg1 sreg2 : Reg)
  | exb (f : Form) (dreg sreg : Reg) (imm : BitVec 2)
  | exbf (f : Form) (dreg sreg1 sreg2 : Reg)
  /-- `len` is imm1, `lsb` is imm2. -/
  | exbfi (dreg sreg1 : Reg) (len : BitVec 6) (lsb : BitVec 5)
  | exh (f : Form) (dreg sreg1 : Reg) (imm : BitVec 1)
  | lli (dreg : Reg) (imm : BitVec 16)
  | lui (dreg : Reg) (imm : BitVec 16)
  | sext (f : Form) (dreg sreg1 sreg2 : Reg)
  | sexti (f : Form) (dreg sreg : Reg) (imm : BitVec 5)
  | conb (f : Form) (dreg sreg1 sreg2 : Reg)
  | conh (f : Form) (dreg sreg1 sreg2 : Reg)
  | and (f : Form) (dreg sreg1 sreg2 : Reg)
  | andi (f : Form) (dreg sreg1 : Reg) (imm : Nat)
  | not (f : Form) (dreg sreg1 : Reg)
  | or (f : Form) (dreg sreg1 sreg2 : Reg)
  | ori (f : Form) (dreg sreg1 : Reg) (imm : Nat)
  | xor (f : Form) (dreg sreg1 sreg2 : Reg)
  | rcon (w : Width) (sreg1 : Reg)
  | scon (w : Width) (dreg : Reg)
  | bc (w : Width) (creg : CReg) (imm : Int)
  | begt (w : Width) (creg : CReg) (imm : Int)
  | belt (w : Width) (creg : CReg) (imm : Int)
  | beq (w : Width) (creg : CReg) (imm : Int)
  | bgt (w : Width) (creg : CReg) (imm : Int)
  | blt (w : Width) (creg : CReg) (imm : Int)
  | bne (w : Width) (creg : CReg) (imm : Int)
  | bnc (w : Width) (creg : CReg) (imm : Int)
  | jal (w : Width) (imm : Int)
  | jalr (f : Form) (sreg1 : Reg)
  | jmp (w : Width) (imm : Int)
  | jmpr (f : Form) (sreg1 : Reg)
  | cmp (w : Width) (creg : CReg) (sreg1 sreg2 : Reg)
  | cmpi (w : Width) (creg : CReg) (sreg1 : Reg) (imm : Int)
  | sll (f : Form) (dreg sreg1 sreg2 : Reg)
  | slli (f : Form) (dreg sreg1 : Reg) (imm : BitVec 6)
  | sra (f : Form) (dreg sreg1 sreg2 : Reg)
  | srai (f : Form) (dreg sreg1 : Reg) (imm : BitVec 6)
  | srl (f : Form) (dreg sreg1 sreg2 : Reg)
  | srli (f : Form) (dreg sreg1 : Reg) (imm : BitVec 6)
  | ld (f : Form) (dreg sreg1 : Reg) (imm : Int)
  /-- `sreg2` is the data register, `sreg1` the base. -/
  | st (f : Form) (sreg2 sreg1 : Reg) (imm : Int)
  | mov (f : Form) (dreg sreg1 : Reg)
  /-- `k` is imm1, the coprocessor; `word` is imm2, its instruction word. -/
  | cop (k : BitVec 2) (word : BitVec 24)
  | movfc (f : Form) (k : BitVec 2) (dreg : Reg) (cpSreg : BitVec 5)
  | movtc (f : Form) (k : BitVec 2) (cpDreg : BitVec 5) (sreg1 : Reg)
  | chrs (w : Width) (imm : BitVec 2)
  | di (w : Width)
  | ei (w : Width)
  | swm (w : Width) (imm : BitVec 6)
  | reti (w : Width)
  | retu (w : Width)
  | scall (f : Form)
  | trap (w : Width) (imm : BitVec 5)
deriving DecidableEq, Repr

end Sys2Proof
end

