-- ==== Sys2Proof/WellFormed.lean ====
section
/-! DEFINITION. Which decoded instructions an encoding exists for: the immediate ranges of `30_encoding.md` R150, and in
16-bit forms the registers 24..31 of R160, the shared operands of R161 and the one condition register of R162. -/

namespace Sys2Proof

/-- `imm` fits a signed field of `n` bits. -/
def fitsSigned (n : Nat) (imm : Int) : Bool := decide (-(2 : Int) ^ (n - 1) ≤ imm ∧ imm < (2 : Int) ^ (n - 1))

/-- `imm` fits an unsigned field of `n` bits. -/
def fitsUnsigned (n : Nat) (imm : Nat) : Bool := decide (imm < 2 ^ n)

/-- A register that the form can name: any in a 32-bit form, 24..31 in a 16-bit one (R160). -/
def Form.regOk : Form → Reg → Bool
  | .w16, r => decide (24 ≤ r.toNat)
  | _, _ => true

/-- In a 16-bit form the two operands are one register field (R161). -/
def Form.shared : Form → Reg → Reg → Bool
  | .w16, a, b => a == b
  | _, _, _ => true

/-- Width of the immediate of addi, muli, addiu, andi, ori by form (R143, R150). -/
def Form.immBits : Form → Nat
  | .w32 => 15
  | .cex _ _ => 9
  | .w16 => 7

/-- Width of the offset of ld and st by form (R143, R150). -/
def Form.offsetBits : Form → Nat
  | .w32 => 15
  | .cex _ _ => 9
  | .w16 => 4

def Width.regOk : Width → Reg → Bool
  | .w16, r => decide (24 ≤ r.toNat)
  | .w32, _ => true

/-- In 16-bit mode the condition register is always C0 (R162). -/
def Width.cregOk : Width → CReg → Bool
  | .w16, k => k == 0
  | .w32, _ => true

/-- Width of a branch offset by form. -/
def Width.branchBits : Width → Nat
  | .w32 => 22
  | .w16 => 10

/-- Width of the offset of jmp and jal by form. -/
def Width.jumpBits : Width → Nat
  | .w32 => 25
  | .w16 => 10

/-- Width of the immediate of cmpi by form. -/
def Width.cmpiBits : Width → Nat
  | .w32 => 17
  | .w16 => 7

/-- Three registers: in a 16-bit form `dreg` is also `sreg2`. -/
def Form.wf3 (f : Form) (d a b : Reg) : Bool := f.regOk d && f.regOk a && f.shared d b

/-- Two separate registers. -/
def Form.wf2 (f : Form) (d a : Reg) : Bool := f.regOk d && f.regOk a

/-- Register and immediate: in a 16-bit form `dreg` is also `sreg1`. -/
def Form.wfShared (f : Form) (d a : Reg) : Bool := f.regOk d && f.shared d a

def Width.wfBranch (w : Width) (k : CReg) (imm : Int) : Bool := w.cregOk k && fitsSigned w.branchBits imm

/-- The instruction has an encoding. -/
def Instr.wf : Instr → Bool
  | .nop _ => true
  | .add f d a b => f.wf3 d a b
  | .addi f d a imm => f.wfShared d a && fitsSigned f.immBits imm
  | .addiu f d a imm => f.wfShared d a && fitsUnsigned f.immBits imm
  | .addu f d a b => f.wf3 d a b
  | .mulhi f d => f.regOk d
  | .muli f d a imm => f.wfShared d a && fitsSigned f.immBits imm
  | .muls f d a b => f.wf3 d a b
  | .mulu f d a b => f.wf3 d a b
  | .mulus f d a b => f.wf3 d a b
  | .muls16 f d a b => f.wf3 d a b
  | .mulu16 f d a b => f.wf3 d a b
  | .mulus16 f d a b => f.wf3 d a b
  | .sub f d a b => f.wf3 d a b
  | .subu f d a b => f.wf3 d a b
  | .exb f d a _ => f.wf2 d a
  | .exbf f d a b => f.wf3 d a b
  | .exbfi _ _ _ _ => true
  | .exh f d a _ => f.wf2 d a
  | .lli _ _ => true
  | .lui _ _ => true
  | .sext f d a b => f.wf3 d a b
  | .sexti f d a _ => f.wfShared d a
  | .conb f d a b => f.wf3 d a b
  | .conh f d a b => f.wf3 d a b
  | .and f d a b => f.wf3 d a b
  | .andi f d a imm => f.wfShared d a && fitsUnsigned f.immBits imm
  | .not f d a => f.wf2 d a
  | .or f d a b => f.wf3 d a b
  | .ori f d a imm => f.wfShared d a && fitsUnsigned f.immBits imm
  | .xor f d a b => f.wf3 d a b
  | .rcon w a => w.regOk a
  | .scon w d => w.regOk d
  | .bc w k imm => w.wfBranch k imm
  | .begt w k imm => w.wfBranch k imm
  | .belt w k imm => w.wfBranch k imm
  | .beq w k imm => w.wfBranch k imm
  | .bgt w k imm => w.wfBranch k imm
  | .blt w k imm => w.wfBranch k imm
  | .bne w k imm => w.wfBranch k imm
  | .bnc w k imm => w.wfBranch k imm
  | .jal w imm => fitsSigned w.jumpBits imm
  | .jalr f a => f.regOk a
  | .jmp w imm => fitsSigned w.jumpBits imm
  | .jmpr f a => f.regOk a
  | .cmp w k a b => w.cregOk k && w.regOk a && w.regOk b
  | .cmpi w k a imm => w.cregOk k && w.regOk a && fitsSigned w.cmpiBits imm
  | .sll f d a b => f.wf3 d a b
  | .slli f d a _ => f.wfShared d a
  | .sra f d a b => f.wf3 d a b
  | .srai f d a _ => f.wfShared d a
  | .srl f d a b => f.wf3 d a b
  | .srli f d a _ => f.wfShared d a
  | .ld f d a imm => f.wf2 d a && fitsSigned f.offsetBits imm
  | .st f b a imm => f.wf2 b a && fitsSigned f.offsetBits imm
  | .mov f d a => f.wf2 d a
  | .cop _ _ => true
  | .movfc f _ d _ => f.regOk d
  | .movtc f _ _ a => f.regOk a
  | .chrs _ _ => true
  | .di _ => true
  | .ei _ => true
  | .swm _ _ => true
  | .reti _ => true
  | .retu _ => true
  | .scall _ => true
  | .trap _ _ => true

end Sys2Proof
end

