-- ==== Sys2Proof/Decode.lean ====
section
/-! DEFINITION. SPEC-ENC, the spec's own encoding (`30_encoding.md` R145 to R149; log 4): the decoder of 32-bit and of
16-bit instruction words, total on any word and rejecting by name, and the encoder written from the same tables. -/

namespace Sys2Proof

/-- Why a word is no instruction under SPEC-ENC (R145, R149): a modelling refusal, not an exception. -/
inductive NotAnInstruction where
  /-- a non-zero bit outside the fields of the format -/
  | unassignedBits (opcode : BitVec 6)
  /-- bit 25 set on an instruction that cannot be conditional -/
  | neverConditional (opcode : BitVec 6)
  /-- not two bytes in 16-bit mode, or not four in 32-bit mode; no fetch asks for that -/
  | wrongLength
deriving DecidableEq, Repr

/-- What decoding gives. -/
inductive Decoded where
  | ok (i : Instr)
  /-- exbfi, lli, lui or cop met in 16-bit mode: exception code 02h, whatever the other bits are (R147, R166) -/
  | illegal16
  | refused (why : NotAnInstruction)
deriving DecidableEq, Repr

/-! ## Fields -/

/-- The field of `len` bits whose lowest bit is bit `lo`. -/
def field (w : BitVec n) (lo len : Nat) : BitVec len := w.extractLsb' lo len

/-- The bits `hi..lo` are all zero. -/
def isZero (w : BitVec n) (hi lo : Nat) : Bool := field w lo (hi + 1 - lo) == 0

def Cond.ofBits (b : BitVec 3) : Cond :=
  match b.toNat with
  | 0 => .c
  | 1 => .egt
  | 2 => .elt
  | 3 => .eq
  | 4 => .gt
  | 5 => .lt
  | 6 => .ne
  | _ => .nc

/-- The codes of `10_state.md` R37. -/
def Cond.bits : Cond → BitVec 3
  | .c => 0
  | .egt => 1
  | .elt => 2
  | .eq => 3
  | .gt => 4
  | .lt => 5
  | .ne => 6
  | .nc => 7

/-- The opcode of a 32-bit word (R146). -/
def opcode32 (w : BitVec 32) : BitVec 6 := field w 26 6

/-- The opcode of a 16-bit word (R147). -/
def opcode16 (h : BitVec 16) : BitVec 6 := field h 10 6

/-- Bit 25: the flag `cex` of an instruction that may be conditional. -/
def cexBit (w : BitVec 32) : Bool := w.getLsbD 25

/-- The form of a 32-bit instruction that may be conditional: creg = w[24:22], cond = w[21:19] (R146). -/
def form32 (w : BitVec 32) : Form :=
  if cexBit w then .cex (Cond.ofBits (field w 19 3)) (field w 22 3) else .w32

/-- The operand area (w[18:0] with cex, w[24:0] without) is zero from bit `lo` up (R146). -/
def areaClear (w : BitVec 32) (lo : Nat) : Bool :=
  if cexBit w then isZero w 18 lo else isZero w 24 lo

/-- `d` if the bits that must be zero are. -/
def ifClear (clear : Bool) (op : BitVec 6) (d : Instr) : Decoded :=
  if clear then .ok d else .refused (.unassignedBits op)

/-- For an instruction that is never conditional: bit 25 must be zero, and so must the unassigned bits. -/
def ifPlain (w : BitVec 32) (clear : Bool) (d : Instr) : Decoded :=
  if cexBit w then .refused (.neverConditional (opcode32 w)) else ifClear clear (opcode32 w) d

/-! ## The 32-bit formats of R146 -/

def regLow (w : BitVec 32) : Reg := field w 0 5
def regMid (w : BitVec 32) : Reg := field w 5 5
def regHigh (w : BitVec 32) : Reg := field w 10 5

def decR3 (mk : Form → Reg → Reg → Reg → Instr) (w : BitVec 32) : Decoded :=
  ifClear (areaClear w 15) (opcode32 w) (mk (form32 w) (regLow w) (regMid w) (regHigh w))

def decR2 (mk : Form → Reg → Reg → Instr) (w : BitVec 32) : Decoded :=
  ifClear (areaClear w 10) (opcode32 w) (mk (form32 w) (regLow w) (regMid w))

/-- Format RI with a signed immediate: imm15, or imm9 in the conditional form. -/
def decRI (mk : Form → Reg → Reg → Int → Instr) (w : BitVec 32) : Decoded :=
  .ok (mk (form32 w) (regLow w) (regMid w) (if cexBit w then (field w 10 9).toInt else (field w 10 15).toInt))

/-- Format RI with an unsigned immediate. -/
def decRU (mk : Form → Reg → Reg → Nat → Instr) (w : BitVec 32) : Decoded :=
  .ok (mk (form32 w) (regLow w) (regMid w) (if cexBit w then (field w 10 9).toNat else (field w 10 15).toNat))

/-- Formats RI of ld and RIS of st. -/
def decRM (mk : Form → Reg → Reg → Int → Instr) (w : BitVec 32) : Decoded := decRI mk w

def decSH (mk : Form → Reg → Reg → BitVec 6 → Instr) (w : BitVec 32) : Decoded :=
  ifClear (areaClear w 16) (opcode32 w) (mk (form32 w) (regLow w) (regMid w) (field w 10 6))

def decSX (mk : Form → Reg → Reg → BitVec 5 → Instr) (w : BitVec 32) : Decoded :=
  ifClear (areaClear w 15) (opcode32 w) (mk (form32 w) (regLow w) (regMid w) (field w 10 5))

def decXB (mk : Form → Reg → Reg → BitVec 2 → Instr) (w : BitVec 32) : Decoded :=
  ifClear (areaClear w 12) (opcode32 w) (mk (form32 w) (regLow w) (regMid w) (field w 10 2))

def decXH (mk : Form → Reg → Reg → BitVec 1 → Instr) (w : BitVec 32) : Decoded :=
  ifClear (areaClear w 11) (opcode32 w) (mk (form32 w) (regLow w) (regMid w) (field w 10 1))

def decXF (mk : Reg → Reg → BitVec 6 → BitVec 5 → Instr) (w : BitVec 32) : Decoded :=
  ifPlain w (isZero w 24 21) (mk (regLow w) (regMid w) (field w 15 6) (field w 10 5))

/-- Format D of mulhi. -/
def decD (mk : Form → Reg → Instr) (w : BitVec 32) : Decoded :=
  ifClear (areaClear w 5) (opcode32 w) (mk (form32 w) (regLow w))

/-- Format D of scon. -/
def decDR (mk : Width → Reg → Instr) (w : BitVec 32) : Decoded :=
  ifPlain w (isZero w 24 5) (mk .w32 (regLow w))

/-- Format S of jalr and jmpr. -/
def decS (mk : Form → Reg → Instr) (w : BitVec 32) : Decoded :=
  ifClear (areaClear w 10 && isZero w 4 0) (opcode32 w) (mk (form32 w) (regMid w))

/-- Format S of rcon. -/
def decSR (mk : Width → Reg → Instr) (w : BitVec 32) : Decoded :=
  ifPlain w (isZero w 24 10 && isZero w 4 0) (mk .w32 (regMid w))

def decCF (mk : Form → BitVec 2 → Reg → BitVec 5 → Instr) (w : BitVec 32) : Decoded :=
  ifClear (areaClear w 12) (opcode32 w) (mk (form32 w) (field w 10 2) (regLow w) (regMid w))

def decCT (mk : Form → BitVec 2 → BitVec 5 → Reg → Instr) (w : BitVec 32) : Decoded :=
  ifClear (areaClear w 12) (opcode32 w) (mk (form32 w) (field w 10 2) (regLow w) (regMid w))

/-- Format CO: bit 25 belongs to imm1. -/
def decCO (mk : BitVec 2 → BitVec 24 → Instr) (w : BitVec 32) : Decoded :=
  .ok (mk (field w 24 2) (field w 0 24))

def decB (mk : Width → CReg → Int → Instr) (w : BitVec 32) : Decoded :=
  ifPlain w true (mk .w32 (field w 22 3) (field w 0 22).toInt)

def decJ (mk : Width → Int → Instr) (w : BitVec 32) : Decoded :=
  ifPlain w true (mk .w32 (field w 0 25).toInt)

def decCR (mk : Width → CReg → Reg → Reg → Instr) (w : BitVec 32) : Decoded :=
  ifPlain w (isZero w 21 15 && isZero w 4 0) (mk .w32 (field w 22 3) (regMid w) (regHigh w))

def decCI (mk : Width → CReg → Reg → Int → Instr) (w : BitVec 32) : Decoded :=
  ifPlain w true (mk .w32 (field w 22 3) (regLow w) (field w 5 17).toInt)

/-- Format LI: bit 25 is 0 for lli and 1 for lui. -/
def decLI (w : BitVec 32) : Decoded :=
  ifClear (isZero w 24 21) (opcode32 w)
    (if cexBit w then .lui (regLow w) (field w 5 16) else .lli (regLow w) (field w 5 16))

def decT (mk : Width → BitVec 5 → Instr) (w : BitVec 32) : Decoded :=
  ifPlain w (isZero w 24 5) (mk .w32 (field w 0 5))

def decM2 (mk : Width → BitVec 2 → Instr) (w : BitVec 32) : Decoded :=
  ifPlain w (isZero w 24 2) (mk .w32 (field w 0 2))

def decM6 (mk : Width → BitVec 6 → Instr) (w : BitVec 32) : Decoded :=
  ifPlain w (isZero w 24 6) (mk .w32 (field w 0 6))

/-- Format M1: bit 0 selects between two mnemonics. -/
def decM1 (mk0 mk1 : Width → Instr) (w : BitVec 32) : Decoded :=
  ifPlain w (isZero w 24 1) (if w.getLsbD 0 then mk1 .w32 else mk0 .w32)

/-- Format Z of nop. -/
def decZ (mk : Width → Instr) (w : BitVec 32) : Decoded :=
  ifPlain w (isZero w 24 0) (mk .w32)

/-- Format Z of scall, which may be conditional. -/
def decZC (mk : Form → Instr) (w : BitVec 32) : Decoded :=
  ifClear (areaClear w 0) (opcode32 w) (mk (form32 w))

/-- The instruction a 32-bit word stands for (R146, R148). -/
def decode32 (w : BitVec 32) : Decoded :=
  match (opcode32 w).toNat with
  | 0x00 => decZ .nop w
  | 0x01 => decR3 .add w
  | 0x02 => decRI .addi w
  | 0x03 => decRU .addiu w
  | 0x04 => decR3 .addu w
  | 0x05 => decD .mulhi w
  | 0x06 => decRI .muli w
  | 0x07 => decR3 .muls w
  | 0x08 => decR3 .mulu w
  | 0x09 => decR3 .mulus w
  | 0x0A => decR3 .muls16 w
  | 0x0B => decR3 .mulu16 w
  | 0x0C => decR3 .mulus16 w
  | 0x0D => decR3 .sub w
  | 0x0E => decR3 .subu w
  | 0x0F => decXB .exb w
  | 0x10 => decR3 .exbf w
  | 0x11 => decXF .exbfi w
  | 0x12 => decXH .exh w
  | 0x13 => decLI w
  | 0x14 => decR3 .sext w
  | 0x15 => decSX .sexti w
  | 0x16 => decR3 .conb w
  | 0x17 => decR3 .conh w
  | 0x18 => decR3 .and w
  | 0x19 => decRU .andi w
  | 0x1A => decR2 .not w
  | 0x1B => decR3 .or w
  | 0x1C => decRU .ori w
  | 0x1D => decR3 .xor w
  | 0x1E => decSR .rcon w
  | 0x1F => decDR .scon w
  | 0x20 => decB .bc w
  | 0x21 => decB .begt w
  | 0x22 => decB .belt w
  | 0x23 => decB .beq w
  | 0x24 => decB .bgt w
  | 0x25 => decB .blt w
  | 0x26 => decB .bne w
  | 0x27 => decB .bnc w
  | 0x28 => decJ .jal w
  | 0x29 => decS .jalr w
  | 0x2A => decJ .jmp w
  | 0x2B => decS .jmpr w
  | 0x2C => decCR .cmp w
  | 0x2D => decCI .cmpi w
  | 0x2E => decR3 .sll w
  | 0x2F => decSH .slli w
  | 0x30 => decR3 .sra w
  | 0x31 => decSH .srai w
  | 0x32 => decR3 .srl w
  | 0x33 => decSH .srli w
  | 0x34 => decRM .ld w
  | 0x35 => decRM .st w
  | 0x36 => decR2 .mov w
  | 0x37 => decCO .cop w
  | 0x38 => decCF .movfc w
  | 0x39 => decCT .movtc w
  | 0x3A => decM2 .chrs w
  | 0x3B => decM1 .di .ei w
  | 0x3C => decM6 .swm w
  | 0x3D => decM1 .reti .retu w
  | 0x3E => decZC .scall w
  | 0x3F => decT .trap w
  | _ => .refused (.unassignedBits (opcode32 w))

/-! ## The 16-bit formats of R147 -/

/-- A 3-bit register field names register 24..31 (R160). -/
def reg16 (f : BitVec 3) : Reg := 3#2 ++ f

def lowReg (h : BitVec 16) : Reg := reg16 (field h 0 3)
def midReg (h : BitVec 16) : Reg := reg16 (field h 3 3)

/-- Format R2' of a three-register instruction: dreg = sreg2 = dr, sreg1 = sr (R161). -/
def decR3' (mk : Form → Reg → Reg → Reg → Instr) (h : BitVec 16) : Decoded :=
  ifClear (isZero h 9 6) (opcode16 h) (mk .w16 (lowReg h) (midReg h) (lowReg h))

/-- Format R2' of mov and not. -/
def decR2' (mk : Form → Reg → Reg → Instr) (h : BitVec 16) : Decoded :=
  ifClear (isZero h 9 6) (opcode16 h) (mk .w16 (lowReg h) (midReg h))

/-- Format I7: dreg = sreg1 = dr (R161). -/
def decRI' (mk : Form → Reg → Reg → Int → Instr) (h : BitVec 16) : Decoded :=
  .ok (mk .w16 (lowReg h) (lowReg h) (field h 3 7).toInt)

def decRU' (mk : Form → Reg → Reg → Nat → Instr) (h : BitVec 16) : Decoded :=
  .ok (mk .w16 (lowReg h) (lowReg h) (field h 3 7).toNat)

/-- Formats M' of ld and MS' of st. -/
def decRM' (mk : Form → Reg → Reg → Int → Instr) (h : BitVec 16) : Decoded :=
  .ok (mk .w16 (lowReg h) (midReg h) (field h 6 4).toInt)

def decSH' (mk : Form → Reg → Reg → BitVec 6 → Instr) (h : BitVec 16) : Decoded :=
  ifClear (isZero h 9 9) (opcode16 h) (mk .w16 (lowReg h) (lowReg h) (field h 3 6))

def decSX' (mk : Form → Reg → Reg → BitVec 5 → Instr) (h : BitVec 16) : Decoded :=
  ifClear (isZero h 9 8) (opcode16 h) (mk .w16 (lowReg h) (lowReg h) (field h 3 5))

def decXB' (mk : Form → Reg → Reg → BitVec 2 → Instr) (h : BitVec 16) : Decoded :=
  ifClear (isZero h 9 8) (opcode16 h) (mk .w16 (lowReg h) (midReg h) (field h 6 2))

def decXH' (mk : Form → Reg → Reg → BitVec 1 → Instr) (h : BitVec 16) : Decoded :=
  ifClear (isZero h 9 7) (opcode16 h) (mk .w16 (lowReg h) (midReg h) (field h 6 1))

def decD' (mk : Form → Reg → Instr) (h : BitVec 16) : Decoded :=
  ifClear (isZero h 9 3) (opcode16 h) (mk .w16 (lowReg h))

def decDR' (mk : Width → Reg → Instr) (h : BitVec 16) : Decoded :=
  ifClear (isZero h 9 3) (opcode16 h) (mk .w16 (lowReg h))

def decS' (mk : Form → Reg → Instr) (h : BitVec 16) : Decoded :=
  ifClear (isZero h 9 6 && isZero h 2 0) (opcode16 h) (mk .w16 (midReg h))

def decSR' (mk : Width → Reg → Instr) (h : BitVec 16) : Decoded :=
  ifClear (isZero h 9 6 && isZero h 2 0) (opcode16 h) (mk .w16 (midReg h))

def decCF' (mk : Form → BitVec 2 → Reg → BitVec 5 → Instr) (h : BitVec 16) : Decoded :=
  .ok (mk .w16 (field h 8 2) (lowReg h) (field h 3 5))

def decCT' (mk : Form → BitVec 2 → BitVec 5 → Reg → Instr) (h : BitVec 16) : Decoded :=
  .ok (mk .w16 (field h 8 2) (field h 3 5) (lowReg h))

/-- Format B' of a branch: the condition register is C0 (R162). -/
def decB' (mk : Width → CReg → Int → Instr) (h : BitVec 16) : Decoded :=
  .ok (mk .w16 0 (field h 0 10).toInt)

def decJ' (mk : Width → Int → Instr) (h : BitVec 16) : Decoded := .ok (mk .w16 (field h 0 10).toInt)

/-- Format CR': sr1 = h[5:3], sr2 = h[2:0]. -/
def decCR' (mk : Width → CReg → Reg → Reg → Instr) (h : BitVec 16) : Decoded :=
  ifClear (isZero h 9 6) (opcode16 h) (mk .w16 0 (midReg h) (lowReg h))

def decCI' (mk : Width → CReg → Reg → Int → Instr) (h : BitVec 16) : Decoded :=
  .ok (mk .w16 0 (lowReg h) (field h 3 7).toInt)

def decT' (mk : Width → BitVec 5 → Instr) (h : BitVec 16) : Decoded :=
  ifClear (isZero h 9 5) (opcode16 h) (mk .w16 (field h 0 5))

def decM2' (mk : Width → BitVec 2 → Instr) (h : BitVec 16) : Decoded :=
  ifClear (isZero h 9 2) (opcode16 h) (mk .w16 (field h 0 2))

def decM6' (mk : Width → BitVec 6 → Instr) (h : BitVec 16) : Decoded :=
  ifClear (isZero h 9 6) (opcode16 h) (mk .w16 (field h 0 6))

def decM1' (mk0 mk1 : Width → Instr) (h : BitVec 16) : Decoded :=
  ifClear (isZero h 9 1) (opcode16 h) (if h.getLsbD 0 then mk1 .w16 else mk0 .w16)

def decZ' (mk : Width → Instr) (h : BitVec 16) : Decoded :=
  ifClear (isZero h 9 0) (opcode16 h) (mk .w16)

def decZC' (mk : Form → Instr) (h : BitVec 16) : Decoded :=
  ifClear (isZero h 9 0) (opcode16 h) (mk .w16)

/-- The instruction a 16-bit word stands for (R147, R148); opcodes 11h, 13h and 37h are illegal whatever the other bits. -/
def decode16 (h : BitVec 16) : Decoded :=
  match (opcode16 h).toNat with
  | 0x00 => decZ' .nop h
  | 0x01 => decR3' .add h
  | 0x02 => decRI' .addi h
  | 0x03 => decRU' .addiu h
  | 0x04 => decR3' .addu h
  | 0x05 => decD' .mulhi h
  | 0x06 => decRI' .muli h
  | 0x07 => decR3' .muls h
  | 0x08 => decR3' .mulu h
  | 0x09 => decR3' .mulus h
  | 0x0A => decR3' .muls16 h
  | 0x0B => decR3' .mulu16 h
  | 0x0C => decR3' .mulus16 h
  | 0x0D => decR3' .sub h
  | 0x0E => decR3' .subu h
  | 0x0F => decXB' .exb h
  | 0x10 => decR3' .exbf h
  | 0x11 => .illegal16
  | 0x12 => decXH' .exh h
  | 0x13 => .illegal16
  | 0x14 => decR3' .sext h
  | 0x15 => decSX' .sexti h
  | 0x16 => decR3' .conb h
  | 0x17 => decR3' .conh h
  | 0x18 => decR3' .and h
  | 0x19 => decRU' .andi h
  | 0x1A => decR2' .not h
  | 0x1B => decR3' .or h
  | 0x1C => decRU' .ori h
  | 0x1D => decR3' .xor h
  | 0x1E => decSR' .rcon h
  | 0x1F => decDR' .scon h
  | 0x20 => decB' .bc h
  | 0x21 => decB' .begt h
  | 0x22 => decB' .belt h
  | 0x23 => decB' .beq h
  | 0x24 => decB' .bgt h
  | 0x25 => decB' .blt h
  | 0x26 => decB' .bne h
  | 0x27 => decB' .bnc h
  | 0x28 => decJ' .jal h
  | 0x29 => decS' .jalr h
  | 0x2A => decJ' .jmp h
  | 0x2B => decS' .jmpr h
  | 0x2C => decCR' .cmp h
  | 0x2D => decCI' .cmpi h
  | 0x2E => decR3' .sll h
  | 0x2F => decSH' .slli h
  | 0x30 => decR3' .sra h
  | 0x31 => decSH' .srai h
  | 0x32 => decR3' .srl h
  | 0x33 => decSH' .srli h
  | 0x34 => decRM' .ld h
  | 0x35 => decRM' .st h
  | 0x36 => decR2' .mov h
  | 0x37 => .illegal16
  | 0x38 => decCF' .movfc h
  | 0x39 => decCT' .movtc h
  | 0x3A => decM2' .chrs h
  | 0x3B => decM1' .di .ei h
  | 0x3C => decM6' .swm h
  | 0x3D => decM1' .reti .retu h
  | 0x3E => decZC' .scall h
  | 0x3F => decT' .trap h
  | _ => .refused (.unassignedBits (opcode16 h))

/-- A binary encoding: a decode function per mode (`00_scope.md` R6). -/
structure Enc where
  word : BitVec 32 → Decoded
  half : BitVec 16 → Decoded

/-- ENC, at the spec's default SPEC-ENC (D1 to D5; log 4). -/
def Config.enc : Enc := { word := decode32, half := decode16 }

/-- Decoding the bytes that a fetch gives under an encoding, lowest address first: big-endian (`20_memory.md` R112,
R113). -/
def decodeWith (enc : Enc) : Width → List Byte → Decoded
  | .w32, [b0, b1, b2, b3] => enc.word (b0 ++ b1 ++ b2 ++ b3)
  | .w16, [b0, b1] => enc.half (b0 ++ b1)
  | _, _ => .refused .wrongLength

/-- Decoding with ENC: what the machine does with the bytes it fetches. -/
def decodeBytes (w : Width) (bytes : List Byte) : Decoded := decodeWith Config.enc w bytes

/-- How many bytes an instruction word has (`00_scope.md` R5). -/
def Width.bytes : Width → Nat
  | .w32 => 4
  | .w16 => 2

/-- The bytes of an instruction word as the hardware stores them. -/
def bytesOfWord (w : BitVec 32) : List Byte := [field w 24 8, field w 16 8, field w 8 8, field w 0 8]

def bytesOfHalf (h : BitVec 16) : List Byte := [field h 8 8, field h 0 8]

/-- The instruction the decoder reads from a word of spec/opcode_table.json: 16 bits in 16-bit mode, 32 in 32-bit mode. -/
def decodeTableWord (nbits w : Nat) : Option Instr :=
  let d := if nbits ≤ 16 then decodeBytes .w16 (bytesOfHalf (BitVec.ofNat 16 w))
    else decodeBytes .w32 (bytesOfWord (BitVec.ofNat 32 w))
  match d with
  | .ok i => some i
  | .illegal16 => none
  | .refused _ => none

/-! ## The encoder -/

/-- The word of an instruction. -/
inductive Encoded where
  | word (w : BitVec 32)
  | half (h : BitVec 16)
deriving DecidableEq, Repr

/-- The bytes of an instruction, lowest address first. -/
def encodedBytes : Encoded → List Byte
  | .word w => bytesOfWord w
  | .half h => bytesOfHalf h

/-- Decoding in the mode whose words have the length of this one. -/
def decodeEncoded : Encoded → Decoded
  | .word w => decode32 w
  | .half h => decode16 h

/-- A signed immediate as a word, of which a format takes the low bits. -/
def imm32 (imm : Int) : BitVec 32 := BitVec.ofInt 32 imm

/-- The unconditional form has the fields of the conditional one without `(cond, creg)`. -/
def Width.form : Width → Form
  | .w32 => .w32
  | .w16 => .w16

/-- The 3-bit field of a register 24..31. -/
def low3 (r : Reg) : BitVec 3 := field r 0 3

/-- A 32-bit word from its opcode, form and operand area: 25 bits without a condition, 19 with one. -/
def encForm (op : BitVec 6) (f : Form) (area : BitVec 19) : BitVec 32 :=
  match f with
  | .cex cond creg => op ++ 1#1 ++ creg ++ cond.bits ++ area
  | _ => op ++ 0#1 ++ 0#6 ++ area

def encR3 (op : BitVec 6) (f : Form) (d a b : Reg) : Encoded :=
  match f with
  | .w16 => .half (op ++ 0#4 ++ low3 a ++ low3 d)
  | _ => .word (encForm op f (0#4 ++ b ++ a ++ d))

def encR2 (op : BitVec 6) (f : Form) (d a : Reg) : Encoded :=
  match f with
  | .w16 => .half (op ++ 0#4 ++ low3 a ++ low3 d)
  | _ => .word (encForm op f (0#9 ++ a ++ d))

def encRI (op : BitVec 6) (f : Form) (d a : Reg) (imm : BitVec 32) : Encoded :=
  match f with
  | .w16 => .half (op ++ field imm 0 7 ++ low3 d)
  | .cex cond creg => .word (op ++ 1#1 ++ creg ++ cond.bits ++ field imm 0 9 ++ a ++ d)
  | .w32 => .word (op ++ 0#1 ++ field imm 0 15 ++ a ++ d)

def encRM (op : BitVec 6) (f : Form) (d a : Reg) (imm : BitVec 32) : Encoded :=
  match f with
  | .w16 => .half (op ++ field imm 0 4 ++ low3 a ++ low3 d)
  | .cex cond creg => .word (op ++ 1#1 ++ creg ++ cond.bits ++ field imm 0 9 ++ a ++ d)
  | .w32 => .word (op ++ 0#1 ++ field imm 0 15 ++ a ++ d)

def encSH (op : BitVec 6) (f : Form) (d a : Reg) (imm : BitVec 6) : Encoded :=
  match f with
  | .w16 => .half (op ++ 0#1 ++ imm ++ low3 d)
  | _ => .word (encForm op f (0#3 ++ imm ++ a ++ d))

def encSX (op : BitVec 6) (f : Form) (d a : Reg) (imm : BitVec 5) : Encoded :=
  match f with
  | .w16 => .half (op ++ 0#2 ++ imm ++ low3 d)
  | _ => .word (encForm op f (0#4 ++ imm ++ a ++ d))

def encXB (op : BitVec 6) (f : Form) (d a : Reg) (imm : BitVec 2) : Encoded :=
  match f with
  | .w16 => .half (op ++ 0#2 ++ imm ++ low3 a ++ low3 d)
  | _ => .word (encForm op f (0#7 ++ imm ++ a ++ d))

def encXH (op : BitVec 6) (f : Form) (d a : Reg) (imm : BitVec 1) : Encoded :=
  match f with
  | .w16 => .half (op ++ 0#3 ++ imm ++ low3 a ++ low3 d)
  | _ => .word (encForm op f (0#8 ++ imm ++ a ++ d))

def encD (op : BitVec 6) (f : Form) (d : Reg) : Encoded :=
  match f with
  | .w16 => .half (op ++ 0#7 ++ low3 d)
  | _ => .word (encForm op f (0#14 ++ d))

def encS (op : BitVec 6) (f : Form) (a : Reg) : Encoded :=
  match f with
  | .w16 => .half (op ++ 0#4 ++ low3 a ++ 0#3)
  | _ => .word (encForm op f (0#9 ++ a ++ 0#5))

def encCF (op : BitVec 6) (f : Form) (k : BitVec 2) (c : BitVec 5) (d : Reg) : Encoded :=
  match f with
  | .w16 => .half (op ++ k ++ c ++ low3 d)
  | _ => .word (encForm op f (0#7 ++ k ++ c ++ d))

def encCT (op : BitVec 6) (f : Form) (k : BitVec 2) (a : Reg) (c : BitVec 5) : Encoded :=
  match f with
  | .w16 => .half (op ++ k ++ c ++ low3 a)
  | _ => .word (encForm op f (0#7 ++ k ++ a ++ c))

def encB (op : BitVec 6) (w : Width) (k : CReg) (imm : BitVec 32) : Encoded :=
  match w with
  | .w16 => .half (op ++ field imm 0 10)
  | .w32 => .word (op ++ 0#1 ++ k ++ field imm 0 22)

def encJ (op : BitVec 6) (w : Width) (imm : BitVec 32) : Encoded :=
  match w with
  | .w16 => .half (op ++ field imm 0 10)
  | .w32 => .word (op ++ 0#1 ++ field imm 0 25)

def encCR (op : BitVec 6) (w : Width) (k : CReg) (a b : Reg) : Encoded :=
  match w with
  | .w16 => .half (op ++ 0#4 ++ low3 a ++ low3 b)
  | .w32 => .word (op ++ 0#1 ++ k ++ 0#7 ++ b ++ a ++ 0#5)

def encCI (op : BitVec 6) (w : Width) (k : CReg) (a : Reg) (imm : BitVec 32) : Encoded :=
  match w with
  | .w16 => .half (op ++ field imm 0 7 ++ low3 a)
  | .w32 => .word (op ++ 0#1 ++ k ++ field imm 0 17 ++ a)

/-- Formats T, M2, M6, M1 and Z: an operand of at most six bits, in the lowest. -/
def encM (op : BitVec 6) (w : Width) (imm : BitVec 6) : Encoded :=
  match w with
  | .w16 => .half (op ++ 0#4 ++ imm)
  | .w32 => .word (op ++ 0#20 ++ imm)

def encZ (op : BitVec 6) (f : Form) : Encoded :=
  match f with
  | .w16 => .half (op ++ 0#10)
  | _ => .word (encForm op f 0#19)

/-- The word of an instruction under SPEC-ENC (R146 to R148). -/
def encode : Instr → Encoded
  | .nop w => encM 0x00 w 0
  | .add f d a b => encR3 0x01 f d a b
  | .addi f d a imm => encRI 0x02 f d a (imm32 imm)
  | .addiu f d a imm => encRI 0x03 f d a (BitVec.ofNat 32 imm)
  | .addu f d a b => encR3 0x04 f d a b
  | .mulhi f d => encD 0x05 f d
  | .muli f d a imm => encRI 0x06 f d a (imm32 imm)
  | .muls f d a b => encR3 0x07 f d a b
  | .mulu f d a b => encR3 0x08 f d a b
  | .mulus f d a b => encR3 0x09 f d a b
  | .muls16 f d a b => encR3 0x0A f d a b
  | .mulu16 f d a b => encR3 0x0B f d a b
  | .mulus16 f d a b => encR3 0x0C f d a b
  | .sub f d a b => encR3 0x0D f d a b
  | .subu f d a b => encR3 0x0E f d a b
  | .exb f d a imm => encXB 0x0F f d a imm
  | .exbf f d a b => encR3 0x10 f d a b
  | .exbfi d a len lsb => .word (0x11#6 ++ 0#5 ++ len ++ lsb ++ a ++ d)
  | .exh f d a imm => encXH 0x12 f d a imm
  | .lli d imm => .word (0x13#6 ++ 0#1 ++ 0#4 ++ imm ++ d)
  | .lui d imm => .word (0x13#6 ++ 1#1 ++ 0#4 ++ imm ++ d)
  | .sext f d a b => encR3 0x14 f d a b
  | .sexti f d a imm => encSX 0x15 f d a imm
  | .conb f d a b => encR3 0x16 f d a b
  | .conh f d a b => encR3 0x17 f d a b
  | .and f d a b => encR3 0x18 f d a b
  | .andi f d a imm => encRI 0x19 f d a (BitVec.ofNat 32 imm)
  | .not f d a => encR2 0x1A f d a
  | .or f d a b => encR3 0x1B f d a b
  | .ori f d a imm => encRI 0x1C f d a (BitVec.ofNat 32 imm)
  | .xor f d a b => encR3 0x1D f d a b
  | .rcon w a => encS 0x1E w.form a
  | .scon w d => encD 0x1F w.form d
  | .bc w k imm => encB 0x20 w k (imm32 imm)
  | .begt w k imm => encB 0x21 w k (imm32 imm)
  | .belt w k imm => encB 0x22 w k (imm32 imm)
  | .beq w k imm => encB 0x23 w k (imm32 imm)
  | .bgt w k imm => encB 0x24 w k (imm32 imm)
  | .blt w k imm => encB 0x25 w k (imm32 imm)
  | .bne w k imm => encB 0x26 w k (imm32 imm)
  | .bnc w k imm => encB 0x27 w k (imm32 imm)
  | .jal w imm => encJ 0x28 w (imm32 imm)
  | .jalr f a => encS 0x29 f a
  | .jmp w imm => encJ 0x2A w (imm32 imm)
  | .jmpr f a => encS 0x2B f a
  | .cmp w k a b => encCR 0x2C w k a b
  | .cmpi w k a imm => encCI 0x2D w k a (imm32 imm)
  | .sll f d a b => encR3 0x2E f d a b
  | .slli f d a imm => encSH 0x2F f d a imm
  | .sra f d a b => encR3 0x30 f d a b
  | .srai f d a imm => encSH 0x31 f d a imm
  | .srl f d a b => encR3 0x32 f d a b
  | .srli f d a imm => encSH 0x33 f d a imm
  | .ld f d a imm => encRM 0x34 f d a (imm32 imm)
  | .st f d a imm => encRM 0x35 f d a (imm32 imm)
  | .mov f d a => encR2 0x36 f d a
  | .cop k word => .word (0x37#6 ++ k ++ word)
  | .movfc f k d c => encCF 0x38 f k c d
  | .movtc f k c a => encCT 0x39 f k a c
  | .chrs w imm => encM 0x3A w (imm.setWidth 6)
  | .di w => encM 0x3B w 0
  | .ei w => encM 0x3B w 1
  | .swm w imm => encM 0x3C w imm
  | .reti w => encM 0x3D w 0
  | .retu w => encM 0x3D w 1
  | .scall f => encZ 0x3E f
  | .trap w imm => encM 0x3F w (imm.setWidth 6)

end Sys2Proof
end

