-- ==== Sys2Proof/Config.lean ====
section
/-! DEFINITION. CORE_VER_ID (`00_scope.md` R6) and the free values: constants without a body for what the spec leaves
open; Machine/Platform.lean holds the parameters with a default. `count` is the counter `State.freeCount`, which every step advances (log 8). -/

namespace Sys2Proof

/-- Who uses a CCB register implicitly, that is, not by `ld` (`70_reset_and_hazards.md` R415). -/
inductive CcbUse where
  /-- address decoding and protection of a `ld` or `st` (stage 3) -/
  | dataAccess
  /-- the address mask of an access in the PCB window, which R415 does not list (log 11) -/
  | pcbMask
  /-- `cop` reading COP_CONF (stage 2) -/
  | cop
  /-- the check of a jump target against IMEM_BOUND -/
  | jump
  /-- MEM_CONF in that check, which R415 does not list there (log 11) -/
  | jumpConf
  /-- `scall` reading SYSTEM_ADDR -/
  | scall
  /-- the protection check of an instruction fetch (stage 0) -/
  | fetch
  /-- the same check for the `n`-th mandatory slot of `swm`, `reti`, `retu`, `scall` -/
  | slot (n : Nat)
  /-- exception entry reading EXCEP_ADDR -/
  | exceptionEntry
  /-- `reti` reading the RETI registers -/
  | reti
  /-- the interrupt logic reading masks, priorities, modes and vectors -/
  | interrupt
  /-- a timer reading its registers -/
  | timer
deriving DecidableEq, Repr

/-- `CORE_VER_ID`, "Version dependent" (`10_state.md` R87, D35; log 23). -/
opaque Config.coreVerId : Word

/-- One less than the number of clock cycles that pass in a step (`60_exceptions.md` R375; log 18). -/
opaque Config.extraCycles : (count : Nat) → Nat

/-- For how many boundaries a newly acceptable request is declined (`60_exceptions.md` R352; log 16). -/
opaque Config.acceptDelay : (count : Nat) → Nat

/-- Which of the values a CCB register held inside the guard distance an implicit use sees (R415, D41; log 11). -/
opaque Config.ccbChoice : (count : Nat) → CcbUse → (offset : BitVec 8) → Nat

/-- Which value SPSR bits 31..8 hold after a `scall` that closely follows a write of SPSR (`46_system.md` R296; log 12). -/
opaque Config.spsrChoice : (count : Nat) → Nat

/-- Whether the hardware stack is popped when a data exception meets a `reti` in the pipeline (R334, D55; log 21). -/
opaque Config.retiPopped : (count : Nat) → Bool

/-- What a coprocessor answers to a read (`45_coprocessor.md` R284, D32; log 25). -/
opaque Config.copRead : (count : Nat) → (cop : BitVec 2) → (reg : BitVec 5) → Word

/-- What the peripheral block answers to a read (`20_memory.md` R107, D31; log 26). -/
opaque Config.pcbRead : (count : Nat) → (addr : Word) → Word

/-- What FPU_STATUS reads as (`10_state.md` R86, D36; log 24). -/
opaque Config.fpuStatus : (count : Nat) → Word

/-- The field that `exbf` and `exbfi` give for a length 33..63 (`41_bitfield.md` R220, D16; log 9). -/
opaque Config.longField : (count : Nat) → (v : Word) → (len : BitVec 6) → (lsb : BitVec 5) → Word

end Sys2Proof
end

