-- ==== Sys2Proof/Machine/Platform.lean ====
section
/-! DEFINITION. The parameters of `00_scope.md` R6 that choose a convention, at the spec's defaults. An operation that
depends on one takes it as an argument or branches on it; another platform is another value here. The other parameters
stand elsewhere: ENC in Decode.lean, CORE_VER_ID in Config.lean, BOOT_SEL, BOOT_ADDR and EXT_HANDLER (pins) in State,
COP and PCB as free values, BUS_MASTERS in the schedule of the environment. -/

namespace Sys2Proof

/-- The sense of C after a subtraction or comparison (`40_arithmetic.md` R196). -/
inductive SubCarry where
  /-- the carry out of a + not b + 1 -/
  | carryOut
  /-- the borrow of a - b -/
  | borrow
deriving DecidableEq, Repr

/-- SUB_CARRY (D9; log 6). -/
def Config.subCarry : SubCarry := .carryOut

/-- N after an addition or subtraction that wraps (`40_arithmetic.md` R196). -/
inductive NOnWrap where
  /-- bit 31 of the wrapped result -/
  | bit31
  /-- the sign of the exact signed result -/
  | exactSign
deriving DecidableEq, Repr

/-- N_ON_WRAP (D10; log 6). -/
def Config.nOnWrap : NOnWrap := .bit31

/-- How condition registers are packed (`10_state.md` R85): the bit of Z, N and C, all different, in a 3-bit image, and
whether the images in a word begin with C0 at the low end. -/
structure CrPack where
  z : Fin 3
  n : Fin 3
  c : Fin 3
  c0Low : Bool
deriving DecidableEq, Repr

/-- CR_PACK (D12; log 7). -/
def Config.crPack : CrPack := { z := 2, n := 1, c := 0, c0Low := true }

/-- What one data address names (`20_memory.md` R101). -/
inductive DmemUnit where
  /-- an independent 32-bit cell -/
  | cell
  /-- a byte: an access at `a` touches bytes `a` to `a + 3`, in the platform's byte order -/
  | byte (bigEndian : Bool)
deriving DecidableEq, Repr

/-- DMEM_UNIT (D6; log 1). -/
def Config.dmemUnit : DmemUnit := .cell

/-- IMEM_SHARED: fetches and data accesses reach the same storage (`20_memory.md` R121, D7; log 2). -/
def Config.imemShared : Bool := false

/-- HWSTACK_DEPTH (`10_state.md` R40, D26; log 20). -/
def Config.hwstackDepth : Nat := 12

end Sys2Proof
end

