-- ==== Sys2Proof/Machine/State.lean ====
section
/-! DEFINITION. The whole state of the machine (`10_state.md`), the reasons a step can stop, and the machine after reset
(R95). INVENTORY.md names the rule and the reset value of every field. -/

namespace Sys2Proof.Machine

/-- A condition register (R35). -/
structure Flags where
  z : Bool
  n : Bool
  c : Bool
deriving DecidableEq, Repr

/-- The five implemented bits of PSR (R23). -/
structure Psr where
  /-- bit 4: interrupts enabled -/
  ie : Bool
  /-- bit 3: 32-bit instruction words -/
  il : Bool
  /-- bit 2: SET 2 is written -/
  rswr : Bool
  /-- bit 1: SET 2 is read -/
  rsrd : Bool
  /-- bit 0: user mode -/
  um : Bool
deriving DecidableEq, Repr

/-- An entry of the hardware stack (R40), seen as RETI_ADDR, RETI_PSR and RETI_CR0 (R83 to R85). -/
structure StackEntry where
  addr : Word
  psr : BitVec 8
  cr0 : BitVec 3
deriving DecidableEq, Repr

/-- A CCB write of the last four instructions (R42): the value it replaced, and how many instructions ago it was made
(1: by the instruction just completed). -/
structure CcbWrite where
  offset : BitVec 8
  old : Word
  age : Nat
deriving DecidableEq, Repr

/-- A write of SPSR by one of the last three instructions (`46_system.md` R296). -/
structure SpsrWrite where
  old : Word
  age : Nat
deriving DecidableEq, Repr

/-- Who owns the data bus (`20_memory.md` R122). -/
inductive BusOwner where
  | core | external
deriving DecidableEq, Repr

/-- What the environment may do between two steps (`00_scope.md` R11 (c), (e), (f); log 17). -/
inductive EnvEvent where
  /-- a pulse on the request line of `src`, with the OFFSET of an external handler (`60_exceptions.md` R345) -/
  | request (src : Source) (offset : BitVec 8)
  /-- a pulse on rst_x (`70_reset_and_hazards.md` R400) -/
  | reset
  /-- another master asks for the data bus, or gives it back (`20_memory.md` R122) -/
  | busRequest
  | busRelease
  /-- another master that owns the bus writes a cell of data memory -/
  | masterWrite (a v : Word)
deriving DecidableEq, Repr

/-- What the core drove on an interface to a device (log 25, log 26). -/
inductive BusEvent where
  | copWrite (k : BitVec 2) (r : BitVec 5) (v : Word)
  | copRead (k : BitVec 2) (r : BitVec 5)
  | pcbWrite (a v : Word)
  | pcbRead (a : Word)
  | intAck (src : Source)
  | intDone (src : Source)
deriving DecidableEq, Repr

/-- The CCB registers that are stored (R45); RETI_ADDR, RETI_PSR and RETI_CR0 are the top of the hardware stack,
FPU_STATUS and CORE_VER_ID are not the core's to hold. -/
structure Ccb where
  ccbBase : Word
  pcbBase : Word
  pcbEnd : Word
  pcbAmask : Word
  /-- COP0_INT_VEC .. COP3_INT_VEC, then EXT_INT0_VEC .. EXT_INT7_VEC, by source -/
  intVec : Vector Word 12
  intModeIl : BitVec 12
  intModeUm : BitVec 12
  intMask : BitVec 12
  intServ : BitVec 12
  intPend : BitVec 12
  extIntPri : Word
  copIntPri : BitVec 16
  exceptionCs : BitVec 8
  exceptionPc : Word
  exceptionPsr : BitVec 8
  dmemBoundLo : Word
  dmemBoundHi : Word
  imemBoundLo : Word
  imemBoundHi : Word
  memConf : BitVec 2
  systemAddr : Word
  excepAddr : Word
  busConf : BitVec 12
  copConf : BitVec 28
  tmr0Cnt : Word
  tmr0Max : Word
  tmr1Cnt : Word
  tmr1Max : Word
  tmrConf : Word
deriving DecidableEq, Repr

/-- Everything the spec gives the machine, and four fields of the model's own (the last four). -/
structure State where
  /-- R0..R31 (R21) -/
  set1 : Vector Word 32
  /-- PR0..PR28 (R22) -/
  set2 : Vector Word 29
  /-- PR29 (R23) -/
  psr : Psr
  /-- PR30 (R25) -/
  spsr : Word
  /-- PR31 (R22) -/
  pr31 : Word
  /-- C0..C7 (R35) -/
  cr : Vector Flags 8
  /-- the address of the next instruction (R31) -/
  pc : Word
  /-- the target of a taken transfer whose slot is still to run (R33) -/
  delayedPc : Option Word
  /-- the upper half of the product of the instruction just before, if it was a 32-bit multiplication (R39) -/
  mulHi : Option Word
  /-- the hardware stack, top first (R40) -/
  hwstack : List StackEntry
  /-- what RETI_ADDR, RETI_PSR, RETI_CR0 hold when the hardware stack is empty (R40; log 20) -/
  retiBase : StackEntry
  /-- the sources in service, most recent first (R41) -/
  servOrder : List Source
  ccb : Ccb
  /-- CCB writes that implicit users may not see yet (R42, `70_reset_and_hazards.md` R415) -/
  ccbInflight : List CcbWrite
  /-- SPSR writes that a `scall` may cancel (`46_system.md` R296; log 12) -/
  spsrInflight : List SpsrWrite
  /-- a `di` that changed IE has just completed (R42) -/
  diWindow : Bool
  /-- a branch, jump or 32-bit multiplication has just completed (R42) -/
  intBlock : Bool
  /-- the OFFSET latched per external source, EXT_INT0 first (R42) -/
  extOffset : Vector (BitVec 8) 8
  /-- the hidden divider counts of the timers (R80) -/
  tmr0Div : BitVec 8
  tmr1Div : BitVec 8
  busToken : BusOwner
  /-- the EXT_HANDLER, BOOT_SEL pins and BOOT_ADDR (`00_scope.md` R6; log 28) -/
  extHandler : Bool
  bootSel : Bool
  bootAddr : Word
  /-- instruction memory, bytes (`20_memory.md` R110) -/
  imem : List Host.Cell
  /-- data memory: 32-bit cells by address; with DMEM_UNIT = byte, the words of a 32-bit wide store (`20_memory.md` R101;
  log 1) -/
  dmem : List (Nat × Word)
  /-- the data addresses stored to since reset, on a platform with IMEM_SHARED (`20_memory.md` R121; log 2) -/
  stored : List Word
  /-- what the environment does before each coming step (log 17) -/
  inputs : List (List EnvEvent)
  /-- what the core drove on its device interfaces, newest first -/
  outputs : List BusEvent
  /-- the number of the step, at which free values are taken (log 8) -/
  freeCount : Nat
  /-- the request being declined, and at how many more boundaries (`60_exceptions.md` R352; log 16) -/
  acceptWait : Option (Source × Nat)
deriving DecidableEq, Repr

/-- What the spec calls `undefined(reason)`: "the source gives no meaning; the model must fault or refuse" (`00_scope.md`
R8; log 13). Every one is safe: the model stops where the hardware goes on. -/
inductive Fault where
  /-- `mulhi` not directly after a 32-bit multiplication (`40_arithmetic.md` R199); raised by execMulhi; safe -/
  | mulhiUnpaired
  /-- a transfer, retu, reti, scall or swm in the slot of a taken transfer (`43_compare_branch_jump.md` R246); raised by
  those instructions; safe -/
  | forbiddenInSlot
  /-- the sequential pc passes the top of the address space (`10_state.md` R34); raised by retire and the slots; safe -/
  | pcPastTop
  /-- `swm` with an immediate other than 16 and 32 (`46_system.md` R293); raised by execSwm; safe -/
  | swmReserved
  /-- a mandatory slot of swm, reti, retu, scall that does not hold nop (`46_system.md` R293 to R296); safe -/
  | swmSlotNotNop
  | retiSlotNotNop
  | retuSlotNotNop
  | scallSlotNotNop
  /-- a mandatory slot where the mode may not fetch (`46_system.md` R293); raised by the slot check; safe -/
  | slotNotFetchable
  /-- `reti` with an empty hardware stack (`46_system.md` R294); raised by execReti; safe -/
  | retiEmptyStack
  /-- a thirteenth push on the hardware stack (`60_exceptions.md` R350); raised by interrupt entry; safe -/
  | hwstackOverflow
  /-- a write of CCB_BASE with a non-zero bit in 7..0 (`10_state.md` R46); raised by execSt; safe -/
  | ccbBaseUnaligned
  /-- a fetch of a location stored to since reset, on a platform with IMEM_SHARED (`20_memory.md` R121); raised by the
  fetch and the slot check; safe -/
  | selfModifyingCode
deriving DecidableEq, Repr

/-- Why the model does not run what it fetched. Every one is safe. -/
inductive Refusal where
  /-- an instruction without a meaning yet; raised by exec; safe -/
  | notModelled (mnemonic : String)
  /-- a word that is no instruction under SPEC-ENC (`30_encoding.md` R145, R149; log 14); raised by step; safe -/
  | notAnInstruction (why : NotAnInstruction)
deriving DecidableEq, Repr

/-- The reset column of R45. -/
def Ccb.reset : Ccb where
  ccbBase := 0x00010000#32
  pcbBase := 0x00010100#32
  pcbEnd := 0x000101FF#32
  pcbAmask := 0x000000FF#32
  intVec := Vector.replicate 12 0x00000001#32
  intModeIl := 0xFFF#12
  intModeUm := 0xFFF#12
  intMask := 0#12
  intServ := 0#12
  intPend := 0#12
  extIntPri := 0#32
  copIntPri := 0#16
  exceptionCs := 0#8
  exceptionPc := 0#32
  exceptionPsr := 0#8
  dmemBoundLo := 0#32
  dmemBoundHi := 0xFFFFFFFF#32
  imemBoundLo := 0#32
  imemBoundHi := 0xFFFFFFFF#32
  memConf := 3#2
  systemAddr := 0#32
  excepAddr := 0#32
  busConf := 0xFFF#12
  copConf := 0#28
  tmr0Cnt := 0#32
  tmr0Max := 0#32
  tmr1Cnt := 0#32
  tmr1Max := 0#32
  tmrConf := 0#32

/-- The machine right after reset (R95), with the pins at the spec's defaults (log 28) and empty memories (log 3). -/
def State.reset : State where
  set1 := Vector.replicate 32 0#32
  set2 := Vector.replicate 29 0#32
  psr := { ie := false, il := true, rswr := true, rsrd := true, um := false }
  spsr := 0x00000009#32
  pr31 := 0#32
  cr := Vector.replicate 8 { z := false, n := false, c := false }
  pc := 0#32
  delayedPc := none
  mulHi := none
  hwstack := []
  retiBase := { addr := 0x00000001#32, psr := 0x09#8, cr0 := 0#3 }
  servOrder := []
  ccb := Ccb.reset
  ccbInflight := []
  spsrInflight := []
  diWindow := false
  intBlock := false
  extOffset := Vector.replicate 8 0#8
  tmr0Div := 0#8
  tmr1Div := 0#8
  busToken := .core
  extHandler := false
  bootSel := false
  bootAddr := 0#32
  imem := []
  dmem := []
  stored := []
  inputs := []
  outputs := []
  freeCount := 0
  acceptWait := none

end Sys2Proof.Machine
end

