-- ==== Sys2Proof/Machine/Flags.lean ====
section
/-! DEFINITION. Condition codes and every flag computation of the spec. -/

namespace Sys2Proof.Machine

/-- `CondTrue` on the flags of one condition register (`10_state.md` R37). -/
def condTrue (cond : Cond) (f : Flags) : Bool :=
  match cond with
  | .c => f.c
  | .egt => f.z || !f.n
  | .elt => f.z || f.n
  | .eq => f.z
  | .gt => !f.z && !f.n
  | .lt => !f.z && f.n
  | .ne => !f.z
  | .nc => !f.c

/-- N of a result `r` whose exact signed value is `exact`, by N_ON_WRAP (`40_arithmetic.md` R196; log 6). -/
def negative (p : NOnWrap) (exact : Int) (r : Word) : Bool :=
  match p with
  | .bit31 => r.msb
  | .exactSign => decide (exact < 0)

/-- The flags of an addition (`40_arithmetic.md` R196). -/
def addFlags (a b : Word) : Flags where
  z := a + b == 0
  n := negative Config.nOnWrap (a.toInt + b.toInt) (a + b)
  c := decide (2 ^ 32 ≤ a.toNat + b.toNat)

/-- `SubCarry`, by SUB_CARRY: the carry out of a + not b + 1, or the borrow (`40_arithmetic.md` R196; log 6). -/
def subCarry (p : SubCarry) (a b : Word) : Bool :=
  match p with
  | .carryOut => decide (b.toNat ≤ a.toNat)
  | .borrow => decide (a.toNat < b.toNat)

/-- The flags of a subtraction (`40_arithmetic.md` R196). -/
def subFlags (a b : Word) : Flags where
  z := a - b == 0
  n := negative Config.nOnWrap (a.toInt - b.toInt) (a - b)
  c := subCarry Config.subCarry a b

/-- The flags of `cmp` and `cmpi`: Z and N from the exact signed difference (`43_compare_branch_jump.md` R245). -/
def cmpFlags (a b : Word) : Flags where
  z := decide (a.toInt - b.toInt = 0)
  n := decide (a.toInt - b.toInt < 0)
  c := subCarry Config.subCarry a b

/-- The flags of a left shift by `n` positions: C is bit 32 of the exact product (`42_logic_shift.md` R232). -/
def sllFlags (a : Word) (n : Nat) : Flags where
  z := BitVec.ofNat 32 (a.toNat * 2 ^ n) == 0
  n := (BitVec.ofNat 32 (a.toNat * 2 ^ n)).msb
  c := (a.toNat * 2 ^ n).testBit 32

/-- The flag that a packing has in bit `k` of an image. -/
def Flags.imageBit (p : CrPack) (f : Flags) (k : Fin 3) : Bool :=
  if p.z = k then f.z else if p.n = k then f.n else f.c

/-- The 3-bit image of a condition register in a packing (`10_state.md` R85). -/
def Flags.imageIn (p : CrPack) (f : Flags) : BitVec 3 :=
  BitVec.ofBool (f.imageBit p 2) ++ BitVec.ofBool (f.imageBit p 1) ++ BitVec.ofBool (f.imageBit p 0)

/-- The condition register that an image stands for in a packing. -/
def Flags.ofImageIn (p : CrPack) (b : BitVec 3) : Flags where
  z := b.getLsbD p.z.val
  n := b.getLsbD p.n.val
  c := b.getLsbD p.c.val

/-- The place of condition register `i` among the eight images of a word, counted from the low end. -/
def crPlace (p : CrPack) (i : Fin 8) : Fin 8 := if p.c0Low then i else 7 - i

/-- What `scon` stores in a packing: eight images, bits 31..24 zero (`46_system.md` R299). -/
def packFlagsIn (p : CrPack) (cr : Vector Flags 8) : Word :=
  let image (i : Fin 8) : BitVec 3 := (cr[crPlace p i]).imageIn p
  0#8 ++ image 7 ++ image 6 ++ image 5 ++ image 4 ++ image 3 ++ image 2 ++ image 1 ++ image 0

/-- What `rcon` loads in a packing; bits 31..24 are ignored (`46_system.md` R298). -/
def unpackFlagsIn (p : CrPack) (v : Word) : Vector Flags 8 :=
  Vector.ofFn fun i => Flags.ofImageIn p (v.extractLsb' (3 * (crPlace p i).val) 3)

/-- The image in the packing CR_PACK (log 7). -/
def Flags.image (f : Flags) : BitVec 3 := f.imageIn Config.crPack

/-- The condition register of an image in the packing CR_PACK (log 7). -/
def Flags.ofImage (b : BitVec 3) : Flags := Flags.ofImageIn Config.crPack b

/-- What `scon` stores, in the packing CR_PACK (log 7). -/
def packFlags (cr : Vector Flags 8) : Word := packFlagsIn Config.crPack cr

/-- What `rcon` loads, in the packing CR_PACK (log 7). -/
def unpackFlags (v : Word) : Vector Flags 8 := unpackFlagsIn Config.crPack v

end Sys2Proof.Machine
end

