-- ==== Sys2Proof/Machine/Operands.lean ====
section
/-! DEFINITION. Operands: PSR as a byte, the two register sets, immediates, shift amounts, fields, conditions. -/

namespace Sys2Proof.Machine

/-! ## PSR -/

/-- PSR as the 8-bit value of `10_state.md` R23. -/
def Psr.toByte (p : Psr) : BitVec 8 :=
  0#3 ++ BitVec.ofBool p.ie ++ BitVec.ofBool p.il ++ BitVec.ofBool p.rswr ++ BitVec.ofBool p.rsrd ++ BitVec.ofBool p.um

/-- The five implemented bits of an 8-bit image (`46_system.md` R294). -/
def Psr.ofByte (b : BitVec 8) : Psr where
  ie := b.getLsbD 4
  il := b.getLsbD 3
  rswr := b.getLsbD 2
  rsrd := b.getLsbD 1
  um := b.getLsbD 0

/-- PSR = 0Eh, on entry to super user code (`60_exceptions.md` R330, `46_system.md` R296). -/
def Psr.handler : Psr where
  ie := false
  il := true
  rswr := true
  rsrd := true
  um := false

/-- Bytes of an instruction word in the mode of `p` (`10_state.md` R32). -/
def Psr.ilen (p : Psr) : Nat := if p.il then 4 else 2

/-- `ilen` of the current mode. -/
def State.ilen (s : State) : Nat := s.psr.ilen

/-- The mode of `p` as the decoder's word width. -/
def Psr.width (p : Psr) : Width := if p.il then .w32 else .w16

/-! ## The register sets -/

/-- Register `i` of SET 2 (`two`) or SET 1: index 29 of SET 2 is PSR zero extended, 30 is SPSR, 31 is PR31
(`10_state.md` R20 to R25). -/
def readSet (two : Bool) (i : Reg) (s : State) : Word :=
  if two then
    if h : i.toNat < 29 then s.set2[i.toNat]'h
    else if i.toNat = 29 then s.psr.toByte.setWidth 32
    else if i.toNat = 30 then s.spsr
    else s.pr31
  else s.set1[i.toNat]'i.isLt

/-- Write register `i` of SET 2 (`two`) or SET 1: a write of PSR is ignored, a write of SPSR is remembered for `scall`
(`10_state.md` R24, R25; `46_system.md` R296). -/
def writeSet (two : Bool) (i : Reg) (v : Word) (s : State) : State :=
  if two then
    if h : i.toNat < 29 then { s with set2 := s.set2.set i.toNat v h }
    else if i.toNat = 29 then s
    else if i.toNat = 30 then { s with spsr := v, spsrInflight := { old := s.spsr, age := 0 } :: s.spsrInflight }
    else { s with pr31 := v }
  else { s with set1 := s.set1.set i.toNat v i.isLt }

/-- `x[i]`: read from the set that PSR.RSRD selects (`10_state.md` R26). -/
def readX (i : Reg) (s : State) : Word := readSet s.psr.rsrd i s

/-- `x[i] <- v`: write to the set that PSR.RSWR selects (`10_state.md` R27). -/
def writeX (i : Reg) (v : Word) (s : State) : State := writeSet s.psr.rswr i v s

/-- Register `i` as a write to it would replace it: from the set that PSR.RSWR selects (`41_bitfield.md` R215). -/
def readTarget (i : Reg) (s : State) : Word := readSet s.psr.rswr i s

/-- `CR[0] <- f`. -/
def setC0 (f : Flags) (s : State) : State := { s with cr := s.cr.set 0 f }

/-- `CR[k] <- f`. -/
def setCr (k : CReg) (f : Flags) (s : State) : State := { s with cr := s.cr.set k.toNat f k.isLt }

/-- `CR[k]`. -/
def readCr (k : CReg) (s : State) : Flags := s.cr[k.toNat]'k.isLt

/-! ## Operand forms -/

/-- `sext(imm)` (`00_scope.md` R8). -/
def sext (imm : Int) : Word := BitVec.ofInt 32 imm

/-- `zext(imm)` (`00_scope.md` R8). -/
def zext (imm : Nat) : Word := BitVec.ofNat 32 imm

/-- Whether an instruction in this form executes: `CondTrue(cond, creg)`, or no condition (`30_encoding.md` R163). -/
def executes (f : Form) (s : State) : Bool :=
  match f with
  | .cex cond k => condTrue cond (readCr k s)
  | .w32 => true
  | .w16 => true

/-- `s16(h)`: a halfword read as signed (`40_arithmetic.md` R204). -/
def lowSigned (v : Word) : Int := (v.extractLsb' 0 16).toInt

/-- The lower halfword read as unsigned. -/
def lowUnsigned (v : Word) : Nat := (v.extractLsb' 0 16).toNat

/-- The effective shift amount min(k, 32) of a 6-bit amount (`42_logic_shift.md` R231; log 10). -/
def shiftAmount (k : BitVec 6) : Nat := min k.toNat 32

/-- The six bits of a register that hold a shift amount (`42_logic_shift.md` R231). -/
def amountBits (v : Word) : BitVec 6 := v.extractLsb' 0 6

/-- floor(s(a) / 2^n) (`42_logic_shift.md` R234; log 38). -/
def shiftRightArith (a : Word) (n : Nat) : Word := BitVec.ofInt 32 (a.toInt / (2 : Int) ^ n)

/-- floor(u(a) / 2^n) (`42_logic_shift.md` R236). -/
def shiftRightLogic (a : Word) (n : Nat) : Word := BitVec.ofNat 32 (a.toNat / 2 ^ n)

/-- trunc32(u(a) * 2^n) (`42_logic_shift.md` R232). -/
def shiftLeft (a : Word) (n : Nat) : Word := BitVec.ofNat 32 (a.toNat * 2 ^ n)

/-- `ExtractField`: a length above 32 gives a free value (`41_bitfield.md` R220; log 9). -/
def extractField (count : Nat) (v : Word) (len : BitVec 6) (lsb : BitVec 5) : Word :=
  if len.toNat ≤ 32 then BitVec.ofNat 32 (v.toNat / 2 ^ lsb.toNat % 2 ^ len.toNat)
  else Config.longField count v len lsb

/-- `SignExtendAt` (`41_bitfield.md` R221). -/
def signExtendAt (v : Word) (p : BitVec 5) : Word :=
  BitVec.ofInt 32 ((v.toNat : Int) % (2 : Int) ^ (p.toNat + 1)
    - if v.getLsbD p.toNat then (2 : Int) ^ (p.toNat + 1) else 0)

/-- Byte `k` of a word, zero extended (`41_bitfield.md` R210). -/
def byteOf (v : Word) (k : BitVec 2) : Word := (v.extractLsb' (8 * k.toNat) 8).setWidth 32

/-- Halfword `k` of a word, zero extended (`41_bitfield.md` R213). -/
def halfOf (v : Word) (k : BitVec 1) : Word := (v.extractLsb' (16 * k.toNat) 16).setWidth 32

/-- Whether an exact result leaves the signed 32-bit range (`40_arithmetic.md` R197). -/
def overflows (r : Int) : Bool := decide (r < -(2 : Int) ^ 31 ∨ (2 : Int) ^ 31 - 1 < r)

/-- Bits 31..0 of an exact product as two's complement (`40_arithmetic.md` R198). -/
def lowWord (p : Int) : Word := BitVec.ofInt 32 p

/-- Bits 63..32 of an exact product as two's complement (`40_arithmetic.md` R198). -/
def highWord (p : Int) : Word := BitVec.ofInt 32 (p / (2 : Int) ^ 32)

end Sys2Proof.Machine
end

