-- ==== Sys2Proof/Machine/Ccb.lean ====
section
/-! DEFINITION. The core control block (`10_state.md` R43 to R87): the registers by offset, as `ld` and `st` meet them,
and as the machine itself uses them while a write may still be on its way (`70_reset_and_hazards.md` R415; log 11). -/

namespace Sys2Proof.Machine

/-! ## Offsets (R45) -/

def offCcbBase : BitVec 8 := 0x00#8
def offPcbBase : BitVec 8 := 0x01#8
def offPcbEnd : BitVec 8 := 0x02#8
def offPcbAmask : BitVec 8 := 0x03#8
def offIntModeIl : BitVec 8 := 0x10#8
def offIntModeUm : BitVec 8 := 0x11#8
def offIntMask : BitVec 8 := 0x12#8
def offExtIntPri : BitVec 8 := 0x15#8
def offCopIntPri : BitVec 8 := 0x16#8
def offDmemBoundLo : BitVec 8 := 0x1A#8
def offDmemBoundHi : BitVec 8 := 0x1B#8
def offImemBoundLo : BitVec 8 := 0x1C#8
def offImemBoundHi : BitVec 8 := 0x1D#8
def offMemConf : BitVec 8 := 0x1E#8
def offSystemAddr : BitVec 8 := 0x1F#8
def offExcepAddr : BitVec 8 := 0x20#8
def offCopConf : BitVec 8 := 0x22#8
def offTmr0Cnt : BitVec 8 := 0x23#8
def offTmr0Max : BitVec 8 := 0x24#8
def offTmr1Cnt : BitVec 8 := 0x25#8
def offTmr1Max : BitVec 8 := 0x26#8
def offTmrConf : BitVec 8 := 0x27#8
def offRetiAddr : BitVec 8 := 0x28#8
def offRetiPsr : BitVec 8 := 0x29#8
def offRetiCr0 : BitVec 8 := 0x2A#8

/-- The offset of the vector of source `src` (R49, R50). -/
def offIntVec (src : Source) : BitVec 8 := BitVec.ofNat 8 (4 + src.val)

/-! ## Reading and writing by offset -/

/-- What RETI_ADDR, RETI_PSR and RETI_CR0 show (R40, R83 to R85; log 20). -/
def retiEntry (s : State) : StackEntry := s.hwstack.headD s.retiBase

/-- Replace what RETI_ADDR, RETI_PSR and RETI_CR0 show. -/
def setRetiEntry (e : StackEntry) (s : State) : State :=
  match s.hwstack with
  | [] => { s with retiBase := e }
  | _ :: rest => { s with hwstack := e :: rest }

/-- What `ld` reads at an offset: narrow registers zero extended (R44), CORE_VER_ID at unused offsets (R87), a free
value for FPU_STATUS (R86; log 24). -/
def ccbRead (off : BitVec 8) (s : State) : Word :=
  if h : 4 ≤ off.toNat ∧ off.toNat < 16 then s.ccb.intVec[off.toNat - 4]
  else
    match off.toNat with
    | 0x00 => s.ccb.ccbBase
    | 0x01 => s.ccb.pcbBase
    | 0x02 => s.ccb.pcbEnd
    | 0x03 => s.ccb.pcbAmask
    | 0x10 => s.ccb.intModeIl.setWidth 32
    | 0x11 => s.ccb.intModeUm.setWidth 32
    | 0x12 => s.ccb.intMask.setWidth 32
    | 0x13 => s.ccb.intServ.setWidth 32
    | 0x14 => s.ccb.intPend.setWidth 32
    | 0x15 => s.ccb.extIntPri
    | 0x16 => s.ccb.copIntPri.setWidth 32
    | 0x17 => s.ccb.exceptionCs.setWidth 32
    | 0x18 => s.ccb.exceptionPc
    | 0x19 => s.ccb.exceptionPsr.setWidth 32
    | 0x1A => s.ccb.dmemBoundLo
    | 0x1B => s.ccb.dmemBoundHi
    | 0x1C => s.ccb.imemBoundLo
    | 0x1D => s.ccb.imemBoundHi
    | 0x1E => s.ccb.memConf.setWidth 32
    | 0x1F => s.ccb.systemAddr
    | 0x20 => s.ccb.excepAddr
    | 0x21 => s.ccb.busConf.setWidth 32
    | 0x22 => s.ccb.copConf.setWidth 32
    | 0x23 => s.ccb.tmr0Cnt
    | 0x24 => s.ccb.tmr0Max
    | 0x25 => s.ccb.tmr1Cnt
    | 0x26 => s.ccb.tmr1Max
    | 0x27 => s.ccb.tmrConf
    | 0x28 => (retiEntry s).addr
    | 0x29 => (retiEntry s).psr.setWidth 32
    | 0x2A => (retiEntry s).cr0.setWidth 32
    | 0x2B => Config.fpuStatus s.freeCount
    | _ => Config.coreVerId

/-- The register at an offset replaced: bits above its width are dropped (R44), read-only registers and unused offsets
are left alone (R45; log 23). -/
def ccbSet (off : BitVec 8) (v : Word) (s : State) : State :=
  if h : 4 ≤ off.toNat ∧ off.toNat < 16 then
    { s with ccb := { s.ccb with intVec := s.ccb.intVec.set (off.toNat - 4) v } }
  else
    match off.toNat with
    | 0x00 => { s with ccb := { s.ccb with ccbBase := v } }
    | 0x01 => { s with ccb := { s.ccb with pcbBase := v } }
    | 0x02 => { s with ccb := { s.ccb with pcbEnd := v } }
    | 0x03 => { s with ccb := { s.ccb with pcbAmask := v } }
    | 0x10 => { s with ccb := { s.ccb with intModeIl := v.setWidth 12 } }
    | 0x11 => { s with ccb := { s.ccb with intModeUm := v.setWidth 12 } }
    | 0x12 => { s with ccb := { s.ccb with intMask := v.setWidth 12 } }
    | 0x15 => { s with ccb := { s.ccb with extIntPri := v } }
    | 0x16 => { s with ccb := { s.ccb with copIntPri := v.setWidth 16 } }
    | 0x1A => { s with ccb := { s.ccb with dmemBoundLo := v } }
    | 0x1B => { s with ccb := { s.ccb with dmemBoundHi := v } }
    | 0x1C => { s with ccb := { s.ccb with imemBoundLo := v } }
    | 0x1D => { s with ccb := { s.ccb with imemBoundHi := v } }
    | 0x1E => { s with ccb := { s.ccb with memConf := v.setWidth 2 } }
    | 0x1F => { s with ccb := { s.ccb with systemAddr := v } }
    | 0x20 => { s with ccb := { s.ccb with excepAddr := v } }
    | 0x21 => { s with ccb := { s.ccb with busConf := v.setWidth 12 } }
    | 0x22 => { s with ccb := { s.ccb with copConf := v.setWidth 28 } }
    | 0x23 => { s with ccb := { s.ccb with tmr0Cnt := v } }
    | 0x24 => { s with ccb := { s.ccb with tmr0Max := v } }
    | 0x25 => { s with ccb := { s.ccb with tmr1Cnt := v } }
    | 0x26 => { s with ccb := { s.ccb with tmr1Max := v } }
    | 0x27 => { s with ccb := { s.ccb with tmrConf := v } }
    | 0x28 => setRetiEntry { retiEntry s with addr := v } s
    | 0x29 => setRetiEntry { retiEntry s with psr := v.setWidth 8 } s
    | 0x2A => setRetiEntry { retiEntry s with cr0 := v.setWidth 3 } s
    | _ => s

/-- Whether a `st` changes the register at an offset: RW in R45. -/
def ccbWritable (off : BitVec 8) : Bool :=
  decide (off.toNat < 0x13) || off.toNat == 0x15 || off.toNat == 0x16
    || decide (0x1A ≤ off.toNat ∧ off.toNat ≤ 0x2A)

/-- A `st` to the register at an offset: at once for later `ld`s, remembered for implicit users (`20_memory.md` R106). -/
def ccbWrite (off : BitVec 8) (v : Word) (s : State) : State :=
  if ccbWritable off then
    { ccbSet off v s with ccbInflight := { offset := off, old := ccbRead off s, age := 0 } :: s.ccbInflight }
  else s

/-! ## Implicit use -/

/-- Guard instructions an implicit use needs (R415), counted to the instruction that is executed: the fetch of its `n`-th
mandatory slot has `n` more before it. Four for a use that the table does not list: PCB_AMASK and the MEM_CONF of a jump's check among them (DESIGN
CHOICE, log 11). -/
def guards : CcbUse → Nat
  | .dataAccess => 1
  | .pcbMask => 4
  | .cop => 2
  | .jump => 3
  | .jumpConf => 4
  | .scall => 3
  | .fetch => 4
  | .slot n => 4 - n
  | .exceptionEntry => 4
  | .reti => 4
  | .interrupt => 4
  | .timer => 4

/-- The use that an instruction check makes of MEM_CONF beside IMEM_BOUND: the row of R415 for jumps lists IMEM_BOUND only,
so a jump's is an unlisted use (DESIGN CHOICE, log 11); at a fetch both take four. -/
def confUse : CcbUse → CcbUse
  | .jump => .jumpConf
  | use => use

/-- The values that a register held before writes which a use with `g` guards may not see yet. -/
def lagging (off : BitVec 8) (g : Nat) (l : List CcbWrite) : List Word :=
  (l.filter fun w => w.offset == off && decide (w.age ≤ g)).map CcbWrite.old

/-- Which of a register's values an implicit use sees: 0 is the current one, `i + 1` the `i`-th of `lagging`. -/
def seenIndex (use : CcbUse) (off : BitVec 8) (s : State) : Nat :=
  match lagging off (guards use) s.ccbInflight with
  | [] => 0
  | _ :: os => Config.ccbChoice s.freeCount use off % (os.length + 2)

/-- The value that an implicit use of a register sees: the current one, or inside the guard distance any of those it
held (R415; log 11). -/
def seen (use : CcbUse) (off : BitVec 8) (s : State) : Word :=
  match seenIndex use off s with
  | 0 => ccbRead off s
  | i + 1 => (lagging off (guards use) s.ccbInflight).getD i (ccbRead off s)

/-- One more instruction has been executed since every write; older writes are settled for every use. -/
def ageCcb (n : Nat) (l : List CcbWrite) : List CcbWrite :=
  (l.map fun w => { w with age := w.age + n }).filter fun w => decide (w.age ≤ 4)

/-- The same for SPSR: `scall` may cancel the writes of the three instructions before it (`46_system.md` R296). -/
def ageSpsr (n : Nat) (l : List SpsrWrite) : List SpsrWrite :=
  (l.map fun w => { w with age := w.age + n }).filter fun w => decide (w.age ≤ 3)

/-- `n` more instructions have been executed. -/
def ageInflight (n : Nat) (s : State) : State :=
  { s with ccbInflight := ageCcb n s.ccbInflight, spsrInflight := ageSpsr n s.spsrInflight }

/-- The RETI registers now show another entry: writes to them are settled. -/
def dropRetiWrites (l : List CcbWrite) : List CcbWrite :=
  l.filter fun w => !decide (0x28 ≤ w.offset.toNat ∧ w.offset.toNat ≤ 0x2A)

/-- `ei` two or more instructions after a write to a vector, mask, mode or priority register sees it (R415). -/
def settleForEi (l : List CcbWrite) : List CcbWrite :=
  l.filter fun w => !(decide (0x04 ≤ w.offset.toNat ∧ w.offset.toNat ≤ 0x16) && decide (2 < w.age))

end Sys2Proof.Machine
end

