-- ==== Sys2Proof/Machine/Memory.lean ====
section
/-! DEFINITION. Both memories: a list of (address, cell) in one canonical form, addresses strictly rising, below 2^32,
and no cell equal to what an unlisted address reads as (log 3). -/

namespace Sys2Proof.Machine

/-- What an unlisted address reads as (log 3). -/
def Memory.unlisted {n : Nat} : BitVec n := 0

/-- The cell at `a`. -/
def Memory.read {n : Nat} : List (Nat × BitVec n) → Nat → BitVec n
  | [], _ => Memory.unlisted
  | (k, v) :: m, a => if k = a then v else Memory.read m a

/-- `m` with a first cell, left out where it would say nothing. -/
def Memory.consCell {n : Nat} (a : Nat) (v : BitVec n) (m : List (Nat × BitVec n)) : List (Nat × BitVec n) :=
  if v = Memory.unlisted then m else (a, v) :: m

/-- `m` with the cell at `a` holding `v`, in canonical form. -/
def Memory.write {n : Nat} : List (Nat × BitVec n) → Nat → BitVec n → List (Nat × BitVec n)
  | [], a, v => Memory.consCell a v []
  | (k, w) :: m, a, v =>
    if a < k then Memory.consCell a v ((k, w) :: m)
    else if a = k then Memory.consCell a v m
    else (k, w) :: Memory.write m a v

/-- Canonical from address `lo` up. -/
def Memory.wfFrom {n : Nat} (lo : Nat) : List (Nat × BitVec n) → Bool
  | [] => true
  | (k, v) :: m => decide (lo ≤ k) && decide (k < 2 ^ 32) && decide (v ≠ Memory.unlisted) && Memory.wfFrom (k + 1) m

/-- The canonical form. -/
def Memory.wf {n : Nat} (m : List (Nat × BitVec n)) : Bool := Memory.wfFrom 0 m

/-! ## Byte lanes: a store of 32-bit words seen as bytes, the most significant byte of a word at its lowest address -/

/-- The byte at byte address `b` of a 32-bit wide store, big-endian as instruction words are (`20_memory.md` R112). -/
def Memory.lane (m : List (Nat × Word)) (b : Word) : Byte :=
  (Memory.read m (b.toNat / 4 * 4)).extractLsb' (8 * (3 - b.toNat % 4)) 8

/-- Byte `k` of the word that holds byte address `b`, with the byte at `b` replaced. -/
def Memory.laneWith (m : List (Nat × Word)) (b : Word) (v : Byte) (k : Nat) : Byte :=
  if k = b.toNat % 4 then v else Memory.lane m (BitVec.ofNat 32 (b.toNat / 4 * 4 + k))

/-- The byte at byte address `b` replaced. -/
def Memory.setLane (m : List (Nat × Word)) (b : Word) (v : Byte) : List (Nat × Word) :=
  Memory.write m (b.toNat / 4 * 4)
    (Memory.laneWith m b v 0 ++ Memory.laneWith m b v 1 ++ Memory.laneWith m b v 2 ++ Memory.laneWith m b v 3)

/-! ## Data memory -/

/-- DMEM[a], by what an address names: a cell, or the four bytes from `a` up, modulo 2^32, in the platform's byte order
(`20_memory.md` R101, R102; log 1). -/
def Memory.readWord (u : DmemUnit) (m : List (Nat × Word)) (a : Word) : Word :=
  match u with
  | .cell => Memory.read m a.toNat
  | .byte true => Memory.lane m a ++ Memory.lane m (a + 1) ++ Memory.lane m (a + 2) ++ Memory.lane m (a + 3)
  | .byte false => Memory.lane m (a + 3) ++ Memory.lane m (a + 2) ++ Memory.lane m (a + 1) ++ Memory.lane m a

/-- DMEM[a] <- v, by what an address names. -/
def Memory.writeWord (u : DmemUnit) (m : List (Nat × Word)) (a v : Word) : List (Nat × Word) :=
  let byte (k : Nat) : Byte := v.extractLsb' (8 * k) 8
  match u with
  | .cell => Memory.write m a.toNat v
  | .byte true =>
    Memory.setLane (Memory.setLane (Memory.setLane (Memory.setLane m a (byte 3)) (a + 1) (byte 2)) (a + 2) (byte 1))
      (a + 3) (byte 0)
  | .byte false =>
    Memory.setLane (Memory.setLane (Memory.setLane (Memory.setLane m a (byte 0)) (a + 1) (byte 1)) (a + 2) (byte 2))
      (a + 3) (byte 3)

/-- DMEM[a] with the platform's DMEM_UNIT. -/
def State.readData (s : State) (a : Word) : Word := Memory.readWord Config.dmemUnit s.dmem a

/-- DMEM[a] <- v with the platform's DMEM_UNIT; remembered where fetches reach the same storage (`20_memory.md` R121). -/
def State.writeData (s : State) (a v : Word) : State :=
  { s with
    dmem := Memory.writeWord Config.dmemUnit s.dmem a v
    stored := if Config.imemShared then a :: s.stored else s.stored }

/-! ## Instruction memory -/

/-- IMEM8[a] (`20_memory.md` R113); with IMEM_SHARED a byte of the data store, whose word at `a` is the instruction word
at `a` (R121; log 2). -/
def State.readCode (s : State) (a : Word) : Byte :=
  if Config.imemShared then Memory.lane s.dmem a else Memory.read s.imem a.toNat

/-- The `n` bytes of instruction memory from `a` up: big-endian order (`20_memory.md` R112). -/
def State.codeBytes (s : State) (a : Word) : Nat → List Byte
  | 0 => []
  | n + 1 => s.readCode a :: s.codeBytes (a + 1) n

/-- Whether a store to data address `a` touches instruction byte `b` of a shared storage. -/
def storeTouches (u : DmemUnit) (a b : Word) : Bool :=
  match u with
  | .cell => decide (a.toNat = b.toNat / 4 * 4)
  | .byte _ => decide ((b - a).toNat < 4)

/-- Whether one of the `n` instruction bytes from `a` up has been stored to since reset: fetching it is undefined
(`20_memory.md` R121). -/
def State.codeModified (s : State) (a : Word) (n : Nat) : Bool :=
  Config.imemShared &&
    (List.range n).any fun k => s.stored.any fun x => storeTouches Config.dmemUnit x (a + BitVec.ofNat 32 k)

end Sys2Proof.Machine
end

