-- ==== Sys2Proof/Machine/Ops.lean ====
section
/-! DEFINITION. The named operations that meanings share: protection, the end of an instruction, taking an exception and
returning, control transfers, data accesses, mandatory slots. -/

namespace Sys2Proof.Machine

/-- What a step or a meaning answers. -/
abbrev Result := Host.Outcome State Fault Refusal

/-! ## Protection (`20_memory.md` R116, R117) -/

/-- `inside` or its negation, by the flag of MEM_CONF. -/
def rangeAllowed (protectInside : Bool) (lo hi a : Word) : Bool :=
  let inside := decide (lo.toNat ≤ a.toNat ∧ a.toNat ≤ hi.toNat)
  if protectInside then !inside else inside

/-- `DataAllowed(a)` (R116). -/
def dataAllowed (a : Word) (s : State) : Bool :=
  rangeAllowed ((seen .dataAccess offMemConf s).getLsbD 1) (seen .dataAccess offDmemBoundLo s)
    (seen .dataAccess offDmemBoundHi s) a

/-- `InstrAllowed(a)` (R117), for the fetch, a slot or a jump; MEM_CONF with the guards that `confUse` says (log 11). -/
def instrAllowed (use : CcbUse) (a : Word) (s : State) : Bool :=
  rangeAllowed ((seen (confUse use) offMemConf s).getLsbD 0) (seen use offImemBoundLo s) (seen use offImemBoundHi s) a

/-! ## The end of an instruction -/

/-- The next pc: a pending target, else pc + ilen, which must stay below 2^32 (`10_state.md` R32 to R34). -/
def nextPc (s : State) : Option Word :=
  match s.delayedPc with
  | some t => some t
  | none => if s.pc.toNat + s.ilen < 2 ^ 32 then some (s.pc + BitVec.ofNat 32 s.ilen) else none

/-- The end of an instruction that leaves these values of `delayed_pc`, `mul_hi` and `int_block` (`00_scope.md` R10 (7)). -/
def retireWith (delayed mulHi : Option Word) (block : Bool) (s : State) : Result :=
  match nextPc s with
  | none => .fault .pcPastTop
  | some p =>
    .next { ageInflight 1 s with pc := p, delayedPc := delayed, mulHi := mulHi, intBlock := block }

/-- The end of an ordinary instruction: it invalidates `mul_hi` and clears `int_block` (`10_state.md` R39, R42). -/
def retire (s : State) : Result := retireWith none none false s

/-- Execution goes on at `a` after an instruction and its slots, `n` instructions together. -/
def continueAt (a : Word) (n : Nat) (s : State) : State :=
  { ageInflight n s with pc := a, delayedPc := none, mulHi := none, intBlock := false }

/-! ## Exceptions (`60_exceptions.md` R321, R330) -/

/-- The exception codes of R321. -/
def codeInstrAddressViolation : BitVec 8 := 0x00#8
def codeIllegalInstruction : BitVec 8 := 0x02#8
def codeMisalignedJump : BitVec 8 := 0x03#8
def codeJumpOverflow : BitVec 8 := 0x04#8
def codeMisalignedInstr : BitVec 8 := 0x05#8
def codeArithmeticOverflow : BitVec 8 := 0x06#8
def codeDataViolation : BitVec 8 := 0x07#8
def codeDataOverflow : BitVec 8 := 0x08#8
def codeIllegalJump : BitVec 8 := 0x09#8

/-- The code of `trap imm` (R327). -/
def codeTrap (imm : BitVec 5) : BitVec 8 := 7#3 ++ imm

/-- Exception entry (R330): nothing else changes. -/
def takeException (code : BitVec 8) (s : State) : State :=
  { s with
    ccb := { s.ccb with exceptionPc := s.pc, exceptionPsr := s.psr.toByte, exceptionCs := code }
    psr := Psr.handler
    delayedPc := none
    mulHi := none
    intBlock := false
    pc := seen .exceptionEntry offExcepAddr s }

/-- An instruction raises an exception: it changes nothing else (R333). -/
def raise (code : BitVec 8) (s : State) : Result := .next (ageInflight 1 (takeException code s))

/-- An instruction that only super user mode may execute (R324, R341 (a)). -/
def superOnly (k : State → Result) (s : State) : Result :=
  if s.psr.um then raise codeIllegalInstruction s else k s

/-- An instruction that only 32-bit mode has (R324). -/
def wideOnly (k : State → Result) (s : State) : Result :=
  if s.psr.il then k s else raise codeIllegalInstruction s

/-- An instruction under its condition: a false one has no effect but the end of the instruction (`30_encoding.md` R163). -/
def guarded (f : Form) (k : State → Result) (s : State) : Result :=
  if executes f s then k s else retire s

/-- An instruction that the slot of a taken transfer may not hold (`43_compare_branch_jump.md` R246; log 15). -/
def notInSlot (k : State → Result) (s : State) : Result :=
  if s.delayedPc.isSome then .fault .forbiddenInSlot else k s

/-! ## Control transfers (`43_compare_branch_jump.md` R246 to R250, R264) -/

/-- The exact target of a PC-relative transfer (R247). -/
def relativeTarget (imm : Int) (s : State) : Int := (s.pc.toNat : Int) + s.ilen + 2 * imm

/-- The exception a taken transfer to `t` raises, if any, in the order of R264. -/
def transferFault (relative : Bool) (t : Int) (s : State) : Option (BitVec 8) :=
  if relative && decide (t < 0 ∨ (2 : Int) ^ 32 - 1 < t) then some codeJumpOverflow
  else if (BitVec.ofInt 32 t).toNat % s.ilen ≠ 0 then some codeMisalignedJump
  else if s.psr.um && !instrAllowed .jump (BitVec.ofInt 32 t) s then some codeIllegalJump
  else none

/-- The link address (`43_compare_branch_jump.md` R259, R260). -/
def linkAddress (s : State) : Word := s.pc + BitVec.ofNat 32 (2 * s.ilen)

/-- A taken transfer to `t`: it raises, or leaves its target for after the slot (R264). -/
def transfer (relative : Bool) (t : Int) (s : State) : Result :=
  match transferFault relative t s with
  | some code => raise code s
  | none => retireWith (some (BitVec.ofInt 32 t)) none true s

/-- A taken transfer that also writes its link, unless it raises (R259, R260; log 30). -/
def transferLink (relative : Bool) (t : Int) (s : State) : Result :=
  match transferFault relative t s with
  | some code => raise code s
  | none => retireWith (some (BitVec.ofInt 32 t)) none true (writeX 31#5 (linkAddress s) s)

/-- A transfer that is not taken: the slot is the next instruction, and no interrupt falls before it (R246, R352 (a)). -/
def notTaken (s : State) : Result := retireWith none none true s

/-- A conditional branch (R251 to R258). -/
def branch (cond : Cond) (k : CReg) (imm : Int) (s : State) : Result :=
  notInSlot (fun s => if condTrue cond (readCr k s) then transfer true (relativeTarget imm s) s else notTaken s) s

/-! ## Data accesses (`20_memory.md` R103 to R107) -/

/-- The exact effective address (R103). -/
def effectiveAddress (base : Reg) (imm : Int) (s : State) : Int := ((readX base s).toNat : Int) + imm

/-- The exception a data access at `ea` raises, if any: violation before overflow (R105). -/
def dataFault (ea : Int) (s : State) : Option (BitVec 8) :=
  if s.psr.um && !dataAllowed (BitVec.ofInt 32 ea) s then some codeDataViolation
  else if ea < 0 ∨ (2 : Int) ^ 32 ≤ ea then some codeDataOverflow
  else none

/-- Where an allowed access goes (R104). -/
inductive Window where
  | ccb (off : BitVec 8)
  /-- the address the device sees (`10_state.md` R48) -/
  | pcb (a : Word)
  | mem
deriving DecidableEq, Repr

/-- CCB, then PCB, then memory (R104; log 27). The bounds are seen as R415 says; its table does not list PCB_AMASK, which
the model takes as an unlisted use, with four guards (DESIGN CHOICE, log 11). -/
def windowOf (a : Word) (s : State) : Window :=
  let base := seen .dataAccess offCcbBase s
  if base.toNat ≤ a.toNat ∧ a.toNat ≤ base.toNat + 255 then .ccb ((a - base).setWidth 8)
  else if (seen .dataAccess offPcbBase s).toNat ≤ a.toNat ∧ a.toNat ≤ (seen .dataAccess offPcbEnd s).toNat then
    .pcb (a &&& seen .pcbMask offPcbAmask s)
  else .mem

/-- `MemRead(a, 4)` after the checks: the value. -/
def memRead (a : Word) (s : State) : Word :=
  match windowOf a s with
  | .ccb off => ccbRead off s
  | .pcb d => Config.pcbRead s.freeCount d
  | .mem => s.readData a

/-- What a read does besides: the device sees it, and the core takes the bus (R107, R122). -/
def readEffect (a : Word) (s : State) : State :=
  match windowOf a s with
  | .ccb _ => s
  | .pcb d => { s with outputs := .pcbRead d :: s.outputs, busToken := .core }
  | .mem => { s with busToken := .core }

/-- `MemWrite(a, 4, v)` after the checks (R104); none where CCB_BASE would lose its alignment (`10_state.md` R46). -/
def memWrite (a v : Word) (s : State) : Option State :=
  match windowOf a s with
  | .ccb off => if off = offCcbBase ∧ v.toNat % 256 ≠ 0 then none else some (ccbWrite off v s)
  | .pcb d => some { s with outputs := .pcbWrite d v :: s.outputs, busToken := .core }
  | .mem => some { s.writeData a v with busToken := .core }

/-- The instruction at pc + ilen is `reti` (`60_exceptions.md` R334); behind the top of the address space there is none
(DESIGN CHOICE, log 21). On a platform with IMEM_SHARED a location stored to since reset may be `reti`, whatever it now
holds: `20_memory.md` R121 has no rule for when the stored word is seen (DESIGN CHOICE, log 21). -/
def retiFollows (s : State) : Bool :=
  let a := s.pc + BitVec.ofNat 32 s.ilen
  decide (s.pc.toNat + s.ilen < 2 ^ 32) &&
  (s.codeModified a s.ilen ||
    match decodeBytes s.psr.width (s.codeBytes a s.ilen) with
    | .ok (.reti _) => true
    | _ => false)

/-- The hardware stack without its top: the RETI registers now show another entry, so writes to the old one that are
still in flight are forgotten (DESIGN CHOICE, log 11). -/
def popStack (s : State) : State :=
  { s with hwstack := s.hwstack.tail, ccbInflight := dropRetiWrites s.ccbInflight }

/-- A `ld` or `st` raises: with `reti` behind it the hardware stack may have been popped (R334; log 21). What becomes of
writes to the RETI registers in flight R334 does not say: they are forgotten by a pop (DESIGN CHOICE, log 11). An empty
stack, a pop of which R40 of `10_state.md` leaves undefined, is unchanged, the other outcome that R334 allows (DESIGN
CHOICE, log 21). -/
def raiseData (code : BitVec 8) (s : State) : Result :=
  if retiFollows s && !s.hwstack.isEmpty then
    if Config.retiPopped s.freeCount then raise code (popStack s) else raise code s
  else raise code s

/-! ## Mandatory slots (`46_system.md` R293 to R296) -/

/-- The instruction word at `a` in width `w` is `nop`. -/
def isNopAt (w : Width) (a : Word) (s : State) : Bool :=
  decodeBytes w (s.codeBytes a w.bytes) = .ok (.nop w)

/-- What is wrong with the `n`-th slot, at address `a`: past the top, not where the mode may fetch, modified code, or not
`nop` (log 32). -/
def slotFault (why : Fault) (n : Nat) (w : Width) (a : Nat) (s : State) : Option Fault :=
  if 2 ^ 32 ≤ a then some .pcPastTop
  else if s.psr.um && !instrAllowed (.slot n) (BitVec.ofNat 32 a) s then some .slotNotFetchable
  else if s.codeModified (BitVec.ofNat 32 a) w.bytes then some .selfModifyingCode
  else if isNopAt w (BitVec.ofNat 32 a) s then none
  else some why

/-- The first fault of the slots `first`, `first + 1`, … (`n` of them) behind the instruction at pc, in its mode. -/
def slotsFault (why : Fault) : (n first : Nat) → State → Option Fault
  | 0, _, _ => none
  | n + 1, first, s =>
    match slotFault why first s.psr.width (s.pc.toNat + first * s.ilen) s with
    | some f => some f
    | none => slotsFault why n (first + 1) s

/-! ## Returning, and the system call -/

/-- `reti` on a stack that is not empty (`46_system.md` R294): the INT_SERV bit of the head of `serv_order` is cleared. -/
def returnFromInterrupt (s : State) : State :=
  let addr := seen .reti offRetiAddr s
  let image := (seen .reti offRetiPsr s).setWidth 8
  let cr0 := (seen .reti offRetiCr0 s).setWidth 3
  let served := s.servOrder.head?
  let serv := match served with
    | some src => s.ccb.intServ &&& ~~~(BitVec.twoPow 12 src.val)
    | none => s.ccb.intServ
  let outs := match served with
    | some src => if 4 ≤ src.val then .intDone src :: s.outputs else s.outputs
    | none => s.outputs
  continueAt addr 4
    { popStack s with
      servOrder := s.servOrder.tail
      ccb := { s.ccb with intServ := serv }
      outputs := outs
      cr := s.cr.set 0 (Flags.ofImage cr0)
      psr := Psr.ofByte image }

/-- `retu` in super user mode (`46_system.md` R295): IE and IL from SPSR, user mode, SET 1. -/
def returnToUser (s : State) : State :=
  continueAt s.pr31 2
    { s with
      psr := { ie := s.spsr.getLsbD 4, il := s.spsr.getLsbD 3, rswr := false, rsrd := false, um := true } }

/-- SPSR as `scall` finds it: with a write among the three instructions before, old or new (R296; log 12). -/
def spsrAtScall (s : State) : Word :=
  match s.spsrInflight with
  | [] => s.spsr
  | w :: ws =>
    (s.spsr :: w.old :: ws.map SpsrWrite.old).getD (Config.spsrChoice s.freeCount % (ws.length + 2)) s.spsr

/-- `scall` (R296): PSR to SPSR bits 7..0, the address after the slot to PR31, the handler's PSR. -/
def systemCall (s : State) : State :=
  continueAt (seen .scall offSystemAddr s) 2
    { s with
      spsr := (spsrAtScall s).extractLsb' 8 24 ++ s.psr.toByte
      pr31 := linkAddress s
      psr := Psr.handler }

end Sys2Proof.Machine
end

