-- ==== Sys2Proof/Machine/Arithmetic.lean ====
section
/-! DEFINITION. Addition and subtraction (`40_arithmetic.md` R190 to R197), multiplication (R198 to R206). -/

namespace Sys2Proof.Machine

/-- A result to `dreg` and flags to C0, then on to the next instruction. -/
def writeFlagged (dreg : Reg) (v : Word) (fl : Flags) (s : State) : Result := retire (setC0 fl (writeX dreg v s))

/-- A result to `dreg`, then on to the next instruction. -/
def writeResult (dreg : Reg) (v : Word) (s : State) : Result := retire (writeX dreg v s)

/-- An addition that checks for overflow (R190, R191, R197). -/
def addChecked (dreg : Reg) (a b : Word) (s : State) : Result :=
  if overflows (a.toInt + b.toInt) then raise codeArithmeticOverflow s else writeFlagged dreg (a + b) (addFlags a b) s

/-- A subtraction that checks for overflow (R194, R197). -/
def subChecked (dreg : Reg) (a b : Word) (s : State) : Result :=
  if overflows (a.toInt - b.toInt) then raise codeArithmeticOverflow s else writeFlagged dreg (a - b) (subFlags a b) s

/-- A 32-bit multiplication with the exact product `p`: the lower half to `dreg`, the upper half to `mul_hi` (R198). -/
def multiply (dreg : Reg) (p : Int) (s : State) : Result :=
  retireWith none (some (highWord p)) true (writeX dreg (lowWord p) s)

/-- `add` (R190). -/
def execAdd (f : Form) (dreg sreg1 sreg2 : Reg) (s : State) : Result :=
  guarded f (fun s => addChecked dreg (readX sreg1 s) (readX sreg2 s) s) s

/-- `addi` (R191). -/
def execAddi (f : Form) (dreg sreg1 : Reg) (imm : Int) (s : State) : Result :=
  guarded f (fun s => addChecked dreg (readX sreg1 s) (sext imm) s) s

/-- `addiu` (R192). -/
def execAddiu (f : Form) (dreg sreg1 : Reg) (imm : Nat) (s : State) : Result :=
  guarded f (fun s => writeFlagged dreg (readX sreg1 s + zext imm) (addFlags (readX sreg1 s) (zext imm)) s) s

/-- `addu` (R193). -/
def execAddu (f : Form) (dreg sreg1 sreg2 : Reg) (s : State) : Result :=
  guarded f (fun s => writeFlagged dreg (readX sreg1 s + readX sreg2 s) (addFlags (readX sreg1 s) (readX sreg2 s)) s) s

/-- `sub` (R194). -/
def execSub (f : Form) (dreg sreg1 sreg2 : Reg) (s : State) : Result :=
  guarded f (fun s => subChecked dreg (readX sreg1 s) (readX sreg2 s) s) s

/-- `subu` (R195). -/
def execSubu (f : Form) (dreg sreg1 sreg2 : Reg) (s : State) : Result :=
  guarded f (fun s => writeFlagged dreg (readX sreg1 s - readX sreg2 s) (subFlags (readX sreg1 s) (readX sreg2 s)) s) s

/-- `mulhi` (R199). -/
def execMulhi (f : Form) (dreg : Reg) (s : State) : Result :=
  guarded f (fun s =>
    match s.mulHi with
    | some v => writeResult dreg v s
    | none => .fault .mulhiUnpaired) s

/-- `muli` (R200). -/
def execMuli (f : Form) (dreg sreg1 : Reg) (imm : Int) (s : State) : Result :=
  guarded f (fun s => multiply dreg ((readX sreg1 s).toInt * (sext imm).toInt) s) s

/-- `muls` (R201). -/
def execMuls (f : Form) (dreg sreg1 sreg2 : Reg) (s : State) : Result :=
  guarded f (fun s => multiply dreg ((readX sreg1 s).toInt * (readX sreg2 s).toInt) s) s

/-- `mulu` (R202). -/
def execMulu (f : Form) (dreg sreg1 sreg2 : Reg) (s : State) : Result :=
  guarded f (fun s => multiply dreg ((readX sreg1 s).toNat * (readX sreg2 s).toNat : Nat) s) s

/-- `mulus`: `sreg1` unsigned, `sreg2` signed (R203). -/
def execMulus (f : Form) (dreg sreg1 sreg2 : Reg) (s : State) : Result :=
  guarded f (fun s => multiply dreg (((readX sreg1 s).toNat : Int) * (readX sreg2 s).toInt) s) s

/-- `muls_16` (R204). -/
def execMuls16 (f : Form) (dreg sreg1 sreg2 : Reg) (s : State) : Result :=
  guarded f (fun s => writeResult dreg (lowWord (lowSigned (readX sreg1 s) * lowSigned (readX sreg2 s))) s) s

/-- `mulu_16` (R205). -/
def execMulu16 (f : Form) (dreg sreg1 sreg2 : Reg) (s : State) : Result :=
  guarded f (fun s => writeResult dreg (lowWord (lowUnsigned (readX sreg1 s) * lowUnsigned (readX sreg2 s) : Nat)) s) s

/-- `mulus_16`: `sreg1` unsigned, `sreg2` signed (R206). -/
def execMulus16 (f : Form) (dreg sreg1 sreg2 : Reg) (s : State) : Result :=
  guarded f (fun s => writeResult dreg (lowWord (lowUnsigned (readX sreg1 s) * lowSigned (readX sreg2 s))) s) s

end Sys2Proof.Machine
end

