-- ==== Sys2Proof/Machine/BitField.lean ====
section
/-! DEFINITION. Byte, halfword and bit-field instructions (`41_bitfield.md`). -/

namespace Sys2Proof.Machine

/-- `exb` (R210). -/
def execExb (f : Form) (dreg sreg : Reg) (imm : BitVec 2) (s : State) : Result :=
  guarded f (fun s => writeResult dreg (byteOf (readX sreg s) imm) s) s

/-- `exbf`: length in bits 10..5 of `sreg2`, position in bits 4..0 (R211). -/
def execExbf (f : Form) (dreg sreg1 sreg2 : Reg) (s : State) : Result :=
  guarded f (fun s =>
    writeResult dreg
      (extractField s.freeCount (readX sreg1 s) ((readX sreg2 s).extractLsb' 5 6) ((readX sreg2 s).extractLsb' 0 5)) s) s

/-- `exbfi`, 32-bit mode only (R212). -/
def execExbfi (dreg sreg1 : Reg) (len : BitVec 6) (lsb : BitVec 5) (s : State) : Result :=
  wideOnly (fun s => writeResult dreg (extractField s.freeCount (readX sreg1 s) len lsb) s) s

/-- `exh` (R213). -/
def execExh (f : Form) (dreg sreg1 : Reg) (imm : BitVec 1) (s : State) : Result :=
  guarded f (fun s => writeResult dreg (halfOf (readX sreg1 s) imm) s) s

/-- `lli`, 32-bit mode only (R214). -/
def execLli (dreg : Reg) (imm : BitVec 16) (s : State) : Result :=
  wideOnly (fun s => writeResult dreg (0#16 ++ imm) s) s

/-- `lui`, 32-bit mode only: the lower half is kept (R215). -/
def execLui (dreg : Reg) (imm : BitVec 16) (s : State) : Result :=
  wideOnly (fun s => writeResult dreg (imm ++ (readTarget dreg s).extractLsb' 0 16) s) s

/-- `sext` (R216). -/
def execSext (f : Form) (dreg sreg1 sreg2 : Reg) (s : State) : Result :=
  guarded f (fun s => writeResult dreg (signExtendAt (readX sreg1 s) ((readX sreg2 s).extractLsb' 0 5)) s) s

/-- `sexti` (R217). -/
def execSexti (f : Form) (dreg sreg : Reg) (imm : BitVec 5) (s : State) : Result :=
  guarded f (fun s => writeResult dreg (signExtendAt (readX sreg s) imm) s) s

/-- `conb` (R218). -/
def execConb (f : Form) (dreg sreg1 sreg2 : Reg) (s : State) : Result :=
  guarded f (fun s =>
    writeResult dreg (0#16 ++ (readX sreg1 s).extractLsb' 0 8 ++ (readX sreg2 s).extractLsb' 0 8) s) s

/-- `conh`: `sreg2` gives the upper half (R219). -/
def execConh (f : Form) (dreg sreg1 sreg2 : Reg) (s : State) : Result :=
  guarded f (fun s => writeResult dreg ((readX sreg2 s).extractLsb' 0 16 ++ (readX sreg1 s).extractLsb' 0 16) s) s

end Sys2Proof.Machine
end

