-- ==== Sys2Proof/Machine/Branch.lean ====
section
/-! DEFINITION. Comparison, conditional branches and jumps (`43_compare_branch_jump.md`). -/

namespace Sys2Proof.Machine

/-- `cmp` (R245). -/
def execCmp (_w : Width) (creg : CReg) (sreg1 sreg2 : Reg) (s : State) : Result :=
  retire (setCr creg (cmpFlags (readX sreg1 s) (readX sreg2 s)) s)

/-- `cmpi` (R263). -/
def execCmpi (_w : Width) (creg : CReg) (sreg1 : Reg) (imm : Int) (s : State) : Result :=
  retire (setCr creg (cmpFlags (readX sreg1 s) (sext imm)) s)

/-- `bc` (R251). -/
def execBc (_w : Width) (creg : CReg) (imm : Int) (s : State) : Result := branch .c creg imm s

/-- `begt` (R252). -/
def execBegt (_w : Width) (creg : CReg) (imm : Int) (s : State) : Result := branch .egt creg imm s

/-- `belt` (R253). -/
def execBelt (_w : Width) (creg : CReg) (imm : Int) (s : State) : Result := branch .elt creg imm s

/-- `beq` (R254). -/
def execBeq (_w : Width) (creg : CReg) (imm : Int) (s : State) : Result := branch .eq creg imm s

/-- `bgt` (R255). -/
def execBgt (_w : Width) (creg : CReg) (imm : Int) (s : State) : Result := branch .gt creg imm s

/-- `blt` (R256). -/
def execBlt (_w : Width) (creg : CReg) (imm : Int) (s : State) : Result := branch .lt creg imm s

/-- `bne` (R258). -/
def execBne (_w : Width) (creg : CReg) (imm : Int) (s : State) : Result := branch .ne creg imm s

/-- `bnc` (R257). -/
def execBnc (_w : Width) (creg : CReg) (imm : Int) (s : State) : Result := branch .nc creg imm s

/-- `jal` (R259). -/
def execJal (_w : Width) (imm : Int) (s : State) : Result :=
  notInSlot (fun s => transferLink true (relativeTarget imm s) s) s

/-- `jalr`: the target is read before the link is written (R260); a false condition is a transfer not taken (log 15). -/
def execJalr (f : Form) (sreg1 : Reg) (s : State) : Result :=
  if executes f s then notInSlot (fun s => transferLink false (readX sreg1 s).toNat s) s else notTaken s

/-- `jmp` (R261). -/
def execJmp (_w : Width) (imm : Int) (s : State) : Result :=
  notInSlot (fun s => transfer true (relativeTarget imm s) s) s

/-- `jmpr` (R262). -/
def execJmpr (f : Form) (sreg1 : Reg) (s : State) : Result :=
  if executes f s then notInSlot (fun s => transfer false (readX sreg1 s).toNat s) s else notTaken s

end Sys2Proof.Machine
end

