-- ==== Sys2Proof/Machine/Coprocessor.lean ====
section
/-! DEFINITION. Coprocessor instructions (`45_coprocessor.md`): the device is outside the core (R284; log 25). -/

namespace Sys2Proof.Machine

/-- `C<k>_IR`, bits 5k+4..5k of COP_CONF (`10_state.md` R67). -/
def copInstrReg (conf : Word) (k : BitVec 2) : BitVec 5 := conf.extractLsb' (5 * k.toNat) 5

/-- `COP[k].write(r, v)`. -/
def copWrite (k : BitVec 2) (r : BitVec 5) (v : Word) (s : State) : State :=
  { s with outputs := .copWrite k r v :: s.outputs }

/-- `COP[k].read(r)`, the access. -/
def copAccess (k : BitVec 2) (r : BitVec 5) (s : State) : State := { s with outputs := .copRead k r :: s.outputs }

/-- `cop`, 32-bit mode only (R280). -/
def execCop (k : BitVec 2) (word : BitVec 24) (s : State) : Result :=
  wideOnly (fun s => retire (copWrite k (copInstrReg (seen .cop offCopConf s) k) (word.setWidth 32) s)) s

/-- `movfc` (R281). -/
def execMovfc (f : Form) (k : BitVec 2) (dreg : Reg) (cpSreg : BitVec 5) (s : State) : Result :=
  guarded f (fun s => writeResult dreg (Config.copRead s.freeCount k cpSreg) (copAccess k cpSreg s)) s

/-- `movtc` (R282). -/
def execMovtc (f : Form) (k : BitVec 2) (cpDreg : BitVec 5) (sreg1 : Reg) (s : State) : Result :=
  guarded f (fun s => retire (copWrite k cpDreg (readX sreg1 s) s)) s

end Sys2Proof.Machine
end

