-- ==== Sys2Proof/Machine/LoadStore.lean ====
section
/-! DEFINITION. Load, store and register move (`44_load_store_move.md`). -/

namespace Sys2Proof.Machine

/-- `ld` (R270). -/
def execLd (f : Form) (dreg sreg1 : Reg) (imm : Int) (s : State) : Result :=
  guarded f (fun s =>
    let ea := effectiveAddress sreg1 imm s
    match dataFault ea s with
    | some code => raiseData code s
    | none => writeResult dreg (memRead (BitVec.ofInt 32 ea) s) (readEffect (BitVec.ofInt 32 ea) s)) s

/-- `st`: `sreg2` is the data register (R271). -/
def execSt (f : Form) (sreg2 sreg1 : Reg) (imm : Int) (s : State) : Result :=
  guarded f (fun s =>
    let ea := effectiveAddress sreg1 imm s
    match dataFault ea s with
    | some code => raiseData code s
    | none =>
      match memWrite (BitVec.ofInt 32 ea) (readX sreg2 s) s with
      | some t => retire t
      | none => .fault .ccbBaseUnaligned) s

/-- `mov` (R272). -/
def execMov (f : Form) (dreg sreg1 : Reg) (s : State) : Result :=
  guarded f (fun s => writeResult dreg (readX sreg1 s) s) s

end Sys2Proof.Machine
end

