-- ==== Sys2Proof/Machine/LogicShift.lean ====
section
/-! DEFINITION. Boolean and shift instructions (`42_logic_shift.md`). -/

namespace Sys2Proof.Machine

/-- `and` (R225). -/
def execAnd (f : Form) (dreg sreg1 sreg2 : Reg) (s : State) : Result :=
  guarded f (fun s => writeResult dreg (readX sreg1 s &&& readX sreg2 s) s) s

/-- `andi` (R226). -/
def execAndi (f : Form) (dreg sreg1 : Reg) (imm : Nat) (s : State) : Result :=
  guarded f (fun s => writeResult dreg (readX sreg1 s &&& zext imm) s) s

/-- `not` (R227). -/
def execNot (f : Form) (dreg sreg1 : Reg) (s : State) : Result :=
  guarded f (fun s => writeResult dreg (~~~(readX sreg1 s)) s) s

/-- `or` (R228). -/
def execOr (f : Form) (dreg sreg1 sreg2 : Reg) (s : State) : Result :=
  guarded f (fun s => writeResult dreg (readX sreg1 s ||| readX sreg2 s) s) s

/-- `ori` (R229). -/
def execOri (f : Form) (dreg sreg1 : Reg) (imm : Nat) (s : State) : Result :=
  guarded f (fun s => writeResult dreg (readX sreg1 s ||| zext imm) s) s

/-- `xor` (R230). -/
def execXor (f : Form) (dreg sreg1 sreg2 : Reg) (s : State) : Result :=
  guarded f (fun s => writeResult dreg (readX sreg1 s ^^^ readX sreg2 s) s) s

/-- `sll` (R232). -/
def execSll (f : Form) (dreg sreg1 sreg2 : Reg) (s : State) : Result :=
  guarded f (fun s =>
    let n := shiftAmount (amountBits (readX sreg2 s))
    writeFlagged dreg (shiftLeft (readX sreg1 s) n) (sllFlags (readX sreg1 s) n) s) s

/-- `slli` (R233). -/
def execSlli (f : Form) (dreg sreg1 : Reg) (imm : BitVec 6) (s : State) : Result :=
  guarded f (fun s =>
    writeFlagged dreg (shiftLeft (readX sreg1 s) (shiftAmount imm)) (sllFlags (readX sreg1 s) (shiftAmount imm)) s) s

/-- `sra` (R234). -/
def execSra (f : Form) (dreg sreg1 sreg2 : Reg) (s : State) : Result :=
  guarded f (fun s =>
    writeResult dreg (shiftRightArith (readX sreg1 s) (shiftAmount (amountBits (readX sreg2 s)))) s) s

/-- `srai` (R235). -/
def execSrai (f : Form) (dreg sreg1 : Reg) (imm : BitVec 6) (s : State) : Result :=
  guarded f (fun s => writeResult dreg (shiftRightArith (readX sreg1 s) (shiftAmount imm)) s) s

/-- `srl` (R236). -/
def execSrl (f : Form) (dreg sreg1 sreg2 : Reg) (s : State) : Result :=
  guarded f (fun s =>
    writeResult dreg (shiftRightLogic (readX sreg1 s) (shiftAmount (amountBits (readX sreg2 s)))) s) s

/-- `srli` (R237). -/
def execSrli (f : Form) (dreg sreg1 : Reg) (imm : BitVec 6) (s : State) : Result :=
  guarded f (fun s => writeResult dreg (shiftRightLogic (readX sreg1 s) (shiftAmount imm)) s) s

end Sys2Proof.Machine
end

