-- ==== Sys2Proof/Machine/System.lean ====
section
/-! DEFINITION. Mode changing, system and miscellaneous instructions (`46_system.md`). -/

namespace Sys2Proof.Machine

/-- `nop` (R300). -/
def execNop (_w : Width) (s : State) : Result := retire s

/-- `chrs`, super user only (R290). -/
def execChrs (_w : Width) (imm : BitVec 2) (s : State) : Result :=
  superOnly (fun s => retire { s with psr := { s.psr with rswr := imm.getLsbD 1, rsrd := imm.getLsbD 0 } }) s

/-- `di`, super user only: where it changes IE, one more boundary may take an interrupt (R291, `60_exceptions.md` R352). -/
def execDi (_w : Width) (s : State) : Result :=
  superOnly (fun s => retire { s with psr := { s.psr with ie := false }, diWindow := s.psr.ie }) s

/-- `ei`, super user only (R292). -/
def execEi (_w : Width) (s : State) : Result :=
  superOnly (fun s => retire { s with psr := { s.psr with ie := true }, ccbInflight := settleForEi s.ccbInflight }) s

/-- Slot 2 of `swm` and the address after it (R293). -/
def swmSlot2 (toWide : Bool) (s : State) : Nat × Nat :=
  let n2 := s.pc.toNat + 2 * s.ilen
  if toWide then (n2 / 4 * 4, n2 / 4 * 4 + 4) else (n2, n2 + 2)

/-- `swm` to a mode, with its two slots (R293; log 32). -/
def switchMode (toWide : Bool) (s : State) : Result :=
  match slotFault .swmSlotNotNop 1 s.psr.width (s.pc.toNat + s.ilen) s with
  | some why => .fault why
  | none =>
    match slotFault .swmSlotNotNop 2 (if toWide then .w32 else .w16) (swmSlot2 toWide s).1 s with
    | some why => .fault why
    | none =>
      if 2 ^ 32 ≤ (swmSlot2 toWide s).2 then .fault .pcPastTop
      else .next (continueAt (BitVec.ofNat 32 (swmSlot2 toWide s).2) 3 { s with psr := { s.psr with il := toWide } })

/-- `swm` (R293). -/
def execSwm (_w : Width) (imm : BitVec 6) (s : State) : Result :=
  notInSlot (fun s =>
    if imm.toNat = 16 then switchMode false s
    else if imm.toNat = 32 then switchMode true s
    else .fault .swmReserved) s

/-- `reti` with its three slots (R294). -/
def execReti (_w : Width) (s : State) : Result :=
  notInSlot (fun s =>
    match s.hwstack with
    | [] => .fault .retiEmptyStack
    | _ :: _ =>
      match slotsFault .retiSlotNotNop 3 1 s with
      | some why => .fault why
      | none => .next (returnFromInterrupt s)) s

/-- `retu`, super user only, with its slot (R295). -/
def execRetu (_w : Width) (s : State) : Result :=
  superOnly (notInSlot fun s =>
    match slotsFault .retuSlotNotNop 1 1 s with
    | some why => .fault why
    | none => .next (returnToUser s)) s

/-- `scall` with its slot (R296). -/
def execScall (f : Form) (s : State) : Result :=
  guarded f (notInSlot fun s =>
    match slotsFault .scallSlotNotNop 1 1 s with
    | some why => .fault why
    | none => .next (systemCall s)) s

/-- `trap` (R297). -/
def execTrap (_w : Width) (imm : BitVec 5) (s : State) : Result := raise (codeTrap imm) s

/-- `rcon` (R298). -/
def execRcon (_w : Width) (sreg1 : Reg) (s : State) : Result := retire { s with cr := unpackFlags (readX sreg1 s) }

/-- `scon` (R299). -/
def execScon (_w : Width) (dreg : Reg) (s : State) : Result := writeResult dreg (packFlags s.cr) s

end Sys2Proof.Machine
end

