-- ==== Sys2Proof/Machine/Dispatch.lean ====
section
/-! DEFINITION. The meaning of each instruction, by constructor. -/

namespace Sys2Proof.Machine

def exec (i : Instr) (s : State) : Host.Outcome State Fault Refusal :=
  match i with
  | .nop w => Sys2Proof.Machine.execNop w s
  | .add f dreg sreg1 sreg2 => Sys2Proof.Machine.execAdd f dreg sreg1 sreg2 s
  | .addi f dreg sreg1 imm => Sys2Proof.Machine.execAddi f dreg sreg1 imm s
  | .addiu f dreg sreg1 imm => Sys2Proof.Machine.execAddiu f dreg sreg1 imm s
  | .addu f dreg sreg1 sreg2 => Sys2Proof.Machine.execAddu f dreg sreg1 sreg2 s
  | .mulhi f dreg => Sys2Proof.Machine.execMulhi f dreg s
  | .muli f dreg sreg1 imm => Sys2Proof.Machine.execMuli f dreg sreg1 imm s
  | .muls f dreg sreg1 sreg2 => Sys2Proof.Machine.execMuls f dreg sreg1 sreg2 s
  | .mulu f dreg sreg1 sreg2 => Sys2Proof.Machine.execMulu f dreg sreg1 sreg2 s
  | .mulus f dreg sreg1 sreg2 => Sys2Proof.Machine.execMulus f dreg sreg1 sreg2 s
  | .muls16 f dreg sreg1 sreg2 => Sys2Proof.Machine.execMuls16 f dreg sreg1 sreg2 s
  | .mulu16 f dreg sreg1 sreg2 => Sys2Proof.Machine.execMulu16 f dreg sreg1 sreg2 s
  | .mulus16 f dreg sreg1 sreg2 => Sys2Proof.Machine.execMulus16 f dreg sreg1 sreg2 s
  | .sub f dreg sreg1 sreg2 => Sys2Proof.Machine.execSub f dreg sreg1 sreg2 s
  | .subu f dreg sreg1 sreg2 => Sys2Proof.Machine.execSubu f dreg sreg1 sreg2 s
  | .exb f dreg sreg imm => Sys2Proof.Machine.execExb f dreg sreg imm s
  | .exbf f dreg sreg1 sreg2 => Sys2Proof.Machine.execExbf f dreg sreg1 sreg2 s
  | .exbfi dreg sreg1 len lsb => Sys2Proof.Machine.execExbfi dreg sreg1 len lsb s
  | .exh f dreg sreg1 imm => Sys2Proof.Machine.execExh f dreg sreg1 imm s
  | .lli dreg imm => Sys2Proof.Machine.execLli dreg imm s
  | .lui dreg imm => Sys2Proof.Machine.execLui dreg imm s
  | .sext f dreg sreg1 sreg2 => Sys2Proof.Machine.execSext f dreg sreg1 sreg2 s
  | .sexti f dreg sreg imm => Sys2Proof.Machine.execSexti f dreg sreg imm s
  | .conb f dreg sreg1 sreg2 => Sys2Proof.Machine.execConb f dreg sreg1 sreg2 s
  | .conh f dreg sreg1 sreg2 => Sys2Proof.Machine.execConh f dreg sreg1 sreg2 s
  | .and f dreg sreg1 sreg2 => Sys2Proof.Machine.execAnd f dreg sreg1 sreg2 s
  | .andi f dreg sreg1 imm => Sys2Proof.Machine.execAndi f dreg sreg1 imm s
  | .not f dreg sreg1 => Sys2Proof.Machine.execNot f dreg sreg1 s
  | .or f dreg sreg1 sreg2 => Sys2Proof.Machine.execOr f dreg sreg1 sreg2 s
  | .ori f dreg sreg1 imm => Sys2Proof.Machine.execOri f dreg sreg1 imm s
  | .xor f dreg sreg1 sreg2 => Sys2Proof.Machine.execXor f dreg sreg1 sreg2 s
  | .rcon w sreg1 => Sys2Proof.Machine.execRcon w sreg1 s
  | .scon w dreg => Sys2Proof.Machine.execScon w dreg s
  | .bc w creg imm => Sys2Proof.Machine.execBc w creg imm s
  | .begt w creg imm => Sys2Proof.Machine.execBegt w creg imm s
  | .belt w creg imm => Sys2Proof.Machine.execBelt w creg imm s
  | .beq w creg imm => Sys2Proof.Machine.execBeq w creg imm s
  | .bgt w creg imm => Sys2Proof.Machine.execBgt w creg imm s
  | .blt w creg imm => Sys2Proof.Machine.execBlt w creg imm s
  | .bne w creg imm => Sys2Proof.Machine.execBne w creg imm s
  | .bnc w creg imm => Sys2Proof.Machine.execBnc w creg imm s
  | .jal w imm => Sys2Proof.Machine.execJal w imm s
  | .jalr f sreg1 => Sys2Proof.Machine.execJalr f sreg1 s
  | .jmp w imm => Sys2Proof.Machine.execJmp w imm s
  | .jmpr f sreg1 => Sys2Proof.Machine.execJmpr f sreg1 s
  | .cmp w creg sreg1 sreg2 => Sys2Proof.Machine.execCmp w creg sreg1 sreg2 s
  | .cmpi w creg sreg1 imm => Sys2Proof.Machine.execCmpi w creg sreg1 imm s
  | .sll f dreg sreg1 sreg2 => Sys2Proof.Machine.execSll f dreg sreg1 sreg2 s
  | .slli f dreg sreg1 imm => Sys2Proof.Machine.execSlli f dreg sreg1 imm s
  | .sra f dreg sreg1 sreg2 => Sys2Proof.Machine.execSra f dreg sreg1 sreg2 s
  | .srai f dreg sreg1 imm => Sys2Proof.Machine.execSrai f dreg sreg1 imm s
  | .srl f dreg sreg1 sreg2 => Sys2Proof.Machine.execSrl f dreg sreg1 sreg2 s
  | .srli f dreg sreg1 imm => Sys2Proof.Machine.execSrli f dreg sreg1 imm s
  | .ld f dreg sreg1 imm => Sys2Proof.Machine.execLd f dreg sreg1 imm s
  | .st f sreg2 sreg1 imm => Sys2Proof.Machine.execSt f sreg2 sreg1 imm s
  | .mov f dreg sreg1 => Sys2Proof.Machine.execMov f dreg sreg1 s
  | .cop k word => Sys2Proof.Machine.execCop k word s
  | .movfc f k dreg cpSreg => Sys2Proof.Machine.execMovfc f k dreg cpSreg s
  | .movtc f k cpDreg sreg1 => Sys2Proof.Machine.execMovtc f k cpDreg sreg1 s
  | .chrs w imm => Sys2Proof.Machine.execChrs w imm s
  | .di w => Sys2Proof.Machine.execDi w s
  | .ei w => Sys2Proof.Machine.execEi w s
  | .swm w imm => Sys2Proof.Machine.execSwm w imm s
  | .reti w => Sys2Proof.Machine.execReti w s
  | .retu w => Sys2Proof.Machine.execRetu w s
  | .scall f => Sys2Proof.Machine.execScall f s
  | .trap w imm => Sys2Proof.Machine.execTrap w imm s

end Sys2Proof.Machine
end

