-- ==== Sys2Proof/Machine/Fetch.lean ====
section
/-! DEFINITION. Fetching and decoding the instruction at pc (`00_scope.md` R10 (2), (3)), and placing one there. -/

namespace Sys2Proof.Machine

/-- What the fetch at pc gives. -/
inductive Fetched where
  /-- an exception of the fetch or of the decoder -/
  | raises (code : BitVec 8)
  /-- the decoder's refusal -/
  | refused (why : NotAnInstruction)
  /-- a fetch that the spec leaves undefined -/
  | undefined (why : Fault)
  | ok (i : Instr)
deriving DecidableEq, Repr

/-- The fetch exception, if any: alignment before protection (`20_memory.md` R111, R117, `60_exceptions.md` R332). -/
def fetchFault (s : State) : Option (BitVec 8) :=
  if s.pc.toNat % s.ilen ≠ 0 then some codeMisalignedInstr
  else if s.psr.um && !instrAllowed .fetch s.pc s then some codeInstrAddressViolation
  else none

/-- `IFetch(pc, ilen)` and the decoder of the mode (`20_memory.md` R110, R113); a location stored to since reset may not be
fetched (R121). -/
def fetch (s : State) : Fetched :=
  match fetchFault s with
  | some code => .raises code
  | none =>
    if s.codeModified s.pc s.ilen then .undefined .selfModifyingCode
    else
      match decodeBytes s.psr.width (s.codeBytes s.pc s.ilen) with
      | .ok i => .ok i
      | .illegal16 => .raises codeIllegalInstruction
      | .refused why => .refused why

/-- What a fetched instruction is for the machine: exceptions of the fetch itself (00h, 05h) execute no instruction, so
no write grows older; an illegal instruction (02h) is one. -/
def fetchException (code : BitVec 8) (s : State) : Result :=
  if code = codeIllegalInstruction then raise code s else .next (takeException code s)

/-- A byte loaded from outside where fetches read it: no store of the machine (log 33). -/
def loadByte (a : Word) (b : Byte) (s : State) : State :=
  if Config.imemShared then
    { s with dmem := Memory.setLane s.dmem a b, stored := s.stored.filter fun x => !storeTouches Config.dmemUnit x a }
  else { s with imem := Memory.write s.imem a.toNat b }

/-- Bytes loaded from `a` up where fetches read them. -/
def writeCode (a : Word) : List Byte → State → State
  | [], s => s
  | b :: bs, s => writeCode (a + 1) bs (loadByte a b s)

/-- The mode that a word of `nbits` bits needs, and its bytes at pc, the first word's bit 0 being the least significant
(log 33). -/
def placeWord (nbits w : Nat) (s : State) : State :=
  if nbits ≤ 16 then
    writeCode s.pc (bytesOfHalf (BitVec.ofNat 16 w)) { s with psr := { s.psr with il := false } }
  else writeCode s.pc (bytesOfWord (BitVec.ofNat 32 w)) { s with psr := { s.psr with il := true } }

end Sys2Proof.Machine
end

