-- ==== Sys2Proof/Machine/Interrupts.lean ====
section
/-! DEFINITION. Interrupts (`60_exceptions.md` R345 to R356): which request is acceptable, when it is taken (log 16), and
interrupt entry. -/

namespace Sys2Proof.Machine

/-- The 4-bit priority of a source (R347, R348): 0 is the most urgent. -/
def priority (src : Source) (s : State) : Nat :=
  if src.val < 4 then ((seen .interrupt offCopIntPri s).extractLsb' (4 * src.val) 4).toNat
  else if s.extHandler then 15
  else ((seen .interrupt offExtIntPri s).extractLsb' (4 * (src.val - 4)) 4).toNat

/-- `rank(a) < rank(b)`: by priority, then by source number (R346, R347). -/
def outranks (a b : Source) (s : State) : Bool :=
  decide (priority a s < priority b s ∨ (priority a s = priority b s ∧ a.val < b.val))

/-- `Eligible(src)`: pending and not masked (R346). -/
def eligible (src : Source) (s : State) : Bool :=
  s.ccb.intPend.getLsbD src.val && (seen .interrupt offIntMask s).getLsbD src.val

/-- In service (R54). -/
def inService (src : Source) (s : State) : Bool := s.ccb.intServ.getLsbD src.val

/-- `Acceptable(src)`, IE apart (R346). -/
def wins (src : Source) (s : State) : Bool :=
  eligible src s && (List.finRange 12).all fun t =>
    (t == src || !eligible t s || outranks src t s) && (!inService t s || outranks src t s)

/-- The acceptable source, if any: IE counts as 1 in the window after `di` (R346, R352). -/
def acceptable (s : State) : Option Source :=
  if s.psr.ie || s.diWindow then (List.finRange 12).find? fun src => wins src s else none

/-- A boundary at which no interrupt may be taken (R352 (a), (b), `10_state.md` R33). -/
def boundaryBlocked (s : State) : Bool := s.intBlock || s.delayedPc.isSome

/-- `Vector(src)` (R353). -/
def vectorOf (src : Source) (s : State) : Word :=
  let v := seen .interrupt (offIntVec src) s
  if h : s.extHandler = true ∧ 4 ≤ src.val then
    v.extractLsb' 12 20 ++ s.extOffset[src.val - 4]'(by have := src.isLt; omega) ++ 0#4
  else v

/-- PSR at interrupt entry (R354; log 30). -/
def entryPsr (src : Source) (s : State) : Psr :=
  let um := (seen .interrupt offIntModeUm s).getLsbD src.val
  { ie := false, il := (seen .interrupt offIntModeIl s).getLsbD src.val, rswr := !um, rsrd := !um, um := um }

/-- Interrupt entry (R350): pc, PSR and C0 on the hardware stack. -/
def interruptEntry (src : Source) (s : State) : Result :=
  if Config.hwstackDepth ≤ s.hwstack.length then .fault .hwstackOverflow
  else
    .next { s with
      hwstack := { addr := s.pc, psr := s.psr.toByte, cr0 := (s.cr[0]).image } :: s.hwstack
      servOrder := src :: s.servOrder
      ccb := { s.ccb with
        intServ := s.ccb.intServ ||| BitVec.twoPow 12 src.val
        intPend := s.ccb.intPend &&& ~~~(BitVec.twoPow 12 src.val) }
      ccbInflight := dropRetiWrites s.ccbInflight
      outputs := if 4 ≤ src.val then .intAck src :: s.outputs else s.outputs
      psr := entryPsr src s
      diWindow := false
      mulHi := none
      acceptWait := none
      pc := vectorOf src s }

/-- How many more boundaries the acceptable `src` is declined: what is left of a wait for it, or a new free bound
(R352; log 16). -/
def waitFor (src : Source) (s : State) : Nat :=
  match s.acceptWait with
  | some (t, n) => if t = src then n else Config.acceptDelay s.freeCount
  | none => Config.acceptDelay s.freeCount

/-- What happens at a boundary: an interrupt is taken, or the step goes on in a state. -/
inductive Boundary where
  | taken (src : Source) (s : State)
  | goOn (s : State)
deriving DecidableEq, Repr

/-- The decision at a boundary (R352): the window after `di` ends here whether or not an interrupt is taken. -/
def atBoundary (s : State) : Boundary :=
  match acceptable s with
  | none => .goOn { s with diWindow := false, acceptWait := none }
  | some src =>
    if boundaryBlocked s then .goOn { s with diWindow := false }
    else
      match waitFor src s with
      | 0 => .taken src s
      | n + 1 => .goOn { s with diWindow := false, acceptWait := some (src, n) }

end Sys2Proof.Machine
end

