-- ==== Sys2Proof/Machine/Timers.lean ====
section
/-! DEFINITION. Reset (`70_reset_and_hazards.md` R400, R401), the environment's events (`00_scope.md` R11; log 17), and
the two timers (`60_exceptions.md` R375 to R381; log 18). -/

namespace Sys2Proof.Machine

/-! ## Reset -/

/-- A reset of the core, by rst_x or by a watchdog (R400, R401, R381): memories, pins and the environment are not
affected (log 19). -/
def coreReset (s : State) : State :=
  { State.reset with
    pc := if s.bootSel then s.bootAddr else 0
    extHandler := s.extHandler
    bootSel := s.bootSel
    bootAddr := s.bootAddr
    imem := s.imem
    dmem := s.dmem
    inputs := s.inputs
    outputs := s.outputs
    freeCount := s.freeCount }

/-! ## Events of the environment -/

/-- INT_PEND with the bit of `src` set (R345, R379). -/
def setPending (src : Source) (s : State) : State :=
  { s with ccb := { s.ccb with intPend := s.ccb.intPend ||| BitVec.twoPow 12 src.val } }

/-- With the external handler the OFFSET is latched with an external request, an absorbed one too (R345; log 36). -/
def latchOffset (src : Source) (offset : BitVec 8) (s : State) : State :=
  if h : s.extHandler = true ∧ 4 ≤ src.val then
    { s with extOffset := s.extOffset.set (src.val - 4) offset (by have := src.isLt; omega) }
  else s

/-- One event (log 17, log 29). -/
def applyEvent (e : EnvEvent) (s : State) : State :=
  match e with
  | .request src offset => latchOffset src offset (setPending src s)
  | .reset => coreReset s
  | .busRequest => { s with busToken := .external }
  | .busRelease => { s with busToken := .core }
  | .masterWrite a v =>
    match s.busToken with
    | .external => s.writeData a v
    | .core => s

/-- The events of this boundary, in their order. -/
def applyEvents : List EnvEvent → State → State
  | [], s => s
  | e :: es, s => applyEvents es (applyEvent e s)

/-- The environment's turn: the head of the schedule. -/
def applyInputs (s : State) : State :=
  match s.inputs with
  | [] => s
  | es :: rest => applyEvents es { s with inputs := rest }

/-! ## Timers -/

/-- A half of TMR_CONF (`10_state.md` R78). -/
structure TimerConf where
  en : Bool
  cont : Bool
  gint : Bool
  wdog : Bool
  intn : BitVec 3
  div : BitVec 8
deriving DecidableEq, Repr

/-- The fields of a half of TMR_CONF. -/
def decodeTimerConf (h : BitVec 16) : TimerConf where
  en := h.getLsbD 15
  cont := h.getLsbD 14
  gint := h.getLsbD 13
  wdog := h.getLsbD 12
  intn := h.extractLsb' 8 3
  div := h.extractLsb' 0 8

/-- What a timer counts with, and whether it has reached its maximum. -/
structure TimerRun where
  div : BitVec 8
  cnt : Word
  fired : Bool
deriving DecidableEq, Repr

/-- `TimerTick` (R377). -/
def timerTick (cont : Bool) (max : Word) (r : TimerRun) : TimerRun :=
  if r.cnt = max then
    if cont then { r with cnt := 0, fired := r.fired || decide (max = 0) } else r
  else { r with cnt := r.cnt + 1, fired := r.fired || decide (r.cnt + 1 = max) }

/-- One clock cycle of an enabled timer (R376). -/
def timerCycle (c : TimerConf) (max : Word) (r : TimerRun) : TimerRun :=
  if r.div.toNat < c.div.toNat then { r with div := r.div + 1 } else timerTick c.cont max { r with div := 0 }

/-- `n` clock cycles of an enabled timer. -/
def timerCycles (c : TimerConf) (max : Word) : Nat → TimerRun → TimerRun
  | 0, r => r
  | n + 1, r => timerCycles c max n (timerCycle c max r)

/-- The `i`-th write of `lagging` to a register, its old value replaced: a timer counts on what it sees (log 11). -/
def setLagging (off : BitVec 8) (g : Nat) (v : Word) : Nat → List CcbWrite → List CcbWrite
  | _, [] => []
  | i, w :: ws =>
    if w.offset == off && decide (w.age ≤ g) then
      match i with
      | 0 => { w with old := v } :: ws
      | i + 1 => w :: setLagging off g v i ws
    else w :: setLagging off g v i ws

/-- Store the count a timer has reached where it was read from. -/
def setSeen (use : CcbUse) (off : BitVec 8) (v : Word) (s : State) : State :=
  match seenIndex use off s with
  | 0 => ccbSet off v s
  | i + 1 => { s with ccbInflight := setLagging off (guards use) v i s.ccbInflight }

/-- The configuration that timer 0 or timer 1 sees. -/
def timerConf (one : Bool) (s : State) : TimerConf :=
  decodeTimerConf ((seen .timer offTmrConf s).extractLsb' (if one then 16 else 0) 16)

def offCnt (one : Bool) : BitVec 8 := if one then offTmr1Cnt else offTmr0Cnt
def offMax (one : Bool) : BitVec 8 := if one then offTmr1Max else offTmr0Max

/-- The divider count of a timer (R80). -/
def divider (one : Bool) (s : State) : BitVec 8 := if one then s.tmr1Div else s.tmr0Div

def setDivider (one : Bool) (d : BitVec 8) (s : State) : State :=
  if one then { s with tmr1Div := d } else { s with tmr0Div := d }

/-- Where a timer gets to in the clock cycles of a step; a disabled one only loses its divider count (R376). -/
def timerResult (one : Bool) (s : State) : TimerRun :=
  let start : TimerRun := { div := divider one s, cnt := seen .timer (offCnt one) s, fired := false }
  timerCycles (timerConf one s) (seen .timer (offMax one) s) (Config.extraCycles s.freeCount + 1) start

/-- A timer's counters after the clock cycles of a step. -/
def runTimer (one : Bool) (s : State) : State :=
  if (timerConf one s).en then
    setDivider one (timerResult one s).div (setSeen .timer (offCnt one) (timerResult one s).cnt s)
  else setDivider one 0 s

/-- Whether a timer reaches its maximum in this step. -/
def timerFires (one : Bool) (s : State) : Bool := (timerConf one s).en && (timerResult one s).fired

/-- `TimerEvent` without the watchdog: an interrupt request (R378, R379). -/
def timerRequest (one : Bool) (before s : State) : State :=
  if timerFires one before && (timerConf one before).gint then
    setPending ((Fin.natAdd 4 ((timerConf one before).intn.toFin : Fin 8) : Fin 12)) s
  else s

/-- A watchdog expires (R378, R381). -/
def watchdogFires (one : Bool) (s : State) : Bool := timerFires one s && (timerConf one s).wdog

/-- Both timers during a step: a watchdog resets the core, which clears everything a request would set (R378). -/
def tickTimers (s : State) : State :=
  if watchdogFires false s || watchdogFires true s then coreReset s
  else timerRequest true s (timerRequest false s (runTimer true (runTimer false s)))

end Sys2Proof.Machine
end

