-- ==== Sys2Proof/Machine/Step.lean ====
section
/-! DEFINITION. One step of the machine (`00_scope.md` R10). -/

namespace Sys2Proof.Machine

/-- What happens before the boundary is decided: the environment's turn, then the timers' (log 17, log 18). -/
def beforeBoundary (s : State) : State :=
  tickTimers (applyInputs { s with freeCount := s.freeCount + 1 })

/-- Fetch, decode and execute the instruction at pc (R10 (2) to (7)). -/
def runInstruction (s : State) : Host.Outcome State Fault Refusal :=
  match fetch s with
  | .raises code => fetchException code s
  | .refused why => .refused (.notAnInstruction why)
  | .undefined why => .fault why
  | .ok i => exec i s

/-- One step: an interrupt entry, or an instruction (R10). -/
def step (s : State) : Host.Outcome State Fault Refusal :=
  match atBoundary (beforeBoundary s) with
  | .taken src t => interruptEntry src t
  | .goOn t => runInstruction t

/-- The instruction whose `nbits` bits are `w`, stored where `step` fetches next, and the mode it decodes in (log 33). -/
def State.withFetchWord (s : State) (nbits w : Nat) : State := placeWord nbits w s

end Sys2Proof.Machine
end

