-- ==== Sys2Proof/Safety.lean ====
section
/-! DEFINITION. The terms claims are stated in: what an instruction leaves unchanged, how it ends, what taking an
exception leaves, invariants of the machine, and a run that does not stop. -/

namespace Sys2Proof

/-! ## Kinds of instructions -/

/-- The form of the 41 instructions that may be conditional (`30_encoding.md` R141, R163). -/
def Instr.condForm : Instr → Option Form
  | .add f _ _ _ => some f
  | .addi f _ _ _ => some f
  | .addiu f _ _ _ => some f
  | .addu f _ _ _ => some f
  | .mulhi f _ => some f
  | .muli f _ _ _ => some f
  | .muls f _ _ _ => some f
  | .mulu f _ _ _ => some f
  | .mulus f _ _ _ => some f
  | .muls16 f _ _ _ => some f
  | .mulu16 f _ _ _ => some f
  | .mulus16 f _ _ _ => some f
  | .sub f _ _ _ => some f
  | .subu f _ _ _ => some f
  | .exb f _ _ _ => some f
  | .exbf f _ _ _ => some f
  | .exh f _ _ _ => some f
  | .sext f _ _ _ => some f
  | .sexti f _ _ _ => some f
  | .conb f _ _ _ => some f
  | .conh f _ _ _ => some f
  | .and f _ _ _ => some f
  | .andi f _ _ _ => some f
  | .not f _ _ => some f
  | .or f _ _ _ => some f
  | .ori f _ _ _ => some f
  | .xor f _ _ _ => some f
  | .jalr f _ => some f
  | .jmpr f _ => some f
  | .sll f _ _ _ => some f
  | .slli f _ _ _ => some f
  | .sra f _ _ _ => some f
  | .srai f _ _ _ => some f
  | .srl f _ _ _ => some f
  | .srli f _ _ _ => some f
  | .ld f _ _ _ => some f
  | .st f _ _ _ => some f
  | .mov f _ _ => some f
  | .movfc f _ _ _ => some f
  | .movtc f _ _ _ => some f
  | .scall f => some f
  | .nop _ => none
  | .exbfi _ _ _ _ => none
  | .lli _ _ => none
  | .lui _ _ => none
  | .rcon _ _ => none
  | .scon _ _ => none
  | .bc _ _ _ => none
  | .begt _ _ _ => none
  | .belt _ _ _ => none
  | .beq _ _ _ => none
  | .bgt _ _ _ => none
  | .blt _ _ _ => none
  | .bne _ _ _ => none
  | .bnc _ _ _ => none
  | .jal _ _ => none
  | .jmp _ _ => none
  | .cmp _ _ _ _ => none
  | .cmpi _ _ _ _ => none
  | .cop _ _ => none
  | .chrs _ _ => none
  | .di _ => none
  | .ei _ => none
  | .swm _ _ => none
  | .reti _ => none
  | .retu _ => none
  | .trap _ _ => none

/-- What the slot of a taken transfer may not hold, where it is executed (`43_compare_branch_jump.md` R246). -/
def Instr.notInSlot : Instr → Bool
  | .add _ _ _ _ => false
  | .addi _ _ _ _ => false
  | .addiu _ _ _ _ => false
  | .addu _ _ _ _ => false
  | .mulhi _ _ => false
  | .muli _ _ _ _ => false
  | .muls _ _ _ _ => false
  | .mulu _ _ _ _ => false
  | .mulus _ _ _ _ => false
  | .muls16 _ _ _ _ => false
  | .mulu16 _ _ _ _ => false
  | .mulus16 _ _ _ _ => false
  | .sub _ _ _ _ => false
  | .subu _ _ _ _ => false
  | .exb _ _ _ _ => false
  | .exbf _ _ _ _ => false
  | .exh _ _ _ _ => false
  | .sext _ _ _ _ => false
  | .sexti _ _ _ _ => false
  | .conb _ _ _ _ => false
  | .conh _ _ _ _ => false
  | .and _ _ _ _ => false
  | .andi _ _ _ _ => false
  | .not _ _ _ => false
  | .or _ _ _ _ => false
  | .ori _ _ _ _ => false
  | .xor _ _ _ _ => false
  | .jalr _ _ => true
  | .jmpr _ _ => true
  | .sll _ _ _ _ => false
  | .slli _ _ _ _ => false
  | .sra _ _ _ _ => false
  | .srai _ _ _ _ => false
  | .srl _ _ _ _ => false
  | .srli _ _ _ _ => false
  | .ld _ _ _ _ => false
  | .st _ _ _ _ => false
  | .mov _ _ _ => false
  | .movfc _ _ _ _ => false
  | .movtc _ _ _ _ => false
  | .scall _ => true
  | .nop _ => false
  | .exbfi _ _ _ _ => false
  | .lli _ _ => false
  | .lui _ _ => false
  | .rcon _ _ => false
  | .scon _ _ => false
  | .bc _ _ _ => true
  | .begt _ _ _ => true
  | .belt _ _ _ => true
  | .beq _ _ _ => true
  | .bgt _ _ _ => true
  | .blt _ _ _ => true
  | .bne _ _ _ => true
  | .bnc _ _ _ => true
  | .jal _ _ => true
  | .jmp _ _ => true
  | .cmp _ _ _ _ => false
  | .cmpi _ _ _ _ => false
  | .cop _ _ => false
  | .chrs _ _ => false
  | .di _ => false
  | .ei _ => false
  | .swm _ _ => true
  | .reti _ => true
  | .retu _ => true
  | .trap _ _ => false

/-- The condition that a conditional branch tests (`43_compare_branch_jump.md` R251 to R258). -/
def branchOf (cond : Cond) (w : Width) (creg : CReg) (imm : Int) : Instr :=
  match cond with
  | .c => .bc w creg imm
  | .egt => .begt w creg imm
  | .elt => .belt w creg imm
  | .eq => .beq w creg imm
  | .gt => .bgt w creg imm
  | .lt => .blt w creg imm
  | .ne => .bne w creg imm
  | .nc => .bnc w creg imm

end Sys2Proof

namespace Sys2Proof.Machine

/-! ## Frames -/

/-- Every byte of instruction memory and every cell of data memory reads as before. -/
def SameMemory (s t : State) : Prop := (∀ a, t.readData a = s.readData a) ∧ ∀ a, t.readCode a = s.readCode a

/-- Instruction memory reads as before, and so does data memory but for the cell at `a`, which holds `v`. -/
def OnlyCell (a v : Word) (s t : State) : Prop :=
  (∀ b, t.readData b = if b = a then v else s.readData b) ∧ ∀ b, t.readCode b = s.readCode b

/-- Every register of both sets, PSR, SPSR and PR31 among them, reads as before. -/
def SameRegs (s t : State) : Prop :=
  (∀ two i, readSet two i t = readSet two i s) ∧ t.spsrInflight = ageSpsr 1 s.spsrInflight

/-- Register `d` of the set that PSR.RSWR selects holds `v`, unless it is PSR, which is read only; every other register
of both sets reads as before (`10_state.md` R24, R25, R27). -/
def OnlyReg (d : Reg) (v : Word) (s t : State) : Prop :=
  (∀ two i, readSet two i t = if two = s.psr.rswr ∧ i = d ∧ ¬(two = true ∧ i = 29#5) then v else readSet two i s) ∧
  t.spsrInflight = ageSpsr 1 (if s.psr.rswr = true ∧ d = 30#5 then { old := s.spsr, age := 0 } :: s.spsrInflight
    else s.spsrInflight)

/-- Condition register `k` holds `f`; the other seven are unchanged. -/
def OnlyFlags (k : CReg) (f : Flags) (s t : State) : Prop := ∀ j, readCr j t = if j = k then f else readCr j s

/-- No condition register changes. -/
def SameFlags (s t : State) : Prop := ∀ j, readCr j t = readCr j s

/-- PSR and the window after `di` are unchanged. -/
def SameStatus (s t : State) : Prop := t.psr = s.psr ∧ t.diWindow = s.diWindow

/-- Nothing left the core, and the bus has the same owner. -/
def Quiet (s t : State) : Prop := t.outputs = s.outputs ∧ t.busToken = s.busToken

/-- State that neither an instruction but a `st` to the CCB nor an interrupt entry touches. -/
structure SameBehind (s t : State) : Prop where
  retiBase : t.retiBase = s.retiBase
  extOffset : t.extOffset = s.extOffset
  tmr0Div : t.tmr0Div = s.tmr0Div
  tmr1Div : t.tmr1Div = s.tmr1Div
  extHandler : t.extHandler = s.extHandler
  bootSel : t.bootSel = s.bootSel
  bootAddr : t.bootAddr = s.bootAddr
  stored : t.stored = s.stored
  inputs : t.inputs = s.inputs
  freeCount : t.freeCount = s.freeCount

/-- State that no ordinary instruction touches, the CCB apart. -/
structure SameHidden (s t : State) : Prop extends SameBehind s t where
  hwstack : t.hwstack = s.hwstack
  servOrder : t.servOrder = s.servOrder
  acceptWait : t.acceptWait = s.acceptWait

/-- State that no instruction but a `st` to the CCB, `reti` and an exception touches. -/
structure SameSystem (s t : State) : Prop extends SameHidden s t where
  ccb : t.ccb = s.ccb

/-! ## How an instruction ends -/

/-- There is a next pc: a pending target, or an address after this one (`10_state.md` R33, R34). -/
def CanAdvance (s : State) : Prop := s.delayedPc.isSome = true ∨ s.pc.toNat + s.ilen < 2 ^ 32

/-- The next pc (`00_scope.md` R10 (7)). -/
def followingPc (s : State) : Word := s.delayedPc.getD (s.pc + BitVec.ofNat 32 s.ilen)

/-- The instruction ended at the next pc, and left these values of the hidden latches. -/
structure EndsWith (delayed mulHi : Option Word) (block : Bool) (s t : State) : Prop where
  pc : t.pc = followingPc s
  delayedPc : t.delayedPc = delayed
  mulHi : t.mulHi = mulHi
  intBlock : t.intBlock = block
  ccbInflight : t.ccbInflight = ageCcb 1 s.ccbInflight

/-- An ordinary end: no transfer is pending, `mul_hi` is invalid, `int_block` is clear. -/
def Ends (s t : State) : Prop := EndsWith none none false s t

/-- Everything but the registers, the flags and the end of the instruction is as before. -/
structure OnlyComputes (s t : State) : Prop where
  memory : SameMemory s t
  system : SameSystem s t
  status : SameStatus s t
  quiet : Quiet s t

/-- An instruction whose only effect is `v` in register `d`. -/
structure GivesReg (d : Reg) (v : Word) (s t : State) : Prop where
  reg : OnlyReg d v s t
  flags : SameFlags s t
  frame : OnlyComputes s t
  ends : Ends s t

/-- An instruction whose only effects are `v` in register `d` and `f` in C0. -/
structure GivesRegFlags (d : Reg) (v : Word) (f : Flags) (s t : State) : Prop where
  reg : OnlyReg d v s t
  flags : OnlyFlags 0 f s t
  frame : OnlyComputes s t
  ends : Ends s t

/-- A 32-bit multiplication with product `p`: the lower half in `d`, the upper half in `mul_hi`. -/
structure GivesProduct (d : Reg) (p : Int) (s t : State) : Prop where
  reg : OnlyReg d (BitVec.ofInt 32 p) s t
  flags : SameFlags s t
  frame : OnlyComputes s t
  ends : EndsWith none (some ((BitVec.ofInt 64 p).extractLsb' 32 32)) true s t

/-- An instruction whose only effect is `f` in condition register `k`. -/
structure GivesFlags (k : CReg) (f : Flags) (s t : State) : Prop where
  reg : SameRegs s t
  flags : OnlyFlags k f s t
  frame : OnlyComputes s t
  ends : Ends s t

/-- No effect but the end of the instruction. -/
structure OnlyEnds (block : Bool) (s t : State) : Prop where
  reg : SameRegs s t
  flags : SameFlags s t
  frame : OnlyComputes s t
  ends : EndsWith none none block s t

/-- A taken transfer: its target waits for the slot (`10_state.md` R33); no register changes. -/
structure Transfers (target : Word) (s t : State) : Prop where
  reg : SameRegs s t
  flags : SameFlags s t
  frame : OnlyComputes s t
  ends : EndsWith (some target) none true s t

/-- The same with the link address in register 31 of the set that is written. -/
structure TransfersLinked (target : Word) (s t : State) : Prop where
  reg : OnlyReg 31#5 (s.pc + BitVec.ofNat 32 (2 * s.ilen)) s t
  flags : SameFlags s t
  frame : OnlyComputes s t
  ends : EndsWith (some target) none true s t

/-- No instruction has changed a CCB register that an implicit user might not see yet (`70_reset_and_hazards.md` R415). -/
def Settled (s : State) : Prop := s.ccbInflight = []

/-- Exception entry with code `c` from `s` (`60_exceptions.md` R330); nothing else changes, writes in flight apart. -/
structure EntersException (c : BitVec 8) (s t : State) : Prop where
  exceptionPc : t.ccb.exceptionPc = s.pc
  exceptionPsr : t.ccb.exceptionPsr = s.psr.toByte
  exceptionCs : t.ccb.exceptionCs = c
  restOfCcb : { t.ccb with
      exceptionPc := s.ccb.exceptionPc, exceptionPsr := s.ccb.exceptionPsr, exceptionCs := s.ccb.exceptionCs } = s.ccb
  psr : t.psr.toByte = 0x0E#8
  delayedPc : t.delayedPc = none
  mulHi : t.mulHi = none
  intBlock : t.intBlock = false
  pc : t.pc = seen .exceptionEntry offExcepAddr s
  set1 : t.set1 = s.set1
  set2 : t.set2 = s.set2
  spsr : t.spsr = s.spsr
  pr31 : t.pr31 = s.pr31
  cr : t.cr = s.cr
  dmem : t.dmem = s.dmem
  imem : t.imem = s.imem
  diWindow : t.diWindow = s.diWindow
  outputs : t.outputs = s.outputs
  busToken : t.busToken = s.busToken
  hidden : SameHidden s t

/-- An instruction has raised exception `c`: the writes in flight are one instruction older (logs 11, 12). -/
structure Raised (c : BitVec 8) (s t : State) : Prop extends EntersException c s t where
  ccbInflight : t.ccbInflight = ageCcb 1 s.ccbInflight
  spsrInflight : t.spsrInflight = ageSpsr 1 s.spsrInflight

/-- A fetch has raised exception `c`: no instruction was executed, so the writes in flight are as old as before (log 11). -/
structure RaisedAtFetch (c : BitVec 8) (s t : State) : Prop extends EntersException c s t where
  ccbInflight : t.ccbInflight = s.ccbInflight
  spsrInflight : t.spsrInflight = s.spsrInflight

/-! ## Slots -/

/-- The 32-bit or 16-bit word of zeros, `nop`, stands at `a` (`30_encoding.md` R145). -/
def NopAt (w : Width) (a : Word) (s : State) : Prop :=
  match w with
  | .w32 => s.codeBytes a 4 = [0#8, 0#8, 0#8, 0#8]
  | .w16 => s.codeBytes a 2 = [0#8, 0#8]

/-- The `n`-th slot behind the instruction at pc holds `nop` in the current mode, where the mode may fetch it. -/
def SlotOk (n : Nat) (s : State) : Prop :=
  s.pc.toNat + n * s.ilen < 2 ^ 32 ∧ NopAt s.psr.width (BitVec.ofNat 32 (s.pc.toNat + n * s.ilen)) s ∧
  (s.psr.um = true → instrAllowed (.slot n) (BitVec.ofNat 32 (s.pc.toNat + n * s.ilen)) s = true)

/-- The `n`-th slot behind the instruction at pc, in the current mode, lies where the mode may fetch and does not hold
`nop`. -/
def SlotNotNop (n : Nat) (s : State) : Prop :=
  s.pc.toNat + n * s.ilen < 2 ^ 32 ∧ ¬NopAt s.psr.width (BitVec.ofNat 32 (s.pc.toNat + n * s.ilen)) s ∧
  (s.psr.um = true → instrAllowed (.slot n) (BitVec.ofNat 32 (s.pc.toNat + n * s.ilen)) s = true)

/-- After an instruction that ran together with its slots, `n` instructions in all: no register of SET 1, no GPR of SET 2,
no flag and no memory has changed, nothing left the core, no latch is set, and writes in flight are `n` older (log 32). -/
structure AfterSlots (n : Nat) (s t : State) : Prop where
  set1 : t.set1 = s.set1
  set2 : t.set2 = s.set2
  spsr : t.spsr = s.spsr
  pr31 : t.pr31 = s.pr31
  flags : SameFlags s t
  memory : SameMemory s t
  quiet : Quiet s t
  delayedPc : t.delayedPc = none
  mulHi : t.mulHi = none
  intBlock : t.intBlock = false
  diWindow : t.diWindow = s.diWindow
  ccbInflight : t.ccbInflight = ageCcb n s.ccbInflight
  spsrInflight : t.spsrInflight = ageSpsr n s.spsrInflight

/-- An instruction that changed PSR, perhaps the window after `di`, and nothing else. -/
structure ChangesPsrOnly (s t : State) : Prop where
  set1 : t.set1 = s.set1
  set2 : t.set2 = s.set2
  spsr : t.spsr = s.spsr
  pr31 : t.pr31 = s.pr31
  flags : SameFlags s t
  memory : SameMemory s t
  system : SameSystem s t
  quiet : Quiet s t
  pc : t.pc = followingPc s
  delayedPc : t.delayedPc = none
  mulHi : t.mulHi = none
  intBlock : t.intBlock = false
  spsrInflight : t.spsrInflight = ageSpsr 1 s.spsrInflight

/-! ## The CCB as software sees it -/

/-- The width of the writable register at an offset, 0 where there is none (`10_state.md` R45). -/
def ccbWidth (off : BitVec 8) : Nat :=
  if off.toNat < 0x10 then 32
  else if off.toNat < 0x13 then 12
  else if off.toNat = 0x15 then 32
  else if off.toNat = 0x16 then 16
  else if off.toNat < 0x1A then 0
  else if off.toNat = 0x1E then 2
  else if off.toNat = 0x21 then 12
  else if off.toNat = 0x22 then 28
  else if off.toNat < 0x29 then 32
  else if off.toNat = 0x29 then 8
  else if off.toNat = 0x2A then 3
  else 0

/-! ## Invariants -/

/-- Both memories are in canonical form. -/
def Canonical (s : State) : Prop := Memory.wf s.imem = true ∧ Memory.wf s.dmem = true

/-- `serv_order` mirrors INT_SERV (`10_state.md` R41), and no more returns are stacked than sources are in service. -/
structure ServiceInv (s : State) : Prop where
  mirror : ∀ src : Source, s.ccb.intServ.getLsbD src.val = true ↔ src ∈ s.servOrder
  nodup : s.servOrder.Nodup
  depth : s.hwstack.length ≤ s.servOrder.length

/-- User mode reads and writes SET 1 (`10_state.md` R28). -/
def SetsLegal (p : Psr) : Prop := p.um = true → p.rswr = false ∧ p.rsrd = false

/-- What `reti` may put into PSR keeps user mode in SET 1: every image on the hardware stack, the one that RETI_PSR holds
when the stack is empty, and every value that RETI_PSR held and `reti` may still see. -/
structure ImagesLegal (s : State) : Prop where
  stack : ∀ e ∈ s.hwstack, SetsLegal (Psr.ofByte e.psr)
  base : SetsLegal (Psr.ofByte s.retiBase.psr)
  inflight : ∀ w ∈ s.ccbInflight, w.offset = offRetiPsr → SetsLegal (Psr.ofByte (w.old.setWidth 8))

/-- The step from `s` executes a `st` to RETI_PSR of an image with UM = 1 and RSWR or RSRD = 1, which is what the proviso
of `10_state.md` R28 rules out: the boundary goes on, neither the fetch nor the access raises, the condition holds. -/
def StoresIllegalImage (s : State) : Prop :=
  ∃ (u : State) (f : Form) (b a : Reg) (imm : Int), atBoundary (beforeBoundary s) = .goOn u ∧
    u.pc.toNat % u.ilen = 0 ∧ (u.psr.um = true → instrAllowed .fetch u.pc u = true) ∧
    decodeBytes u.psr.width (u.codeBytes u.pc u.ilen) = .ok (.st f b a imm) ∧ executes f u = true ∧
    dataFault (effectiveAddress a imm u) u = none ∧
    windowOf (BitVec.ofInt 32 (effectiveAddress a imm u)) u = .ccb offRetiPsr ∧
    ¬SetsLegal (Psr.ofByte ((readX b u).setWidth 8))

/-! ## Timers as software sees them -/

/-- Bit `i` of the half of TMR_CONF that configures timer 0 or, with `one`, timer 1 (`10_state.md` R78). -/
def tmrBit (one : Bool) (i : Nat) (s : State) : Bool := s.ccb.tmrConf.getLsbD (i + 16 * one.toNat)

/-- The `len` bits from bit `lo` up of that half. -/
def tmrField (one : Bool) (lo len : Nat) (s : State) : Nat := s.ccb.tmrConf.toNat / 2 ^ (lo + 16 * one.toNat) % 2 ^ len

/-- TMRx_CNT and TMRx_MAX_CNT (`10_state.md` R76, R77). -/
def tmrCnt (one : Bool) (s : State) : Nat := if one then s.ccb.tmr1Cnt.toNat else s.ccb.tmr0Cnt.toNat
def tmrMax (one : Bool) (s : State) : Nat := if one then s.ccb.tmr1Max.toNat else s.ccb.tmr0Max.toNat

/-- The divider count, and where it starts from: one that is not below DIV is as good as DIV (`60_exceptions.md` R376). -/
def tmrDivider (one : Bool) (s : State) : Nat := if one then s.tmr1Div.toNat else s.tmr0Div.toNat

/-- The clock cycles of the coming step and those already on the divider. -/
def tmrCycles (one : Bool) (s : State) : Nat :=
  min (tmrDivider one s) (tmrField one 0 8 s) + (Config.extraCycles s.freeCount + 1)

/-- How often the timer counts in the coming step: once every DIV + 1 cycles. -/
def tmrTicks (one : Bool) (s : State) : Nat := tmrCycles one s / (tmrField one 0 8 s + 1)

/-- A count `cnt` after `k` ticks (`60_exceptions.md` R377): up to MAX, then round with CONT or no further; from above MAX
up to 2^32 - 1 and then from zero. -/
def countAfter (cont : Bool) (max cnt k : Nat) : Nat :=
  let upTo (x : Nat) : Nat := if cont then x % (max + 1) else min x max
  if cnt ≤ max then upTo (cnt + k)
  else if cnt + k < 2 ^ 32 then cnt + k
  else upTo (cnt + k - 2 ^ 32)

/-- The count of the timer after `k` ticks. -/
def tmrAfter (one : Bool) (k : Nat) (s : State) : Nat := countAfter (tmrBit one 14 s) (tmrMax one s) (tmrCnt one s) k

/-- The timer is enabled and a tick of the coming step brings its count to MAX (`60_exceptions.md` R377). -/
def TmrReaches (one : Bool) (s : State) : Prop :=
  tmrBit one 15 s = true ∧ ∃ k < tmrTicks one s, tmrAfter one (k + 1) s = tmrMax one s ∧
    (tmrBit one 14 s = true ∨ tmrAfter one k s ≠ tmrMax one s)

/-! ## Safe runs -/

/-- `n` steps neither fault nor refuse. -/
def RunsSafely : Nat → State → Prop
  | 0, _ => True
  | n + 1, s => ∃ t, step s = .next t ∧ RunsSafely n t

end Sys2Proof.Machine
end

