-- ==== Sys2Proof/Certificates/Slice0/Obligations.lean ====
section
/-! DEFINITION. The statements for the provers. -/

open Sys2Proof Sys2Proof.Machine

/-! ## Reset, steps, decoding -/

/-- The state after a reset, from any state (R95, R45, R87); memories, pins and the environment are not affected (log 19),
PC is 0 or BOOT_ADDR. That general and condition registers are zero is log 5, where CORE_VER_ID is read is log 23, and what
the model's own fields hold is logs 12 and 37. -/
def Obligations.ResetLeaves : Prop :=
  ∀ s t : State, t = coreReset s →
    (∀ i : Reg, readSet false i t = 0#32) ∧
    (∀ i : Reg, i.toNat < 29 ∨ i = 31#5 → readSet true i t = 0#32) ∧
    t.psr.toByte = 0b00001110#8 ∧ readSet true 30#5 t = 0x00000009#32 ∧
    (∀ k, readCr k t = { z := false, n := false, c := false }) ∧
    t.pc = (if s.bootSel then s.bootAddr else 0#32) ∧
    t.delayedPc = none ∧ t.mulHi = none ∧ t.diWindow = false ∧ t.intBlock = false ∧ t.ccbInflight = [] ∧
    (∀ k : Fin 8, t.extOffset[k] = 0#8) ∧ t.tmr0Div = 0#8 ∧ t.tmr1Div = 0#8 ∧ t.hwstack = [] ∧ t.servOrder = [] ∧
    t.busToken = .core ∧
    ccbRead 0x00#8 t = 0x00010000#32 ∧ ccbRead 0x01#8 t = 0x00010100#32 ∧ ccbRead 0x02#8 t = 0x000101FF#32 ∧
    ccbRead 0x03#8 t = 0x000000FF#32 ∧
    (∀ o : BitVec 8, 4 ≤ o.toNat → o.toNat < 16 → ccbRead o t = 1#32) ∧
    ccbRead 0x10#8 t = 0xFFF#32 ∧ ccbRead 0x11#8 t = 0xFFF#32 ∧
    (∀ o : BitVec 8, 0x12 ≤ o.toNat → o.toNat < 0x1B → ccbRead o t = 0#32) ∧
    ccbRead 0x1B#8 t = 0xFFFFFFFF#32 ∧ ccbRead 0x1C#8 t = 0#32 ∧ ccbRead 0x1D#8 t = 0xFFFFFFFF#32 ∧
    ccbRead 0x1E#8 t = 3#32 ∧ ccbRead 0x1F#8 t = 0#32 ∧ ccbRead 0x20#8 t = 0#32 ∧ ccbRead 0x21#8 t = 0xFFF#32 ∧
    (∀ o : BitVec 8, 0x22 ≤ o.toNat → o.toNat < 0x28 → ccbRead o t = 0#32) ∧
    ccbRead 0x28#8 t = 1#32 ∧ ccbRead 0x29#8 t = 9#32 ∧ ccbRead 0x2A#8 t = 0#32 ∧
    (∀ o : BitVec 8, 0x2C ≤ o.toNat → ccbRead o t = Config.coreVerId) ∧
    SameMemory s t ∧
    t.extHandler = s.extHandler ∧ t.bootSel = s.bootSel ∧ t.bootAddr = s.bootAddr ∧
    t.inputs = s.inputs ∧ t.outputs = s.outputs ∧ t.freeCount = s.freeCount ∧
    t.spsrInflight = [] ∧ t.stored = [] ∧ t.acceptWait = none

/-- A step whose boundary goes on executes the instruction that the bytes at pc decode to: the bytes from pc upwards, one
address after another, the first on top of the word (R112, R113), decoded in the mode's width under SPEC-ENC (log 4). -/
def Obligations.StepRunsDecoded : Prop :=
  (∀ (s u : State) (i : Instr), atBoundary (beforeBoundary s) = .goOn u →
    u.pc.toNat % u.ilen = 0 → (u.psr.um = true → instrAllowed .fetch u.pc u = true) →
    decodeBytes u.psr.width (u.codeBytes u.pc u.ilen) = .ok i → i.wf = true →
    step s = exec i u) ∧
  (∀ (s : State) (a : Word) (n : Nat),
    (s.codeBytes a n).length = n ∧ ∀ k < n, (s.codeBytes a n)[k]? = some (s.readCode (a + BitVec.ofNat 32 k))) ∧
  (∀ b0 b1 b2 b3 : Byte,
    decodeBytes .w32 [b0, b1, b2, b3] =
      decode32 (BitVec.ofNat 32 (2 ^ 24 * b0.toNat + 2 ^ 16 * b1.toNat + 2 ^ 8 * b2.toNat + b3.toNat)) ∧
    decodeBytes .w16 [b0, b1] = decode16 (BitVec.ofNat 16 (2 ^ 8 * b0.toNat + b1.toNat)))

/-- With no event due, both timers disabled and no request that could be taken, all a step adds around the instruction is
the model's own counter and schedule, the zeroed dividers, and the end of the window after `di` and of a wait (logs 8, 16,
17, 18). -/
def Obligations.QuietStepAddsNothing : Prop :=
  ∀ (s : State) (i : Instr), Settled s → s.inputs.headD [] = [] →
    s.ccb.tmrConf.getLsbD 15 = false → s.ccb.tmrConf.getLsbD 31 = false →
    ((s.psr.ie = false ∧ s.diWindow = false) ∨ s.ccb.intPend &&& s.ccb.intMask = 0#12) →
    s.pc.toNat % s.ilen = 0 → s.psr.um = false →
    decodeBytes s.psr.width (s.codeBytes s.pc s.ilen) = .ok i → i.wf = true →
    step s = exec i { s with freeCount := s.freeCount + 1, inputs := s.inputs.tail, tmr0Div := 0#8, tmr1Div := 0#8,
                             diWindow := false, acceptWait := none }

/-- A few words, written from the encoding tables, decode to their instructions: the encoding is SPEC-ENC,
the spec's own (log 4). -/
def Obligations.WordsDecode : Prop :=
  decodeBytes .w32 [0x04#8, 0x00#8, 0x08#8, 0x23#8] = .ok (.add .w32 3#5 1#5 2#5) ∧
  decodeBytes .w32 [0xD5#8, 0xFF#8, 0xF0#8, 0x22#8] = .ok (.st .w32 2#5 1#5 (-4)) ∧
  decodeBytes .w32 [0x8C#8, 0xBF#8, 0xFF#8, 0xFC#8] = .ok (.beq .w32 2#3 (-4)) ∧
  decodeBytes .w32 [0xFA#8, 0xB0#8, 0x00#8, 0x00#8] = .ok (.scall (.cex .ne 2#3)) ∧
  decodeBytes .w16 [0x04#8, 0x08#8] = .ok (.add .w16 24#5 25#5 24#5) ∧
  decodeBytes .w16 [0x4C#8, 0x00#8] = .illegal16

/-- Decoding the encoding of a well-formed instruction gives it back, every operand at every value it admits, under
SPEC-ENC (log 4). -/
def Obligations.DecodeEncode : Prop :=
  ∀ i : Instr, i.wf = true → decodeEncoded (encode i) = .ok i

/-- R37: the condition codes, in the encoding and on the flags; a branch tests the same condition: it is a `jmp` where it
holds, and does nothing, checks of its target included (log 42), where it does not. The unconditional forms always
execute. -/
def Obligations.ConditionCodes : Prop :=
  ∀ (b : BitVec 3) (k : CReg) (s : State),
    (executes (.cex (Cond.ofBits b) k) s = true ↔
      (b = 0b000#3 ∧ (readCr k s).c = true) ∨
      (b = 0b001#3 ∧ ((readCr k s).z = true ∨ (readCr k s).n = false)) ∨
      (b = 0b010#3 ∧ ((readCr k s).z = true ∨ (readCr k s).n = true)) ∨
      (b = 0b011#3 ∧ (readCr k s).z = true) ∨
      (b = 0b100#3 ∧ (readCr k s).z = false ∧ (readCr k s).n = false) ∨
      (b = 0b101#3 ∧ (readCr k s).z = false ∧ (readCr k s).n = true) ∨
      (b = 0b110#3 ∧ (readCr k s).z = false) ∨
      (b = 0b111#3 ∧ (readCr k s).c = false)) ∧
    (Cond.ofBits b).bits = b ∧ executes .w32 s = true ∧ executes .w16 s = true ∧
    (∀ (w : Width) (imm : Int),
      (executes (.cex (Cond.ofBits b) k) s = true →
        exec (branchOf (Cond.ofBits b) w k imm) s = exec (.jmp w imm) s) ∧
      (executes (.cex (Cond.ofBits b) k) s = false → s.delayedPc = none → CanAdvance s →
        ∃ t, exec (branchOf (Cond.ofBits b) w k imm) s = .next t ∧ OnlyEnds true s t))

/-- What a register read gives, by PSR.RSRD: SET 1, or SET 2 with PSR at 29, SPSR at 30 and PR31 at 31; and `mov`, which
copies it to the set that PSR.RSWR selects. -/
def Obligations.RegisterSetsAndMove : Prop :=
  ∀ (s : State) (i : Reg),
    readX i s = readSet s.psr.rsrd i s ∧ readSet false i s = s.set1[i.toNat]'i.isLt ∧
    (∀ h : i.toNat < 29, readSet true i s = s.set2[i.toNat]'h) ∧
    (i = 29#5 → readSet true i s = s.psr.toByte.setWidth 32) ∧ (i = 30#5 → readSet true i s = s.spsr) ∧
    (i = 31#5 → readSet true i s = s.pr31) ∧
    (s.psr.rsrd = false → readX i s = s.set1[i.toNat]'i.isLt) ∧
    (s.psr.rsrd = true → ∀ h : i.toNat < 29, readX i s = s.set2[i.toNat]'h) ∧
    (s.psr.rsrd = true → i = 29#5 →
      readX i s = BitVec.ofNat 32 (16 * s.psr.ie.toNat + 8 * s.psr.il.toNat + 4 * s.psr.rswr.toNat
        + 2 * s.psr.rsrd.toNat + s.psr.um.toNat)) ∧
    (s.psr.rsrd = true → i = 30#5 → readX i s = s.spsr) ∧
    (s.psr.rsrd = true → i = 31#5 → readX i s = s.pr31) ∧
    (∀ (f : Form) (d : Reg), executes f s = true → CanAdvance s →
      ∃ t, exec (.mov f d i) s = .next t ∧ GivesReg d (readX i s) s t)

/-! ## Arithmetic -/

/-- `add` and `addi` without overflow; an immediate that fits 32 bits is sign extended. -/
def Obligations.AddChecked : Prop :=
  ∀ (f : Form) (d a b : Reg) (imm : Int) (s : State), executes f s = true → CanAdvance s →
    ((-(2 : Int) ^ 31 ≤ (readX a s).toInt + (readX b s).toInt ∧ (readX a s).toInt + (readX b s).toInt < 2 ^ 31) →
      ∃ t, exec (.add f d a b) s = .next t ∧
        GivesRegFlags d (readX a s + readX b s)
          { z := decide ((readX a s).toInt + (readX b s).toInt = 0)
            n := decide ((readX a s).toInt + (readX b s).toInt < 0)
            c := decide (2 ^ 32 ≤ (readX a s).toNat + (readX b s).toNat) } s t) ∧
    ((-(2 : Int) ^ 31 ≤ (readX a s).toInt + (sext imm).toInt ∧ (readX a s).toInt + (sext imm).toInt < 2 ^ 31) →
      ∃ t, exec (.addi f d a imm) s = .next t ∧
        GivesRegFlags d (readX a s + sext imm)
          { z := decide ((readX a s).toInt + (sext imm).toInt = 0)
            n := decide ((readX a s).toInt + (sext imm).toInt < 0)
            c := decide (2 ^ 32 ≤ (readX a s).toNat + (sext imm).toNat) } s t) ∧
    (-(2 : Int) ^ 31 ≤ imm → imm < 2 ^ 31 → (sext imm).toInt = imm)

/-- `addu` and `addiu`: any sum, the flags from the wrapped result and the carry. That N is bit 31 of the wrapped result is
the spec's default of N_ON_WRAP (log 6). -/
def Obligations.AddWrapping : Prop :=
  ∀ (f : Form) (d a b : Reg) (imm : Nat) (s : State), executes f s = true → CanAdvance s → imm < 2 ^ 15 →
    (∃ t, exec (.addu f d a b) s = .next t ∧
      GivesRegFlags d (BitVec.ofNat 32 ((readX a s).toNat + (readX b s).toNat))
        { z := decide (((readX a s).toNat + (readX b s).toNat) % 2 ^ 32 = 0)
          n := decide (2 ^ 31 ≤ ((readX a s).toNat + (readX b s).toNat) % 2 ^ 32)
          c := decide (2 ^ 32 ≤ (readX a s).toNat + (readX b s).toNat) } s t) ∧
    (∃ t, exec (.addiu f d a imm) s = .next t ∧
      GivesRegFlags d (BitVec.ofNat 32 ((readX a s).toNat + imm))
        { z := decide (((readX a s).toNat + imm) % 2 ^ 32 = 0)
          n := decide (2 ^ 31 ≤ ((readX a s).toNat + imm) % 2 ^ 32)
          c := decide (2 ^ 32 ≤ (readX a s).toNat + imm) } s t)

/-- `sub` without overflow, and `subu`; C is the carry out of a + not b + 1, the spec's default of SUB_CARRY, and N after a
wrap is bit 31, its default of N_ON_WRAP (log 6). -/
def Obligations.Subtract : Prop :=
  ∀ (f : Form) (d a b : Reg) (s : State), executes f s = true → CanAdvance s →
    ((-(2 : Int) ^ 31 ≤ (readX a s).toInt - (readX b s).toInt ∧ (readX a s).toInt - (readX b s).toInt < 2 ^ 31) →
      ∃ t, exec (.sub f d a b) s = .next t ∧
        GivesRegFlags d (readX a s - readX b s)
          { z := decide (readX a s = readX b s)
            n := decide ((readX a s).toInt < (readX b s).toInt)
            c := decide ((readX b s).toNat ≤ (readX a s).toNat) } s t) ∧
    (∃ t, exec (.subu f d a b) s = .next t ∧
      GivesRegFlags d (readX a s - readX b s)
        { z := decide (readX a s = readX b s)
          n := (readX a s - readX b s).getLsbD 31
          c := decide (2 ^ 32 ≤ (readX a s).toNat + (2 ^ 32 - 1 - (readX b s).toNat) + 1) } s t)

/-- R197: `add`, `addi` and `sub` raise code 06h where the exact result leaves the signed range; neither the
destination nor C0 is written, and EXCEPTION_PC is the instruction's address; no other instruction puts 06h into
EXCEPTION_CS. -/
def Obligations.ArithmeticOverflow : Prop :=
  (∀ (f : Form) (d a b : Reg) (imm : Int) (s : State), executes f s = true →
    (((readX a s).toInt + (readX b s).toInt < -(2 : Int) ^ 31 ∨ 2 ^ 31 - 1 < (readX a s).toInt + (readX b s).toInt) →
      ∃ t, exec (.add f d a b) s = .next t ∧ Raised 0x06#8 s t) ∧
    (((readX a s).toInt + (sext imm).toInt < -(2 : Int) ^ 31 ∨ 2 ^ 31 - 1 < (readX a s).toInt + (sext imm).toInt) →
      ∃ t, exec (.addi f d a imm) s = .next t ∧ Raised 0x06#8 s t) ∧
    (((readX a s).toInt - (readX b s).toInt < -(2 : Int) ^ 31 ∨ 2 ^ 31 - 1 < (readX a s).toInt - (readX b s).toInt) →
      ∃ t, exec (.sub f d a b) s = .next t ∧ Raised 0x06#8 s t)) ∧
  (∀ (i : Instr) (s t : State), exec i s = .next t → t.ccb.exceptionCs = 0x06#8 → s.ccb.exceptionCs ≠ 0x06#8 →
    ∃ f d a, (∃ b, i = .add f d a b ∨ i = .sub f d a b) ∨ ∃ imm, i = .addi f d a imm)

/-- The four 32-bit multiplications, both halves of the exact product, and the three of the lower halfwords. -/
def Obligations.Multiply : Prop :=
  ∀ (f : Form) (d a b : Reg) (imm : Int) (s : State), executes f s = true → CanAdvance s →
    -(2 : Int) ^ 14 ≤ imm → imm < (2 : Int) ^ 14 →
    (∃ t, exec (.muli f d a imm) s = .next t ∧ GivesProduct d ((readX a s).toInt * imm) s t) ∧
    (∃ t, exec (.muls f d a b) s = .next t ∧ GivesProduct d ((readX a s).toInt * (readX b s).toInt) s t) ∧
    (∃ t, exec (.mulu f d a b) s = .next t ∧ GivesProduct d ((readX a s).toNat * (readX b s).toNat : Nat) s t) ∧
    (∃ t, exec (.mulus f d a b) s = .next t ∧ GivesProduct d (((readX a s).toNat : Int) * (readX b s).toInt) s t) ∧
    (∃ t, exec (.muls16 f d a b) s = .next t ∧
      GivesReg d (BitVec.ofInt 32 (((readX a s).setWidth 16).toInt * ((readX b s).setWidth 16).toInt)) s t) ∧
    (∃ t, exec (.mulu16 f d a b) s = .next t ∧
      GivesReg d (BitVec.ofNat 32 ((readX a s).toNat % 2 ^ 16 * ((readX b s).toNat % 2 ^ 16))) s t) ∧
    (∃ t, exec (.mulus16 f d a b) s = .next t ∧
      GivesReg d (BitVec.ofInt 32 (((readX a s).toNat % 2 ^ 16 : Nat) * ((readX b s).setWidth 16).toInt)) s t)

/-- `mulhi` reads the latch; without a valid latch the machine stops (log 13); and only a 32-bit multiplication that executes
leaves the latch valid, so any other instruction between it and `mulhi` breaks the pair. -/
def Obligations.Mulhi : Prop :=
  (∀ (f : Form) (d : Reg) (s : State), executes f s = true →
    (∀ v, s.mulHi = some v → CanAdvance s → ∃ t, exec (.mulhi f d) s = .next t ∧ GivesReg d v s t) ∧
    (s.mulHi = none → exec (.mulhi f d) s = .fault .mulhiUnpaired)) ∧
  (∀ (i : Instr) (s t : State), exec i s = .next t → t.mulHi ≠ none →
    (∃ f d a imm, i = .muli f d a imm ∧ executes f s = true) ∨
    (∃ f d a b, (i = .muls f d a b ∨ i = .mulu f d a b ∨ i = .mulus f d a b) ∧ executes f s = true))

/-! ## Bit fields -/

/-- `exb`, `exh`, `conb` and `conh`. -/
def Obligations.BytesAndHalfwords : Prop :=
  ∀ (f : Form) (d a b : Reg) (k : BitVec 2) (h : BitVec 1) (s : State), executes f s = true → CanAdvance s →
    (∃ t, exec (.exb f d a k) s = .next t ∧
      GivesReg d (BitVec.ofNat 32 ((readX a s).toNat / 2 ^ (8 * k.toNat) % 2 ^ 8)) s t) ∧
    (∃ t, exec (.exh f d a h) s = .next t ∧
      GivesReg d (BitVec.ofNat 32 (if h = 0#1 then (readX a s).toNat % 2 ^ 16 else (readX a s).toNat / 2 ^ 16)) s t) ∧
    (∃ t, exec (.conb f d a b) s = .next t ∧
      GivesReg d (BitVec.ofNat 32 (2 ^ 8 * ((readX a s).toNat % 2 ^ 8) + (readX b s).toNat % 2 ^ 8)) s t) ∧
    (∃ t, exec (.conh f d a b) s = .next t ∧
      GivesReg d (BitVec.ofNat 32 (2 ^ 16 * ((readX b s).toNat % 2 ^ 16) + (readX a s).toNat % 2 ^ 16)) s t)

/-- The field that `exbf` and `exbfi` extract, with zeros for positions above bit 31 (log 10); a length 33..63 leaves any
value in the destination and nothing else open (log 9). Both are the spec's own decision (R220, D16). -/
def Obligations.ExtractField : Prop :=
  ∀ (f : Form) (d a b : Reg) (len : BitVec 6) (lsb : BitVec 5) (s : State), executes f s = true → CanAdvance s →
    ((readX b s).toNat / 2 ^ 5 % 2 ^ 6 ≤ 32 →
      ∃ t, exec (.exbf f d a b) s = .next t ∧
        GivesReg d (BitVec.ofNat 32 ((readX a s).toNat / 2 ^ ((readX b s).toNat % 2 ^ 5)
          % 2 ^ ((readX b s).toNat / 2 ^ 5 % 2 ^ 6))) s t) ∧
    (32 < (readX b s).toNat / 2 ^ 5 % 2 ^ 6 → ∃ t v, exec (.exbf f d a b) s = .next t ∧ GivesReg d v s t) ∧
    (s.psr.il = true → len.toNat ≤ 32 →
      ∃ t, exec (.exbfi d a len lsb) s = .next t ∧
        GivesReg d (BitVec.ofNat 32 ((readX a s).toNat / 2 ^ lsb.toNat % 2 ^ len.toNat)) s t) ∧
    (s.psr.il = true → 32 < len.toNat → ∃ t v, exec (.exbfi d a len lsb) s = .next t ∧ GivesReg d v s t)

/-- `lli` clears the upper half; `lui` keeps the lower half of the register in the set that is written (log 30). -/
def Obligations.LoadConstant : Prop :=
  ∀ (d : Reg) (imm : BitVec 16) (s : State), s.psr.il = true → CanAdvance s →
    (∃ t, exec (.lli d imm) s = .next t ∧ GivesReg d (BitVec.ofNat 32 imm.toNat) s t) ∧
    (∃ t, exec (.lui d imm) s = .next t ∧
      GivesReg d (BitVec.ofNat 32 (2 ^ 16 * imm.toNat + (readSet s.psr.rswr d s).toNat % 2 ^ 16)) s t)

/-- R221: bits p..0 are kept, every bit above is bit p; `sext` takes p from the low five bits of its second source. -/
def Obligations.SignExtend : Prop :=
  ∀ (f : Form) (d a b : Reg) (p : BitVec 5) (s : State), executes f s = true → CanAdvance s →
    (∃ t r, exec (.sexti f d a p) s = .next t ∧ GivesReg d r s t ∧
      ∀ j < 32, r.getLsbD j = if j ≤ p.toNat then (readX a s).getLsbD j else (readX a s).getLsbD p.toNat) ∧
    (∃ t r, exec (.sext f d a b) s = .next t ∧ GivesReg d r s t ∧
      ∀ j < 32, r.getLsbD j = if j ≤ (readX b s).toNat % 2 ^ 5 then (readX a s).getLsbD j
        else (readX a s).getLsbD ((readX b s).toNat % 2 ^ 5))

/-! ## Logic and shifts -/

/-- The six Boolean instructions, bit by bit; no flag changes. -/
def Obligations.BooleanOps : Prop :=
  ∀ (f : Form) (d a b : Reg) (imm : Nat) (s : State), executes f s = true → CanAdvance s → imm < 2 ^ 15 →
    (∃ t r, exec (.and f d a b) s = .next t ∧ GivesReg d r s t ∧
      ∀ j, r.getLsbD j = ((readX a s).getLsbD j && (readX b s).getLsbD j)) ∧
    (∃ t r, exec (.or f d a b) s = .next t ∧ GivesReg d r s t ∧
      ∀ j, r.getLsbD j = ((readX a s).getLsbD j || (readX b s).getLsbD j)) ∧
    (∃ t r, exec (.xor f d a b) s = .next t ∧ GivesReg d r s t ∧
      ∀ j, r.getLsbD j = ((readX a s).getLsbD j != (readX b s).getLsbD j)) ∧
    (∃ t r, exec (.not f d a) s = .next t ∧ GivesReg d r s t ∧
      ∀ j < 32, r.getLsbD j = !(readX a s).getLsbD j) ∧
    (∃ t r, exec (.andi f d a imm) s = .next t ∧ GivesReg d r s t ∧
      ∀ j < 32, r.getLsbD j = ((readX a s).getLsbD j && imm.testBit j)) ∧
    (∃ t r, exec (.ori f d a imm) s = .next t ∧ GivesReg d r s t ∧
      ∀ j < 32, r.getLsbD j = ((readX a s).getLsbD j || imm.testBit j))

/-- `sll` and `slli`: at most 32 positions, also for an immediate above 32 (log 10); C is the last bit shifted out, 0 for no
shift. Right shifts fill with zeros or with bit 31 and change no flag; that "arithmetic" fills with the sign is the spec's
general knowledge (log 38). -/
def Obligations.Shifts : Prop :=
  ∀ (f : Form) (d a b : Reg) (imm : BitVec 6) (s : State), executes f s = true → CanAdvance s →
    (∃ t, exec (.sll f d a b) s = .next t ∧
      ∃ n, n = min ((readX b s).toNat % 2 ^ 6) 32 ∧
        GivesRegFlags d (readX a s <<< n)
          { z := decide (readX a s <<< n = 0#32)
            n := (readX a s <<< n).getLsbD 31
            c := decide (0 < n) && (readX a s).getLsbD (32 - n) } s t) ∧
    (∃ t, exec (.slli f d a imm) s = .next t ∧
      ∃ n, n = min imm.toNat 32 ∧
        GivesRegFlags d (readX a s <<< n)
          { z := decide (readX a s <<< n = 0#32)
            n := (readX a s <<< n).getLsbD 31
            c := decide (0 < n) && (readX a s).getLsbD (32 - n) } s t) ∧
    (∃ t, exec (.sra f d a b) s = .next t ∧
      GivesReg d ((readX a s).sshiftRight (min ((readX b s).toNat % 2 ^ 6) 32)) s t) ∧
    (∃ t, exec (.srai f d a imm) s = .next t ∧ GivesReg d ((readX a s).sshiftRight (min imm.toNat 32)) s t) ∧
    (∃ t, exec (.srl f d a b) s = .next t ∧
      GivesReg d (readX a s >>> min ((readX b s).toNat % 2 ^ 6) 32) s t) ∧
    (∃ t, exec (.srli f d a imm) s = .next t ∧ GivesReg d (readX a s >>> min imm.toNat 32) s t)

/-! ## Comparison, branches, jumps -/

/-- `cmp` and `cmpi` write the flags of the exact signed difference to the register they name, and nothing else; C is the
spec's default of SUB_CARRY (log 6). -/
def Obligations.Compare : Prop :=
  ∀ (w : Width) (k : CReg) (a b : Reg) (imm : Int) (s : State), CanAdvance s →
    -(2 : Int) ^ 16 ≤ imm → imm < (2 : Int) ^ 16 →
    (∃ t, exec (.cmp w k a b) s = .next t ∧
      GivesFlags k
        { z := decide (readX a s = readX b s)
          n := decide ((readX a s).toInt < (readX b s).toInt)
          c := decide ((readX b s).toNat ≤ (readX a s).toNat) } s t) ∧
    (∃ t, exec (.cmpi w k a imm) s = .next t ∧
      GivesFlags k
        { z := decide ((readX a s).toInt = imm)
          n := decide ((readX a s).toInt < imm)
          c := decide ((sext imm).toNat ≤ (readX a s).toNat) } s t)

/-- After `cmp` the eight conditions are the exact signed order, and c, nc the unsigned one, which is the spec's default of
SUB_CARRY (log 6). -/
def Obligations.CompareOrders : Prop :=
  ∀ (w : Width) (k : CReg) (a b : Reg) (s t : State), exec (.cmp w k a b) s = .next t →
    (executes (.cex .lt k) t = true ↔ (readX a s).toInt < (readX b s).toInt) ∧
    (executes (.cex .elt k) t = true ↔ (readX a s).toInt ≤ (readX b s).toInt) ∧
    (executes (.cex .gt k) t = true ↔ (readX b s).toInt < (readX a s).toInt) ∧
    (executes (.cex .egt k) t = true ↔ (readX b s).toInt ≤ (readX a s).toInt) ∧
    (executes (.cex .eq k) t = true ↔ readX a s = readX b s) ∧
    (executes (.cex .ne k) t = true ↔ readX a s ≠ readX b s) ∧
    (executes (.cex .c k) t = true ↔ (readX b s).toNat ≤ (readX a s).toNat) ∧
    (executes (.cex .nc k) t = true ↔ (readX a s).toNat < (readX b s).toNat)

/-- The eight branches: taken, the target waits for the slot; not taken, the slot is the next instruction and the
target is not checked (log 42). -/
def Obligations.Branches : Prop :=
  ∀ (cond : Cond) (w : Width) (k : CReg) (imm : Int) (s : State), s.delayedPc = none → CanAdvance s →
    (condTrue cond (readCr k s) = true →
      0 ≤ (s.pc.toNat : Int) + s.ilen + 2 * imm → (s.pc.toNat : Int) + s.ilen + 2 * imm < (2 : Int) ^ 32 →
      ((s.pc.toNat : Int) + s.ilen + 2 * imm) % s.ilen = 0 →
      (s.psr.um = true → instrAllowed .jump (BitVec.ofInt 32 ((s.pc.toNat : Int) + s.ilen + 2 * imm)) s = true) →
      ∃ t, exec (branchOf cond w k imm) s = .next t ∧
        Transfers (BitVec.ofInt 32 ((s.pc.toNat : Int) + s.ilen + 2 * imm)) s t) ∧
    (condTrue cond (readCr k s) = false → ∃ t, exec (branchOf cond w k imm) s = .next t ∧ OnlyEnds true s t)

/-- `jmp`, `jal`, `jmpr` and `jalr`: the target waits for the slot; the link is the address after the slot, in register
31 of the set that is written (log 30); a register target is read before the link is written. -/
def Obligations.Jumps : Prop :=
  ∀ (w : Width) (f : Form) (a : Reg) (imm : Int) (s : State), s.delayedPc = none → CanAdvance s →
    (∀ T : Int, T = (s.pc.toNat : Int) + s.ilen + 2 * imm → 0 ≤ T → T < (2 : Int) ^ 32 → T % s.ilen = 0 →
      (s.psr.um = true → instrAllowed .jump (BitVec.ofInt 32 T) s = true) →
      (∃ t, exec (.jmp w imm) s = .next t ∧ Transfers (BitVec.ofInt 32 T) s t) ∧
      (∃ t, exec (.jal w imm) s = .next t ∧ TransfersLinked (BitVec.ofInt 32 T) s t)) ∧
    (executes f s = true → (readX a s).toNat % s.ilen = 0 →
      (s.psr.um = true → instrAllowed .jump (readX a s) s = true) →
      (∃ t, exec (.jmpr f a) s = .next t ∧ Transfers (readX a s) s t) ∧
      (∃ t, exec (.jalr f a) s = .next t ∧ TransfersLinked (readX a s) s t))

/-- The exceptions of a taken transfer, in the order 04h, 03h, 09h (log 41); no link is written. -/
def Obligations.TransferExceptions : Prop :=
  ∀ (cond : Cond) (w : Width) (k : CReg) (imm : Int) (f : Form) (a : Reg) (s : State), s.delayedPc = none →
    ∀ T : Int, T = (s.pc.toNat : Int) + s.ilen + 2 * imm →
    (∀ i, (i = .jmp w imm ∨ i = .jal w imm ∨ (i = branchOf cond w k imm ∧ condTrue cond (readCr k s) = true)) →
      (T < 0 ∨ (2 : Int) ^ 32 ≤ T → ∃ t, exec i s = .next t ∧ Raised 0x04#8 s t) ∧
      (0 ≤ T → T < (2 : Int) ^ 32 → T % s.ilen ≠ 0 → ∃ t, exec i s = .next t ∧ Raised 0x03#8 s t) ∧
      (0 ≤ T → T < (2 : Int) ^ 32 → T % s.ilen = 0 → s.psr.um = true →
        instrAllowed .jump (BitVec.ofInt 32 T) s = false → ∃ t, exec i s = .next t ∧ Raised 0x09#8 s t)) ∧
    (executes f s = true → ∀ i, (i = .jmpr f a ∨ i = .jalr f a) →
      ((readX a s).toNat % s.ilen ≠ 0 → ∃ t, exec i s = .next t ∧ Raised 0x03#8 s t) ∧
      ((readX a s).toNat % s.ilen = 0 → s.psr.um = true → instrAllowed .jump (readX a s) s = false →
        ∃ t, exec i s = .next t ∧ Raised 0x09#8 s t))

/-- The slot of a taken transfer: another transfer, swm, reti, retu or scall that is executed stops the machine (log 13; a
false one passes, log 15); any instruction that completes there continues at the pending target, or has taken an exception
with EXCEPTION_PC the slot, which drops it (log 40). -/
def Obligations.BranchSlot : Prop :=
  ∀ (i : Instr) (s : State) (target : Word), s.delayedPc = some target →
    (i.notInSlot = true → (∀ f, i.condForm = some f → executes f s = true) → ((∃ w, i = .retu w) → s.psr.um = false) →
      exec i s = .fault .forbiddenInSlot) ∧
    (∀ t, exec i s = .next t → t.delayedPc = none ∧
      (t.pc = target ∨
        (t.pc = seen .exceptionEntry offExcepAddr s ∧ t.psr.toByte = 0x0E#8 ∧ t.ccb.exceptionPc = s.pc ∧
          t.ccb.exceptionPsr = s.psr.toByte)))

/-- A false condition: no effect but the end of the instruction, of all 41 instructions that may be conditional. That none
of the operation's exceptions is raised and `mul_hi` is lost is the spec's own decision D18; that a false `jmpr`, `jalr` or
`scall` passes also in a slot, and that a false `jmpr` or `jalr` keeps interrupts out of the next boundary, is the model's
choice (log 15 for all of this). -/
def Obligations.FalseCondition : Prop :=
  ∀ (i : Instr) (f : Form) (s : State), i.condForm = some f → executes f s = false → CanAdvance s →
    ∃ t, exec i s = .next t ∧ OnlyEnds (match i with | .jmpr _ _ => true | .jalr _ _ => true | _ => false) s t

/-! ## Memory, CCB, PCB, coprocessors -/

/-- The windows of a data access, with no CCB write in flight: CCB, then PCB, then memory
(log 27); the device sees the address ANDed with PCB_AMASK (log 26). -/
def Obligations.DataWindows : Prop :=
  ∀ (a : Word) (s : State), Settled s → s.ccb.ccbBase.toNat % 256 = 0 →
    (s.ccb.ccbBase.toNat ≤ a.toNat ∧ a.toNat ≤ s.ccb.ccbBase.toNat + 255 →
      windowOf a s = .ccb (BitVec.ofNat 8 (a.toNat - s.ccb.ccbBase.toNat))) ∧
    (¬(s.ccb.ccbBase.toNat ≤ a.toNat ∧ a.toNat ≤ s.ccb.ccbBase.toNat + 255) →
      (s.ccb.pcbBase.toNat ≤ a.toNat ∧ a.toNat ≤ s.ccb.pcbEnd.toNat →
        windowOf a s = .pcb (a &&& s.ccb.pcbAmask)) ∧
      (¬(s.ccb.pcbBase.toNat ≤ a.toNat ∧ a.toNat ≤ s.ccb.pcbEnd.toNat) → windowOf a s = .mem))

/-- R116: which data addresses user mode may access, and that super user mode may access all. -/
def Obligations.DataProtection : Prop :=
  ∀ (s : State) (ea : Int), Settled s → 0 ≤ ea → ea < (2 : Int) ^ 32 →
    (s.psr.um = false → dataFault ea s = none) ∧
    (s.psr.um = true → s.ccb.memConf.getLsbD 1 = true →
      (dataFault ea s = none ↔ ¬((s.ccb.dmemBoundLo.toNat : Int) ≤ ea ∧ ea ≤ s.ccb.dmemBoundHi.toNat))) ∧
    (s.psr.um = true → s.ccb.memConf.getLsbD 1 = false →
      (dataFault ea s = none ↔ ((s.ccb.dmemBoundLo.toNat : Int) ≤ ea ∧ ea ≤ s.ccb.dmemBoundHi.toNat))) ∧
    (s.psr.um = true → s.ccb = Ccb.reset → dataFault ea s = some 0x07#8) ∧
    ∀ a : Word, dataAllowed a s = true ↔
      if s.ccb.memConf.getLsbD 1 = true then ¬(s.ccb.dmemBoundLo.toNat ≤ a.toNat ∧ a.toNat ≤ s.ccb.dmemBoundHi.toNat)
      else s.ccb.dmemBoundLo.toNat ≤ a.toNat ∧ a.toNat ≤ s.ccb.dmemBoundHi.toNat

/-- `ld`: the word from memory, from the CCB (read back as it stands), or from the peripheral device (any value).
Windows and order are logs 26 and 27; that the CCB reads as it stands is log 11; that the core owns the bus after the
access is log 29. What stands at each offset of the CCB is the table of R45, with CORE_VER_ID at those it does not list
(log 23) and, for an empty hardware stack, `retiBase` behind the RETI registers (log 20). -/
def Obligations.Load : Prop :=
  (∀ (f : Form) (d a : Reg) (imm : Int) (s : State), executes f s = true → CanAdvance s →
    ∀ ea : Int, ea = ((readX a s).toNat : Int) + imm → 0 ≤ ea → ea < (2 : Int) ^ 32 →
    (s.psr.um = true → dataAllowed (BitVec.ofInt 32 ea) s = true) →
    (windowOf (BitVec.ofInt 32 ea) s = .mem →
      ∃ t, exec (.ld f d a imm) s = .next t ∧ OnlyReg d (s.readData (BitVec.ofInt 32 ea)) s t ∧ SameFlags s t ∧
        SameMemory s t ∧ SameSystem s t ∧ SameStatus s t ∧ t.outputs = s.outputs ∧ t.busToken = .core ∧ Ends s t) ∧
    (∀ off, windowOf (BitVec.ofInt 32 ea) s = .ccb off →
      ∃ t, exec (.ld f d a imm) s = .next t ∧ GivesReg d (ccbRead off s) s t) ∧
    (∀ p, windowOf (BitVec.ofInt 32 ea) s = .pcb p →
      ∃ t v, exec (.ld f d a imm) s = .next t ∧ OnlyReg d v s t ∧ SameFlags s t ∧ SameMemory s t ∧ SameSystem s t ∧
        SameStatus s t ∧ t.outputs = .pcbRead p :: s.outputs ∧ t.busToken = .core ∧ Ends s t)) ∧
  (∀ s : State,
    (∀ src : Source, ccbRead (BitVec.ofNat 8 (4 + src.val)) s = s.ccb.intVec[src]) ∧
    ccbRead 0x00#8 s = s.ccb.ccbBase ∧ ccbRead 0x01#8 s = s.ccb.pcbBase ∧ ccbRead 0x02#8 s = s.ccb.pcbEnd ∧
    ccbRead 0x03#8 s = s.ccb.pcbAmask ∧ ccbRead 0x10#8 s = s.ccb.intModeIl.setWidth 32 ∧
    ccbRead 0x11#8 s = s.ccb.intModeUm.setWidth 32 ∧ ccbRead 0x12#8 s = s.ccb.intMask.setWidth 32 ∧
    ccbRead 0x13#8 s = s.ccb.intServ.setWidth 32 ∧ ccbRead 0x14#8 s = s.ccb.intPend.setWidth 32 ∧
    ccbRead 0x15#8 s = s.ccb.extIntPri ∧ ccbRead 0x16#8 s = s.ccb.copIntPri.setWidth 32 ∧
    ccbRead 0x17#8 s = s.ccb.exceptionCs.setWidth 32 ∧ ccbRead 0x18#8 s = s.ccb.exceptionPc ∧
    ccbRead 0x19#8 s = s.ccb.exceptionPsr.setWidth 32 ∧ ccbRead 0x1A#8 s = s.ccb.dmemBoundLo ∧
    ccbRead 0x1B#8 s = s.ccb.dmemBoundHi ∧ ccbRead 0x1C#8 s = s.ccb.imemBoundLo ∧
    ccbRead 0x1D#8 s = s.ccb.imemBoundHi ∧ ccbRead 0x1E#8 s = s.ccb.memConf.setWidth 32 ∧
    ccbRead 0x1F#8 s = s.ccb.systemAddr ∧ ccbRead 0x20#8 s = s.ccb.excepAddr ∧
    ccbRead 0x21#8 s = s.ccb.busConf.setWidth 32 ∧ ccbRead 0x22#8 s = s.ccb.copConf.setWidth 32 ∧
    ccbRead 0x23#8 s = s.ccb.tmr0Cnt ∧ ccbRead 0x24#8 s = s.ccb.tmr0Max ∧ ccbRead 0x25#8 s = s.ccb.tmr1Cnt ∧
    ccbRead 0x26#8 s = s.ccb.tmr1Max ∧ ccbRead 0x27#8 s = s.ccb.tmrConf ∧
    (∀ e, e = s.hwstack.headD s.retiBase →
      ccbRead 0x28#8 s = e.addr ∧ ccbRead 0x29#8 s = e.psr.setWidth 32 ∧ ccbRead 0x2A#8 s = e.cr0.setWidth 32) ∧
    ∀ off : BitVec 8, 0x2C ≤ off.toNat → ccbRead off s = Config.coreVerId)

/-- `st` to memory and to the peripheral device: one cell, or one access, and nothing else. That every other address and
all of instruction memory read as before is the spec's default of DMEM_UNIT and of IMEM_SHARED (logs 1 and 2); the windows
and the masked address are logs 26 and 27, the owner of the bus is log 29. -/
def Obligations.Store : Prop :=
  ∀ (f : Form) (b a : Reg) (imm : Int) (s : State), Canonical s → executes f s = true → CanAdvance s →
    ∀ ea : Int, ea = ((readX a s).toNat : Int) + imm → 0 ≤ ea → ea < (2 : Int) ^ 32 →
    (s.psr.um = true → dataAllowed (BitVec.ofInt 32 ea) s = true) →
    (windowOf (BitVec.ofInt 32 ea) s = .mem →
      ∃ t, exec (.st f b a imm) s = .next t ∧ OnlyCell (BitVec.ofInt 32 ea) (readX b s) s t ∧ SameRegs s t ∧
        SameFlags s t ∧ SameSystem s t ∧ SameStatus s t ∧ t.outputs = s.outputs ∧ t.busToken = .core ∧ Ends s t) ∧
    (∀ p, windowOf (BitVec.ofInt 32 ea) s = .pcb p →
      ∃ t, exec (.st f b a imm) s = .next t ∧ SameMemory s t ∧ SameRegs s t ∧ SameFlags s t ∧ SameSystem s t ∧
        SameStatus s t ∧ t.outputs = .pcbWrite p (readX b s) :: s.outputs ∧ t.busToken = .core ∧ Ends s t)

/-- `st` to the CCB: the low bits of a writable register, at once for a later `ld`, with the replaced value remembered for
implicit users (log 11), and no other register; nothing at a read-only register or an unused offset (log 23); a value with
a non-zero bit in 7..0 for CCB_BASE stops the machine (log 13). With an empty hardware stack the RETI registers are
`retiBase` (log 20). -/
def Obligations.StoreCcb : Prop :=
  ∀ (f : Form) (b a : Reg) (imm : Int) (s : State), executes f s = true → CanAdvance s →
    ∀ ea : Int, ea = ((readX a s).toNat : Int) + imm → 0 ≤ ea → ea < (2 : Int) ^ 32 →
    (s.psr.um = true → dataAllowed (BitVec.ofInt 32 ea) s = true) →
    ∀ off, windowOf (BitVec.ofInt 32 ea) s = .ccb off →
      (off = 0#8 → (readX b s).toNat % 256 ≠ 0 → exec (.st f b a imm) s = .fault .ccbBaseUnaligned) ∧
      ((off = 0#8 → (readX b s).toNat % 256 = 0) →
      ∃ t, exec (.st f b a imm) s = .next t ∧
        (ccbWidth off ≠ 0 → (ccbRead off t).toNat = (readX b s).toNat % 2 ^ ccbWidth off) ∧
        (ccbWidth off = 0 → ccbRead off t = ccbRead off s) ∧
        (∀ o, o ≠ off → ccbRead o t = ccbRead o s) ∧
        (ccbWidth off ≠ 0 →
          t.ccbInflight = { offset := off, old := ccbRead off s, age := 1 } :: ageCcb 1 s.ccbInflight) ∧
        (ccbWidth off = 0 → t.ccbInflight = ageCcb 1 s.ccbInflight) ∧
        SameMemory s t ∧ SameRegs s t ∧ SameFlags s t ∧ SameStatus s t ∧ Quiet s t ∧
        t.hwstack.length = s.hwstack.length ∧ t.hwstack.tail = s.hwstack.tail ∧ t.servOrder = s.servOrder ∧
        SameBehind s { t with retiBase := s.retiBase } ∧ (s.hwstack ≠ [] → t.retiBase = s.retiBase) ∧
        t.acceptWait = s.acceptWait ∧
        t.pc = followingPc s ∧ t.delayedPc = none ∧ t.mulHi = none ∧ t.intBlock = false)

/-- The exceptions of `ld` and `st`: 07h before 08h (log 41), protection judged on the address modulo 2^32 (log 27); no
access is made, nothing but the exception's registers changes, but for a hardware stack that is not empty and that `reti`
behind it may have popped (R334, log 21), with which writes to the RETI registers in flight are forgotten (log 11). `reti`
is behind it where the bytes at pc + ilen, below 2^32 (log 21), decode to it in the current mode; that stores do not bear
on this is the spec's default of IMEM_SHARED (log 2). -/
def Obligations.DataExceptions : Prop :=
  (∀ (f : Form) (d a : Reg) (imm : Int) (s : State), executes f s = true →
    ∀ ea : Int, ea = ((readX a s).toNat : Int) + imm →
    ∀ c : BitVec 8,
      ((s.psr.um = true ∧ dataAllowed (BitVec.ofInt 32 ea) s = false ∧ c = 0x07#8) ∨
        ((s.psr.um = true → dataAllowed (BitVec.ofInt 32 ea) s = true) ∧ (ea < 0 ∨ (2 : Int) ^ 32 ≤ ea) ∧
          c = 0x08#8)) →
    ∀ i, (i = .ld f d a imm ∨ i = .st f d a imm) →
      ∃ t, exec i s = .next t ∧
        (Raised c s t ∨
          (retiFollows s = true ∧ s.hwstack ≠ [] ∧
            Raised c { s with hwstack := s.hwstack.tail, ccbInflight := dropRetiWrites s.ccbInflight } t))) ∧
  (∀ s : State, retiFollows s = true ↔ s.pc.toNat + s.ilen < 2 ^ 32 ∧
    ∃ w, decodeBytes s.psr.width (s.codeBytes (s.pc + BitVec.ofNat 32 s.ilen) s.ilen) = .ok (.reti w))

/-- What `st` puts in memory, the next `ld` of the address reads; loads of other addresses read what they did, which is the
spec's default of DMEM_UNIT, a cell per address (log 1). -/
def Obligations.LoadAfterStore : Prop :=
  ∀ (f f' : Form) (b a d c : Reg) (imm imm' : Int) (s t u : State), executes f s = true → executes f' s = true →
    Canonical s → s.psr.um = false → Settled s →
    ∀ ea : Int, ea = ((readX a s).toNat : Int) + imm → 0 ≤ ea → ea < (2 : Int) ^ 32 →
    windowOf (BitVec.ofInt 32 ea) s = .mem →
    exec (.st f b a imm) s = .next t → exec (.ld f' d c imm') t = .next u →
    ∀ ea' : Int, ea' = ((readX c t).toNat : Int) + imm' → 0 ≤ ea' → ea' < (2 : Int) ^ 32 →
    windowOf (BitVec.ofInt 32 ea') s = .mem → ¬(s.psr.rswr = true ∧ d = 29#5) →
      readSet s.psr.rswr d u = if ea' = ea then readX b s else s.readData (BitVec.ofInt 32 ea')

/-- `cop`, `movtc` and `movfc`: one access of the coprocessor, and for `movfc` whatever it answers in the register. That
the 24-bit word of `cop` is sent zero extended is the spec's own choice D53, and that the devices are outside the core, a
read giving any word, is D32 (log 25 for both). -/
def Obligations.Coprocessor : Prop :=
  ∀ (f : Form) (k : BitVec 2) (d a : Reg) (r : BitVec 5) (w : BitVec 24) (s : State), CanAdvance s →
    (s.psr.il = true → Settled s →
      ∃ t, exec (.cop k w) s = .next t ∧
        t.outputs = .copWrite k (BitVec.ofNat 5 (s.ccb.copConf.toNat / 2 ^ (5 * k.toNat))) (w.setWidth 32) :: s.outputs ∧
        t.busToken = s.busToken ∧ SameRegs s t ∧ SameFlags s t ∧ SameMemory s t ∧ SameSystem s t ∧ SameStatus s t ∧
        Ends s t) ∧
    (executes f s = true →
      ∃ t, exec (.movtc f k r a) s = .next t ∧ t.outputs = .copWrite k r (readX a s) :: s.outputs ∧
        t.busToken = s.busToken ∧ SameRegs s t ∧ SameFlags s t ∧ SameMemory s t ∧ SameSystem s t ∧ SameStatus s t ∧
        Ends s t) ∧
    (executes f s = true →
      ∃ t v, exec (.movfc f k d r) s = .next t ∧ OnlyReg d v s t ∧ t.outputs = .copRead k r :: s.outputs ∧
        t.busToken = s.busToken ∧ SameFlags s t ∧ SameMemory s t ∧ SameSystem s t ∧ SameStatus s t ∧ Ends s t)

/-! ## System instructions -/

/-- `nop`, `rcon` and `scon`; bits 31..24 of what `scon` stores are 0, those that `rcon` reads are ignored; the order of
the bits is the spec's default of CR_PACK (log 7). -/
def Obligations.NopAndConditionRegisters : Prop :=
  ∀ (w : Width) (d a : Reg) (s : State), CanAdvance s →
    (∃ t, exec (.nop w) s = .next t ∧ OnlyEnds false s t) ∧
    (∃ t, exec (.rcon w a) s = .next t ∧ SameRegs s t ∧ OnlyComputes s t ∧ Ends s t ∧
      ∀ k : CReg, readCr k t =
        { z := (readX a s).getLsbD (3 * k.toNat + 2), n := (readX a s).getLsbD (3 * k.toNat + 1)
          c := (readX a s).getLsbD (3 * k.toNat) }) ∧
    (∃ t v, exec (.scon w d) s = .next t ∧ GivesReg d v s t ∧ v.toNat < 2 ^ 24 ∧
      ∀ k : CReg, v.getLsbD (3 * k.toNat + 2) = (readCr k s).z ∧ v.getLsbD (3 * k.toNat + 1) = (readCr k s).n ∧
        v.getLsbD (3 * k.toNat) = (readCr k s).c)

/-- `chrs`, `di` and `ei` in super user mode; the window after `di` is log 16, what `ei` settles log 11. -/
def Obligations.StatusInstructions : Prop :=
  ∀ (w : Width) (imm : BitVec 2) (s : State), s.psr.um = false → CanAdvance s →
    (∃ t, exec (.chrs w imm) s = .next t ∧
      t.psr = { s.psr with rswr := imm.getLsbD 1, rsrd := imm.getLsbD 0 } ∧ t.diWindow = s.diWindow ∧
      t.ccbInflight = ageCcb 1 s.ccbInflight ∧ ChangesPsrOnly s t) ∧
    (∃ t, exec (.di w) s = .next t ∧ t.psr = { s.psr with ie := false } ∧ t.diWindow = s.psr.ie ∧
      t.ccbInflight = ageCcb 1 s.ccbInflight ∧ ChangesPsrOnly s t) ∧
    (∃ t, exec (.ei w) s = .next t ∧ t.psr = { s.psr with ie := true } ∧ t.diWindow = s.diWindow ∧
      t.ccbInflight = ageCcb 1 (settleForEi s.ccbInflight) ∧ ChangesPsrOnly s t)

/-- Illegal instruction, code 02h: `chrs`, `di`, `ei`, `retu` in user mode; `exbfi`, `lli`, `lui`, `cop` in 16-bit mode,
whatever the operands; and the decoder sends the 16-bit words of those opcodes there whatever their other bits, which is
SPEC-ENC (logs 4, 14). -/
def Obligations.IllegalInstruction : Prop :=
  (∀ (w : Width) (imm : BitVec 2) (i : Instr) (s : State), s.psr.um = true →
    (i = .chrs w imm ∨ i = .di w ∨ i = .ei w ∨ i = .retu w) → ∃ t, exec i s = .next t ∧ Raised 0x02#8 s t) ∧
  (∀ (d a : Reg) (len : BitVec 6) (lsb : BitVec 5) (c : BitVec 16) (k : BitVec 2) (w : BitVec 24) (i : Instr) (s : State),
    s.psr.il = false → (i = .exbfi d a len lsb ∨ i = .lli d c ∨ i = .lui d c ∨ i = .cop k w) →
    ∃ t, exec i s = .next t ∧ Raised 0x02#8 s t) ∧
  (∀ h : BitVec 16, h.toNat / 2 ^ 10 = 0x11 ∨ h.toNat / 2 ^ 10 = 0x13 ∨ h.toNat / 2 ^ 10 = 0x37 →
    decode16 h = .illegal16)

/-- `swm` to 16-bit and to 32-bit mode, over its two slots in the same step (log 32); any other immediate stops the machine
(log 13). -/
def Obligations.SwitchMode : Prop :=
  ∀ (w : Width) (imm : BitVec 6) (s : State), s.delayedPc = none →
    (imm.toNat = 16 → SlotOk 1 s → s.pc.toNat + 2 * s.ilen + 2 < 2 ^ 32 →
      NopAt .w16 (BitVec.ofNat 32 (s.pc.toNat + 2 * s.ilen)) s →
      (s.psr.um = true → instrAllowed (.slot 2) (BitVec.ofNat 32 (s.pc.toNat + 2 * s.ilen)) s = true) →
      ∃ t, exec (.swm w imm) s = .next t ∧ t.psr = { s.psr with il := false } ∧
        t.pc = BitVec.ofNat 32 (s.pc.toNat + 2 * s.ilen + 2) ∧ AfterSlots 3 s t ∧ SameSystem s t) ∧
    (imm.toNat = 32 → SlotOk 1 s → (s.pc.toNat + 2 * s.ilen) / 4 * 4 + 4 < 2 ^ 32 →
      NopAt .w32 (BitVec.ofNat 32 ((s.pc.toNat + 2 * s.ilen) / 4 * 4)) s →
      (s.psr.um = true → instrAllowed (.slot 2) (BitVec.ofNat 32 ((s.pc.toNat + 2 * s.ilen) / 4 * 4)) s = true) →
      ∃ t, exec (.swm w imm) s = .next t ∧ t.psr = { s.psr with il := true } ∧
        t.pc = BitVec.ofNat 32 ((s.pc.toNat + 2 * s.ilen) / 4 * 4 + 4) ∧ AfterSlots 3 s t ∧ SameSystem s t) ∧
    (imm.toNat ≠ 16 → imm.toNat ≠ 32 → exec (.swm w imm) s = .fault .swmReserved)

/-- `reti`: it completes from every non-empty hardware stack, with what the RETI registers show an implicit user; with no
write in flight PC, PSR and C0 are those of the top entry (the order of the bits of the C0 image is log 7), the newest
source goes out of service (log 22), and nothing else changes; on an empty stack the machine stops (logs 13, 20). Its slots
run in the same step (log 32), and its target is checked when it is fetched (log 31). -/
def Obligations.ReturnFromInterrupt : Prop :=
  ∀ (w : Width) (s : State), s.delayedPc = none →
    (s.hwstack ≠ [] → SlotOk 1 s → SlotOk 2 s → SlotOk 3 s →
      ∃ t, exec (.reti w) s = .next t ∧ t.pc = seen .reti offRetiAddr s ∧
        t.psr.toByte = (seen .reti offRetiPsr s).setWidth 8 &&& 0x1F#8 ∧ t.hwstack = s.hwstack.tail ∧
        t.servOrder = s.servOrder.tail) ∧
    (∀ (e : StackEntry) (rest : List StackEntry) (src : Source) (older : List Source), Settled s →
      s.hwstack = e :: rest → s.servOrder = src :: older → SlotOk 1 s → SlotOk 2 s → SlotOk 3 s →
      ∃ t, exec (.reti w) s = .next t ∧ t.pc = e.addr ∧ t.psr.toByte = e.psr &&& 0x1F#8 ∧
        readCr 0 t = { z := e.cr0.getLsbD 2, n := e.cr0.getLsbD 1, c := e.cr0.getLsbD 0 } ∧
        (∀ k, k ≠ 0#3 → readCr k t = readCr k s) ∧
        t.hwstack = rest ∧ t.servOrder = older ∧
        (∀ x : Source, t.ccb.intServ.getLsbD x.val = (s.ccb.intServ.getLsbD x.val && decide (x ≠ src))) ∧
        { t.ccb with intServ := s.ccb.intServ } = s.ccb ∧
        t.outputs = (if 4 ≤ src.val then .intDone src :: s.outputs else s.outputs) ∧
        t.set1 = s.set1 ∧ t.set2 = s.set2 ∧ t.spsr = s.spsr ∧ t.pr31 = s.pr31 ∧ SameMemory s t ∧
        t.delayedPc = none ∧ t.mulHi = none ∧ t.intBlock = false ∧ t.diWindow = s.diWindow ∧ SameBehind s t ∧
        t.acceptWait = s.acceptWait ∧ t.busToken = s.busToken ∧ t.ccbInflight = [] ∧
        t.spsrInflight = ageSpsr 4 s.spsrInflight) ∧
    (s.hwstack = [] → exec (.reti w) s = .fault .retiEmptyStack)

/-- `retu` in super user mode: user mode, SET 1, IE and IL from SPSR (log 30), PC from PR31, checked when it is fetched
(log 31); its slot runs in the same step (log 32). -/
def Obligations.ReturnToUser : Prop :=
  ∀ (w : Width) (s : State), s.psr.um = false → s.delayedPc = none → SlotOk 1 s →
    ∃ t, exec (.retu w) s = .next t ∧ t.pc = s.pr31 ∧
      t.psr = { ie := s.spsr.getLsbD 4, il := s.spsr.getLsbD 3, rswr := false, rsrd := false, um := true } ∧
      AfterSlots 2 s t ∧ SameSystem s t

/-- `scall`: PSR to SPSR bits 7..0 with the others kept (log 30), the address after the slot to PR31, PSR = 0Eh, PC from
SYSTEM_ADDR, checked when it is fetched (log 31); with writes of SPSR just before it, bits 31..8 are any of the values it
held (log 12). Its slot runs in the same step (log 32). -/
def Obligations.SystemCall : Prop :=
  ∀ (f : Form) (s : State), executes f s = true → s.delayedPc = none → SlotOk 1 s → Settled s →
    ∃ t, exec (.scall f) s = .next t ∧ t.pc = s.ccb.systemAddr ∧ t.psr.toByte = 0x0E#8 ∧
      t.pr31 = s.pc + BitVec.ofNat 32 (2 * s.ilen) ∧ t.spsr.toNat % 2 ^ 8 = s.psr.toByte.toNat ∧
      (s.spsrInflight = [] → t.spsr.toNat / 2 ^ 8 = s.spsr.toNat / 2 ^ 8) ∧
      (∃ v, (v = s.spsr ∨ ∃ x ∈ s.spsrInflight, v = x.old) ∧ t.spsr.toNat / 2 ^ 8 = v.toNat / 2 ^ 8) ∧
      t.set1 = s.set1 ∧ t.set2 = s.set2 ∧ SameFlags s t ∧ SameMemory s t ∧ SameSystem s t ∧ Quiet s t ∧
      t.delayedPc = none ∧ t.mulHi = none ∧ t.intBlock = false ∧ t.diWindow = s.diWindow ∧
      t.ccbInflight = ageCcb 2 s.ccbInflight ∧ t.spsrInflight = ageSpsr 2 s.spsrInflight

/-- A mandatory slot that lies where the mode may fetch and does not hold `nop` stops the machine (logs 13, 32): each of the three slots
of `reti`, the slot of `retu` and of `scall`, both slots of `swm` (the second in the new mode). -/
def Obligations.SlotMustBeNop : Prop :=
  ∀ (w : Width) (f : Form) (s : State), s.delayedPc = none →
    (∀ n, 1 ≤ n → n ≤ 3 → (∀ m, 1 ≤ m → m < n → SlotOk m s) → SlotNotNop n s → s.hwstack ≠ [] →
      exec (.reti w) s = .fault .retiSlotNotNop) ∧
    (SlotNotNop 1 s →
      (s.psr.um = false → exec (.retu w) s = .fault .retuSlotNotNop) ∧
      (executes f s = true → exec (.scall f) s = .fault .scallSlotNotNop) ∧
      (exec (.swm w 16#6) s = .fault .swmSlotNotNop) ∧
      (exec (.swm w 32#6) s = .fault .swmSlotNotNop)) ∧
    (SlotOk 1 s → ∀ (imm : BitVec 6) (v : Width) (a : Nat),
      ((imm = 16#6 ∧ v = .w16 ∧ a = s.pc.toNat + 2 * s.ilen) ∨
        (imm = 32#6 ∧ v = .w32 ∧ a = (s.pc.toNat + 2 * s.ilen) / 4 * 4)) →
      a < 2 ^ 32 → (s.psr.um = true → instrAllowed (.slot 2) (BitVec.ofNat 32 a) s = true) →
      ¬NopAt v (BitVec.ofNat 32 a) s → exec (.swm w imm) s = .fault .swmSlotNotNop)

/-- R330: exception entry, of any code; a `ld` sees the three registers at once. That EXCEP_ADDR is used with four guards
and that writes in flight are one instruction older behind an instruction's exception, that of `trap` among them, and as
old as before behind a fetch's, is the model's reading (logs 11, 12). -/
def Obligations.ExceptionEntry : Prop :=
  ∀ (c : BitVec 8) (s : State),
    (∃ t, raise c s = .next t ∧ Raised c s t ∧ (Settled s → t.pc = s.ccb.excepAddr) ∧
      ccbRead 0x17#8 t = c.setWidth 32 ∧ ccbRead 0x18#8 t = s.pc ∧ ccbRead 0x19#8 t = s.psr.toByte.setWidth 32) ∧
    (c ≠ 0x02#8 → ∃ t, fetchException c s = .next t ∧ RaisedAtFetch c s t) ∧
    ∀ (w : Width) (imm : BitVec 5), exec (.trap w imm) s = raise (BitVec.ofNat 8 (0xE0 + imm.toNat)) s

/-- R327: `trap imm` raises code E0h + imm at its own address. -/
def Obligations.Trap : Prop :=
  ∀ (w : Width) (imm : BitVec 5) (s : State),
    ∃ t, exec (.trap w imm) s = .next t ∧ EntersException (BitVec.ofNat 8 (0xE0 + imm.toNat)) s t

/-- The exceptions of a fetch: 05h before 00h (log 41), EXCEPTION_PC the address fetched, writes in flight no older (log
11); and 02h for a 32-bit-only opcode. Where user mode may fetch or jump, with no CCB write in flight (R117): outside the
bounds, ends included, with bit 0 of MEM_CONF set, inside with it clear, and nowhere with the reset values. -/
def Obligations.FetchExceptions : Prop :=
  ∀ s : State,
    (s.pc.toNat % s.ilen ≠ 0 → ∃ t, runInstruction s = .next t ∧ RaisedAtFetch 0x05#8 s t) ∧
    (s.pc.toNat % s.ilen = 0 → s.psr.um = true → instrAllowed .fetch s.pc s = false →
      ∃ t, runInstruction s = .next t ∧ RaisedAtFetch 0x00#8 s t) ∧
    (s.pc.toNat % s.ilen = 0 → (s.psr.um = true → instrAllowed .fetch s.pc s = true) →
      decodeBytes s.psr.width (s.codeBytes s.pc s.ilen) = .illegal16 →
      ∃ t, runInstruction s = .next t ∧ Raised 0x02#8 s t) ∧
    (Settled s → ∀ (use : CcbUse) (a : Word),
      (s.ccb.memConf.getLsbD 0 = true → (instrAllowed use a s = true ↔
        ¬(s.ccb.imemBoundLo.toNat ≤ a.toNat ∧ a.toNat ≤ s.ccb.imemBoundHi.toNat))) ∧
      (s.ccb.memConf.getLsbD 0 = false → (instrAllowed use a s = true ↔
        s.ccb.imemBoundLo.toNat ≤ a.toNat ∧ a.toNat ≤ s.ccb.imemBoundHi.toNat)) ∧
      (s.ccb = Ccb.reset → instrAllowed use a s = false))

/-! ## Interrupts and timers -/

/-- Which request is acceptable, by the predicate of R346 with rank (priority, source number), in which masked requests take
no part (log 43); with the external handler
the priority of an external source is 15 whatever EXT_INT_PRI says (R348). -/
def Obligations.AcceptableRequest : Prop :=
  ∀ (s : State) (src : Source), Settled s →
    ∀ rank : Source → Nat,
      (∀ x, rank x = 12 * (if x.val < 4 then s.ccb.copIntPri.toNat / 2 ^ (4 * x.val) % 16
        else if s.extHandler then 15
        else s.ccb.extIntPri.toNat / 2 ^ (4 * (x.val - 4)) % 16) + x.val) →
    (acceptable s = some src ↔
      (s.psr.ie = true ∨ s.diWindow = true) ∧
      s.ccb.intPend.getLsbD src.val = true ∧ s.ccb.intMask.getLsbD src.val = true ∧
      (∀ t, t ≠ src → s.ccb.intPend.getLsbD t.val = true → s.ccb.intMask.getLsbD t.val = true → rank src < rank t) ∧
      (∀ t, s.ccb.intServ.getLsbD t.val = true → rank src < rank t))

/-- When an acceptable request is taken: never at a blocked boundary, only when it is the acceptable one, with the state
as it stands. One that has just become acceptable is declined at `Config.acceptDelay` boundaries, an open number; while it
stays acceptable the number falls by one at every boundary that is not blocked, and at 0 it is taken; a blocked boundary
keeps it (log 16). -/
def Obligations.InterruptBoundary : Prop :=
  ∀ (s : State) (src : Source),
    (∀ u, atBoundary s = .taken src u →
      u = s ∧ acceptable s = some src ∧ s.intBlock = false ∧ s.delayedPc = none) ∧
    (acceptable s = some src → s.intBlock = false → s.delayedPc = none →
      ∀ n, (s.acceptWait = some (src, n) ∨
          ((∀ m, s.acceptWait ≠ some (src, m)) ∧ n = Config.acceptDelay s.freeCount)) →
        (n = 0 → atBoundary s = .taken src s) ∧
        (∀ m, n = m + 1 → atBoundary s = .goOn { s with diWindow := false, acceptWait := some (src, m) })) ∧
    (acceptable s = some src → s.intBlock = true ∨ s.delayedPc ≠ none →
      atBoundary s = .goOn { s with diWindow := false }) ∧
    (acceptable s = none → atBoundary s = .goOn { s with diWindow := false, acceptWait := none })

/-- Interrupt entry: pc, PSR and C0 stacked (the order of the bits of the C0 image is log 7), the source in service and no
longer pending, PSR and pc of the routine, SET 1 exactly for a routine in user mode (log 30), nothing else changed; with twelve entries stacked the machine stops (log 20). -/
def Obligations.InterruptEntry : Prop :=
  ∀ (src : Source) (s : State), Settled s →
    (12 ≤ s.hwstack.length → interruptEntry src s = .fault .hwstackOverflow) ∧
    (s.hwstack.length < 12 →
      ∃ t, interruptEntry src s = .next t ∧
        (∃ e, t.hwstack = e :: s.hwstack ∧ e.addr = s.pc ∧ e.psr = s.psr.toByte ∧
          e.cr0.getLsbD 2 = (readCr 0 s).z ∧ e.cr0.getLsbD 1 = (readCr 0 s).n ∧ e.cr0.getLsbD 0 = (readCr 0 s).c) ∧
        t.servOrder = src :: s.servOrder ∧
        (∀ x : Source, t.ccb.intServ.getLsbD x.val = (s.ccb.intServ.getLsbD x.val || decide (x = src))) ∧
        (∀ x : Source, t.ccb.intPend.getLsbD x.val = (s.ccb.intPend.getLsbD x.val && decide (x ≠ src))) ∧
        { t.ccb with intServ := s.ccb.intServ, intPend := s.ccb.intPend } = s.ccb ∧
        t.psr = { ie := false, il := s.ccb.intModeIl.getLsbD src.val, rswr := !s.ccb.intModeUm.getLsbD src.val,
                  rsrd := !s.ccb.intModeUm.getLsbD src.val, um := s.ccb.intModeUm.getLsbD src.val } ∧
        (s.extHandler = false ∨ src.val < 4 → t.pc = s.ccb.intVec[src]) ∧
        (s.extHandler = true → ∀ h : 4 ≤ src.val,
          t.pc.toNat = s.ccb.intVec[src].toNat / 2 ^ 12 * 2 ^ 12
            + 16 * (s.extOffset[src.val - 4]'(by have := src.isLt; omega)).toNat) ∧
        t.outputs = (if 4 ≤ src.val then .intAck src :: s.outputs else s.outputs) ∧
        t.diWindow = false ∧ t.mulHi = none ∧ t.cr = s.cr ∧ t.set1 = s.set1 ∧ t.set2 = s.set2 ∧ t.spsr = s.spsr ∧
        t.pr31 = s.pr31 ∧ SameMemory s t ∧ SameBehind s t ∧ t.busToken = s.busToken ∧ t.delayedPc = s.delayedPc ∧
        t.intBlock = s.intBlock ∧ t.acceptWait = none ∧ t.ccbInflight = [] ∧ t.spsrInflight = s.spsrInflight)

/-- The events of the environment (log 17), of which a step applies those at the head of its schedule in their order,
before the timers' turn (log 18), the decision at the boundary, and then an interrupt entry or an instruction. A
request sets its INT_PEND bit and, with the external handler, latches its OFFSET (logs 36, 44); nothing else changes. A
reset is the core's reset (log 19). The other masters of the data bus take and give back its token and, only while they
own it, write one cell of data memory (log 29; a cell per address, and none of instruction memory, by logs 1 and 2). -/
def Obligations.RequestCapture : Prop :=
  (∀ (src : Source) (o : BitVec 8) (s t : State), t = applyEvent (.request src o) s →
    (∀ x : Source, t.ccb.intPend.getLsbD x.val = (s.ccb.intPend.getLsbD x.val || decide (x = src))) ∧
    (s.extHandler = false ∨ src.val < 4 → t.extOffset = s.extOffset) ∧
    (s.extHandler = true → ∀ k : Fin 8, t.extOffset[k] = if src.val = k.val + 4 then o else s.extOffset[k]) ∧
    { t with ccb := { t.ccb with intPend := s.ccb.intPend }, extOffset := s.extOffset } = s) ∧
  (∀ s : State, applyEvent .reset s = coreReset s ∧
    applyEvent .busRequest s = { s with busToken := .external } ∧
    applyEvent .busRelease s = { s with busToken := .core }) ∧
  (∀ (a v : Word) (s t : State), Canonical s → t = applyEvent (.masterWrite a v) s →
    (s.busToken = .core → t = s) ∧
    (s.busToken = .external → OnlyCell a v s t ∧ { t with dmem := s.dmem } = s)) ∧
  (∀ s : State, (s.inputs = [] → applyInputs s = s) ∧
    ∀ es rest, s.inputs = es :: rest →
      applyInputs s = es.foldl (fun u e => applyEvent e u) { s with inputs := rest }) ∧
  (∀ s : State, beforeBoundary s = tickTimers (applyInputs { s with freeCount := s.freeCount + 1 }) ∧
    (∀ src u, atBoundary (beforeBoundary s) = .taken src u → step s = interruptEntry src u) ∧
    ∀ u, atBoundary (beforeBoundary s) = .goOn u → step s = runInstruction u)

/-- Either timer, in the clock cycles of a step, whose number is open but at least one (log 18), where no watchdog is set:
it counts once every DIV + 1 cycles, goes round with period MAX + 1 in continuous mode and stops at MAX in one-shot mode;
from above MAX it counts up to 2^32 - 1 and on from zero; a disabled one only loses its divider count. It makes a request
exactly when a tick reaches MAX, and only with GINT; nothing else changes. -/
def Obligations.TimerPeriod : Prop :=
  ∀ (s t : State) (one : Bool), Settled s → tmrBit false 12 s = false → tmrBit true 12 s = false → t = tickTimers s →
    (tmrBit one 15 s = false → tmrCnt one t = tmrCnt one s ∧ tmrDivider one t = 0) ∧
    (tmrBit one 15 s = true →
      tmrDivider one t = tmrCycles one s % (tmrField one 0 8 s + 1) ∧
      (tmrCnt one s ≤ tmrMax one s → tmrBit one 14 s = true →
        tmrCnt one t = (tmrCnt one s + tmrTicks one s) % (tmrMax one s + 1)) ∧
      (tmrCnt one s ≤ tmrMax one s → tmrBit one 14 s = false →
        tmrCnt one t = min (tmrCnt one s + tmrTicks one s) (tmrMax one s)) ∧
      tmrCnt one t = tmrAfter one (tmrTicks one s) s) ∧
    ((tmrBit (!one) 15 s = false ∨ tmrBit (!one) 13 s = false) →
      ∀ x : Source, t.ccb.intPend.getLsbD x.val = true ↔ s.ccb.intPend.getLsbD x.val = true ∨
        (tmrBit one 15 s = true ∧ tmrBit one 13 s = true ∧ x.val = 4 + tmrField one 8 3 s ∧
          ∃ k < tmrTicks one s, tmrAfter one (k + 1) s = tmrMax one s ∧
            (tmrBit one 14 s = true ∨ tmrAfter one k s ≠ tmrMax one s))) ∧
    { t with ccb := s.ccb, tmr0Div := s.tmr0Div, tmr1Div := s.tmr1Div } = s ∧
    { t.ccb with tmr0Cnt := s.ccb.tmr0Cnt, tmr1Cnt := s.ccb.tmr1Cnt, intPend := s.ccb.intPend } = s.ccb

/-- A watchdog timer, either of them, a tick of which reaches its maximum resets the core, wholly (log 19); where none does,
both timers count as `tmrAfter` says over the open number of cycles of the step (log 18), a timer with GINT that reaches its
maximum makes its request, and nothing else changes. -/
def Obligations.Watchdog : Prop :=
  ∀ s t : State, Settled s → t = tickTimers s →
    ((∃ one, tmrBit one 12 s = true ∧ TmrReaches one s) → t = coreReset s) ∧
    ((∀ one, tmrBit one 12 s = true → ¬TmrReaches one s) →
      (∀ one, (tmrBit one 15 s = true →
          tmrCnt one t = tmrAfter one (tmrTicks one s) s ∧
          tmrDivider one t = tmrCycles one s % (tmrField one 0 8 s + 1)) ∧
        (tmrBit one 15 s = false → tmrCnt one t = tmrCnt one s ∧ tmrDivider one t = 0)) ∧
      (∀ x : Source, t.ccb.intPend.getLsbD x.val = true ↔ s.ccb.intPend.getLsbD x.val = true ∨
        ∃ one, tmrBit one 13 s = true ∧ TmrReaches one s ∧ x.val = 4 + tmrField one 8 3 s) ∧
      { t with ccb := s.ccb, tmr0Div := s.tmr0Div, tmr1Div := s.tmr1Div } = s ∧
      { t.ccb with tmr0Cnt := s.ccb.tmr0Cnt, tmr1Cnt := s.ccb.tmr1Cnt, intPend := s.ccb.intPend } = s.ccb)

/-- A CCB register that an implicit use needs is the current one when no write of the last instructions, as many as the
guards of the use, was to it, and otherwise one of the values it held. The guards are those of R415, and four for what it
does not list (log 11); an instruction that ends makes every write one older, a write older than four is settled, and `ei`
settles one to a vector, mask, mode or priority register that has two instructions behind it; those to the RETI registers
are forgotten when the hardware stack moves (log 11), and those to SPSR are remembered for three instructions (log 12). -/
def Obligations.GuardDistance : Prop :=
  (∀ (use : CcbUse) (off : BitVec 8) (s : State),
    ((∀ w ∈ s.ccbInflight, w.offset = off → guards use < w.age) → seen use off s = ccbRead off s) ∧
    (seen use off s = ccbRead off s ∨
      ∃ w ∈ s.ccbInflight, w.offset = off ∧ w.age ≤ guards use ∧ seen use off s = w.old)) ∧
  (guards .dataAccess = 1 ∧ guards .cop = 2 ∧ guards .jump = 3 ∧ guards .scall = 3 ∧ guards .fetch = 4 ∧
    (∀ n, guards (.slot n) = 4 - n) ∧ guards .exceptionEntry = 4 ∧ guards .reti = 4 ∧ guards .interrupt = 4 ∧
    guards .timer = 4 ∧ guards .pcbMask = 4 ∧ guards .jumpConf = 4 ∧ confUse .jump = .jumpConf ∧
    confUse .fetch = .fetch ∧ ∀ n, confUse (.slot n) = .slot n) ∧
  (∀ (n : Nat) (l : List CcbWrite) (w : CcbWrite),
    (w ∈ ageCcb n l ↔ w.age ≤ 4 ∧ ∃ x ∈ l, w = { x with age := x.age + n }) ∧
    (w ∈ settleForEi l ↔ w ∈ l ∧ ¬(0x04 ≤ w.offset.toNat ∧ w.offset.toNat ≤ 0x16 ∧ 2 < w.age)) ∧
    (w ∈ dropRetiWrites l ↔ w ∈ l ∧ ¬(0x28 ≤ w.offset.toNat ∧ w.offset.toNat ≤ 0x2A))) ∧
  (∀ (n : Nat) (l : List SpsrWrite) (w : SpsrWrite),
    w ∈ ageSpsr n l ↔ w.age ≤ 3 ∧ ∃ x ∈ l, w = { x with age := x.age + n })

/-! ## Rules of the whole machine -/

/-- Both memories stay in canonical form. -/
def Obligations.MemoryStaysCanonical : Prop :=
  ∀ s t : State, Canonical s → step s = .next t → Canonical t

/-- `serv_order` goes on mirroring INT_SERV, the hardware stack never grows beyond it, and so no step overflows the
hardware stack: nesting cannot exceed twelve, which is the spec's default of HWSTACK_DEPTH (log 20); that `reti` ends the
service of the newest source is log 22. -/
def Obligations.ServiceStaysInOrder : Prop :=
  ∀ s : State, ServiceInv s → step s ≠ .fault .hwstackOverflow ∧ ∀ t, step s = .next t → ServiceInv t

/-- User mode goes on using SET 1, and what `reti` could restore stays legal unless the step executes a `st` of an illegal
image to RETI_PSR, which is the proviso of R28. -/
def Obligations.UserModeUsesSet1 : Prop :=
  ∀ s t : State, SetsLegal s.psr → ImagesLegal s → step s = .next t →
    SetsLegal t.psr ∧ (StoresIllegalImage s ∨ ImagesLegal t)

/-- The invariants hold at reset; the model's reset state is what a reset leaves of it, at PC 0, for it has BOOT_SEL = 0
(log 28) and its own fields as log 37 says. -/
def Obligations.InvariantsAtReset : Prop :=
  coreReset State.reset = State.reset ∧ State.reset.pc = 0#32 ∧
  Canonical State.reset ∧ ServiceInv State.reset ∧ SetsLegal State.reset.psr ∧ ImagesLegal State.reset

/-- PSR changes only through `chrs`, `di`, `ei`, `swm`, `scall`, `retu`, `reti` and exceptions: no other instruction that
completes changes it, whatever register it writes. -/
def Obligations.PsrWriters : Prop :=
  ∀ (i : Instr) (s t : State), exec i s = .next t → t.psr ≠ s.psr →
    (∃ w imm, i = .chrs w imm) ∨ (∃ w, i = .di w ∨ i = .ei w ∨ i = .retu w ∨ i = .reti w) ∨ (∃ w imm, i = .swm w imm) ∨
    (∃ f, i = .scall f) ∨
    (t.psr.toByte = 0x0E#8 ∧ t.ccb.exceptionPc = s.pc ∧ t.ccb.exceptionPsr = s.psr.toByte)

/-- The ways out of user mode that an instruction has: `scall`, an exception, `reti` with a super user image; and into
it: `retu`, `reti` with a user image. -/
def Obligations.ModeTransitions : Prop :=
  ∀ (i : Instr) (s t : State), Settled s → exec i s = .next t →
    (s.psr.um = true → t.psr.um = false →
      ((∃ f, i = .scall f) ∧ t.psr.toByte = 0x0E#8 ∧ t.pc = s.ccb.systemAddr) ∨
      (t.psr.toByte = 0x0E#8 ∧ t.ccb.exceptionPc = s.pc ∧ t.pc = s.ccb.excepAddr) ∨
      ((∃ w, i = .reti w) ∧ ∃ e ∈ s.hwstack.head?, e.psr.getLsbD 0 = false)) ∧
    (s.psr.um = false → t.psr.um = true →
      (∃ w, i = .retu w) ∨ ((∃ w, i = .reti w) ∧ ∃ e ∈ s.hwstack.head?, e.psr.getLsbD 0 = true))

/-- User mode cannot see SET 2: with other contents of PR0..PR28, SPSR and PR31 an instruction other than `scall` does
the same, and leaves those contents alone. -/
def Obligations.UserModeIgnoresSet2 : Prop :=
  ∀ (i : Instr) (s t : State) (p : Vector Word 29) (q r : Word), s.psr.um = true → SetsLegal s.psr →
    (∀ f, i ≠ .scall f) → exec i s = .next t →
    t.set2 = s.set2 ∧ t.spsr = s.spsr ∧ t.pr31 = s.pr31 ∧
    exec i { s with set2 := p, spsr := q, pr31 := r } = .next { t with set2 := p, spsr := q, pr31 := r }

/-- User mode neither changes nor learns what data memory holds where it may not go. That a store to an allowed address
leaves its protected neighbours alone is the spec's default of DMEM_UNIT, a cell per address (log 1); that no fetch, slot or
look behind a `ld` or `st` reads data memory is its default of IMEM_SHARED (log 2). -/
def Obligations.UserModeIsolation : Prop :=
  ∀ (i : Instr) (s t : State) (m : List (Nat × Word)), Canonical s → Memory.wf m = true → s.psr.um = true →
    (∀ a, dataAllowed a s = true → Memory.read m a.toNat = s.readData a) → exec i s = .next t →
    (∀ a, dataAllowed a s = false → t.readData a = s.readData a) ∧
    ∃ t', exec i { s with dmem := m } = .next t' ∧ { t' with dmem := t.dmem } = t ∧
      (∀ a, dataAllowed a s = true → t'.readData a = t.readData a) ∧
      (∀ a, dataAllowed a s = false → t'.readData a = Memory.read m a.toNat)
end

