-- ==== Sys2Proof/Laws/State.lean ====
section
/-! SUPPORT. One lemma per field per update, so that no proof unfolds a record update. -/

namespace Sys2Proof.Machine

variable (s : State)

/-! ### `setC0` -/

@[simp] theorem setC0_set1 (f : Flags) : (setC0 f s).set1 = s.set1 := rfl
@[simp] theorem setC0_set2 (f : Flags) : (setC0 f s).set2 = s.set2 := rfl
@[simp] theorem setC0_psr (f : Flags) : (setC0 f s).psr = s.psr := rfl
@[simp] theorem setC0_spsr (f : Flags) : (setC0 f s).spsr = s.spsr := rfl
@[simp] theorem setC0_pr31 (f : Flags) : (setC0 f s).pr31 = s.pr31 := rfl
@[simp] theorem setC0_cr (f : Flags) : (setC0 f s).cr = s.cr.set 0 f := rfl
@[simp] theorem setC0_pc (f : Flags) : (setC0 f s).pc = s.pc := rfl
@[simp] theorem setC0_delayedPc (f : Flags) : (setC0 f s).delayedPc = s.delayedPc := rfl
@[simp] theorem setC0_mulHi (f : Flags) : (setC0 f s).mulHi = s.mulHi := rfl
@[simp] theorem setC0_hwstack (f : Flags) : (setC0 f s).hwstack = s.hwstack := rfl
@[simp] theorem setC0_retiBase (f : Flags) : (setC0 f s).retiBase = s.retiBase := rfl
@[simp] theorem setC0_servOrder (f : Flags) : (setC0 f s).servOrder = s.servOrder := rfl
@[simp] theorem setC0_ccb (f : Flags) : (setC0 f s).ccb = s.ccb := rfl
@[simp] theorem setC0_ccbInflight (f : Flags) : (setC0 f s).ccbInflight = s.ccbInflight := rfl
@[simp] theorem setC0_spsrInflight (f : Flags) : (setC0 f s).spsrInflight = s.spsrInflight := rfl
@[simp] theorem setC0_diWindow (f : Flags) : (setC0 f s).diWindow = s.diWindow := rfl
@[simp] theorem setC0_intBlock (f : Flags) : (setC0 f s).intBlock = s.intBlock := rfl
@[simp] theorem setC0_extOffset (f : Flags) : (setC0 f s).extOffset = s.extOffset := rfl
@[simp] theorem setC0_tmr0Div (f : Flags) : (setC0 f s).tmr0Div = s.tmr0Div := rfl
@[simp] theorem setC0_tmr1Div (f : Flags) : (setC0 f s).tmr1Div = s.tmr1Div := rfl
@[simp] theorem setC0_busToken (f : Flags) : (setC0 f s).busToken = s.busToken := rfl
@[simp] theorem setC0_extHandler (f : Flags) : (setC0 f s).extHandler = s.extHandler := rfl
@[simp] theorem setC0_bootSel (f : Flags) : (setC0 f s).bootSel = s.bootSel := rfl
@[simp] theorem setC0_bootAddr (f : Flags) : (setC0 f s).bootAddr = s.bootAddr := rfl
@[simp] theorem setC0_imem (f : Flags) : (setC0 f s).imem = s.imem := rfl
@[simp] theorem setC0_dmem (f : Flags) : (setC0 f s).dmem = s.dmem := rfl
@[simp] theorem setC0_stored (f : Flags) : (setC0 f s).stored = s.stored := rfl
@[simp] theorem setC0_inputs (f : Flags) : (setC0 f s).inputs = s.inputs := rfl
@[simp] theorem setC0_outputs (f : Flags) : (setC0 f s).outputs = s.outputs := rfl
@[simp] theorem setC0_freeCount (f : Flags) : (setC0 f s).freeCount = s.freeCount := rfl
@[simp] theorem setC0_acceptWait (f : Flags) : (setC0 f s).acceptWait = s.acceptWait := rfl

/-! ### `setCr` -/

@[simp] theorem setCr_set1 (k : CReg) (f : Flags) : (setCr k f s).set1 = s.set1 := rfl
@[simp] theorem setCr_set2 (k : CReg) (f : Flags) : (setCr k f s).set2 = s.set2 := rfl
@[simp] theorem setCr_psr (k : CReg) (f : Flags) : (setCr k f s).psr = s.psr := rfl
@[simp] theorem setCr_spsr (k : CReg) (f : Flags) : (setCr k f s).spsr = s.spsr := rfl
@[simp] theorem setCr_pr31 (k : CReg) (f : Flags) : (setCr k f s).pr31 = s.pr31 := rfl
@[simp] theorem setCr_cr (k : CReg) (f : Flags) : (setCr k f s).cr = s.cr.set k.toNat f k.isLt := rfl
@[simp] theorem setCr_pc (k : CReg) (f : Flags) : (setCr k f s).pc = s.pc := rfl
@[simp] theorem setCr_delayedPc (k : CReg) (f : Flags) : (setCr k f s).delayedPc = s.delayedPc := rfl
@[simp] theorem setCr_mulHi (k : CReg) (f : Flags) : (setCr k f s).mulHi = s.mulHi := rfl
@[simp] theorem setCr_hwstack (k : CReg) (f : Flags) : (setCr k f s).hwstack = s.hwstack := rfl
@[simp] theorem setCr_retiBase (k : CReg) (f : Flags) : (setCr k f s).retiBase = s.retiBase := rfl
@[simp] theorem setCr_servOrder (k : CReg) (f : Flags) : (setCr k f s).servOrder = s.servOrder := rfl
@[simp] theorem setCr_ccb (k : CReg) (f : Flags) : (setCr k f s).ccb = s.ccb := rfl
@[simp] theorem setCr_ccbInflight (k : CReg) (f : Flags) : (setCr k f s).ccbInflight = s.ccbInflight := rfl
@[simp] theorem setCr_spsrInflight (k : CReg) (f : Flags) : (setCr k f s).spsrInflight = s.spsrInflight := rfl
@[simp] theorem setCr_diWindow (k : CReg) (f : Flags) : (setCr k f s).diWindow = s.diWindow := rfl
@[simp] theorem setCr_intBlock (k : CReg) (f : Flags) : (setCr k f s).intBlock = s.intBlock := rfl
@[simp] theorem setCr_extOffset (k : CReg) (f : Flags) : (setCr k f s).extOffset = s.extOffset := rfl
@[simp] theorem setCr_tmr0Div (k : CReg) (f : Flags) : (setCr k f s).tmr0Div = s.tmr0Div := rfl
@[simp] theorem setCr_tmr1Div (k : CReg) (f : Flags) : (setCr k f s).tmr1Div = s.tmr1Div := rfl
@[simp] theorem setCr_busToken (k : CReg) (f : Flags) : (setCr k f s).busToken = s.busToken := rfl
@[simp] theorem setCr_extHandler (k : CReg) (f : Flags) : (setCr k f s).extHandler = s.extHandler := rfl
@[simp] theorem setCr_bootSel (k : CReg) (f : Flags) : (setCr k f s).bootSel = s.bootSel := rfl
@[simp] theorem setCr_bootAddr (k : CReg) (f : Flags) : (setCr k f s).bootAddr = s.bootAddr := rfl
@[simp] theorem setCr_imem (k : CReg) (f : Flags) : (setCr k f s).imem = s.imem := rfl
@[simp] theorem setCr_dmem (k : CReg) (f : Flags) : (setCr k f s).dmem = s.dmem := rfl
@[simp] theorem setCr_stored (k : CReg) (f : Flags) : (setCr k f s).stored = s.stored := rfl
@[simp] theorem setCr_inputs (k : CReg) (f : Flags) : (setCr k f s).inputs = s.inputs := rfl
@[simp] theorem setCr_outputs (k : CReg) (f : Flags) : (setCr k f s).outputs = s.outputs := rfl
@[simp] theorem setCr_freeCount (k : CReg) (f : Flags) : (setCr k f s).freeCount = s.freeCount := rfl
@[simp] theorem setCr_acceptWait (k : CReg) (f : Flags) : (setCr k f s).acceptWait = s.acceptWait := rfl

/-! ### `ageInflight` -/

@[simp] theorem ageInflight_set1 (n : Nat) : (ageInflight n s).set1 = s.set1 := rfl
@[simp] theorem ageInflight_set2 (n : Nat) : (ageInflight n s).set2 = s.set2 := rfl
@[simp] theorem ageInflight_psr (n : Nat) : (ageInflight n s).psr = s.psr := rfl
@[simp] theorem ageInflight_spsr (n : Nat) : (ageInflight n s).spsr = s.spsr := rfl
@[simp] theorem ageInflight_pr31 (n : Nat) : (ageInflight n s).pr31 = s.pr31 := rfl
@[simp] theorem ageInflight_cr (n : Nat) : (ageInflight n s).cr = s.cr := rfl
@[simp] theorem ageInflight_pc (n : Nat) : (ageInflight n s).pc = s.pc := rfl
@[simp] theorem ageInflight_delayedPc (n : Nat) : (ageInflight n s).delayedPc = s.delayedPc := rfl
@[simp] theorem ageInflight_mulHi (n : Nat) : (ageInflight n s).mulHi = s.mulHi := rfl
@[simp] theorem ageInflight_hwstack (n : Nat) : (ageInflight n s).hwstack = s.hwstack := rfl
@[simp] theorem ageInflight_retiBase (n : Nat) : (ageInflight n s).retiBase = s.retiBase := rfl
@[simp] theorem ageInflight_servOrder (n : Nat) : (ageInflight n s).servOrder = s.servOrder := rfl
@[simp] theorem ageInflight_ccb (n : Nat) : (ageInflight n s).ccb = s.ccb := rfl
@[simp] theorem ageInflight_ccbInflight (n : Nat) : (ageInflight n s).ccbInflight = ageCcb n s.ccbInflight := rfl
@[simp] theorem ageInflight_spsrInflight (n : Nat) : (ageInflight n s).spsrInflight = ageSpsr n s.spsrInflight := rfl
@[simp] theorem ageInflight_diWindow (n : Nat) : (ageInflight n s).diWindow = s.diWindow := rfl
@[simp] theorem ageInflight_intBlock (n : Nat) : (ageInflight n s).intBlock = s.intBlock := rfl
@[simp] theorem ageInflight_extOffset (n : Nat) : (ageInflight n s).extOffset = s.extOffset := rfl
@[simp] theorem ageInflight_tmr0Div (n : Nat) : (ageInflight n s).tmr0Div = s.tmr0Div := rfl
@[simp] theorem ageInflight_tmr1Div (n : Nat) : (ageInflight n s).tmr1Div = s.tmr1Div := rfl
@[simp] theorem ageInflight_busToken (n : Nat) : (ageInflight n s).busToken = s.busToken := rfl
@[simp] theorem ageInflight_extHandler (n : Nat) : (ageInflight n s).extHandler = s.extHandler := rfl
@[simp] theorem ageInflight_bootSel (n : Nat) : (ageInflight n s).bootSel = s.bootSel := rfl
@[simp] theorem ageInflight_bootAddr (n : Nat) : (ageInflight n s).bootAddr = s.bootAddr := rfl
@[simp] theorem ageInflight_imem (n : Nat) : (ageInflight n s).imem = s.imem := rfl
@[simp] theorem ageInflight_dmem (n : Nat) : (ageInflight n s).dmem = s.dmem := rfl
@[simp] theorem ageInflight_stored (n : Nat) : (ageInflight n s).stored = s.stored := rfl
@[simp] theorem ageInflight_inputs (n : Nat) : (ageInflight n s).inputs = s.inputs := rfl
@[simp] theorem ageInflight_outputs (n : Nat) : (ageInflight n s).outputs = s.outputs := rfl
@[simp] theorem ageInflight_freeCount (n : Nat) : (ageInflight n s).freeCount = s.freeCount := rfl
@[simp] theorem ageInflight_acceptWait (n : Nat) : (ageInflight n s).acceptWait = s.acceptWait := rfl

/-! ### `continueAt` -/

@[simp] theorem continueAt_set1 (a : Word) (n : Nat) : (continueAt a n s).set1 = s.set1 := rfl
@[simp] theorem continueAt_set2 (a : Word) (n : Nat) : (continueAt a n s).set2 = s.set2 := rfl
@[simp] theorem continueAt_psr (a : Word) (n : Nat) : (continueAt a n s).psr = s.psr := rfl
@[simp] theorem continueAt_spsr (a : Word) (n : Nat) : (continueAt a n s).spsr = s.spsr := rfl
@[simp] theorem continueAt_pr31 (a : Word) (n : Nat) : (continueAt a n s).pr31 = s.pr31 := rfl
@[simp] theorem continueAt_cr (a : Word) (n : Nat) : (continueAt a n s).cr = s.cr := rfl
@[simp] theorem continueAt_pc (a : Word) (n : Nat) : (continueAt a n s).pc = a := rfl
@[simp] theorem continueAt_delayedPc (a : Word) (n : Nat) : (continueAt a n s).delayedPc = none := rfl
@[simp] theorem continueAt_mulHi (a : Word) (n : Nat) : (continueAt a n s).mulHi = none := rfl
@[simp] theorem continueAt_hwstack (a : Word) (n : Nat) : (continueAt a n s).hwstack = s.hwstack := rfl
@[simp] theorem continueAt_retiBase (a : Word) (n : Nat) : (continueAt a n s).retiBase = s.retiBase := rfl
@[simp] theorem continueAt_servOrder (a : Word) (n : Nat) : (continueAt a n s).servOrder = s.servOrder := rfl
@[simp] theorem continueAt_ccb (a : Word) (n : Nat) : (continueAt a n s).ccb = s.ccb := rfl
@[simp] theorem continueAt_ccbInflight (a : Word) (n : Nat) :
    (continueAt a n s).ccbInflight = ageCcb n s.ccbInflight := rfl
@[simp] theorem continueAt_spsrInflight (a : Word) (n : Nat) :
    (continueAt a n s).spsrInflight = ageSpsr n s.spsrInflight := rfl
@[simp] theorem continueAt_diWindow (a : Word) (n : Nat) : (continueAt a n s).diWindow = s.diWindow := rfl
@[simp] theorem continueAt_intBlock (a : Word) (n : Nat) : (continueAt a n s).intBlock = false := rfl
@[simp] theorem continueAt_extOffset (a : Word) (n : Nat) : (continueAt a n s).extOffset = s.extOffset := rfl
@[simp] theorem continueAt_tmr0Div (a : Word) (n : Nat) : (continueAt a n s).tmr0Div = s.tmr0Div := rfl
@[simp] theorem continueAt_tmr1Div (a : Word) (n : Nat) : (continueAt a n s).tmr1Div = s.tmr1Div := rfl
@[simp] theorem continueAt_busToken (a : Word) (n : Nat) : (continueAt a n s).busToken = s.busToken := rfl
@[simp] theorem continueAt_extHandler (a : Word) (n : Nat) : (continueAt a n s).extHandler = s.extHandler := rfl
@[simp] theorem continueAt_bootSel (a : Word) (n : Nat) : (continueAt a n s).bootSel = s.bootSel := rfl
@[simp] theorem continueAt_bootAddr (a : Word) (n : Nat) : (continueAt a n s).bootAddr = s.bootAddr := rfl
@[simp] theorem continueAt_imem (a : Word) (n : Nat) : (continueAt a n s).imem = s.imem := rfl
@[simp] theorem continueAt_dmem (a : Word) (n : Nat) : (continueAt a n s).dmem = s.dmem := rfl
@[simp] theorem continueAt_stored (a : Word) (n : Nat) : (continueAt a n s).stored = s.stored := rfl
@[simp] theorem continueAt_inputs (a : Word) (n : Nat) : (continueAt a n s).inputs = s.inputs := rfl
@[simp] theorem continueAt_outputs (a : Word) (n : Nat) : (continueAt a n s).outputs = s.outputs := rfl
@[simp] theorem continueAt_freeCount (a : Word) (n : Nat) : (continueAt a n s).freeCount = s.freeCount := rfl
@[simp] theorem continueAt_acceptWait (a : Word) (n : Nat) : (continueAt a n s).acceptWait = s.acceptWait := rfl

/-! ### `takeException` -/

@[simp] theorem takeException_set1 (c : BitVec 8) : (takeException c s).set1 = s.set1 := rfl
@[simp] theorem takeException_set2 (c : BitVec 8) : (takeException c s).set2 = s.set2 := rfl
@[simp] theorem takeException_psr (c : BitVec 8) : (takeException c s).psr = Psr.handler := rfl
@[simp] theorem takeException_spsr (c : BitVec 8) : (takeException c s).spsr = s.spsr := rfl
@[simp] theorem takeException_pr31 (c : BitVec 8) : (takeException c s).pr31 = s.pr31 := rfl
@[simp] theorem takeException_cr (c : BitVec 8) : (takeException c s).cr = s.cr := rfl
@[simp] theorem takeException_pc (c : BitVec 8) : (takeException c s).pc = seen .exceptionEntry offExcepAddr s := rfl
@[simp] theorem takeException_delayedPc (c : BitVec 8) : (takeException c s).delayedPc = none := rfl
@[simp] theorem takeException_mulHi (c : BitVec 8) : (takeException c s).mulHi = none := rfl
@[simp] theorem takeException_hwstack (c : BitVec 8) : (takeException c s).hwstack = s.hwstack := rfl
@[simp] theorem takeException_retiBase (c : BitVec 8) : (takeException c s).retiBase = s.retiBase := rfl
@[simp] theorem takeException_servOrder (c : BitVec 8) : (takeException c s).servOrder = s.servOrder := rfl
@[simp] theorem takeException_ccb (c : BitVec 8) :
    (takeException c s).ccb = { s.ccb with exceptionPc := s.pc, exceptionPsr := s.psr.toByte, exceptionCs := c } := rfl
@[simp] theorem takeException_ccbInflight (c : BitVec 8) : (takeException c s).ccbInflight = s.ccbInflight := rfl
@[simp] theorem takeException_spsrInflight (c : BitVec 8) : (takeException c s).spsrInflight = s.spsrInflight := rfl
@[simp] theorem takeException_diWindow (c : BitVec 8) : (takeException c s).diWindow = s.diWindow := rfl
@[simp] theorem takeException_intBlock (c : BitVec 8) : (takeException c s).intBlock = false := rfl
@[simp] theorem takeException_extOffset (c : BitVec 8) : (takeException c s).extOffset = s.extOffset := rfl
@[simp] theorem takeException_tmr0Div (c : BitVec 8) : (takeException c s).tmr0Div = s.tmr0Div := rfl
@[simp] theorem takeException_tmr1Div (c : BitVec 8) : (takeException c s).tmr1Div = s.tmr1Div := rfl
@[simp] theorem takeException_busToken (c : BitVec 8) : (takeException c s).busToken = s.busToken := rfl
@[simp] theorem takeException_extHandler (c : BitVec 8) : (takeException c s).extHandler = s.extHandler := rfl
@[simp] theorem takeException_bootSel (c : BitVec 8) : (takeException c s).bootSel = s.bootSel := rfl
@[simp] theorem takeException_bootAddr (c : BitVec 8) : (takeException c s).bootAddr = s.bootAddr := rfl
@[simp] theorem takeException_imem (c : BitVec 8) : (takeException c s).imem = s.imem := rfl
@[simp] theorem takeException_dmem (c : BitVec 8) : (takeException c s).dmem = s.dmem := rfl
@[simp] theorem takeException_stored (c : BitVec 8) : (takeException c s).stored = s.stored := rfl
@[simp] theorem takeException_inputs (c : BitVec 8) : (takeException c s).inputs = s.inputs := rfl
@[simp] theorem takeException_outputs (c : BitVec 8) : (takeException c s).outputs = s.outputs := rfl
@[simp] theorem takeException_freeCount (c : BitVec 8) : (takeException c s).freeCount = s.freeCount := rfl
@[simp] theorem takeException_acceptWait (c : BitVec 8) : (takeException c s).acceptWait = s.acceptWait := rfl

/-! ### `popStack` -/

@[simp] theorem popStack_set1 : (popStack s).set1 = s.set1 := rfl
@[simp] theorem popStack_set2 : (popStack s).set2 = s.set2 := rfl
@[simp] theorem popStack_psr : (popStack s).psr = s.psr := rfl
@[simp] theorem popStack_spsr : (popStack s).spsr = s.spsr := rfl
@[simp] theorem popStack_pr31 : (popStack s).pr31 = s.pr31 := rfl
@[simp] theorem popStack_cr : (popStack s).cr = s.cr := rfl
@[simp] theorem popStack_pc : (popStack s).pc = s.pc := rfl
@[simp] theorem popStack_delayedPc : (popStack s).delayedPc = s.delayedPc := rfl
@[simp] theorem popStack_mulHi : (popStack s).mulHi = s.mulHi := rfl
@[simp] theorem popStack_hwstack : (popStack s).hwstack = s.hwstack.tail := rfl
@[simp] theorem popStack_retiBase : (popStack s).retiBase = s.retiBase := rfl
@[simp] theorem popStack_servOrder : (popStack s).servOrder = s.servOrder := rfl
@[simp] theorem popStack_ccb : (popStack s).ccb = s.ccb := rfl
@[simp] theorem popStack_ccbInflight : (popStack s).ccbInflight = dropRetiWrites s.ccbInflight := rfl
@[simp] theorem popStack_spsrInflight : (popStack s).spsrInflight = s.spsrInflight := rfl
@[simp] theorem popStack_diWindow : (popStack s).diWindow = s.diWindow := rfl
@[simp] theorem popStack_intBlock : (popStack s).intBlock = s.intBlock := rfl
@[simp] theorem popStack_extOffset : (popStack s).extOffset = s.extOffset := rfl
@[simp] theorem popStack_tmr0Div : (popStack s).tmr0Div = s.tmr0Div := rfl
@[simp] theorem popStack_tmr1Div : (popStack s).tmr1Div = s.tmr1Div := rfl
@[simp] theorem popStack_busToken : (popStack s).busToken = s.busToken := rfl
@[simp] theorem popStack_extHandler : (popStack s).extHandler = s.extHandler := rfl
@[simp] theorem popStack_bootSel : (popStack s).bootSel = s.bootSel := rfl
@[simp] theorem popStack_bootAddr : (popStack s).bootAddr = s.bootAddr := rfl
@[simp] theorem popStack_imem : (popStack s).imem = s.imem := rfl
@[simp] theorem popStack_dmem : (popStack s).dmem = s.dmem := rfl
@[simp] theorem popStack_stored : (popStack s).stored = s.stored := rfl
@[simp] theorem popStack_inputs : (popStack s).inputs = s.inputs := rfl
@[simp] theorem popStack_outputs : (popStack s).outputs = s.outputs := rfl
@[simp] theorem popStack_freeCount : (popStack s).freeCount = s.freeCount := rfl
@[simp] theorem popStack_acceptWait : (popStack s).acceptWait = s.acceptWait := rfl

/-! ### `writeData` -/

@[simp] theorem writeData_set1 (a v : Word) : (s.writeData a v).set1 = s.set1 := rfl
@[simp] theorem writeData_set2 (a v : Word) : (s.writeData a v).set2 = s.set2 := rfl
@[simp] theorem writeData_psr (a v : Word) : (s.writeData a v).psr = s.psr := rfl
@[simp] theorem writeData_spsr (a v : Word) : (s.writeData a v).spsr = s.spsr := rfl
@[simp] theorem writeData_pr31 (a v : Word) : (s.writeData a v).pr31 = s.pr31 := rfl
@[simp] theorem writeData_cr (a v : Word) : (s.writeData a v).cr = s.cr := rfl
@[simp] theorem writeData_pc (a v : Word) : (s.writeData a v).pc = s.pc := rfl
@[simp] theorem writeData_delayedPc (a v : Word) : (s.writeData a v).delayedPc = s.delayedPc := rfl
@[simp] theorem writeData_mulHi (a v : Word) : (s.writeData a v).mulHi = s.mulHi := rfl
@[simp] theorem writeData_hwstack (a v : Word) : (s.writeData a v).hwstack = s.hwstack := rfl
@[simp] theorem writeData_retiBase (a v : Word) : (s.writeData a v).retiBase = s.retiBase := rfl
@[simp] theorem writeData_servOrder (a v : Word) : (s.writeData a v).servOrder = s.servOrder := rfl
@[simp] theorem writeData_ccb (a v : Word) : (s.writeData a v).ccb = s.ccb := rfl
@[simp] theorem writeData_ccbInflight (a v : Word) : (s.writeData a v).ccbInflight = s.ccbInflight := rfl
@[simp] theorem writeData_spsrInflight (a v : Word) : (s.writeData a v).spsrInflight = s.spsrInflight := rfl
@[simp] theorem writeData_diWindow (a v : Word) : (s.writeData a v).diWindow = s.diWindow := rfl
@[simp] theorem writeData_intBlock (a v : Word) : (s.writeData a v).intBlock = s.intBlock := rfl
@[simp] theorem writeData_extOffset (a v : Word) : (s.writeData a v).extOffset = s.extOffset := rfl
@[simp] theorem writeData_tmr0Div (a v : Word) : (s.writeData a v).tmr0Div = s.tmr0Div := rfl
@[simp] theorem writeData_tmr1Div (a v : Word) : (s.writeData a v).tmr1Div = s.tmr1Div := rfl
@[simp] theorem writeData_busToken (a v : Word) : (s.writeData a v).busToken = s.busToken := rfl
@[simp] theorem writeData_extHandler (a v : Word) : (s.writeData a v).extHandler = s.extHandler := rfl
@[simp] theorem writeData_bootSel (a v : Word) : (s.writeData a v).bootSel = s.bootSel := rfl
@[simp] theorem writeData_bootAddr (a v : Word) : (s.writeData a v).bootAddr = s.bootAddr := rfl
@[simp] theorem writeData_imem (a v : Word) : (s.writeData a v).imem = s.imem := rfl
@[simp] theorem writeData_dmem (a v : Word) : (s.writeData a v).dmem = Memory.write s.dmem a.toNat v := rfl
@[simp] theorem writeData_stored (a v : Word) : (s.writeData a v).stored = s.stored := rfl
@[simp] theorem writeData_inputs (a v : Word) : (s.writeData a v).inputs = s.inputs := rfl
@[simp] theorem writeData_outputs (a v : Word) : (s.writeData a v).outputs = s.outputs := rfl
@[simp] theorem writeData_freeCount (a v : Word) : (s.writeData a v).freeCount = s.freeCount := rfl
@[simp] theorem writeData_acceptWait (a v : Word) : (s.writeData a v).acceptWait = s.acceptWait := rfl

/-! ### `copWrite` -/

@[simp] theorem copWrite_set1 (k : BitVec 2) (r : BitVec 5) (v : Word) : (copWrite k r v s).set1 = s.set1 := rfl
@[simp] theorem copWrite_set2 (k : BitVec 2) (r : BitVec 5) (v : Word) : (copWrite k r v s).set2 = s.set2 := rfl
@[simp] theorem copWrite_psr (k : BitVec 2) (r : BitVec 5) (v : Word) : (copWrite k r v s).psr = s.psr := rfl
@[simp] theorem copWrite_spsr (k : BitVec 2) (r : BitVec 5) (v : Word) : (copWrite k r v s).spsr = s.spsr := rfl
@[simp] theorem copWrite_pr31 (k : BitVec 2) (r : BitVec 5) (v : Word) : (copWrite k r v s).pr31 = s.pr31 := rfl
@[simp] theorem copWrite_cr (k : BitVec 2) (r : BitVec 5) (v : Word) : (copWrite k r v s).cr = s.cr := rfl
@[simp] theorem copWrite_pc (k : BitVec 2) (r : BitVec 5) (v : Word) : (copWrite k r v s).pc = s.pc := rfl
@[simp] theorem copWrite_delayedPc (k : BitVec 2) (r : BitVec 5) (v : Word) :
    (copWrite k r v s).delayedPc = s.delayedPc := rfl
@[simp] theorem copWrite_mulHi (k : BitVec 2) (r : BitVec 5) (v : Word) : (copWrite k r v s).mulHi = s.mulHi := rfl
@[simp] theorem copWrite_hwstack (k : BitVec 2) (r : BitVec 5) (v : Word) :
    (copWrite k r v s).hwstack = s.hwstack := rfl
@[simp] theorem copWrite_retiBase (k : BitVec 2) (r : BitVec 5) (v : Word) :
    (copWrite k r v s).retiBase = s.retiBase := rfl
@[simp] theorem copWrite_servOrder (k : BitVec 2) (r : BitVec 5) (v : Word) :
    (copWrite k r v s).servOrder = s.servOrder := rfl
@[simp] theorem copWrite_ccb (k : BitVec 2) (r : BitVec 5) (v : Word) : (copWrite k r v s).ccb = s.ccb := rfl
@[simp] theorem copWrite_ccbInflight (k : BitVec 2) (r : BitVec 5) (v : Word) :
    (copWrite k r v s).ccbInflight = s.ccbInflight := rfl
@[simp] theorem copWrite_spsrInflight (k : BitVec 2) (r : BitVec 5) (v : Word) :
    (copWrite k r v s).spsrInflight = s.spsrInflight := rfl
@[simp] theorem copWrite_diWindow (k : BitVec 2) (r : BitVec 5) (v : Word) :
    (copWrite k r v s).diWindow = s.diWindow := rfl
@[simp] theorem copWrite_intBlock (k : BitVec 2) (r : BitVec 5) (v : Word) :
    (copWrite k r v s).intBlock = s.intBlock := rfl
@[simp] theorem copWrite_extOffset (k : BitVec 2) (r : BitVec 5) (v : Word) :
    (copWrite k r v s).extOffset = s.extOffset := rfl
@[simp] theorem copWrite_tmr0Div (k : BitVec 2) (r : BitVec 5) (v : Word) :
    (copWrite k r v s).tmr0Div = s.tmr0Div := rfl
@[simp] theorem copWrite_tmr1Div (k : BitVec 2) (r : BitVec 5) (v : Word) :
    (copWrite k r v s).tmr1Div = s.tmr1Div := rfl
@[simp] theorem copWrite_busToken (k : BitVec 2) (r : BitVec 5) (v : Word) :
    (copWrite k r v s).busToken = s.busToken := rfl
@[simp] theorem copWrite_extHandler (k : BitVec 2) (r : BitVec 5) (v : Word) :
    (copWrite k r v s).extHandler = s.extHandler := rfl
@[simp] theorem copWrite_bootSel (k : BitVec 2) (r : BitVec 5) (v : Word) :
    (copWrite k r v s).bootSel = s.bootSel := rfl
@[simp] theorem copWrite_bootAddr (k : BitVec 2) (r : BitVec 5) (v : Word) :
    (copWrite k r v s).bootAddr = s.bootAddr := rfl
@[simp] theorem copWrite_imem (k : BitVec 2) (r : BitVec 5) (v : Word) : (copWrite k r v s).imem = s.imem := rfl
@[simp] theorem copWrite_dmem (k : BitVec 2) (r : BitVec 5) (v : Word) : (copWrite k r v s).dmem = s.dmem := rfl
@[simp] theorem copWrite_stored (k : BitVec 2) (r : BitVec 5) (v : Word) : (copWrite k r v s).stored = s.stored := rfl
@[simp] theorem copWrite_inputs (k : BitVec 2) (r : BitVec 5) (v : Word) : (copWrite k r v s).inputs = s.inputs := rfl
@[simp] theorem copWrite_outputs (k : BitVec 2) (r : BitVec 5) (v : Word) :
    (copWrite k r v s).outputs = .copWrite k r v :: s.outputs := rfl
@[simp] theorem copWrite_freeCount (k : BitVec 2) (r : BitVec 5) (v : Word) :
    (copWrite k r v s).freeCount = s.freeCount := rfl
@[simp] theorem copWrite_acceptWait (k : BitVec 2) (r : BitVec 5) (v : Word) :
    (copWrite k r v s).acceptWait = s.acceptWait := rfl

/-! ### `copAccess` -/

@[simp] theorem copAccess_set1 (k : BitVec 2) (r : BitVec 5) : (copAccess k r s).set1 = s.set1 := rfl
@[simp] theorem copAccess_set2 (k : BitVec 2) (r : BitVec 5) : (copAccess k r s).set2 = s.set2 := rfl
@[simp] theorem copAccess_psr (k : BitVec 2) (r : BitVec 5) : (copAccess k r s).psr = s.psr := rfl
@[simp] theorem copAccess_spsr (k : BitVec 2) (r : BitVec 5) : (copAccess k r s).spsr = s.spsr := rfl
@[simp] theorem copAccess_pr31 (k : BitVec 2) (r : BitVec 5) : (copAccess k r s).pr31 = s.pr31 := rfl
@[simp] theorem copAccess_cr (k : BitVec 2) (r : BitVec 5) : (copAccess k r s).cr = s.cr := rfl
@[simp] theorem copAccess_pc (k : BitVec 2) (r : BitVec 5) : (copAccess k r s).pc = s.pc := rfl
@[simp] theorem copAccess_delayedPc (k : BitVec 2) (r : BitVec 5) : (copAccess k r s).delayedPc = s.delayedPc := rfl
@[simp] theorem copAccess_mulHi (k : BitVec 2) (r : BitVec 5) : (copAccess k r s).mulHi = s.mulHi := rfl
@[simp] theorem copAccess_hwstack (k : BitVec 2) (r : BitVec 5) : (copAccess k r s).hwstack = s.hwstack := rfl
@[simp] theorem copAccess_retiBase (k : BitVec 2) (r : BitVec 5) : (copAccess k r s).retiBase = s.retiBase := rfl
@[simp] theorem copAccess_servOrder (k : BitVec 2) (r : BitVec 5) : (copAccess k r s).servOrder = s.servOrder := rfl
@[simp] theorem copAccess_ccb (k : BitVec 2) (r : BitVec 5) : (copAccess k r s).ccb = s.ccb := rfl
@[simp] theorem copAccess_ccbInflight (k : BitVec 2) (r : BitVec 5) :
    (copAccess k r s).ccbInflight = s.ccbInflight := rfl
@[simp] theorem copAccess_spsrInflight (k : BitVec 2) (r : BitVec 5) :
    (copAccess k r s).spsrInflight = s.spsrInflight := rfl
@[simp] theorem copAccess_diWindow (k : BitVec 2) (r : BitVec 5) : (copAccess k r s).diWindow = s.diWindow := rfl
@[simp] theorem copAccess_intBlock (k : BitVec 2) (r : BitVec 5) : (copAccess k r s).intBlock = s.intBlock := rfl
@[simp] theorem copAccess_extOffset (k : BitVec 2) (r : BitVec 5) : (copAccess k r s).extOffset = s.extOffset := rfl
@[simp] theorem copAccess_tmr0Div (k : BitVec 2) (r : BitVec 5) : (copAccess k r s).tmr0Div = s.tmr0Div := rfl
@[simp] theorem copAccess_tmr1Div (k : BitVec 2) (r : BitVec 5) : (copAccess k r s).tmr1Div = s.tmr1Div := rfl
@[simp] theorem copAccess_busToken (k : BitVec 2) (r : BitVec 5) : (copAccess k r s).busToken = s.busToken := rfl
@[simp] theorem copAccess_extHandler (k : BitVec 2) (r : BitVec 5) :
    (copAccess k r s).extHandler = s.extHandler := rfl
@[simp] theorem copAccess_bootSel (k : BitVec 2) (r : BitVec 5) : (copAccess k r s).bootSel = s.bootSel := rfl
@[simp] theorem copAccess_bootAddr (k : BitVec 2) (r : BitVec 5) : (copAccess k r s).bootAddr = s.bootAddr := rfl
@[simp] theorem copAccess_imem (k : BitVec 2) (r : BitVec 5) : (copAccess k r s).imem = s.imem := rfl
@[simp] theorem copAccess_dmem (k : BitVec 2) (r : BitVec 5) : (copAccess k r s).dmem = s.dmem := rfl
@[simp] theorem copAccess_stored (k : BitVec 2) (r : BitVec 5) : (copAccess k r s).stored = s.stored := rfl
@[simp] theorem copAccess_inputs (k : BitVec 2) (r : BitVec 5) : (copAccess k r s).inputs = s.inputs := rfl
@[simp] theorem copAccess_outputs (k : BitVec 2) (r : BitVec 5) :
    (copAccess k r s).outputs = .copRead k r :: s.outputs := rfl
@[simp] theorem copAccess_freeCount (k : BitVec 2) (r : BitVec 5) : (copAccess k r s).freeCount = s.freeCount := rfl
@[simp] theorem copAccess_acceptWait (k : BitVec 2) (r : BitVec 5) :
    (copAccess k r s).acceptWait = s.acceptWait := rfl

/-! ### `setPending` -/

@[simp] theorem setPending_set1 (src : Source) : (setPending src s).set1 = s.set1 := rfl
@[simp] theorem setPending_set2 (src : Source) : (setPending src s).set2 = s.set2 := rfl
@[simp] theorem setPending_psr (src : Source) : (setPending src s).psr = s.psr := rfl
@[simp] theorem setPending_spsr (src : Source) : (setPending src s).spsr = s.spsr := rfl
@[simp] theorem setPending_pr31 (src : Source) : (setPending src s).pr31 = s.pr31 := rfl
@[simp] theorem setPending_cr (src : Source) : (setPending src s).cr = s.cr := rfl
@[simp] theorem setPending_pc (src : Source) : (setPending src s).pc = s.pc := rfl
@[simp] theorem setPending_delayedPc (src : Source) : (setPending src s).delayedPc = s.delayedPc := rfl
@[simp] theorem setPending_mulHi (src : Source) : (setPending src s).mulHi = s.mulHi := rfl
@[simp] theorem setPending_hwstack (src : Source) : (setPending src s).hwstack = s.hwstack := rfl
@[simp] theorem setPending_retiBase (src : Source) : (setPending src s).retiBase = s.retiBase := rfl
@[simp] theorem setPending_servOrder (src : Source) : (setPending src s).servOrder = s.servOrder := rfl
@[simp] theorem setPending_ccb (src : Source) :
    (setPending src s).ccb = { s.ccb with intPend := s.ccb.intPend ||| BitVec.twoPow 12 src.val } := rfl
@[simp] theorem setPending_ccbInflight (src : Source) : (setPending src s).ccbInflight = s.ccbInflight := rfl
@[simp] theorem setPending_spsrInflight (src : Source) : (setPending src s).spsrInflight = s.spsrInflight := rfl
@[simp] theorem setPending_diWindow (src : Source) : (setPending src s).diWindow = s.diWindow := rfl
@[simp] theorem setPending_intBlock (src : Source) : (setPending src s).intBlock = s.intBlock := rfl
@[simp] theorem setPending_extOffset (src : Source) : (setPending src s).extOffset = s.extOffset := rfl
@[simp] theorem setPending_tmr0Div (src : Source) : (setPending src s).tmr0Div = s.tmr0Div := rfl
@[simp] theorem setPending_tmr1Div (src : Source) : (setPending src s).tmr1Div = s.tmr1Div := rfl
@[simp] theorem setPending_busToken (src : Source) : (setPending src s).busToken = s.busToken := rfl
@[simp] theorem setPending_extHandler (src : Source) : (setPending src s).extHandler = s.extHandler := rfl
@[simp] theorem setPending_bootSel (src : Source) : (setPending src s).bootSel = s.bootSel := rfl
@[simp] theorem setPending_bootAddr (src : Source) : (setPending src s).bootAddr = s.bootAddr := rfl
@[simp] theorem setPending_imem (src : Source) : (setPending src s).imem = s.imem := rfl
@[simp] theorem setPending_dmem (src : Source) : (setPending src s).dmem = s.dmem := rfl
@[simp] theorem setPending_stored (src : Source) : (setPending src s).stored = s.stored := rfl
@[simp] theorem setPending_inputs (src : Source) : (setPending src s).inputs = s.inputs := rfl
@[simp] theorem setPending_outputs (src : Source) : (setPending src s).outputs = s.outputs := rfl
@[simp] theorem setPending_freeCount (src : Source) : (setPending src s).freeCount = s.freeCount := rfl
@[simp] theorem setPending_acceptWait (src : Source) : (setPending src s).acceptWait = s.acceptWait := rfl

/-! ### `writeSet`, `writeX` -/

@[simp] theorem writeSet_psr (two : Bool) (i : Reg) (v : Word) : (writeSet two i v s).psr = s.psr := by
  unfold writeSet; split <;> (try split) <;> (try split) <;> (try split) <;> rfl
@[simp] theorem writeSet_cr (two : Bool) (i : Reg) (v : Word) : (writeSet two i v s).cr = s.cr := by
  unfold writeSet; split <;> (try split) <;> (try split) <;> (try split) <;> rfl
@[simp] theorem writeSet_pc (two : Bool) (i : Reg) (v : Word) : (writeSet two i v s).pc = s.pc := by
  unfold writeSet; split <;> (try split) <;> (try split) <;> (try split) <;> rfl
@[simp] theorem writeSet_delayedPc (two : Bool) (i : Reg) (v : Word) : (writeSet two i v s).delayedPc = s.delayedPc := by
  unfold writeSet; split <;> (try split) <;> (try split) <;> (try split) <;> rfl
@[simp] theorem writeSet_mulHi (two : Bool) (i : Reg) (v : Word) : (writeSet two i v s).mulHi = s.mulHi := by
  unfold writeSet; split <;> (try split) <;> (try split) <;> (try split) <;> rfl
@[simp] theorem writeSet_hwstack (two : Bool) (i : Reg) (v : Word) : (writeSet two i v s).hwstack = s.hwstack := by
  unfold writeSet; split <;> (try split) <;> (try split) <;> (try split) <;> rfl
@[simp] theorem writeSet_retiBase (two : Bool) (i : Reg) (v : Word) : (writeSet two i v s).retiBase = s.retiBase := by
  unfold writeSet; split <;> (try split) <;> (try split) <;> (try split) <;> rfl
@[simp] theorem writeSet_servOrder (two : Bool) (i : Reg) (v : Word) : (writeSet two i v s).servOrder = s.servOrder := by
  unfold writeSet; split <;> (try split) <;> (try split) <;> (try split) <;> rfl
@[simp] theorem writeSet_ccb (two : Bool) (i : Reg) (v : Word) : (writeSet two i v s).ccb = s.ccb := by
  unfold writeSet; split <;> (try split) <;> (try split) <;> (try split) <;> rfl
@[simp] theorem writeSet_ccbInflight (two : Bool) (i : Reg) (v : Word) : (writeSet two i v s).ccbInflight = s.ccbInflight := by
  unfold writeSet; split <;> (try split) <;> (try split) <;> (try split) <;> rfl
@[simp] theorem writeSet_diWindow (two : Bool) (i : Reg) (v : Word) : (writeSet two i v s).diWindow = s.diWindow := by
  unfold writeSet; split <;> (try split) <;> (try split) <;> (try split) <;> rfl
@[simp] theorem writeSet_intBlock (two : Bool) (i : Reg) (v : Word) : (writeSet two i v s).intBlock = s.intBlock := by
  unfold writeSet; split <;> (try split) <;> (try split) <;> (try split) <;> rfl
@[simp] theorem writeSet_extOffset (two : Bool) (i : Reg) (v : Word) : (writeSet two i v s).extOffset = s.extOffset := by
  unfold writeSet; split <;> (try split) <;> (try split) <;> (try split) <;> rfl
@[simp] theorem writeSet_tmr0Div (two : Bool) (i : Reg) (v : Word) : (writeSet two i v s).tmr0Div = s.tmr0Div := by
  unfold writeSet; split <;> (try split) <;> (try split) <;> (try split) <;> rfl
@[simp] theorem writeSet_tmr1Div (two : Bool) (i : Reg) (v : Word) : (writeSet two i v s).tmr1Div = s.tmr1Div := by
  unfold writeSet; split <;> (try split) <;> (try split) <;> (try split) <;> rfl
@[simp] theorem writeSet_busToken (two : Bool) (i : Reg) (v : Word) : (writeSet two i v s).busToken = s.busToken := by
  unfold writeSet; split <;> (try split) <;> (try split) <;> (try split) <;> rfl
@[simp] theorem writeSet_extHandler (two : Bool) (i : Reg) (v : Word) : (writeSet two i v s).extHandler = s.extHandler := by
  unfold writeSet; split <;> (try split) <;> (try split) <;> (try split) <;> rfl
@[simp] theorem writeSet_bootSel (two : Bool) (i : Reg) (v : Word) : (writeSet two i v s).bootSel = s.bootSel := by
  unfold writeSet; split <;> (try split) <;> (try split) <;> (try split) <;> rfl
@[simp] theorem writeSet_bootAddr (two : Bool) (i : Reg) (v : Word) : (writeSet two i v s).bootAddr = s.bootAddr := by
  unfold writeSet; split <;> (try split) <;> (try split) <;> (try split) <;> rfl
@[simp] theorem writeSet_imem (two : Bool) (i : Reg) (v : Word) : (writeSet two i v s).imem = s.imem := by
  unfold writeSet; split <;> (try split) <;> (try split) <;> (try split) <;> rfl
@[simp] theorem writeSet_dmem (two : Bool) (i : Reg) (v : Word) : (writeSet two i v s).dmem = s.dmem := by
  unfold writeSet; split <;> (try split) <;> (try split) <;> (try split) <;> rfl
@[simp] theorem writeSet_stored (two : Bool) (i : Reg) (v : Word) : (writeSet two i v s).stored = s.stored := by
  unfold writeSet; split <;> (try split) <;> (try split) <;> (try split) <;> rfl
@[simp] theorem writeSet_inputs (two : Bool) (i : Reg) (v : Word) : (writeSet two i v s).inputs = s.inputs := by
  unfold writeSet; split <;> (try split) <;> (try split) <;> (try split) <;> rfl
@[simp] theorem writeSet_outputs (two : Bool) (i : Reg) (v : Word) : (writeSet two i v s).outputs = s.outputs := by
  unfold writeSet; split <;> (try split) <;> (try split) <;> (try split) <;> rfl
@[simp] theorem writeSet_freeCount (two : Bool) (i : Reg) (v : Word) : (writeSet two i v s).freeCount = s.freeCount := by
  unfold writeSet; split <;> (try split) <;> (try split) <;> (try split) <;> rfl
@[simp] theorem writeSet_acceptWait (two : Bool) (i : Reg) (v : Word) : (writeSet two i v s).acceptWait = s.acceptWait := by
  unfold writeSet; split <;> (try split) <;> (try split) <;> (try split) <;> rfl
@[simp] theorem writeX_psr (i : Reg) (v : Word) : (writeX i v s).psr = s.psr := writeSet_psr s _ i v
@[simp] theorem writeX_cr (i : Reg) (v : Word) : (writeX i v s).cr = s.cr := writeSet_cr s _ i v
@[simp] theorem writeX_pc (i : Reg) (v : Word) : (writeX i v s).pc = s.pc := writeSet_pc s _ i v
@[simp] theorem writeX_delayedPc (i : Reg) (v : Word) : (writeX i v s).delayedPc = s.delayedPc := writeSet_delayedPc s _ i v
@[simp] theorem writeX_mulHi (i : Reg) (v : Word) : (writeX i v s).mulHi = s.mulHi := writeSet_mulHi s _ i v
@[simp] theorem writeX_hwstack (i : Reg) (v : Word) : (writeX i v s).hwstack = s.hwstack := writeSet_hwstack s _ i v
@[simp] theorem writeX_retiBase (i : Reg) (v : Word) : (writeX i v s).retiBase = s.retiBase := writeSet_retiBase s _ i v
@[simp] theorem writeX_servOrder (i : Reg) (v : Word) : (writeX i v s).servOrder = s.servOrder := writeSet_servOrder s _ i v
@[simp] theorem writeX_ccb (i : Reg) (v : Word) : (writeX i v s).ccb = s.ccb := writeSet_ccb s _ i v
@[simp] theorem writeX_ccbInflight (i : Reg) (v : Word) : (writeX i v s).ccbInflight = s.ccbInflight := writeSet_ccbInflight s _ i v
@[simp] theorem writeX_diWindow (i : Reg) (v : Word) : (writeX i v s).diWindow = s.diWindow := writeSet_diWindow s _ i v
@[simp] theorem writeX_intBlock (i : Reg) (v : Word) : (writeX i v s).intBlock = s.intBlock := writeSet_intBlock s _ i v
@[simp] theorem writeX_extOffset (i : Reg) (v : Word) : (writeX i v s).extOffset = s.extOffset := writeSet_extOffset s _ i v
@[simp] theorem writeX_tmr0Div (i : Reg) (v : Word) : (writeX i v s).tmr0Div = s.tmr0Div := writeSet_tmr0Div s _ i v
@[simp] theorem writeX_tmr1Div (i : Reg) (v : Word) : (writeX i v s).tmr1Div = s.tmr1Div := writeSet_tmr1Div s _ i v
@[simp] theorem writeX_busToken (i : Reg) (v : Word) : (writeX i v s).busToken = s.busToken := writeSet_busToken s _ i v
@[simp] theorem writeX_extHandler (i : Reg) (v : Word) : (writeX i v s).extHandler = s.extHandler := writeSet_extHandler s _ i v
@[simp] theorem writeX_bootSel (i : Reg) (v : Word) : (writeX i v s).bootSel = s.bootSel := writeSet_bootSel s _ i v
@[simp] theorem writeX_bootAddr (i : Reg) (v : Word) : (writeX i v s).bootAddr = s.bootAddr := writeSet_bootAddr s _ i v
@[simp] theorem writeX_imem (i : Reg) (v : Word) : (writeX i v s).imem = s.imem := writeSet_imem s _ i v
@[simp] theorem writeX_dmem (i : Reg) (v : Word) : (writeX i v s).dmem = s.dmem := writeSet_dmem s _ i v
@[simp] theorem writeX_stored (i : Reg) (v : Word) : (writeX i v s).stored = s.stored := writeSet_stored s _ i v
@[simp] theorem writeX_inputs (i : Reg) (v : Word) : (writeX i v s).inputs = s.inputs := writeSet_inputs s _ i v
@[simp] theorem writeX_outputs (i : Reg) (v : Word) : (writeX i v s).outputs = s.outputs := writeSet_outputs s _ i v
@[simp] theorem writeX_freeCount (i : Reg) (v : Word) : (writeX i v s).freeCount = s.freeCount := writeSet_freeCount s _ i v
@[simp] theorem writeX_acceptWait (i : Reg) (v : Word) : (writeX i v s).acceptWait = s.acceptWait := writeSet_acceptWait s _ i v

/-! ### `setRetiEntry` and `ccbSet`: a `st` to the CCB -/

@[simp] theorem setRetiEntry_set1 (e : StackEntry) : (setRetiEntry e s).set1 = s.set1 := by
  unfold setRetiEntry; split <;> rfl
@[simp] theorem setRetiEntry_set2 (e : StackEntry) : (setRetiEntry e s).set2 = s.set2 := by
  unfold setRetiEntry; split <;> rfl
@[simp] theorem setRetiEntry_psr (e : StackEntry) : (setRetiEntry e s).psr = s.psr := by
  unfold setRetiEntry; split <;> rfl
@[simp] theorem setRetiEntry_spsr (e : StackEntry) : (setRetiEntry e s).spsr = s.spsr := by
  unfold setRetiEntry; split <;> rfl
@[simp] theorem setRetiEntry_pr31 (e : StackEntry) : (setRetiEntry e s).pr31 = s.pr31 := by
  unfold setRetiEntry; split <;> rfl
@[simp] theorem setRetiEntry_cr (e : StackEntry) : (setRetiEntry e s).cr = s.cr := by
  unfold setRetiEntry; split <;> rfl
@[simp] theorem setRetiEntry_pc (e : StackEntry) : (setRetiEntry e s).pc = s.pc := by
  unfold setRetiEntry; split <;> rfl
@[simp] theorem setRetiEntry_delayedPc (e : StackEntry) : (setRetiEntry e s).delayedPc = s.delayedPc := by
  unfold setRetiEntry; split <;> rfl
@[simp] theorem setRetiEntry_mulHi (e : StackEntry) : (setRetiEntry e s).mulHi = s.mulHi := by
  unfold setRetiEntry; split <;> rfl
@[simp] theorem setRetiEntry_servOrder (e : StackEntry) : (setRetiEntry e s).servOrder = s.servOrder := by
  unfold setRetiEntry; split <;> rfl
@[simp] theorem setRetiEntry_ccb (e : StackEntry) : (setRetiEntry e s).ccb = s.ccb := by
  unfold setRetiEntry; split <;> rfl
@[simp] theorem setRetiEntry_ccbInflight (e : StackEntry) : (setRetiEntry e s).ccbInflight = s.ccbInflight := by
  unfold setRetiEntry; split <;> rfl
@[simp] theorem setRetiEntry_spsrInflight (e : StackEntry) : (setRetiEntry e s).spsrInflight = s.spsrInflight := by
  unfold setRetiEntry; split <;> rfl
@[simp] theorem setRetiEntry_diWindow (e : StackEntry) : (setRetiEntry e s).diWindow = s.diWindow := by
  unfold setRetiEntry; split <;> rfl
@[simp] theorem setRetiEntry_intBlock (e : StackEntry) : (setRetiEntry e s).intBlock = s.intBlock := by
  unfold setRetiEntry; split <;> rfl
@[simp] theorem setRetiEntry_extOffset (e : StackEntry) : (setRetiEntry e s).extOffset = s.extOffset := by
  unfold setRetiEntry; split <;> rfl
@[simp] theorem setRetiEntry_tmr0Div (e : StackEntry) : (setRetiEntry e s).tmr0Div = s.tmr0Div := by
  unfold setRetiEntry; split <;> rfl
@[simp] theorem setRetiEntry_tmr1Div (e : StackEntry) : (setRetiEntry e s).tmr1Div = s.tmr1Div := by
  unfold setRetiEntry; split <;> rfl
@[simp] theorem setRetiEntry_busToken (e : StackEntry) : (setRetiEntry e s).busToken = s.busToken := by
  unfold setRetiEntry; split <;> rfl
@[simp] theorem setRetiEntry_extHandler (e : StackEntry) : (setRetiEntry e s).extHandler = s.extHandler := by
  unfold setRetiEntry; split <;> rfl
@[simp] theorem setRetiEntry_bootSel (e : StackEntry) : (setRetiEntry e s).bootSel = s.bootSel := by
  unfold setRetiEntry; split <;> rfl
@[simp] theorem setRetiEntry_bootAddr (e : StackEntry) : (setRetiEntry e s).bootAddr = s.bootAddr := by
  unfold setRetiEntry; split <;> rfl
@[simp] theorem setRetiEntry_imem (e : StackEntry) : (setRetiEntry e s).imem = s.imem := by
  unfold setRetiEntry; split <;> rfl
@[simp] theorem setRetiEntry_dmem (e : StackEntry) : (setRetiEntry e s).dmem = s.dmem := by
  unfold setRetiEntry; split <;> rfl
@[simp] theorem setRetiEntry_stored (e : StackEntry) : (setRetiEntry e s).stored = s.stored := by
  unfold setRetiEntry; split <;> rfl
@[simp] theorem setRetiEntry_inputs (e : StackEntry) : (setRetiEntry e s).inputs = s.inputs := by
  unfold setRetiEntry; split <;> rfl
@[simp] theorem setRetiEntry_outputs (e : StackEntry) : (setRetiEntry e s).outputs = s.outputs := by
  unfold setRetiEntry; split <;> rfl
@[simp] theorem setRetiEntry_freeCount (e : StackEntry) : (setRetiEntry e s).freeCount = s.freeCount := by
  unfold setRetiEntry; split <;> rfl
@[simp] theorem setRetiEntry_acceptWait (e : StackEntry) : (setRetiEntry e s).acceptWait = s.acceptWait := by
  unfold setRetiEntry; split <;> rfl
@[simp] theorem ccbSet_set1 (o : BitVec 8) (v : Word) : (ccbSet o v s).set1 = s.set1 := by
  unfold ccbSet; split <;> (try split) <;> first | rfl | simp
@[simp] theorem ccbSet_set2 (o : BitVec 8) (v : Word) : (ccbSet o v s).set2 = s.set2 := by
  unfold ccbSet; split <;> (try split) <;> first | rfl | simp
@[simp] theorem ccbSet_psr (o : BitVec 8) (v : Word) : (ccbSet o v s).psr = s.psr := by
  unfold ccbSet; split <;> (try split) <;> first | rfl | simp
@[simp] theorem ccbSet_spsr (o : BitVec 8) (v : Word) : (ccbSet o v s).spsr = s.spsr := by
  unfold ccbSet; split <;> (try split) <;> first | rfl | simp
@[simp] theorem ccbSet_pr31 (o : BitVec 8) (v : Word) : (ccbSet o v s).pr31 = s.pr31 := by
  unfold ccbSet; split <;> (try split) <;> first | rfl | simp
@[simp] theorem ccbSet_cr (o : BitVec 8) (v : Word) : (ccbSet o v s).cr = s.cr := by
  unfold ccbSet; split <;> (try split) <;> first | rfl | simp
@[simp] theorem ccbSet_pc (o : BitVec 8) (v : Word) : (ccbSet o v s).pc = s.pc := by
  unfold ccbSet; split <;> (try split) <;> first | rfl | simp
@[simp] theorem ccbSet_delayedPc (o : BitVec 8) (v : Word) : (ccbSet o v s).delayedPc = s.delayedPc := by
  unfold ccbSet; split <;> (try split) <;> first | rfl | simp
@[simp] theorem ccbSet_mulHi (o : BitVec 8) (v : Word) : (ccbSet o v s).mulHi = s.mulHi := by
  unfold ccbSet; split <;> (try split) <;> first | rfl | simp
@[simp] theorem ccbSet_servOrder (o : BitVec 8) (v : Word) : (ccbSet o v s).servOrder = s.servOrder := by
  unfold ccbSet; split <;> (try split) <;> first | rfl | simp
@[simp] theorem ccbSet_ccbInflight (o : BitVec 8) (v : Word) : (ccbSet o v s).ccbInflight = s.ccbInflight := by
  unfold ccbSet; split <;> (try split) <;> first | rfl | simp
@[simp] theorem ccbSet_spsrInflight (o : BitVec 8) (v : Word) : (ccbSet o v s).spsrInflight = s.spsrInflight := by
  unfold ccbSet; split <;> (try split) <;> first | rfl | simp
@[simp] theorem ccbSet_diWindow (o : BitVec 8) (v : Word) : (ccbSet o v s).diWindow = s.diWindow := by
  unfold ccbSet; split <;> (try split) <;> first | rfl | simp
@[simp] theorem ccbSet_intBlock (o : BitVec 8) (v : Word) : (ccbSet o v s).intBlock = s.intBlock := by
  unfold ccbSet; split <;> (try split) <;> first | rfl | simp
@[simp] theorem ccbSet_extOffset (o : BitVec 8) (v : Word) : (ccbSet o v s).extOffset = s.extOffset := by
  unfold ccbSet; split <;> (try split) <;> first | rfl | simp
@[simp] theorem ccbSet_tmr0Div (o : BitVec 8) (v : Word) : (ccbSet o v s).tmr0Div = s.tmr0Div := by
  unfold ccbSet; split <;> (try split) <;> first | rfl | simp
@[simp] theorem ccbSet_tmr1Div (o : BitVec 8) (v : Word) : (ccbSet o v s).tmr1Div = s.tmr1Div := by
  unfold ccbSet; split <;> (try split) <;> first | rfl | simp
@[simp] theorem ccbSet_busToken (o : BitVec 8) (v : Word) : (ccbSet o v s).busToken = s.busToken := by
  unfold ccbSet; split <;> (try split) <;> first | rfl | simp
@[simp] theorem ccbSet_extHandler (o : BitVec 8) (v : Word) : (ccbSet o v s).extHandler = s.extHandler := by
  unfold ccbSet; split <;> (try split) <;> first | rfl | simp
@[simp] theorem ccbSet_bootSel (o : BitVec 8) (v : Word) : (ccbSet o v s).bootSel = s.bootSel := by
  unfold ccbSet; split <;> (try split) <;> first | rfl | simp
@[simp] theorem ccbSet_bootAddr (o : BitVec 8) (v : Word) : (ccbSet o v s).bootAddr = s.bootAddr := by
  unfold ccbSet; split <;> (try split) <;> first | rfl | simp
@[simp] theorem ccbSet_imem (o : BitVec 8) (v : Word) : (ccbSet o v s).imem = s.imem := by
  unfold ccbSet; split <;> (try split) <;> first | rfl | simp
@[simp] theorem ccbSet_dmem (o : BitVec 8) (v : Word) : (ccbSet o v s).dmem = s.dmem := by
  unfold ccbSet; split <;> (try split) <;> first | rfl | simp
@[simp] theorem ccbSet_stored (o : BitVec 8) (v : Word) : (ccbSet o v s).stored = s.stored := by
  unfold ccbSet; split <;> (try split) <;> first | rfl | simp
@[simp] theorem ccbSet_inputs (o : BitVec 8) (v : Word) : (ccbSet o v s).inputs = s.inputs := by
  unfold ccbSet; split <;> (try split) <;> first | rfl | simp
@[simp] theorem ccbSet_outputs (o : BitVec 8) (v : Word) : (ccbSet o v s).outputs = s.outputs := by
  unfold ccbSet; split <;> (try split) <;> first | rfl | simp
@[simp] theorem ccbSet_freeCount (o : BitVec 8) (v : Word) : (ccbSet o v s).freeCount = s.freeCount := by
  unfold ccbSet; split <;> (try split) <;> first | rfl | simp
@[simp] theorem ccbSet_acceptWait (o : BitVec 8) (v : Word) : (ccbSet o v s).acceptWait = s.acceptWait := by
  unfold ccbSet; split <;> (try split) <;> first | rfl | simp
@[simp] theorem ccbWrite_set1 (o : BitVec 8) (v : Word) : (ccbWrite o v s).set1 = s.set1 := by
  unfold ccbWrite; split <;> simp
@[simp] theorem ccbWrite_set2 (o : BitVec 8) (v : Word) : (ccbWrite o v s).set2 = s.set2 := by
  unfold ccbWrite; split <;> simp
@[simp] theorem ccbWrite_psr (o : BitVec 8) (v : Word) : (ccbWrite o v s).psr = s.psr := by
  unfold ccbWrite; split <;> simp
@[simp] theorem ccbWrite_spsr (o : BitVec 8) (v : Word) : (ccbWrite o v s).spsr = s.spsr := by
  unfold ccbWrite; split <;> simp
@[simp] theorem ccbWrite_pr31 (o : BitVec 8) (v : Word) : (ccbWrite o v s).pr31 = s.pr31 := by
  unfold ccbWrite; split <;> simp
@[simp] theorem ccbWrite_cr (o : BitVec 8) (v : Word) : (ccbWrite o v s).cr = s.cr := by
  unfold ccbWrite; split <;> simp
@[simp] theorem ccbWrite_pc (o : BitVec 8) (v : Word) : (ccbWrite o v s).pc = s.pc := by
  unfold ccbWrite; split <;> simp
@[simp] theorem ccbWrite_delayedPc (o : BitVec 8) (v : Word) : (ccbWrite o v s).delayedPc = s.delayedPc := by
  unfold ccbWrite; split <;> simp
@[simp] theorem ccbWrite_mulHi (o : BitVec 8) (v : Word) : (ccbWrite o v s).mulHi = s.mulHi := by
  unfold ccbWrite; split <;> simp
@[simp] theorem ccbWrite_servOrder (o : BitVec 8) (v : Word) : (ccbWrite o v s).servOrder = s.servOrder := by
  unfold ccbWrite; split <;> simp
@[simp] theorem ccbWrite_spsrInflight (o : BitVec 8) (v : Word) : (ccbWrite o v s).spsrInflight = s.spsrInflight := by
  unfold ccbWrite; split <;> simp
@[simp] theorem ccbWrite_diWindow (o : BitVec 8) (v : Word) : (ccbWrite o v s).diWindow = s.diWindow := by
  unfold ccbWrite; split <;> simp
@[simp] theorem ccbWrite_intBlock (o : BitVec 8) (v : Word) : (ccbWrite o v s).intBlock = s.intBlock := by
  unfold ccbWrite; split <;> simp
@[simp] theorem ccbWrite_extOffset (o : BitVec 8) (v : Word) : (ccbWrite o v s).extOffset = s.extOffset := by
  unfold ccbWrite; split <;> simp
@[simp] theorem ccbWrite_tmr0Div (o : BitVec 8) (v : Word) : (ccbWrite o v s).tmr0Div = s.tmr0Div := by
  unfold ccbWrite; split <;> simp
@[simp] theorem ccbWrite_tmr1Div (o : BitVec 8) (v : Word) : (ccbWrite o v s).tmr1Div = s.tmr1Div := by
  unfold ccbWrite; split <;> simp
@[simp] theorem ccbWrite_busToken (o : BitVec 8) (v : Word) : (ccbWrite o v s).busToken = s.busToken := by
  unfold ccbWrite; split <;> simp
@[simp] theorem ccbWrite_extHandler (o : BitVec 8) (v : Word) : (ccbWrite o v s).extHandler = s.extHandler := by
  unfold ccbWrite; split <;> simp
@[simp] theorem ccbWrite_bootSel (o : BitVec 8) (v : Word) : (ccbWrite o v s).bootSel = s.bootSel := by
  unfold ccbWrite; split <;> simp
@[simp] theorem ccbWrite_bootAddr (o : BitVec 8) (v : Word) : (ccbWrite o v s).bootAddr = s.bootAddr := by
  unfold ccbWrite; split <;> simp
@[simp] theorem ccbWrite_imem (o : BitVec 8) (v : Word) : (ccbWrite o v s).imem = s.imem := by
  unfold ccbWrite; split <;> simp
@[simp] theorem ccbWrite_dmem (o : BitVec 8) (v : Word) : (ccbWrite o v s).dmem = s.dmem := by
  unfold ccbWrite; split <;> simp
@[simp] theorem ccbWrite_stored (o : BitVec 8) (v : Word) : (ccbWrite o v s).stored = s.stored := by
  unfold ccbWrite; split <;> simp
@[simp] theorem ccbWrite_inputs (o : BitVec 8) (v : Word) : (ccbWrite o v s).inputs = s.inputs := by
  unfold ccbWrite; split <;> simp
@[simp] theorem ccbWrite_outputs (o : BitVec 8) (v : Word) : (ccbWrite o v s).outputs = s.outputs := by
  unfold ccbWrite; split <;> simp
@[simp] theorem ccbWrite_freeCount (o : BitVec 8) (v : Word) : (ccbWrite o v s).freeCount = s.freeCount := by
  unfold ccbWrite; split <;> simp
@[simp] theorem ccbWrite_acceptWait (o : BitVec 8) (v : Word) : (ccbWrite o v s).acceptWait = s.acceptWait := by
  unfold ccbWrite; split <;> simp

end Sys2Proof.Machine
end

