-- ==== Sys2Proof/Laws/Memory.lean ====
section
/-! SUPPORT. Reading after writing, and the canonical form of memories. -/

namespace Sys2Proof.Machine

variable {n : Nat}

theorem Memory.wfFrom_mono {lo lo' : Nat} (h : lo' ≤ lo) {m : List (Nat × BitVec n)} (hm : Memory.wfFrom lo m = true) :
    Memory.wfFrom lo' m = true := by
  cases m with
  | nil => rfl
  | cons c m =>
    simp only [Memory.wfFrom, Bool.and_eq_true, decide_eq_true_eq] at hm ⊢
    exact ⟨⟨⟨by omega, hm.1.1.2⟩, hm.1.2⟩, hm.2⟩

/-- A canonical memory from `lo` up says nothing below `lo`. -/
theorem Memory.read_below {lo a : Nat} {m : List (Nat × BitVec n)} (hm : Memory.wfFrom lo m = true) (h : a < lo) :
    Memory.read m a = Memory.unlisted := by
  induction m generalizing lo with
  | nil => rfl
  | cons c m ih =>
    simp only [Memory.wfFrom, Bool.and_eq_true, decide_eq_true_eq] at hm
    have : c.1 ≠ a := by omega
    simp only [Memory.read, this, if_false]
    exact ih hm.2 (by omega)

theorem Memory.read_consCell (m : List (Nat × BitVec n)) (a b : Nat) (v : BitVec n)
    (h : v = Memory.unlisted → Memory.read m a = Memory.unlisted) :
    Memory.read (Memory.consCell a v m) b = if b = a then v else Memory.read m b := by
  unfold Memory.consCell
  split
  · rename_i hv
    split
    · rename_i hb; rw [hb, h hv, hv]
    · rfl
  · simp only [Memory.read]
    by_cases hb : b = a
    · simp [hb]
    · simp [hb, Ne.symm hb]

/-- A read after a write: the value written at its address, what was there elsewhere. -/
theorem Memory.read_write {lo : Nat} {m : List (Nat × BitVec n)} (hm : Memory.wfFrom lo m = true) (a b : Nat)
    (v : BitVec n) : Memory.read (Memory.write m a v) b = if b = a then v else Memory.read m b := by
  induction m generalizing lo with
  | nil => exact Memory.read_consCell [] a b v fun _ => rfl
  | cons c m ih =>
    obtain ⟨k, w⟩ := c
    have hm' := hm
    simp only [Memory.wfFrom, Bool.and_eq_true, decide_eq_true_eq] at hm
    simp only [Memory.write]
    split
    · rename_i hlt
      refine Memory.read_consCell _ a b v fun _ => ?_
      have : ¬k = a := by omega
      simp only [Memory.read, this, if_false]
      exact Memory.read_below hm.2 (by omega)
    · split
      · rename_i heq
        subst heq
        rw [Memory.read_consCell _ a b v fun _ => Memory.read_below hm.2 (by omega)]
        by_cases hb : b = a
        · simp [hb]
        · have : ¬a = b := fun h => hb h.symm
          simp [hb, Memory.read, this]
      · simp only [Memory.read, ih hm.2]
        by_cases hb : b = a
        · have : ¬k = b := by omega
          simp [hb, show ¬k = a by omega]
        · simp [hb]

/-- A read of an address that was not written, in any memory. -/
theorem Memory.read_write_other (m : List (Nat × BitVec n)) {a b : Nat} (v : BitVec n) (h : b ≠ a) :
    Memory.read (Memory.write m a v) b = Memory.read m b := by
  have hc : ∀ m : List (Nat × BitVec n), Memory.read (Memory.consCell a v m) b = Memory.read m b := by
    intro m
    unfold Memory.consCell
    split
    · rfl
    · simp [Memory.read, Ne.symm h]
  induction m with
  | nil => exact hc []
  | cons c m ih =>
    obtain ⟨k, w⟩ := c
    simp only [Memory.write]
    split
    · exact hc _
    · split
      · rename_i heq
        rw [hc m]
        have : ¬k = b := by omega
        simp [Memory.read, this]
      · simp only [Memory.read, ih]

/-- Every write keeps the canonical form. -/
theorem Memory.wfFrom_write {lo : Nat} {m : List (Nat × BitVec n)} (hm : Memory.wfFrom lo m = true) {a : Nat}
    (ha : lo ≤ a) (hb : a < 2 ^ 32) (v : BitVec n) : Memory.wfFrom lo (Memory.write m a v) = true := by
  have hc : ∀ {m : List (Nat × BitVec n)}, Memory.wfFrom lo m = true → Memory.wfFrom (a + 1) m = true →
      Memory.wfFrom lo (Memory.consCell a v m) = true := by
    intro m h1 h2
    unfold Memory.consCell
    split
    · exact h1
    · rename_i hv
      simp only [Memory.wfFrom, Bool.and_eq_true, decide_eq_true_eq]
      exact ⟨⟨⟨ha, hb⟩, hv⟩, h2⟩
  induction m generalizing lo with
  | nil => exact hc rfl rfl
  | cons c m ih =>
    obtain ⟨k, w⟩ := c
    have h0 := hm
    simp only [Memory.wfFrom, Bool.and_eq_true, decide_eq_true_eq] at hm
    simp only [Memory.write]
    split
    · rename_i hlt
      refine hc h0 ?_
      simp only [Memory.wfFrom, Bool.and_eq_true, decide_eq_true_eq]
      exact ⟨⟨⟨by omega, hm.1.1.2⟩, hm.1.2⟩, hm.2⟩
    · split
      · rename_i heq
        exact hc (Memory.wfFrom_mono (by omega) hm.2) (by rw [heq]; exact hm.2)
      · simp only [Memory.wfFrom, Bool.and_eq_true, decide_eq_true_eq]
        refine ⟨⟨⟨hm.1.1.1, hm.1.1.2⟩, hm.1.2⟩, ih hm.2 (by omega) ?_⟩
        intro m h1 h2
        unfold Memory.consCell
        split
        · exact h1
        · rename_i hv
          simp only [Memory.wfFrom, Bool.and_eq_true, decide_eq_true_eq]
          exact ⟨⟨⟨by omega, hb⟩, hv⟩, h2⟩

theorem Memory.wf_write {m : List (Nat × BitVec n)} (hm : Memory.wf m = true) {a : Nat} (hb : a < 2 ^ 32)
    (v : BitVec n) : Memory.wf (Memory.write m a v) = true := Memory.wfFrom_write hm (Nat.zero_le a) hb v

/-- With the default DMEM_UNIT an address names a cell. -/
theorem readData_eq (s : State) (a : Word) : s.readData a = Memory.read s.dmem a.toNat := rfl

/-- With the default IMEM_SHARED fetches read a store of their own. -/
theorem readCode_eq (s : State) (a : Word) : s.readCode a = Memory.read s.imem a.toNat := rfl

/-- The bytes of an instruction, one address after another (R112). -/
theorem codeBytes_getElem? (s : State) (a : Word) (n : Nat) : (s.codeBytes a n).length = n ∧
    ∀ k < n, (s.codeBytes a n)[k]? = some (s.readCode (a + BitVec.ofNat 32 k)) := by
  induction n generalizing a with
  | zero => exact ⟨rfl, fun k h => absurd h (by omega)⟩
  | succ n ih =>
    have hl : (s.codeBytes a (n + 1)) = s.readCode a :: s.codeBytes (a + 1) n := rfl
    refine ⟨by rw [hl, List.length_cons, (ih _).1], fun k hk => ?_⟩
    rw [hl]
    cases k with
    | zero => simp
    | succ k =>
      rw [List.getElem?_cons_succ, (ih _).2 k (by omega), BitVec.add_assoc]
      congr 3
      apply BitVec.eq_of_toNat_eq
      simp
      omega

theorem writeData_wf {s : State} (hm : Memory.wf s.dmem = true) (a v : Word) :
    Memory.wf (s.writeData a v).dmem = true := Memory.wf_write hm a.isLt v

theorem writeCode_wf {s : State} (hm : Memory.wf s.imem = true) (a : Word) (bs : List Byte) :
    Memory.wf (writeCode a bs s).imem = true := by
  induction bs generalizing a s with
  | nil => exact hm
  | cons b bs ih => exact ih (Memory.wf_write hm a.isLt b) (a + 1)

theorem reset_memories_wf : Memory.wf State.reset.imem = true ∧ Memory.wf State.reset.dmem = true := ⟨rfl, rfl⟩

end Sys2Proof.Machine
end

