-- ==== Sys2Proof/Laws/Ops.lean ====
section
/-! SUPPORT. What each shared operation can do, said once: proofs cite these lemmas and do not unfold the operations. -/

namespace Sys2Proof.Machine

/-! ## Registers -/

theorem readSet_congr {s t : State} (h1 : t.set1 = s.set1) (h2 : t.set2 = s.set2) (h3 : t.psr = s.psr)
    (h4 : t.spsr = s.spsr) (h5 : t.pr31 = s.pr31) (two : Bool) (i : Reg) : readSet two i t = readSet two i s := by
  simp only [readSet, h1, h2, h3, h4, h5]

/-- A read after a write of a register. -/
theorem readSet_writeSet (w : Bool) (d : Reg) (v : Word) (s : State) (two : Bool) (i : Reg) :
    readSet two i (writeSet w d v s) =
      if two = w ∧ i = d ∧ ¬(two = true ∧ i = 29#5) then v else readSet two i s := by
  have hne : ∀ k : Nat, i.toNat = k → d.toNat ≠ k → i ≠ d := fun k h h' e => h' (e ▸ h)
  cases w <;> cases two
  · by_cases h : i = d
    · subst h; simp [readSet, writeSet]
    · have h' : ¬d.toNat = i.toNat := fun e => h (BitVec.eq_of_toNat_eq e.symm)
      simp [readSet, writeSet, h, h']
  · simp [readSet, writeSet]
  · simp only [writeSet, if_true, Bool.false_eq_true, false_and, if_false]
    split
    · rfl
    · split
      · rfl
      · split <;> rfl
  · simp only [writeSet, if_true, true_and]
    by_cases h : i = d
    · subst h
      by_cases h1 : i.toNat < 29
      · have : ¬i = 29#5 := fun e => by rw [e] at h1; exact absurd h1 (by decide)
        simp [readSet, h1, this]
      · by_cases h2 : i.toNat = 29
        · have : i = 29#5 := BitVec.eq_of_toNat_eq h2
          simp [this, readSet]
        · have : ¬i = 29#5 := fun e => h2 (by rw [e]; rfl)
          by_cases h3 : i.toNat = 30 <;> simp [readSet, h1, h2, h3, this]
    · have h' : ¬d.toNat = i.toNat := fun e => h (BitVec.eq_of_toNat_eq e.symm)
      simp only [h, false_and, if_false]
      by_cases h1 : d.toNat < 29
      · simp only [h1, dif_pos]
        by_cases h2 : i.toNat < 29
        · simp [readSet, h2, h']
        · simp [readSet, h2]
      · by_cases h2 : d.toNat = 29
        · simp [h2]
        · by_cases h3 : d.toNat = 30
          · have : ¬i.toNat = 30 := by omega
            simp [h3, readSet, this]
          · have h4 : d.toNat = 31 := by have := d.isLt; omega
            have h5 : ¬i.toNat = 31 := by omega
            have h6 : i.toNat < 29 ∨ i.toNat = 29 ∨ i.toNat = 30 := by have := i.isLt; omega
            rcases h6 with h6 | h6 | h6 <;> simp [h1, h2, h3, readSet, h6]

theorem writeX_spsrInflight (d : Reg) (v : Word) (s : State) :
    (writeX d v s).spsrInflight =
      if s.psr.rswr = true ∧ d = 30#5 then { old := s.spsr, age := 0 } :: s.spsrInflight else s.spsrInflight := by
  unfold writeX writeSet
  cases hw : s.psr.rswr
  · simp
  · simp only [if_true, true_and]
    split
    · have : ¬d = 30#5 := fun e => by rename_i h; rw [e] at h; exact absurd h (by decide)
      simp [this]
    · split
      · have : ¬d = 30#5 := fun e => by rename_i h; rw [e] at h; exact absurd h (by decide)
        simp [this]
      · split
        · rename_i h
          simp [show d = 30#5 from BitVec.eq_of_toNat_eq h]
        · have : ¬d = 30#5 := fun e => by rename_i h; rw [e] at h; exact absurd h (by decide)
          simp [this]

theorem readCr_setCr (k j : CReg) (f : Flags) (s : State) :
    readCr j (setCr k f s) = if j = k then f else readCr j s := by
  by_cases h : j = k
  · subst h; simp [readCr, setCr]
  · have h' : ¬k.toNat = j.toNat := fun e => h (BitVec.eq_of_toNat_eq e.symm)
    simp [readCr, setCr, h, h']

theorem setC0_eq (f : Flags) (s : State) : setC0 f s = setCr 0 f s := rfl

/-! ## The end of an instruction -/

theorem CanAdvance.congr {s t : State} (h : CanAdvance s) (h1 : t.pc = s.pc) (h2 : t.delayedPc = s.delayedPc)
    (h3 : t.psr.il = s.psr.il) : CanAdvance t := by
  unfold CanAdvance State.ilen Psr.ilen at *
  rw [h1, h2, h3]; exact h

theorem followingPc_congr {s t : State} (h1 : t.pc = s.pc) (h2 : t.delayedPc = s.delayedPc)
    (h3 : t.psr.il = s.psr.il) : followingPc t = followingPc s := by
  unfold followingPc State.ilen Psr.ilen
  rw [h1, h2, h3]

theorem nextPc_eq {s : State} (h : CanAdvance s) : nextPc s = some (followingPc s) := by
  unfold nextPc followingPc
  cases hd : s.delayedPc with
  | some t => simp
  | none =>
    have : s.pc.toNat + s.ilen < 2 ^ 32 := by
      rcases h with h | h
      · simp [hd] at h
      · exact h
    show (if s.pc.toNat + s.ilen < 2 ^ 32 then _ else none) = _
    rw [if_pos this]; rfl

theorem canAdvance_of_nextPc {s : State} {p : Word} (h : nextPc s = some p) : CanAdvance s := by
  unfold nextPc at h
  cases hd : s.delayedPc with
  | some t => exact .inl (by simp [hd])
  | none =>
    simp only [hd] at h
    split at h
    · exact .inr ‹_›
    · cases h

/-- The end of an instruction where there is a next pc. -/
theorem retireWith_next {s : State} (h : CanAdvance s) (delayed mulHi : Option Word) (block : Bool) :
    retireWith delayed mulHi block s =
      .next { ageInflight 1 s with pc := followingPc s, delayedPc := delayed, mulHi := mulHi, intBlock := block } := by
  unfold retireWith
  rw [nextPc_eq h]

/-- The only next state the end of an instruction can give. -/
theorem retireWith_eq {s t : State} {delayed mulHi : Option Word} {block : Bool}
    (h : retireWith delayed mulHi block s = .next t) :
    CanAdvance s ∧
      t = { ageInflight 1 s with pc := followingPc s, delayedPc := delayed, mulHi := mulHi, intBlock := block } := by
  unfold retireWith at h
  cases hn : nextPc s with
  | none => simp [hn] at h
  | some p =>
    have hc := canAdvance_of_nextPc hn
    rw [nextPc_eq hc] at hn
    cases hn
    rw [nextPc_eq hc] at h
    cases h
    exact ⟨hc, rfl⟩

/-- The end of an instruction is a next state or the fault at the top of memory. -/
theorem retireWith_outcome (delayed mulHi : Option Word) (block : Bool) (s : State) :
    (∃ t, retireWith delayed mulHi block s = .next t) ∨ retireWith delayed mulHi block s = .fault .pcPastTop := by
  unfold retireWith
  split
  · exact .inr rfl
  · exact .inl ⟨_, rfl⟩

/-! ## Results -/

theorem onlyReg_writeX (d : Reg) (v : Word) (s : State) {t : State} (h1 : t.set1 = (writeX d v s).set1)
    (h2 : t.set2 = (writeX d v s).set2) (h3 : t.psr = s.psr) (h4 : t.spsr = (writeX d v s).spsr)
    (h5 : t.pr31 = (writeX d v s).pr31) (h6 : t.spsrInflight = ageSpsr 1 (writeX d v s).spsrInflight) :
    OnlyReg d v s t := by
  refine ⟨fun two i => ?_, by rw [h6, writeX_spsrInflight]⟩
  rw [readSet_congr (s := writeX d v s) h1 h2 (by rw [h3, writeX_psr]) h4 h5, writeX, readSet_writeSet]

/-- An instruction that writes one register. -/
theorem writeResult_next {s : State} (h : CanAdvance s) (d : Reg) (v : Word) :
    ∃ t, writeResult d v s = .next t ∧ GivesReg d v s t := by
  refine ⟨_, retireWith_next (h.congr (by simp) (by simp) (by simp)) _ _ _, ?_⟩
  constructor
  · exact onlyReg_writeX d v s rfl rfl (by simp) rfl rfl rfl
  · intro j; simp [readCr]
  · exact ⟨⟨fun a => by simp [State.readData], fun a => by simp [State.readCode]⟩,
      ⟨by constructor <;> (try constructor) <;> simp,
        by simp⟩, ⟨by simp, by simp⟩, ⟨by simp, by simp⟩⟩
  · exact ⟨followingPc_congr (by simp) (by simp) (by simp), rfl, rfl, rfl, by simp⟩

/-- An instruction that writes one register and C0. -/
theorem writeFlagged_next {s : State} (h : CanAdvance s) (d : Reg) (v : Word) (f : Flags) :
    ∃ t, writeFlagged d v f s = .next t ∧ GivesRegFlags d v f s t := by
  refine ⟨_, retireWith_next (h.congr (by simp) (by simp) (by simp)) _ _ _, ?_⟩
  constructor
  · exact onlyReg_writeX d v s rfl rfl (by simp) rfl rfl rfl
  · intro j
    have := readCr_setCr 0 j f (writeX d v s)
    simp only [readCr, writeX_cr] at this ⊢
    exact this
  · exact ⟨⟨fun a => by simp [State.readData], fun a => by simp [State.readCode]⟩,
      ⟨by constructor <;> (try constructor) <;> simp,
        by simp⟩, ⟨by simp, by simp⟩, ⟨by simp, by simp⟩⟩
  · exact ⟨followingPc_congr (by simp) (by simp) (by simp), rfl, rfl, rfl, by simp⟩

theorem highWord_eq (p : Int) : highWord p = (BitVec.ofInt 64 p).extractLsb' 32 32 := by
  apply BitVec.eq_of_toNat_eq
  simp only [highWord, BitVec.toNat_ofInt, BitVec.extractLsb'_toNat, Nat.shiftRight_eq_div_pow]
  omega

/-- A 32-bit multiplication. -/
theorem multiply_next {s : State} (h : CanAdvance s) (d : Reg) (p : Int) :
    ∃ t, multiply d p s = .next t ∧ GivesProduct d p s t := by
  refine ⟨_, retireWith_next (h.congr (by simp) (by simp) (by simp)) _ _ _, ?_⟩
  constructor
  · exact onlyReg_writeX d _ s rfl rfl (by simp) rfl rfl rfl
  · intro j; simp [readCr]
  · exact ⟨⟨fun a => by simp [State.readData], fun a => by simp [State.readCode]⟩,
      ⟨by constructor <;> (try constructor) <;> simp,
        by simp⟩, ⟨by simp, by simp⟩, ⟨by simp, by simp⟩⟩
  · exact ⟨followingPc_congr (by simp) (by simp) (by simp), rfl, by simp [highWord_eq], rfl, by simp⟩

/-- An instruction that writes one condition register. -/
theorem setCr_next {s : State} (h : CanAdvance s) (k : CReg) (f : Flags) :
    ∃ t, retire (setCr k f s) = .next t ∧ GivesFlags k f s t := by
  refine ⟨_, retireWith_next (h.congr (by simp) (by simp) (by simp)) _ _ _, ?_⟩
  constructor
  · exact ⟨fun two i => readSet_congr rfl rfl rfl rfl rfl two i, rfl⟩
  · intro j; exact readCr_setCr k j f s
  · exact ⟨⟨fun a => rfl, fun a => rfl⟩, ⟨by constructor <;> first | rfl | (constructor <;> rfl), rfl⟩,
      ⟨rfl, rfl⟩, ⟨rfl, rfl⟩⟩
  · exact ⟨rfl, rfl, rfl, rfl, rfl⟩

/-- An instruction without an effect. -/
theorem retire_next {s : State} (h : CanAdvance s) (block : Bool) :
    ∃ t, retireWith none none block s = .next t ∧ OnlyEnds block s t := by
  refine ⟨_, retireWith_next h _ _ _, ?_⟩
  exact ⟨⟨fun two i => readSet_congr rfl rfl rfl rfl rfl two i, rfl⟩, fun j => rfl,
    ⟨⟨fun a => rfl, fun a => rfl⟩, ⟨by constructor <;> first | rfl | (constructor <;> rfl), rfl⟩,
      ⟨rfl, rfl⟩, ⟨rfl, rfl⟩⟩, ⟨rfl, rfl, rfl, rfl, rfl⟩⟩

/-! ## Exceptions and transfers -/

theorem handler_toByte : Psr.handler.toByte = 0x0E#8 := by decide

/-- Exception entry, writes in flight apart. -/
theorem takeException_enters (c : BitVec 8) (s : State) : EntersException c s (takeException c s) :=
  ⟨rfl, rfl, rfl, rfl, handler_toByte, rfl, rfl, rfl, rfl, rfl, rfl, rfl, rfl, rfl, rfl, rfl, rfl, rfl, rfl,
    by constructor <;> first | rfl | (constructor <;> rfl)⟩

/-- Exception entry, as an instruction takes it. -/
theorem raise_raised (c : BitVec 8) (s : State) : Raised c s (ageInflight 1 (takeException c s)) :=
  ⟨⟨rfl, rfl, rfl, rfl, handler_toByte, rfl, rfl, rfl, rfl, rfl, rfl, rfl, rfl, rfl, rfl, rfl, rfl, rfl, rfl,
    by constructor <;> first | rfl | (constructor <;> rfl)⟩, rfl, rfl⟩

/-- Exception entry, as the fetch takes it. -/
theorem takeException_raisedAtFetch (c : BitVec 8) (s : State) : RaisedAtFetch c s (takeException c s) :=
  ⟨takeException_enters c s, rfl, rfl⟩

/-- A taken transfer that raises nothing. -/
theorem transfer_next {s : State} (h : CanAdvance s) {relative : Bool} {t : Int}
    (hf : transferFault relative t s = none) :
    ∃ u, transfer relative t s = .next u ∧ Transfers (BitVec.ofInt 32 t) s u := by
  unfold transfer
  rw [hf]
  refine ⟨_, retireWith_next h _ _ _, ?_⟩
  exact ⟨⟨fun two i => readSet_congr rfl rfl rfl rfl rfl two i, rfl⟩, fun j => rfl,
    ⟨⟨fun a => rfl, fun a => rfl⟩, ⟨by constructor <;> first | rfl | (constructor <;> rfl), rfl⟩,
      ⟨rfl, rfl⟩, ⟨rfl, rfl⟩⟩, ⟨rfl, rfl, rfl, rfl, rfl⟩⟩

/-- A taken transfer that links and raises nothing. -/
theorem transferLink_next {s : State} (h : CanAdvance s) {relative : Bool} {t : Int}
    (hf : transferFault relative t s = none) :
    ∃ u, transferLink relative t s = .next u ∧ TransfersLinked (BitVec.ofInt 32 t) s u := by
  unfold transferLink
  rw [hf]
  refine ⟨_, retireWith_next (h.congr (by simp) (by simp) (by simp)) _ _ _, ?_⟩
  constructor
  · exact onlyReg_writeX _ _ s rfl rfl (by simp) rfl rfl rfl
  · intro j; simp [readCr]
  · exact ⟨⟨fun a => by simp [State.readData], fun a => by simp [State.readCode]⟩,
      ⟨by constructor <;> (try constructor) <;> simp,
        by simp⟩, ⟨by simp, by simp⟩, ⟨by simp, by simp⟩⟩
  · exact ⟨followingPc_congr (by simp) (by simp) (by simp), rfl, rfl, rfl, by simp⟩

/-- An instruction whose condition holds. -/
theorem guarded_true {f : Form} {s : State} (h : executes f s = true) (k : State → Result) : guarded f k s = k s := by
  simp [guarded, h]

/-- An instruction whose condition is false. -/
theorem guarded_false {f : Form} {s : State} (h : executes f s = false) (k : State → Result) :
    guarded f k s = retire s := by
  simp [guarded, h]

/-! ## What implicit users of the CCB see -/

/-- With nothing in flight an implicit use sees the current value. -/
theorem seen_settled {s : State} (h : Settled s) (use : CcbUse) (off : BitVec 8) : seen use off s = ccbRead off s := by
  have : s.ccbInflight = [] := h
  simp [seen, seenIndex, lagging, this]

/-- Where user mode may fetch or jump, with nothing in flight (R117). -/
theorem instrAllowed_settled {s : State} (h : Settled s) (use : CcbUse) (a : Word) :
    instrAllowed use a s = rangeAllowed (s.ccb.memConf.getLsbD 0) s.ccb.imemBoundLo s.ccb.imemBoundHi a := by
  unfold instrAllowed
  rw [seen_settled h, seen_settled h, seen_settled h]
  congr 1

/-- Which data user mode may access, with nothing in flight (R116). -/
theorem dataAllowed_settled {s : State} (h : Settled s) (a : Word) :
    dataAllowed a s = rangeAllowed (s.ccb.memConf.getLsbD 1) s.ccb.dmemBoundLo s.ccb.dmemBoundHi a := by
  unfold dataAllowed
  rw [seen_settled h, seen_settled h, seen_settled h]
  congr 1

/-- What an implicit use sees depends on nothing but the CCB, the hardware stack, the writes in flight and the counter. -/
theorem ccbRead_congr {s t : State} (h1 : t.ccb = s.ccb) (h2 : t.hwstack = s.hwstack) (h3 : t.retiBase = s.retiBase)
    (h4 : t.freeCount = s.freeCount) (off : BitVec 8) : ccbRead off t = ccbRead off s := by
  simp only [ccbRead, retiEntry, h1, h2, h3, h4]

theorem seen_congr {s t : State} (h1 : t.ccb = s.ccb) (h2 : t.hwstack = s.hwstack) (h3 : t.retiBase = s.retiBase)
    (h4 : t.freeCount = s.freeCount) (h5 : t.ccbInflight = s.ccbInflight) (use : CcbUse) (off : BitVec 8) :
    seen use off t = seen use off s := by
  simp only [seen, seenIndex, ccbRead_congr h1 h2 h3 h4, h4, h5]

/-- A pop forgets writes to the RETI registers and no others. -/
theorem lagging_dropRetiWrites {off : BitVec 8} (h : ¬(0x28 ≤ off.toNat ∧ off.toNat ≤ 0x2A)) (g : Nat)
    (l : List CcbWrite) : lagging off g (dropRetiWrites l) = lagging off g l := by
  unfold lagging dropRetiWrites
  rw [List.filter_filter]
  congr 1
  apply List.filter_congr
  intro w _
  by_cases hw : w.offset = off
  · subst hw; simp [h]
  · simp [hw]

theorem ccbRead_popStack {off : BitVec 8} (h : ¬(0x28 ≤ off.toNat ∧ off.toNat ≤ 0x2A)) (s : State) :
    ccbRead off (popStack s) = ccbRead off s := by
  have hn : ∀ n, 0x28 ≤ n ∧ n ≤ 0x2A → off.toNat ≠ n := fun n hn e => h (e ▸ hn)
  unfold ccbRead
  split
  · rfl
  · split <;> first | rfl | exact absurd ‹off.toNat = _› (hn _ (by decide))

/-- No implicit use but `reti` sees a pop. -/
theorem seen_popStack {off : BitVec 8} (h : ¬(0x28 ≤ off.toNat ∧ off.toNat ≤ 0x2A)) (use : CcbUse) (s : State) :
    seen use off (popStack s) = seen use off s := by
  have hl : lagging off (guards use) (popStack s).ccbInflight = lagging off (guards use) s.ccbInflight :=
    lagging_dropRetiWrites h _ _
  simp only [seen, seenIndex, hl, ccbRead_popStack h, popStack_freeCount]

end Sys2Proof.Machine
end

