-- ==== Sys2Proof/Laws/Outcomes.lean ====
section
/-! SUPPORT. The other direction: if a shared operation answers a next state, which one it is. A claim about every
instruction takes an execution apart with these lemmas and never unfolds an operation. -/

namespace Sys2Proof.Machine

/-! ## The end of an instruction -/

/-- The state in which an instruction that did `s` ends. -/
def ended (delayed mulHi : Option Word) (block : Bool) (s : State) : State :=
  { ageInflight 1 s with pc := followingPc s, delayedPc := delayed, mulHi := mulHi, intBlock := block }

section
variable (delayed mulHi : Option Word) (block : Bool) (s : State)

@[simp] theorem ended_set1 : (ended delayed mulHi block s).set1 = s.set1 := rfl
@[simp] theorem ended_set2 : (ended delayed mulHi block s).set2 = s.set2 := rfl
@[simp] theorem ended_psr : (ended delayed mulHi block s).psr = s.psr := rfl
@[simp] theorem ended_spsr : (ended delayed mulHi block s).spsr = s.spsr := rfl
@[simp] theorem ended_pr31 : (ended delayed mulHi block s).pr31 = s.pr31 := rfl
@[simp] theorem ended_cr : (ended delayed mulHi block s).cr = s.cr := rfl
@[simp] theorem ended_pc : (ended delayed mulHi block s).pc = followingPc s := rfl
@[simp] theorem ended_delayedPc : (ended delayed mulHi block s).delayedPc = delayed := rfl
@[simp] theorem ended_mulHi : (ended delayed mulHi block s).mulHi = mulHi := rfl
@[simp] theorem ended_intBlock : (ended delayed mulHi block s).intBlock = block := rfl
@[simp] theorem ended_hwstack : (ended delayed mulHi block s).hwstack = s.hwstack := rfl
@[simp] theorem ended_retiBase : (ended delayed mulHi block s).retiBase = s.retiBase := rfl
@[simp] theorem ended_servOrder : (ended delayed mulHi block s).servOrder = s.servOrder := rfl
@[simp] theorem ended_ccb : (ended delayed mulHi block s).ccb = s.ccb := rfl
@[simp] theorem ended_ccbInflight : (ended delayed mulHi block s).ccbInflight = ageCcb 1 s.ccbInflight := rfl
@[simp] theorem ended_spsrInflight : (ended delayed mulHi block s).spsrInflight = ageSpsr 1 s.spsrInflight := rfl
@[simp] theorem ended_diWindow : (ended delayed mulHi block s).diWindow = s.diWindow := rfl
@[simp] theorem ended_imem : (ended delayed mulHi block s).imem = s.imem := rfl
@[simp] theorem ended_dmem : (ended delayed mulHi block s).dmem = s.dmem := rfl
@[simp] theorem ended_outputs : (ended delayed mulHi block s).outputs = s.outputs := rfl
@[simp] theorem ended_busToken : (ended delayed mulHi block s).busToken = s.busToken := rfl
@[simp] theorem ended_freeCount : (ended delayed mulHi block s).freeCount = s.freeCount := rfl
@[simp] theorem ended_inputs : (ended delayed mulHi block s).inputs = s.inputs := rfl

end

theorem retireWith_cases {s t : State} {delayed mulHi : Option Word} {block : Bool}
    (h : retireWith delayed mulHi block s = .next t) : CanAdvance s ∧ t = ended delayed mulHi block s :=
  retireWith_eq h

theorem retire_cases {s t : State} (h : retire s = .next t) : CanAdvance s ∧ t = ended none none false s :=
  retireWith_eq h

theorem writeResult_cases {d : Reg} {v : Word} {s t : State} (h : writeResult d v s = .next t) :
    CanAdvance (writeX d v s) ∧ t = ended none none false (writeX d v s) := retireWith_eq h

theorem writeFlagged_cases {d : Reg} {v : Word} {f : Flags} {s t : State} (h : writeFlagged d v f s = .next t) :
    CanAdvance (setC0 f (writeX d v s)) ∧ t = ended none none false (setC0 f (writeX d v s)) := retireWith_eq h

theorem multiply_cases {d : Reg} {p : Int} {s t : State} (h : multiply d p s = .next t) :
    CanAdvance (writeX d (lowWord p) s) ∧ t = ended none (some (highWord p)) true (writeX d (lowWord p) s) :=
  retireWith_eq h

theorem notTaken_cases {s t : State} (h : notTaken s = .next t) : CanAdvance s ∧ t = ended none none true s :=
  retireWith_eq h

/-! ## Exceptions -/

theorem raise_cases {c : BitVec 8} {s t : State} (h : raise c s = .next t) : t = ageInflight 1 (takeException c s) := by
  cases h; rfl

theorem raiseData_cases {c : BitVec 8} {s t : State} (h : raiseData c s = .next t) :
    t = ageInflight 1 (takeException c s) ∨
    (retiFollows s = true ∧ s.hwstack ≠ [] ∧ t = ageInflight 1 (takeException c (popStack s))) := by
  unfold raiseData at h
  split at h
  · rename_i hr
    simp only [Bool.and_eq_true, Bool.not_eq_true', List.isEmpty_eq_false_iff] at hr
    split at h
    · exact .inr ⟨hr.1, hr.2, raise_cases h⟩
    · exact .inl (raise_cases h)
  · exact .inl (raise_cases h)

/-- When `reti` stands behind the instruction at pc (R334). -/
theorem retiFollows_iff (s : State) : retiFollows s = true ↔ s.pc.toNat + s.ilen < 2 ^ 32 ∧
    ∃ w, decodeBytes s.psr.width (s.codeBytes (s.pc + BitVec.ofNat 32 s.ilen) s.ilen) = .ok (.reti w) := by
  have hm : s.codeModified (s.pc + BitVec.ofNat 32 s.ilen) s.ilen = false := rfl
  simp only [retiFollows, hm, Bool.false_or, Bool.and_eq_true, decide_eq_true_eq]
  refine and_congr Iff.rfl ⟨fun h => ?_, fun ⟨w, h⟩ => by rw [h]⟩
  split at h
  · exact ⟨_, ‹_›⟩
  · cases h

theorem superOnly_cases {k : State → Result} {s t : State} (h : superOnly k s = .next t) :
    (s.psr.um = true ∧ t = ageInflight 1 (takeException codeIllegalInstruction s)) ∨
    (s.psr.um = false ∧ k s = .next t) := by
  unfold superOnly at h
  cases hu : s.psr.um <;> simp only [hu, if_true, Bool.false_eq_true, if_false] at h
  · exact .inr ⟨rfl, h⟩
  · exact .inl ⟨rfl, raise_cases h⟩

theorem wideOnly_cases {k : State → Result} {s t : State} (h : wideOnly k s = .next t) :
    (s.psr.il = false ∧ t = ageInflight 1 (takeException codeIllegalInstruction s)) ∨
    (s.psr.il = true ∧ k s = .next t) := by
  unfold wideOnly at h
  cases hu : s.psr.il <;> simp only [hu, if_true, Bool.false_eq_true, if_false] at h
  · exact .inl ⟨rfl, raise_cases h⟩
  · exact .inr ⟨rfl, h⟩

theorem guarded_cases {f : Form} {k : State → Result} {s t : State} (h : guarded f k s = .next t) :
    (executes f s = true ∧ k s = .next t) ∨ (executes f s = false ∧ CanAdvance s ∧ t = ended none none false s) := by
  cases hx : executes f s
  · rw [guarded_false hx] at h; exact .inr ⟨rfl, retire_cases h⟩
  · rw [guarded_true hx] at h; exact .inl ⟨rfl, h⟩

theorem notInSlot_cases {k : State → Result} {s t : State} (h : notInSlot k s = .next t) :
    s.delayedPc = none ∧ k s = .next t := by
  unfold notInSlot at h
  split at h
  · cases h
  · rename_i hd
    exact ⟨by simpa using hd, h⟩

/-! ## Arithmetic and transfers -/

theorem addChecked_cases {d : Reg} {a b : Word} {s t : State} (h : addChecked d a b s = .next t) :
    (overflows (a.toInt + b.toInt) = true ∧ t = ageInflight 1 (takeException codeArithmeticOverflow s)) ∨
    (overflows (a.toInt + b.toInt) = false ∧
      t = ended none none false (setC0 (addFlags a b) (writeX d (a + b) s))) := by
  unfold addChecked at h
  split at h
  · exact .inl ⟨‹_›, raise_cases h⟩
  · rename_i ho
    exact .inr ⟨by simpa using ho, (writeFlagged_cases h).2⟩

theorem subChecked_cases {d : Reg} {a b : Word} {s t : State} (h : subChecked d a b s = .next t) :
    (overflows (a.toInt - b.toInt) = true ∧ t = ageInflight 1 (takeException codeArithmeticOverflow s)) ∨
    (overflows (a.toInt - b.toInt) = false ∧
      t = ended none none false (setC0 (subFlags a b) (writeX d (a - b) s))) := by
  unfold subChecked at h
  split at h
  · exact .inl ⟨‹_›, raise_cases h⟩
  · rename_i ho
    exact .inr ⟨by simpa using ho, (writeFlagged_cases h).2⟩

/-- The exception of a transfer is one of three. -/
theorem transferFault_cases {relative : Bool} {a : Int} {s : State} {c : BitVec 8} (h : transferFault relative a s = some c) :
    c = codeJumpOverflow ∨ c = codeMisalignedJump ∨ c = codeIllegalJump := by
  unfold transferFault at h
  split at h
  · cases h; exact .inl rfl
  · split at h
    · cases h; exact .inr (.inl rfl)
    · split at h
      · cases h; exact .inr (.inr rfl)
      · cases h

theorem transfer_cases {relative : Bool} {a : Int} {s t : State} (h : transfer relative a s = .next t) :
    (∃ c, transferFault relative a s = some c ∧ t = ageInflight 1 (takeException c s)) ∨
    (transferFault relative a s = none ∧ CanAdvance s ∧ t = ended (some (BitVec.ofInt 32 a)) none true s) := by
  unfold transfer at h
  cases hf : transferFault relative a s with
  | some c => rw [hf] at h; exact .inl ⟨c, rfl, raise_cases h⟩
  | none => rw [hf] at h; exact .inr ⟨rfl, retireWith_eq h⟩

theorem transferLink_cases {relative : Bool} {a : Int} {s t : State} (h : transferLink relative a s = .next t) :
    (∃ c, transferFault relative a s = some c ∧ t = ageInflight 1 (takeException c s)) ∨
    (transferFault relative a s = none ∧
      t = ended (some (BitVec.ofInt 32 a)) none true (writeX 31#5 (linkAddress s) s)) := by
  unfold transferLink at h
  cases hf : transferFault relative a s with
  | some c => rw [hf] at h; exact .inl ⟨c, rfl, raise_cases h⟩
  | none => rw [hf] at h; exact .inr ⟨rfl, (retireWith_eq h).2⟩

theorem branch_cases {cond : Cond} {k : CReg} {imm : Int} {s t : State} (h : branch cond k imm s = .next t) :
    s.delayedPc = none ∧
    ((condTrue cond (readCr k s) = true ∧ transfer true (relativeTarget imm s) s = .next t) ∨
      (condTrue cond (readCr k s) = false ∧ CanAdvance s ∧ t = ended none none true s)) := by
  obtain ⟨hd, h⟩ := notInSlot_cases h
  refine ⟨hd, ?_⟩
  split at h
  · exact .inl ⟨‹_›, h⟩
  · rename_i hc
    exact .inr ⟨by simpa using hc, notTaken_cases h⟩

/-! ## Data accesses -/

theorem dataFault_cases {ea : Int} {s : State} {c : BitVec 8} (h : dataFault ea s = some c) :
    c = codeDataViolation ∨ c = codeDataOverflow := by
  unfold dataFault at h
  split at h
  · cases h; exact .inl rfl
  · split at h
    · cases h; exact .inr rfl
    · cases h

/-- An access that raises nothing is in range, and user mode may make it. -/
theorem dataFault_none {ea : Int} {s : State} (h : dataFault ea s = none) :
    0 ≤ ea ∧ ea < (2 : Int) ^ 32 ∧ (s.psr.um = true → dataAllowed (BitVec.ofInt 32 ea) s = true) := by
  unfold dataFault at h
  split at h
  · cases h
  · rename_i hu
    split at h
    · cases h
    · rename_i hr
      refine ⟨by omega, by omega, fun hum => ?_⟩
      simpa [hum] using hu

theorem memWrite_cases {a v : Word} {s t : State} (h : memWrite a v s = some t) :
    (∃ off, windowOf a s = .ccb off ∧ ¬(off = offCcbBase ∧ v.toNat % 256 ≠ 0) ∧ t = ccbWrite off v s) ∨
    (∃ d, windowOf a s = .pcb d ∧ t = { s with outputs := .pcbWrite d v :: s.outputs, busToken := .core }) ∨
    (windowOf a s = .mem ∧ t = { s.writeData a v with busToken := .core }) := by
  unfold memWrite at h
  cases hw : windowOf a s with
  | ccb off =>
    rw [hw] at h
    simp only at h
    split at h
    · cases h
    · cases h; exact .inl ⟨off, rfl, ‹_›, rfl⟩
  | pcb d => rw [hw] at h; cases h; exact .inr (.inl ⟨d, rfl, rfl⟩)
  | mem => rw [hw] at h; cases h; exact .inr (.inr ⟨rfl, rfl⟩)

theorem readEffect_cases (a : Word) (s : State) :
    (∃ off, windowOf a s = .ccb off ∧ readEffect a s = s) ∨
    (∃ d, windowOf a s = .pcb d ∧ readEffect a s = { s with outputs := .pcbRead d :: s.outputs, busToken := .core }) ∨
    (windowOf a s = .mem ∧ readEffect a s = { s with busToken := .core }) := by
  unfold readEffect
  cases hw : windowOf a s with
  | ccb off => exact .inl ⟨off, rfl, rfl⟩
  | pcb d => exact .inr (.inl ⟨d, rfl, rfl⟩)
  | mem => exact .inr (.inr ⟨rfl, rfl⟩)

theorem execLd_cases {f : Form} {d a : Reg} {imm : Int} {s t : State} (h : execLd f d a imm s = .next t) :
    (executes f s = false ∧ t = ended none none false s) ∨
    (executes f s = true ∧ ∃ c, dataFault (effectiveAddress a imm s) s = some c ∧ raiseData c s = .next t) ∨
    (executes f s = true ∧ dataFault (effectiveAddress a imm s) s = none ∧
      t = ended none none false (writeX d (memRead (BitVec.ofInt 32 (effectiveAddress a imm s)) s)
        (readEffect (BitVec.ofInt 32 (effectiveAddress a imm s)) s))) := by
  rcases guarded_cases h with ⟨hx, h⟩ | ⟨hx, -, h⟩
  · simp only at h
    cases hf : dataFault (effectiveAddress a imm s) s with
    | some c => rw [hf] at h; exact .inr (.inl ⟨hx, c, rfl, h⟩)
    | none => rw [hf] at h; exact .inr (.inr ⟨hx, rfl, (writeResult_cases h).2⟩)
  · exact .inl ⟨hx, h⟩

theorem execSt_cases {f : Form} {b a : Reg} {imm : Int} {s t : State} (h : execSt f b a imm s = .next t) :
    (executes f s = false ∧ t = ended none none false s) ∨
    (executes f s = true ∧ ∃ c, dataFault (effectiveAddress a imm s) s = some c ∧ raiseData c s = .next t) ∨
    (executes f s = true ∧ dataFault (effectiveAddress a imm s) s = none ∧
      ∃ u, memWrite (BitVec.ofInt 32 (effectiveAddress a imm s)) (readX b s) s = some u ∧
        t = ended none none false u) := by
  rcases guarded_cases h with ⟨hx, h⟩ | ⟨hx, -, h⟩
  · simp only at h
    cases hf : dataFault (effectiveAddress a imm s) s with
    | some c => rw [hf] at h; exact .inr (.inl ⟨hx, c, rfl, h⟩)
    | none =>
      rw [hf] at h
      simp only at h
      cases hw : memWrite (BitVec.ofInt 32 (effectiveAddress a imm s)) (readX b s) s with
      | none => rw [hw] at h; cases h
      | some u => rw [hw] at h; exact .inr (.inr ⟨hx, rfl, u, rfl, (retire_cases h).2⟩)
  · exact .inl ⟨hx, h⟩

/-! ## Slots and system instructions -/

theorem switchMode_cases {wide : Bool} {s t : State} (h : switchMode wide s = .next t) :
    t = continueAt (BitVec.ofNat 32 (swmSlot2 wide s).2) 3 { s with psr := { s.psr with il := wide } } := by
  unfold switchMode at h
  split at h
  · cases h
  · split at h
    · cases h
    · split at h
      · cases h
      · cases h; rfl

theorem execSwm_cases {w : Width} {imm : BitVec 6} {s t : State} (h : execSwm w imm s = .next t) :
    s.delayedPc = none ∧
    ∃ wide, t = continueAt (BitVec.ofNat 32 (swmSlot2 wide s).2) 3 { s with psr := { s.psr with il := wide } } := by
  obtain ⟨hd, h⟩ := notInSlot_cases h
  split at h
  · exact ⟨hd, _, switchMode_cases h⟩
  · split at h
    · exact ⟨hd, _, switchMode_cases h⟩
    · cases h

theorem execReti_cases {w : Width} {s t : State} (h : execReti w s = .next t) :
    s.delayedPc = none ∧ s.hwstack ≠ [] ∧ t = returnFromInterrupt s := by
  obtain ⟨hd, h⟩ := notInSlot_cases h
  split at h
  · cases h
  · rename_i hs
    split at h
    · cases h
    · cases h; exact ⟨hd, by simp [hs], rfl⟩

theorem execRetu_cases {w : Width} {s t : State} (h : execRetu w s = .next t) :
    (s.psr.um = true ∧ t = ageInflight 1 (takeException codeIllegalInstruction s)) ∨
    (s.psr.um = false ∧ s.delayedPc = none ∧ t = returnToUser s) := by
  rcases superOnly_cases h with h | ⟨hu, h⟩
  · exact .inl h
  · obtain ⟨hd, h⟩ := notInSlot_cases h
    split at h
    · cases h
    · cases h; exact .inr ⟨hu, hd, rfl⟩

theorem execScall_cases {f : Form} {s t : State} (h : execScall f s = .next t) :
    (executes f s = false ∧ t = ended none none false s) ∨
    (executes f s = true ∧ s.delayedPc = none ∧ t = systemCall s) := by
  rcases guarded_cases h with ⟨hx, h⟩ | ⟨hx, -, h⟩
  · obtain ⟨hd, h⟩ := notInSlot_cases h
    split at h
    · cases h
    · cases h; exact .inr ⟨hx, hd, rfl⟩
  · exact .inl ⟨hx, h⟩

theorem execJmpr_cases {f : Form} {a : Reg} {s t : State} (h : execJmpr f a s = .next t) :
    (executes f s = true ∧ s.delayedPc = none ∧ transfer false (readX a s).toNat s = .next t) ∨
    (executes f s = false ∧ CanAdvance s ∧ t = ended none none true s) := by
  unfold execJmpr at h
  split at h
  · exact .inl ⟨‹_›, notInSlot_cases h⟩
  · rename_i hx
    exact .inr ⟨by simpa using hx, notTaken_cases h⟩

theorem execJalr_cases {f : Form} {a : Reg} {s t : State} (h : execJalr f a s = .next t) :
    (executes f s = true ∧ s.delayedPc = none ∧ transferLink false (readX a s).toNat s = .next t) ∨
    (executes f s = false ∧ CanAdvance s ∧ t = ended none none true s) := by
  unfold execJalr at h
  split at h
  · exact .inl ⟨‹_›, notInSlot_cases h⟩
  · rename_i hx
    exact .inr ⟨by simpa using hx, notTaken_cases h⟩

theorem execMulhi_cases {f : Form} {d : Reg} {s t : State} (h : execMulhi f d s = .next t) :
    (executes f s = true ∧ ∃ v, s.mulHi = some v ∧ t = ended none none false (writeX d v s)) ∨
    (executes f s = false ∧ t = ended none none false s) := by
  rcases guarded_cases h with ⟨hx, h⟩ | ⟨hx, -, h⟩
  · cases hm : s.mulHi with
    | none => rw [hm] at h; cases h
    | some v => rw [hm] at h; exact .inl ⟨hx, v, rfl, (writeResult_cases h).2⟩
  · exact .inr ⟨hx, h⟩

/-! ## Steps -/

theorem interruptEntry_depth {src : Source} {s t : State} (h : interruptEntry src s = .next t) :
    s.hwstack.length < Config.hwstackDepth := by
  unfold interruptEntry at h
  split at h
  · cases h
  · omega

theorem atBoundary_cases (s : State) :
    (∃ src, atBoundary s = .taken src s ∧ acceptable s = some src ∧ s.intBlock = false ∧ s.delayedPc = none) ∨
    (∃ wait, atBoundary s = .goOn { s with diWindow := false, acceptWait := wait }) := by
  unfold atBoundary
  cases ha : acceptable s with
  | none => exact .inr ⟨none, rfl⟩
  | some src =>
    simp only
    split
    · exact .inr ⟨s.acceptWait, rfl⟩
    · rename_i hb
      simp only [boundaryBlocked, Bool.or_eq_true, not_or, Bool.not_eq_true, Option.isSome_eq_false_iff,
        Option.isNone_iff_eq_none] at hb
      split
      · exact .inl ⟨src, rfl, rfl, hb.1, hb.2⟩
      · exact .inr ⟨_, rfl⟩

/-- A fetch that raises nothing is aligned, and user mode may make it. -/
theorem fetchFault_none {s : State} (h : fetchFault s = none) :
    s.pc.toNat % s.ilen = 0 ∧ (s.psr.um = true → instrAllowed .fetch s.pc s = true) := by
  unfold fetchFault at h
  split at h
  · cases h
  · rename_i ha
    split at h
    · cases h
    · rename_i hp
      exact ⟨by simpa using ha, fun hu => by simpa [hu] using hp⟩

theorem fetchException_cases {c : BitVec 8} {s t : State} (h : fetchException c s = .next t) :
    t = takeException c s ∨ t = ageInflight 1 (takeException c s) := by
  unfold fetchException at h
  split at h
  · exact .inr (raise_cases h)
  · cases h; exact .inl rfl

theorem fetch_ok {s : State} {i : Instr} (h : fetch s = .ok i) :
    fetchFault s = none ∧ decodeBytes s.psr.width (s.codeBytes s.pc s.ilen) = .ok i := by
  unfold fetch at h
  cases hf : fetchFault s with
  | some c => rw [hf] at h; cases h
  | none =>
    rw [hf] at h
    simp only at h
    split at h
    · cases h
    · split at h
      · cases h; exact ⟨rfl, ‹_›⟩
      · cases h
      · cases h

theorem runInstruction_cases {s t : State} (h : runInstruction s = .next t) :
    (∃ c, t = takeException c s ∨ t = ageInflight 1 (takeException c s)) ∨
    (∃ i, fetchFault s = none ∧ decodeBytes s.psr.width (s.codeBytes s.pc s.ilen) = .ok i ∧ exec i s = .next t) := by
  unfold runInstruction at h
  split at h
  · exact .inl ⟨_, fetchException_cases h⟩
  · cases h
  · cases h
  · rename_i i hf
    exact .inr ⟨i, (fetch_ok hf).1, (fetch_ok hf).2, h⟩

/-- A step is an interrupt entry or an instruction, in the state that the boundary leaves. -/
theorem step_cases {s t : State} (h : step s = .next t) :
    (∃ src, acceptable (beforeBoundary s) = some src ∧ interruptEntry src (beforeBoundary s) = .next t) ∨
    (∃ wait, runInstruction { beforeBoundary s with diWindow := false, acceptWait := wait } = .next t) := by
  unfold step at h
  rcases atBoundary_cases (beforeBoundary s) with ⟨src, hb, ha, -, -⟩ | ⟨wait, hb⟩
  · rw [hb] at h; exact .inl ⟨src, ha, h⟩
  · rw [hb] at h; exact .inr ⟨wait, h⟩

end Sys2Proof.Machine
end

