-- ==== Sys2Proof/Laws/Agents.lean ====
section
/-! SUPPORT. What the agents besides the core can do before a boundary: the environment's events, the timers, a reset. -/

namespace Sys2Proof.Machine

/-! ## Reset -/

section
variable (s : State)

@[simp] theorem coreReset_set1 : (coreReset s).set1 = State.reset.set1 := rfl
@[simp] theorem coreReset_set2 : (coreReset s).set2 = State.reset.set2 := rfl
@[simp] theorem coreReset_psr : (coreReset s).psr = State.reset.psr := rfl
@[simp] theorem coreReset_spsr : (coreReset s).spsr = State.reset.spsr := rfl
@[simp] theorem coreReset_pr31 : (coreReset s).pr31 = State.reset.pr31 := rfl
@[simp] theorem coreReset_cr : (coreReset s).cr = State.reset.cr := rfl
@[simp] theorem coreReset_pc : (coreReset s).pc = if s.bootSel then s.bootAddr else 0 := rfl
@[simp] theorem coreReset_hwstack : (coreReset s).hwstack = [] := rfl
@[simp] theorem coreReset_servOrder : (coreReset s).servOrder = [] := rfl
@[simp] theorem coreReset_ccb : (coreReset s).ccb = Ccb.reset := rfl
@[simp] theorem coreReset_ccbInflight : (coreReset s).ccbInflight = [] := rfl
@[simp] theorem coreReset_imem : (coreReset s).imem = s.imem := rfl
@[simp] theorem coreReset_dmem : (coreReset s).dmem = s.dmem := rfl
@[simp] theorem coreReset_freeCount : (coreReset s).freeCount = s.freeCount := rfl
@[simp] theorem coreReset_inputs : (coreReset s).inputs = s.inputs := rfl
@[simp] theorem coreReset_outputs : (coreReset s).outputs = s.outputs := rfl

end

/-! ## Events -/

/-- A request changes INT_PEND and a latched OFFSET. -/
theorem request_eq (src : Source) (o : BitVec 8) (s : State) :
    ∃ off, applyEvent (.request src o) s =
      { s with ccb := { s.ccb with intPend := s.ccb.intPend ||| BitVec.twoPow 12 src.val }, extOffset := off } := by
  simp only [applyEvent, latchOffset]
  split
  · exact ⟨_, rfl⟩
  · exact ⟨s.extOffset, rfl⟩

/-- What an event of the environment can do. -/
theorem applyEvent_cases (e : EnvEvent) (s : State) :
    (∃ (src : Source) (off : Vector (BitVec 8) 8), applyEvent e s =
      { s with ccb := { s.ccb with intPend := s.ccb.intPend ||| BitVec.twoPow 12 src.val }, extOffset := off }) ∨
    applyEvent e s = coreReset s ∨
    (∃ tok, applyEvent e s = { s with busToken := tok }) ∨
    (∃ a v, applyEvent e s = s.writeData a v) := by
  cases e with
  | request src o => obtain ⟨off, h⟩ := request_eq src o s; exact .inl ⟨src, off, h⟩
  | reset => exact .inr (.inl rfl)
  | busRequest => exact .inr (.inr (.inl ⟨.external, rfl⟩))
  | busRelease => exact .inr (.inr (.inl ⟨.core, rfl⟩))
  | masterWrite a v =>
    cases hb : s.busToken with
    | core =>
      have : applyEvent (.masterWrite a v) s = s := by simp only [applyEvent, hb]
      exact .inr (.inr (.inl ⟨s.busToken, this⟩))
    | external => exact .inr (.inr (.inr ⟨a, v, by simp [applyEvent, hb]⟩))

theorem applyEvents_keeps {P : State → Prop} (he : ∀ e s, P s → P (applyEvent e s)) :
    ∀ (es : List EnvEvent) (s : State), P s → P (applyEvents es s)
  | [], _, h => h
  | e :: es, s, h => applyEvents_keeps he es _ (he e s h)

/-! ## Timers -/

/-- The writes in flight after a timer counted on one of them: only a replaced value of that register may differ. -/
theorem mem_setLagging {off : BitVec 8} {g : Nat} {v : Word} :
    ∀ {i : Nat} {l : List CcbWrite} {w : CcbWrite}, w ∈ setLagging off g v i l →
      ∃ w' ∈ l, w'.offset = w.offset ∧ w'.age = w.age ∧ (w.offset ≠ off → w' = w)
  | _, [], _, h => by simp [setLagging] at h
  | i, x :: l, w, h => by
    unfold setLagging at h
    split at h
    · rename_i hx
      simp only [Bool.and_eq_true, beq_iff_eq] at hx
      cases i with
      | zero =>
        rcases List.mem_cons.1 h with h | h
        · exact ⟨x, by simp, by rw [h], by rw [h], fun hne => absurd (by rw [h]; exact hx.1) hne⟩
        · exact ⟨w, by simp [h], rfl, rfl, fun _ => rfl⟩
      | succ i =>
        rcases List.mem_cons.1 h with h | h
        · exact ⟨x, by simp, by rw [h], by rw [h], fun _ => h.symm⟩
        · obtain ⟨w', hm, h'⟩ := mem_setLagging h
          exact ⟨w', by simp [hm], h'⟩
    · rcases List.mem_cons.1 h with h | h
      · exact ⟨x, by simp, by rw [h], by rw [h], fun _ => h.symm⟩
      · obtain ⟨w', hm, h'⟩ := mem_setLagging h
        exact ⟨w', by simp [hm], h'⟩

/-- What a timer's turn can change. -/
structure Ticked (s t : State) : Prop where
  eq : ∃ c0 c1 pend infl d0 d1, t = { s with
    ccb := { s.ccb with tmr0Cnt := c0, tmr1Cnt := c1, intPend := pend }
    ccbInflight := infl, tmr0Div := d0, tmr1Div := d1 }
  inflight : ∀ w ∈ t.ccbInflight, ∃ w' ∈ s.ccbInflight, w'.offset = w.offset ∧ w'.age = w.age ∧
    (w.offset ≠ offTmr0Cnt → w.offset ≠ offTmr1Cnt → w' = w)

theorem Ticked.refl (s : State) : Ticked s s :=
  ⟨⟨s.ccb.tmr0Cnt, s.ccb.tmr1Cnt, s.ccb.intPend, s.ccbInflight, s.tmr0Div, s.tmr1Div, rfl⟩,
    fun w h => ⟨w, h, rfl, rfl, fun _ _ => rfl⟩⟩

theorem Ticked.trans {s t u : State} (h1 : Ticked s t) (h2 : Ticked t u) : Ticked s u := by
  obtain ⟨⟨c0, c1, pend, infl, d0, d1, e1⟩, i1⟩ := h1
  obtain ⟨⟨c0', c1', pend', infl', d0', d1', e2⟩, i2⟩ := h2
  refine ⟨⟨c0', c1', pend', infl', d0', d1', by rw [e2, e1]⟩, fun w hw => ?_⟩
  obtain ⟨w', hw', ho, ha, hn⟩ := i2 w hw
  obtain ⟨w'', hw'', ho', ha', hn'⟩ := i1 w' hw'
  exact ⟨w'', hw'', ho'.trans ho, ha'.trans ha, fun n0 n1 =>
    (hn' (by rw [ho]; exact n0) (by rw [ho]; exact n1)).trans (hn n0 n1)⟩

theorem setSeen_ticked (one : Bool) (v : Word) (s : State) : Ticked s (setSeen .timer (offCnt one) v s) := by
  unfold setSeen
  split
  · cases one
    · exact ⟨⟨v, s.ccb.tmr1Cnt, s.ccb.intPend, s.ccbInflight, s.tmr0Div, s.tmr1Div, rfl⟩,
        fun w h => ⟨w, h, rfl, rfl, fun _ _ => rfl⟩⟩
    · exact ⟨⟨s.ccb.tmr0Cnt, v, s.ccb.intPend, s.ccbInflight, s.tmr0Div, s.tmr1Div, rfl⟩,
        fun w h => ⟨w, h, rfl, rfl, fun _ _ => rfl⟩⟩
  · refine ⟨⟨s.ccb.tmr0Cnt, s.ccb.tmr1Cnt, s.ccb.intPend, _, s.tmr0Div, s.tmr1Div, rfl⟩, fun w h => ?_⟩
    obtain ⟨w', hw', ho, ha, hn⟩ := mem_setLagging h
    refine ⟨w', hw', ho, ha, fun n0 n1 => hn ?_⟩
    cases one
    · exact n0
    · exact n1

theorem setDivider_ticked (one : Bool) (d : BitVec 8) (s : State) : Ticked s (setDivider one d s) := by
  cases one
  · exact ⟨⟨s.ccb.tmr0Cnt, s.ccb.tmr1Cnt, s.ccb.intPend, s.ccbInflight, d, s.tmr1Div, rfl⟩,
      fun w h => ⟨w, h, rfl, rfl, fun _ _ => rfl⟩⟩
  · exact ⟨⟨s.ccb.tmr0Cnt, s.ccb.tmr1Cnt, s.ccb.intPend, s.ccbInflight, s.tmr0Div, d, rfl⟩,
      fun w h => ⟨w, h, rfl, rfl, fun _ _ => rfl⟩⟩

theorem runTimer_ticked (one : Bool) (s : State) : Ticked s (runTimer one s) := by
  unfold runTimer
  split
  · exact (setSeen_ticked ..).trans (setDivider_ticked ..)
  · exact setDivider_ticked ..

theorem timerRequest_ticked (one : Bool) (b s : State) : Ticked s (timerRequest one b s) := by
  unfold timerRequest
  split
  · exact ⟨⟨s.ccb.tmr0Cnt, s.ccb.tmr1Cnt, _, s.ccbInflight, s.tmr0Div, s.tmr1Div, rfl⟩,
      fun w h => ⟨w, h, rfl, rfl, fun _ _ => rfl⟩⟩
  · exact Ticked.refl s

/-- The timers' turn is a reset by a watchdog, or changes counts, divider counts and INT_PEND. -/
theorem tickTimers_cases (s : State) : tickTimers s = coreReset s ∨ Ticked s (tickTimers s) := by
  unfold tickTimers
  split
  · exact .inl rfl
  · exact .inr ((((runTimer_ticked ..).trans (runTimer_ticked ..)).trans (timerRequest_ticked ..)).trans
      (timerRequest_ticked ..))

/-! ## Before a boundary -/

/-- A property that the counter and the schedule do not matter to, and that events, resets and timers keep. -/
theorem beforeBoundary_keeps {P : State → Prop} (hn : ∀ s n, P s → P { s with freeCount := n })
    (hl : ∀ s l, P s → P { s with inputs := l }) (he : ∀ e s, P s → P (applyEvent e s)) (hr : ∀ s, P s → P (coreReset s))
    (ht : ∀ s t, Ticked s t → P s → P t) {s : State} (h : P s) : P (beforeBoundary s) := by
  unfold beforeBoundary
  have h1 : P (applyInputs { s with freeCount := s.freeCount + 1 }) := by
    unfold applyInputs
    split
    · exact hn _ _ h
    · exact applyEvents_keeps he _ _ (hl _ _ (hn _ _ h))
  rcases tickTimers_cases (applyInputs { s with freeCount := s.freeCount + 1 }) with e | e
  · rw [e]; exact hr _ h1
  · exact ht _ _ e h1

/-- Events are applied in their order. -/
theorem applyEvents_eq_foldl (es : List EnvEvent) (s : State) :
    applyEvents es s = es.foldl (fun u e => applyEvent e u) s := by
  induction es generalizing s with
  | nil => rfl
  | cons e es ih => exact ih _

end Sys2Proof.Machine
end

