-- ==== Sys2Proof/Laws/Exec.lean ====
section
/-! SUPPORT. Everything an instruction that completes can have done, said once for all 67: a claim about every instruction
is a case analysis of `exec_did`. -/

namespace Sys2Proof.Machine

/-- One of the four 32-bit multiplications, executed. -/
def Multiplies (i : Instr) (s : State) : Prop :=
  (∃ f d a imm, i = .muli f d a imm ∧ executes f s = true) ∨
  (∃ f d a b, (i = .muls f d a b ∨ i = .mulu f d a b ∨ i = .mulus f d a b) ∧ executes f s = true)

/-- `add`, `sub` or `addi`. -/
def ChecksOverflow (i : Instr) : Prop :=
  ∃ f d a, (∃ b, i = .add f d a b ∨ i = .sub f d a b) ∨ ∃ imm, i = .addi f d a imm

/-- `s` but for condition registers, the record of outputs and the owner of the bus. -/
def touched (cr : Vector Flags 8) (outs : List BusEvent) (tok : BusOwner) (s : State) : State :=
  { s with cr := cr, outputs := outs, busToken := tok }

/-- What an instruction that completes can have done. -/
inductive Did (i : Instr) (s : State) : State → Prop where
  /-- no register was written; a pending target is only set outside a slot -/
  | nothing (cr : Vector Flags 8) (outs : List BusEvent) (tok : BusOwner) (delayed : Option Word) (block : Bool)
      (hd : delayed = none ∨ s.delayedPc = none) : Did i s (ended delayed none block (touched cr outs tok s))
  /-- one register of the set that is written, and perhaps flags or `mul_hi` -/
  | register (d : Reg) (v : Word) (cr : Vector Flags 8) (outs : List BusEvent) (tok : BusOwner)
      (delayed mulHi : Option Word) (block : Bool) (hd : delayed = none ∨ s.delayedPc = none)
      (hm : mulHi = none ∨ (Multiplies i s ∧ delayed = none)) :
      Did i s (ended delayed mulHi block (writeX d v (touched cr outs tok s)))
  /-- an exception was taken -/
  | exception (c : BitVec 8) (hc : c = codeArithmeticOverflow → ChecksOverflow i) :
      Did i s (ageInflight 1 (takeException c s))
  /-- a data exception was taken with `reti` behind, and the hardware stack popped -/
  | exceptionPopped (c : BitVec 8) (hc : c ≠ codeArithmeticOverflow) (hr : retiFollows s = true) (hs : s.hwstack ≠ []) :
      Did i s (ageInflight 1 (takeException c (popStack s)))
  /-- a store to the CCB -/
  | ccb (f : Form) (b a : Reg) (imm : Int) (hi : i = .st f b a imm) (off : BitVec 8)
      (hw : windowOf (BitVec.ofInt 32 (effectiveAddress a imm s)) s = .ccb off) :
      Did i s (ended none none false (ccbWrite off (readX b s) s))
  /-- a store to data memory, where the mode may -/
  | memory (f : Form) (b a : Reg) (imm : Int) (hi : i = .st f b a imm)
      (hw : windowOf (BitVec.ofInt 32 (effectiveAddress a imm s)) s = .mem)
      (ha : s.psr.um = true → dataAllowed (BitVec.ofInt 32 (effectiveAddress a imm s)) s = true) :
      Did i s (ended none none false
        { s.writeData (BitVec.ofInt 32 (effectiveAddress a imm s)) (readX b s) with busToken := .core })
  /-- `chrs` -/
  | sets (w : Width) (imm : BitVec 2) (hi : i = .chrs w imm) (hu : s.psr.um = false) :
      Did i s (ended none none false { s with psr := { s.psr with rswr := imm.getLsbD 1, rsrd := imm.getLsbD 0 } })
  /-- `di` -/
  | disables (w : Width) (hi : i = .di w) (hu : s.psr.um = false) :
      Did i s (ended none none false { s with psr := { s.psr with ie := false }, diWindow := s.psr.ie })
  /-- `ei` -/
  | enables (w : Width) (hi : i = .ei w) (hu : s.psr.um = false) :
      Did i s (ended none none false
        { s with psr := { s.psr with ie := true }, ccbInflight := settleForEi s.ccbInflight })
  /-- `swm` -/
  | switches (w : Width) (imm : BitVec 6) (wide : Bool) (hi : i = .swm w imm) (hd : s.delayedPc = none) :
      Did i s (continueAt (BitVec.ofNat 32 (swmSlot2 wide s).2) 3 { s with psr := { s.psr with il := wide } })
  /-- `reti` -/
  | returns (w : Width) (hi : i = .reti w) (hd : s.delayedPc = none) (hs : s.hwstack ≠ []) :
      Did i s (returnFromInterrupt s)
  /-- `retu` -/
  | toUser (w : Width) (hi : i = .retu w) (hd : s.delayedPc = none) (hu : s.psr.um = false) : Did i s (returnToUser s)
  /-- `scall` -/
  | calls (f : Form) (hi : i = .scall f) (hd : s.delayedPc = none) : Did i s (systemCall s)

section
variable {i : Instr} {s t : State}

theorem Did.ends (block : Bool) : Did i s (ended none none block s) :=
  .nothing s.cr s.outputs s.busToken none block (.inl rfl)

theorem Did.ofCr (cr : Vector Flags 8) : Did i s (ended none none false { s with cr := cr }) :=
  .nothing cr s.outputs s.busToken none false (.inl rfl)

theorem Did.ofOutputs (outs : List BusEvent) (tok : BusOwner) :
    Did i s (ended none none false { s with outputs := outs, busToken := tok }) :=
  .nothing s.cr outs tok none false (.inl rfl)

/-- The flags of a result may be written before or after it. -/
theorem setC0_writeX (fl : Flags) (d : Reg) (v : Word) (s : State) :
    setC0 fl (writeX d v s) = writeX d v (touched (s.cr.set 0 fl) s.outputs s.busToken s) := by
  unfold writeX writeSet setC0 touched
  split
  · split
    · rfl
    · split
      · rfl
      · split <;> rfl
  · rfl

theorem Did.ofResult {f : Form} {d : Reg} {v : State → Word}
    (h : guarded f (fun s => writeResult d (v s) s) s = .next t) : Did i s t := by
  rcases guarded_cases h with ⟨-, h⟩ | ⟨-, -, h⟩
  · rw [(writeResult_cases h).2]
    exact .register d _ s.cr s.outputs s.busToken none none false (.inl rfl) (.inl rfl)
  · rw [h]; exact .ends _

theorem Did.ofFlagged {f : Form} {d : Reg} {v : State → Word} {fl : State → Flags}
    (h : guarded f (fun s => writeFlagged d (v s) (fl s) s) s = .next t) : Did i s t := by
  rcases guarded_cases h with ⟨-, h⟩ | ⟨-, -, h⟩
  · rw [(writeFlagged_cases h).2, setC0_writeX]
    exact .register d _ _ s.outputs s.busToken none none false (.inl rfl) (.inl rfl)
  · rw [h]; exact .ends _

theorem Did.ofMultiply {f : Form} {d : Reg} {p : State → Int} (hm : executes f s = true → Multiplies i s)
    (h : guarded f (fun s => multiply d (p s) s) s = .next t) : Did i s t := by
  rcases guarded_cases h with ⟨hx, h⟩ | ⟨-, -, h⟩
  · rw [(multiply_cases h).2]
    exact .register d _ s.cr s.outputs s.busToken none _ true (.inl rfl) (.inr ⟨hm hx, rfl⟩)
  · rw [h]; exact .ends _

theorem Did.ofAddChecked {f : Form} {d : Reg} {a b : State → Word} (hi : ChecksOverflow i)
    (h : guarded f (fun s => addChecked d (a s) (b s) s) s = .next t) : Did i s t := by
  rcases guarded_cases h with ⟨-, h⟩ | ⟨-, -, h⟩
  · rcases addChecked_cases h with ⟨-, h⟩ | ⟨-, h⟩ <;> rw [h]
    · exact .exception _ fun _ => hi
    · rw [setC0_writeX]; exact .register d _ _ s.outputs s.busToken none none false (.inl rfl) (.inl rfl)
  · rw [h]; exact .ends _

theorem Did.ofSubChecked {f : Form} {d : Reg} {a b : State → Word} (hi : ChecksOverflow i)
    (h : guarded f (fun s => subChecked d (a s) (b s) s) s = .next t) : Did i s t := by
  rcases guarded_cases h with ⟨-, h⟩ | ⟨-, -, h⟩
  · rcases subChecked_cases h with ⟨-, h⟩ | ⟨-, h⟩ <;> rw [h]
    · exact .exception _ fun _ => hi
    · rw [setC0_writeX]; exact .register d _ _ s.outputs s.busToken none none false (.inl rfl) (.inl rfl)
  · rw [h]; exact .ends _

theorem Did.ofWide {d : Reg} {v : State → Word} (h : wideOnly (fun s => writeResult d (v s) s) s = .next t) :
    Did i s t := by
  rcases wideOnly_cases h with ⟨-, h⟩ | ⟨-, h⟩
  · rw [h]; exact .exception _ fun e => by cases e
  · rw [(writeResult_cases h).2]
    exact .register d _ s.cr s.outputs s.busToken none none false (.inl rfl) (.inl rfl)

theorem Did.ofTransfer {relative : Bool} {a : Int} (hd : s.delayedPc = none) (h : transfer relative a s = .next t) :
    Did i s t := by
  rcases transfer_cases h with ⟨c, hc, h⟩ | ⟨-, -, h⟩ <;> rw [h]
  · refine .exception _ fun e => ?_
    subst e
    rcases transferFault_cases hc with h | h | h <;> cases h
  · exact .nothing s.cr s.outputs s.busToken _ true (.inr hd)

theorem Did.ofTransferLink {relative : Bool} {a : Int} (hd : s.delayedPc = none)
    (h : transferLink relative a s = .next t) : Did i s t := by
  rcases transferLink_cases h with ⟨c, hc, h⟩ | ⟨-, h⟩ <;> rw [h]
  · refine .exception _ fun e => ?_
    subst e
    rcases transferFault_cases hc with h | h | h <;> cases h
  · exact .register _ _ s.cr s.outputs s.busToken _ none true (.inr hd) (.inl rfl)

theorem Did.ofBranch {cond : Cond} {k : CReg} {imm : Int} (h : branch cond k imm s = .next t) : Did i s t := by
  obtain ⟨hd, ⟨-, h⟩ | ⟨-, -, h⟩⟩ := branch_cases h
  · exact .ofTransfer hd h
  · rw [h]; exact .ends _

theorem Did.ofRaiseData {ea : Int} {c : BitVec 8} (hf : dataFault ea s = some c) (h : raiseData c s = .next t) :
    Did i s t := by
  have hc : c ≠ codeArithmeticOverflow := by
    rcases dataFault_cases hf with h | h <;> subst h <;> decide
  rcases raiseData_cases h with h | ⟨hr, hs, h⟩ <;> rw [h]
  · exact .exception _ fun e => absurd e hc
  · exact .exceptionPopped c hc hr hs

theorem Did.ofLd {f : Form} {d a : Reg} {imm : Int} (h : execLd f d a imm s = .next t) : Did i s t := by
  rcases execLd_cases h with ⟨-, h⟩ | ⟨-, c, hf, h⟩ | ⟨-, -, h⟩
  · rw [h]; exact .ends _
  · exact .ofRaiseData hf h
  · rw [h]
    rcases readEffect_cases (BitVec.ofInt 32 (effectiveAddress a imm s)) s with ⟨_, -, hr⟩ | ⟨p, -, hr⟩ | ⟨-, hr⟩ <;> rw [hr]
    · exact .register d _ s.cr s.outputs s.busToken none none false (.inl rfl) (.inl rfl)
    · exact .register d _ s.cr (.pcbRead p :: s.outputs) .core none none false (.inl rfl) (.inl rfl)
    · exact .register d _ s.cr s.outputs .core none none false (.inl rfl) (.inl rfl)

theorem Did.ofSt {f : Form} {b a : Reg} {imm : Int} (h : execSt f b a imm s = .next t) :
    Did (.st f b a imm) s t := by
  rcases execSt_cases h with ⟨-, h⟩ | ⟨-, c, hf, h⟩ | ⟨-, hf, u, hw, h⟩
  · rw [h]; exact .ends _
  · exact .ofRaiseData hf h
  · rw [h]
    rcases memWrite_cases hw with ⟨off, hx, -, hu⟩ | ⟨p, -, hu⟩ | ⟨hx, hu⟩ <;> rw [hu]
    · exact .ccb f b a imm rfl off hx
    · exact .ofOutputs _ _
    · exact .memory f b a imm rfl hx (dataFault_none hf).2.2

end

/-! ### Each instruction -/

theorem did_nop {s t : State} {w : Width}
    (h : execNop w s = .next t) : Did (.nop w) s t := by
  rw [(retire_cases h).2]
  exact .ends _

theorem did_add {s t : State} {f : Form} {d : Reg} {a : Reg} {b : Reg}
    (h : execAdd f d a b s = .next t) : Did (.add f d a b) s t := by
  unfold execAdd at h
  exact .ofAddChecked ⟨f, d, a, .inl ⟨b, .inl rfl⟩⟩ h

theorem did_addi {s t : State} {f : Form} {d : Reg} {a : Reg} {imm : Int}
    (h : execAddi f d a imm s = .next t) : Did (.addi f d a imm) s t := by
  unfold execAddi at h
  exact .ofAddChecked (b := fun _ => sext imm) ⟨f, d, a, .inr ⟨imm, rfl⟩⟩ h

theorem did_addiu {s t : State} {f : Form} {d : Reg} {a : Reg} {imm : Nat}
    (h : execAddiu f d a imm s = .next t) : Did (.addiu f d a imm) s t := by
  unfold execAddiu at h
  exact .ofFlagged h

theorem did_addu {s t : State} {f : Form} {d : Reg} {a : Reg} {b : Reg}
    (h : execAddu f d a b s = .next t) : Did (.addu f d a b) s t := by
  unfold execAddu at h
  exact .ofFlagged h

theorem did_mulhi {s t : State} {f : Form} {d : Reg}
    (h : execMulhi f d s = .next t) : Did (.mulhi f d) s t := by
  rcases execMulhi_cases h with ⟨-, v, -, h⟩ | ⟨-, h⟩ <;> rw [h]
  · exact .register d v s.cr s.outputs s.busToken none none false (.inl rfl) (.inl rfl)
  · exact .ends _

theorem did_muli {s t : State} {f : Form} {d : Reg} {a : Reg} {imm : Int}
    (h : execMuli f d a imm s = .next t) : Did (.muli f d a imm) s t := by
  unfold execMuli at h
  exact .ofMultiply (fun hx => .inl ⟨f, d, a, imm, rfl, hx⟩) h

theorem did_muls {s t : State} {f : Form} {d : Reg} {a : Reg} {b : Reg}
    (h : execMuls f d a b s = .next t) : Did (.muls f d a b) s t := by
  unfold execMuls at h
  exact .ofMultiply (fun hx => .inr ⟨f, d, a, b, .inl rfl, hx⟩) h

theorem did_mulu {s t : State} {f : Form} {d : Reg} {a : Reg} {b : Reg}
    (h : execMulu f d a b s = .next t) : Did (.mulu f d a b) s t := by
  unfold execMulu at h
  exact .ofMultiply (fun hx => .inr ⟨f, d, a, b, .inr (.inl rfl), hx⟩) h

theorem did_mulus {s t : State} {f : Form} {d : Reg} {a : Reg} {b : Reg}
    (h : execMulus f d a b s = .next t) : Did (.mulus f d a b) s t := by
  unfold execMulus at h
  exact .ofMultiply (fun hx => .inr ⟨f, d, a, b, .inr (.inr rfl), hx⟩) h

theorem did_muls16 {s t : State} {f : Form} {d : Reg} {a : Reg} {b : Reg}
    (h : execMuls16 f d a b s = .next t) : Did (.muls16 f d a b) s t := by
  unfold execMuls16 at h
  exact .ofResult h

theorem did_mulu16 {s t : State} {f : Form} {d : Reg} {a : Reg} {b : Reg}
    (h : execMulu16 f d a b s = .next t) : Did (.mulu16 f d a b) s t := by
  unfold execMulu16 at h
  exact .ofResult h

theorem did_mulus16 {s t : State} {f : Form} {d : Reg} {a : Reg} {b : Reg}
    (h : execMulus16 f d a b s = .next t) : Did (.mulus16 f d a b) s t := by
  unfold execMulus16 at h
  exact .ofResult h

theorem did_sub {s t : State} {f : Form} {d : Reg} {a : Reg} {b : Reg}
    (h : execSub f d a b s = .next t) : Did (.sub f d a b) s t := by
  unfold execSub at h
  exact .ofSubChecked ⟨f, d, a, .inl ⟨b, .inr rfl⟩⟩ h

theorem did_subu {s t : State} {f : Form} {d : Reg} {a : Reg} {b : Reg}
    (h : execSubu f d a b s = .next t) : Did (.subu f d a b) s t := by
  unfold execSubu at h
  exact .ofFlagged h

theorem did_exb {s t : State} {f : Form} {d : Reg} {a : Reg} {imm : BitVec 2}
    (h : execExb f d a imm s = .next t) : Did (.exb f d a imm) s t := by
  unfold execExb at h
  exact .ofResult h

theorem did_exbf {s t : State} {f : Form} {d : Reg} {a : Reg} {b : Reg}
    (h : execExbf f d a b s = .next t) : Did (.exbf f d a b) s t := by
  unfold execExbf at h
  exact .ofResult h

theorem did_exbfi {s t : State} {d : Reg} {a : Reg} {len : BitVec 6} {lsb : BitVec 5}
    (h : execExbfi d a len lsb s = .next t) : Did (.exbfi d a len lsb) s t := by
  unfold execExbfi at h
  exact .ofWide h

theorem did_exh {s t : State} {f : Form} {d : Reg} {a : Reg} {imm : BitVec 1}
    (h : execExh f d a imm s = .next t) : Did (.exh f d a imm) s t := by
  unfold execExh at h
  exact .ofResult h

theorem did_lli {s t : State} {d : Reg} {imm : BitVec 16}
    (h : execLli d imm s = .next t) : Did (.lli d imm) s t := by
  unfold execLli at h
  exact .ofWide (v := fun _ => 0#16 ++ imm) h

theorem did_lui {s t : State} {d : Reg} {imm : BitVec 16}
    (h : execLui d imm s = .next t) : Did (.lui d imm) s t := by
  unfold execLui at h
  exact .ofWide h

theorem did_sext {s t : State} {f : Form} {d : Reg} {a : Reg} {b : Reg}
    (h : execSext f d a b s = .next t) : Did (.sext f d a b) s t := by
  unfold execSext at h
  exact .ofResult h

theorem did_sexti {s t : State} {f : Form} {d : Reg} {a : Reg} {imm : BitVec 5}
    (h : execSexti f d a imm s = .next t) : Did (.sexti f d a imm) s t := by
  unfold execSexti at h
  exact .ofResult h

theorem did_conb {s t : State} {f : Form} {d : Reg} {a : Reg} {b : Reg}
    (h : execConb f d a b s = .next t) : Did (.conb f d a b) s t := by
  unfold execConb at h
  exact .ofResult h

theorem did_conh {s t : State} {f : Form} {d : Reg} {a : Reg} {b : Reg}
    (h : execConh f d a b s = .next t) : Did (.conh f d a b) s t := by
  unfold execConh at h
  exact .ofResult h

theorem did_and {s t : State} {f : Form} {d : Reg} {a : Reg} {b : Reg}
    (h : execAnd f d a b s = .next t) : Did (.and f d a b) s t := by
  unfold execAnd at h
  exact .ofResult h

theorem did_andi {s t : State} {f : Form} {d : Reg} {a : Reg} {imm : Nat}
    (h : execAndi f d a imm s = .next t) : Did (.andi f d a imm) s t := by
  unfold execAndi at h
  exact .ofResult h

theorem did_not {s t : State} {f : Form} {d : Reg} {a : Reg}
    (h : execNot f d a s = .next t) : Did (.not f d a) s t := by
  unfold execNot at h
  exact .ofResult h

theorem did_or {s t : State} {f : Form} {d : Reg} {a : Reg} {b : Reg}
    (h : execOr f d a b s = .next t) : Did (.or f d a b) s t := by
  unfold execOr at h
  exact .ofResult h

theorem did_ori {s t : State} {f : Form} {d : Reg} {a : Reg} {imm : Nat}
    (h : execOri f d a imm s = .next t) : Did (.ori f d a imm) s t := by
  unfold execOri at h
  exact .ofResult h

theorem did_xor {s t : State} {f : Form} {d : Reg} {a : Reg} {b : Reg}
    (h : execXor f d a b s = .next t) : Did (.xor f d a b) s t := by
  unfold execXor at h
  exact .ofResult h

theorem did_rcon {s t : State} {w : Width} {a : Reg}
    (h : execRcon w a s = .next t) : Did (.rcon w a) s t := by
  rw [(retire_cases h).2]
  exact .ofCr _

theorem did_scon {s t : State} {w : Width} {d : Reg}
    (h : execScon w d s = .next t) : Did (.scon w d) s t := by
  rw [(writeResult_cases h).2]
  exact .register d _ s.cr s.outputs s.busToken none none false (.inl rfl) (.inl rfl)

theorem did_bc {s t : State} {w : Width} {k : CReg} {imm : Int}
    (h : execBc w k imm s = .next t) : Did (.bc w k imm) s t := by
  unfold execBc at h
  exact .ofBranch h

theorem did_begt {s t : State} {w : Width} {k : CReg} {imm : Int}
    (h : execBegt w k imm s = .next t) : Did (.begt w k imm) s t := by
  unfold execBegt at h
  exact .ofBranch h

theorem did_belt {s t : State} {w : Width} {k : CReg} {imm : Int}
    (h : execBelt w k imm s = .next t) : Did (.belt w k imm) s t := by
  unfold execBelt at h
  exact .ofBranch h

theorem did_beq {s t : State} {w : Width} {k : CReg} {imm : Int}
    (h : execBeq w k imm s = .next t) : Did (.beq w k imm) s t := by
  unfold execBeq at h
  exact .ofBranch h

theorem did_bgt {s t : State} {w : Width} {k : CReg} {imm : Int}
    (h : execBgt w k imm s = .next t) : Did (.bgt w k imm) s t := by
  unfold execBgt at h
  exact .ofBranch h

theorem did_blt {s t : State} {w : Width} {k : CReg} {imm : Int}
    (h : execBlt w k imm s = .next t) : Did (.blt w k imm) s t := by
  unfold execBlt at h
  exact .ofBranch h

theorem did_bne {s t : State} {w : Width} {k : CReg} {imm : Int}
    (h : execBne w k imm s = .next t) : Did (.bne w k imm) s t := by
  unfold execBne at h
  exact .ofBranch h

theorem did_bnc {s t : State} {w : Width} {k : CReg} {imm : Int}
    (h : execBnc w k imm s = .next t) : Did (.bnc w k imm) s t := by
  unfold execBnc at h
  exact .ofBranch h

theorem did_jal {s t : State} {w : Width} {imm : Int}
    (h : execJal w imm s = .next t) : Did (.jal w imm) s t := by
  unfold execJal at h
  obtain ⟨hd, h⟩ := notInSlot_cases h
  exact .ofTransferLink hd h

theorem did_jalr {s t : State} {f : Form} {a : Reg}
    (h : execJalr f a s = .next t) : Did (.jalr f a) s t := by
  rcases execJalr_cases h with ⟨-, hd, h⟩ | ⟨-, -, h⟩
  · exact .ofTransferLink hd h
  · rw [h]; exact .ends _

theorem did_jmp {s t : State} {w : Width} {imm : Int}
    (h : execJmp w imm s = .next t) : Did (.jmp w imm) s t := by
  unfold execJmp at h
  obtain ⟨hd, h⟩ := notInSlot_cases h
  exact .ofTransfer hd h

theorem did_jmpr {s t : State} {f : Form} {a : Reg}
    (h : execJmpr f a s = .next t) : Did (.jmpr f a) s t := by
  rcases execJmpr_cases h with ⟨-, hd, h⟩ | ⟨-, -, h⟩
  · exact .ofTransfer hd h
  · rw [h]; exact .ends _

theorem did_cmp {s t : State} {w : Width} {k : CReg} {a : Reg} {b : Reg}
    (h : execCmp w k a b s = .next t) : Did (.cmp w k a b) s t := by
  rw [(retire_cases h).2]
  exact .ofCr _

theorem did_cmpi {s t : State} {w : Width} {k : CReg} {a : Reg} {imm : Int}
    (h : execCmpi w k a imm s = .next t) : Did (.cmpi w k a imm) s t := by
  rw [(retire_cases h).2]
  exact .ofCr _

theorem did_sll {s t : State} {f : Form} {d : Reg} {a : Reg} {b : Reg}
    (h : execSll f d a b s = .next t) : Did (.sll f d a b) s t := by
  unfold execSll at h
  exact .ofFlagged h

theorem did_slli {s t : State} {f : Form} {d : Reg} {a : Reg} {imm : BitVec 6}
    (h : execSlli f d a imm s = .next t) : Did (.slli f d a imm) s t := by
  unfold execSlli at h
  exact .ofFlagged h

theorem did_sra {s t : State} {f : Form} {d : Reg} {a : Reg} {b : Reg}
    (h : execSra f d a b s = .next t) : Did (.sra f d a b) s t := by
  unfold execSra at h
  exact .ofResult h

theorem did_srai {s t : State} {f : Form} {d : Reg} {a : Reg} {imm : BitVec 6}
    (h : execSrai f d a imm s = .next t) : Did (.srai f d a imm) s t := by
  unfold execSrai at h
  exact .ofResult h

theorem did_srl {s t : State} {f : Form} {d : Reg} {a : Reg} {b : Reg}
    (h : execSrl f d a b s = .next t) : Did (.srl f d a b) s t := by
  unfold execSrl at h
  exact .ofResult h

theorem did_srli {s t : State} {f : Form} {d : Reg} {a : Reg} {imm : BitVec 6}
    (h : execSrli f d a imm s = .next t) : Did (.srli f d a imm) s t := by
  unfold execSrli at h
  exact .ofResult h

theorem did_ld {s t : State} {f : Form} {d : Reg} {a : Reg} {imm : Int}
    (h : execLd f d a imm s = .next t) : Did (.ld f d a imm) s t := by
  exact .ofLd h

theorem did_st {s t : State} {f : Form} {b : Reg} {a : Reg} {imm : Int}
    (h : execSt f b a imm s = .next t) : Did (.st f b a imm) s t := by
  exact .ofSt h

theorem did_mov {s t : State} {f : Form} {d : Reg} {a : Reg}
    (h : execMov f d a s = .next t) : Did (.mov f d a) s t := by
  unfold execMov at h
  exact .ofResult h

theorem did_cop {s t : State} {k : BitVec 2} {word : BitVec 24}
    (h : execCop k word s = .next t) : Did (.cop k word) s t := by
  rcases wideOnly_cases h with ⟨-, h⟩ | ⟨-, h⟩
  · rw [h]; exact .exception _ fun e => by cases e
  · rw [(retire_cases h).2]; exact .ofOutputs _ s.busToken

theorem did_movfc {s t : State} {f : Form} {k : BitVec 2} {d : Reg} {r : BitVec 5}
    (h : execMovfc f k d r s = .next t) : Did (.movfc f k d r) s t := by
  rcases guarded_cases h with ⟨-, h⟩ | ⟨-, -, h⟩
  · rw [(writeResult_cases h).2]
    exact .register d _ s.cr (.copRead k r :: s.outputs) s.busToken none none false (.inl rfl) (.inl rfl)
  · rw [h]; exact .ends _

theorem did_movtc {s t : State} {f : Form} {k : BitVec 2} {r : BitVec 5} {a : Reg}
    (h : execMovtc f k r a s = .next t) : Did (.movtc f k r a) s t := by
  rcases guarded_cases h with ⟨-, h⟩ | ⟨-, -, h⟩
  · rw [(retire_cases h).2]; exact .ofOutputs _ s.busToken
  · rw [h]; exact .ends _

theorem did_chrs {s t : State} {w : Width} {imm : BitVec 2}
    (h : execChrs w imm s = .next t) : Did (.chrs w imm) s t := by
  rcases superOnly_cases h with ⟨-, h⟩ | ⟨hu, h⟩
  · rw [h]; exact .exception _ fun e => by cases e
  · rw [(retire_cases h).2]; exact .sets w imm rfl hu

theorem did_di {s t : State} {w : Width}
    (h : execDi w s = .next t) : Did (.di w) s t := by
  rcases superOnly_cases h with ⟨-, h⟩ | ⟨hu, h⟩
  · rw [h]; exact .exception _ fun e => by cases e
  · rw [(retire_cases h).2]; exact .disables w rfl hu

theorem did_ei {s t : State} {w : Width}
    (h : execEi w s = .next t) : Did (.ei w) s t := by
  rcases superOnly_cases h with ⟨-, h⟩ | ⟨hu, h⟩
  · rw [h]; exact .exception _ fun e => by cases e
  · rw [(retire_cases h).2]; exact .enables w rfl hu

theorem did_swm {s t : State} {w : Width} {imm : BitVec 6}
    (h : execSwm w imm s = .next t) : Did (.swm w imm) s t := by
  obtain ⟨hd, wide, h⟩ := execSwm_cases h
  rw [h]; exact .switches w imm wide rfl hd

theorem did_reti {s t : State} {w : Width}
    (h : execReti w s = .next t) : Did (.reti w) s t := by
  obtain ⟨hd, hs, h⟩ := execReti_cases h
  rw [h]; exact .returns w rfl hd hs

theorem did_retu {s t : State} {w : Width}
    (h : execRetu w s = .next t) : Did (.retu w) s t := by
  rcases execRetu_cases h with ⟨-, h⟩ | ⟨hu, hd, h⟩
  · rw [h]; exact .exception _ fun e => by cases e
  · rw [h]; exact .toUser w rfl hd hu

theorem did_scall {s t : State} {f : Form}
    (h : execScall f s = .next t) : Did (.scall f) s t := by
  rcases execScall_cases h with ⟨-, h⟩ | ⟨-, hd, h⟩
  · rw [h]; exact .ends _
  · rw [h]; exact .calls f rfl hd

theorem did_trap {s t : State} {w : Width} {imm : BitVec 5}
    (h : execTrap w imm s = .next t) : Did (.trap w imm) s t := by
  rw [raise_cases h]
  exact .exception _ fun e => absurd e ((by decide : ∀ k : BitVec 5, codeTrap k ≠ codeArithmeticOverflow) imm)

/-- What an instruction that completes has done. -/
theorem exec_did {i : Instr} {s t : State} (h : exec i s = .next t) : Did i s t := by
  cases i with
  | nop => exact did_nop h
  | add => exact did_add h
  | addi => exact did_addi h
  | addiu => exact did_addiu h
  | addu => exact did_addu h
  | mulhi => exact did_mulhi h
  | muli => exact did_muli h
  | muls => exact did_muls h
  | mulu => exact did_mulu h
  | mulus => exact did_mulus h
  | muls16 => exact did_muls16 h
  | mulu16 => exact did_mulu16 h
  | mulus16 => exact did_mulus16 h
  | sub => exact did_sub h
  | subu => exact did_subu h
  | exb => exact did_exb h
  | exbf => exact did_exbf h
  | exbfi => exact did_exbfi h
  | exh => exact did_exh h
  | lli => exact did_lli h
  | lui => exact did_lui h
  | sext => exact did_sext h
  | sexti => exact did_sexti h
  | conb => exact did_conb h
  | conh => exact did_conh h
  | and => exact did_and h
  | andi => exact did_andi h
  | not => exact did_not h
  | or => exact did_or h
  | ori => exact did_ori h
  | xor => exact did_xor h
  | rcon => exact did_rcon h
  | scon => exact did_scon h
  | bc => exact did_bc h
  | begt => exact did_begt h
  | belt => exact did_belt h
  | beq => exact did_beq h
  | bgt => exact did_bgt h
  | blt => exact did_blt h
  | bne => exact did_bne h
  | bnc => exact did_bnc h
  | jal => exact did_jal h
  | jalr => exact did_jalr h
  | jmp => exact did_jmp h
  | jmpr => exact did_jmpr h
  | cmp => exact did_cmp h
  | cmpi => exact did_cmpi h
  | sll => exact did_sll h
  | slli => exact did_slli h
  | sra => exact did_sra h
  | srai => exact did_srai h
  | srl => exact did_srl h
  | srli => exact did_srli h
  | ld => exact did_ld h
  | st => exact did_st h
  | mov => exact did_mov h
  | cop => exact did_cop h
  | movfc => exact did_movfc h
  | movtc => exact did_movtc h
  | chrs => exact did_chrs h
  | di => exact did_di h
  | ei => exact did_ei h
  | swm => exact did_swm h
  | reti => exact did_reti h
  | retu => exact did_retu h
  | scall => exact did_scall h
  | trap => exact did_trap h

end Sys2Proof.Machine
end

