-- ==== Sys2Proof/Laws/PerInstr.lean ====
section
/-! SUPPORT. Per instruction: the top six bits of its word are the opcode that `30_encoding.md` R148 gives its mnemonic,
in every form. -/

namespace Sys2Proof.Laws

/-- The opcode of a word of either length. -/
def opcodeOf : Encoded → BitVec 6
  | .word w => opcode32 w
  | .half h => opcode16 h

theorem opcode32_encForm (op : BitVec 6) (f : Form) (area : BitVec 19) : opcode32 (encForm op f area) = op := by
  apply BitVec.eq_of_getLsbD_eq
  intro i hi
  cases f <;> simp only [opcode32, field, encForm, BitVec.getLsbD_extractLsb', hi, decide_true, Bool.true_and]
  all_goals
    (repeat erw [BitVec.getLsbD_append])
    split_ifs <;> first | omega | (congr 1; omega)

theorem opcode32_five (op : BitVec 6) (x : BitVec 1) (j : BitVec 15) (a d : Reg) :
    opcode32 (op ++ x ++ j ++ a ++ d) = op := by
  apply BitVec.eq_of_getLsbD_eq
  intro i hi
  simp only [opcode32, field, BitVec.getLsbD_extractLsb', hi, decide_true, Bool.true_and]
  (repeat erw [BitVec.getLsbD_append])
  split_ifs <;> first | omega | (congr 1; omega)

theorem opcode32_seven (op : BitVec 6) (k c : BitVec 3) (j : BitVec 9) (a d : Reg) :
    opcode32 (op ++ 1#1 ++ k ++ c ++ j ++ a ++ d) = op := by
  apply BitVec.eq_of_getLsbD_eq
  intro i hi
  simp only [opcode32, field, BitVec.getLsbD_extractLsb', hi, decide_true, Bool.true_and]
  (repeat erw [BitVec.getLsbD_append])
  split_ifs <;> first | omega | (congr 1; omega)

theorem opcodeOf_encR3 (op : BitVec 6) (f : Form) (d a b : Reg) : opcodeOf (encR3 op f d a b) = op := by
  cases f <;> simp only [opcodeOf, encR3, opcode32_encForm]
  all_goals
    apply BitVec.eq_of_getLsbD_eq
    intro i hi
    simp only [opcode16, field, BitVec.getLsbD_extractLsb', hi, decide_true, Bool.true_and]
    (repeat erw [BitVec.getLsbD_append])
    split_ifs <;> first | omega | (congr 1; omega)

theorem opcodeOf_encR2 (op : BitVec 6) (f : Form) (d a : Reg) : opcodeOf (encR2 op f d a) = op := by
  cases f <;> simp only [opcodeOf, encR2, opcode32_encForm]
  all_goals
    apply BitVec.eq_of_getLsbD_eq
    intro i hi
    simp only [opcode16, field, BitVec.getLsbD_extractLsb', hi, decide_true, Bool.true_and]
    (repeat erw [BitVec.getLsbD_append])
    split_ifs <;> first | omega | (congr 1; omega)

theorem opcodeOf_encRI (op : BitVec 6) (f : Form) (d a : Reg) (imm : BitVec 32) : opcodeOf (encRI op f d a imm) = op := by
  cases f with
  | w32 => exact opcode32_five op 0 (field imm 0 15) a d
  | cex cond creg => exact opcode32_seven op creg cond.bits (field imm 0 9) a d
  | w16 =>
    simp only [opcodeOf, encRI]
    generalize field imm 0 7 = j
    apply BitVec.eq_of_getLsbD_eq
    intro i hi
    simp only [opcode16, field, BitVec.getLsbD_extractLsb', hi, decide_true, Bool.true_and]
    (repeat erw [BitVec.getLsbD_append])
    split_ifs <;> first | omega | (congr 1; omega)

theorem opcodeOf_encRM (op : BitVec 6) (f : Form) (d a : Reg) (imm : BitVec 32) : opcodeOf (encRM op f d a imm) = op := by
  cases f with
  | w32 => exact opcode32_five op 0 (field imm 0 15) a d
  | cex cond creg => exact opcode32_seven op creg cond.bits (field imm 0 9) a d
  | w16 =>
    simp only [opcodeOf, encRM]
    generalize field imm 0 4 = j
    apply BitVec.eq_of_getLsbD_eq
    intro i hi
    simp only [opcode16, field, BitVec.getLsbD_extractLsb', hi, decide_true, Bool.true_and]
    (repeat erw [BitVec.getLsbD_append])
    split_ifs <;> first | omega | (congr 1; omega)

theorem opcodeOf_encSH (op : BitVec 6) (f : Form) (d a : Reg) (imm : BitVec 6) : opcodeOf (encSH op f d a imm) = op := by
  cases f <;> simp only [opcodeOf, encSH, opcode32_encForm]
  all_goals
    apply BitVec.eq_of_getLsbD_eq
    intro i hi
    simp only [opcode16, field, BitVec.getLsbD_extractLsb', hi, decide_true, Bool.true_and]
    (repeat erw [BitVec.getLsbD_append])
    split_ifs <;> first | omega | (congr 1; omega)

theorem opcodeOf_encSX (op : BitVec 6) (f : Form) (d a : Reg) (imm : BitVec 5) : opcodeOf (encSX op f d a imm) = op := by
  cases f <;> simp only [opcodeOf, encSX, opcode32_encForm]
  all_goals
    apply BitVec.eq_of_getLsbD_eq
    intro i hi
    simp only [opcode16, field, BitVec.getLsbD_extractLsb', hi, decide_true, Bool.true_and]
    (repeat erw [BitVec.getLsbD_append])
    split_ifs <;> first | omega | (congr 1; omega)

theorem opcodeOf_encXB (op : BitVec 6) (f : Form) (d a : Reg) (imm : BitVec 2) : opcodeOf (encXB op f d a imm) = op := by
  cases f <;> simp only [opcodeOf, encXB, opcode32_encForm]
  all_goals
    apply BitVec.eq_of_getLsbD_eq
    intro i hi
    simp only [opcode16, field, BitVec.getLsbD_extractLsb', hi, decide_true, Bool.true_and]
    (repeat erw [BitVec.getLsbD_append])
    split_ifs <;> first | omega | (congr 1; omega)

theorem opcodeOf_encXH (op : BitVec 6) (f : Form) (d a : Reg) (imm : BitVec 1) : opcodeOf (encXH op f d a imm) = op := by
  cases f <;> simp only [opcodeOf, encXH, opcode32_encForm]
  all_goals
    apply BitVec.eq_of_getLsbD_eq
    intro i hi
    simp only [opcode16, field, BitVec.getLsbD_extractLsb', hi, decide_true, Bool.true_and]
    (repeat erw [BitVec.getLsbD_append])
    split_ifs <;> first | omega | (congr 1; omega)

theorem opcodeOf_encD (op : BitVec 6) (f : Form) (d : Reg) : opcodeOf (encD op f d) = op := by
  cases f <;> simp only [opcodeOf, encD, opcode32_encForm]
  all_goals
    apply BitVec.eq_of_getLsbD_eq
    intro i hi
    simp only [opcode16, field, BitVec.getLsbD_extractLsb', hi, decide_true, Bool.true_and]
    (repeat erw [BitVec.getLsbD_append])
    split_ifs <;> first | omega | (congr 1; omega)

theorem opcodeOf_encS (op : BitVec 6) (f : Form) (a : Reg) : opcodeOf (encS op f a) = op := by
  cases f <;> simp only [opcodeOf, encS, opcode32_encForm]
  all_goals
    apply BitVec.eq_of_getLsbD_eq
    intro i hi
    simp only [opcode16, field, BitVec.getLsbD_extractLsb', hi, decide_true, Bool.true_and]
    (repeat erw [BitVec.getLsbD_append])
    split_ifs <;> first | omega | (congr 1; omega)

theorem opcodeOf_encCF (op : BitVec 6) (f : Form) (k : BitVec 2) (c : BitVec 5) (d : Reg) : opcodeOf (encCF op f k c d) = op := by
  cases f <;> simp only [opcodeOf, encCF, opcode32_encForm]
  all_goals
    apply BitVec.eq_of_getLsbD_eq
    intro i hi
    simp only [opcode16, field, BitVec.getLsbD_extractLsb', hi, decide_true, Bool.true_and]
    (repeat erw [BitVec.getLsbD_append])
    split_ifs <;> first | omega | (congr 1; omega)

theorem opcodeOf_encCT (op : BitVec 6) (f : Form) (k : BitVec 2) (a : Reg) (c : BitVec 5) : opcodeOf (encCT op f k a c) = op := by
  cases f <;> simp only [opcodeOf, encCT, opcode32_encForm]
  all_goals
    apply BitVec.eq_of_getLsbD_eq
    intro i hi
    simp only [opcode16, field, BitVec.getLsbD_extractLsb', hi, decide_true, Bool.true_and]
    (repeat erw [BitVec.getLsbD_append])
    split_ifs <;> first | omega | (congr 1; omega)

theorem opcodeOf_encB (op : BitVec 6) (w : Width) (k : CReg) (imm : BitVec 32) : opcodeOf (encB op w k imm) = op := by
  cases w <;> simp only [opcodeOf, encB]
  all_goals
    apply BitVec.eq_of_getLsbD_eq
    intro i hi
    simp only [opcode32, opcode16, field, BitVec.getLsbD_extractLsb', hi, decide_true, Bool.true_and]
    (repeat erw [BitVec.getLsbD_append])
    split_ifs <;> first | omega | (congr 1; omega)

theorem opcodeOf_encJ (op : BitVec 6) (w : Width) (imm : BitVec 32) : opcodeOf (encJ op w imm) = op := by
  cases w <;> simp only [opcodeOf, encJ]
  all_goals
    apply BitVec.eq_of_getLsbD_eq
    intro i hi
    simp only [opcode32, opcode16, field, BitVec.getLsbD_extractLsb', hi, decide_true, Bool.true_and]
    (repeat erw [BitVec.getLsbD_append])
    split_ifs <;> first | omega | (congr 1; omega)

theorem opcodeOf_encCR (op : BitVec 6) (w : Width) (k : CReg) (a b : Reg) : opcodeOf (encCR op w k a b) = op := by
  cases w <;> simp only [opcodeOf, encCR]
  all_goals
    apply BitVec.eq_of_getLsbD_eq
    intro i hi
    simp only [opcode32, opcode16, field, BitVec.getLsbD_extractLsb', hi, decide_true, Bool.true_and]
    (repeat erw [BitVec.getLsbD_append])
    split_ifs <;> first | omega | (congr 1; omega)

theorem opcodeOf_encCI (op : BitVec 6) (w : Width) (k : CReg) (a : Reg) (imm : BitVec 32) : opcodeOf (encCI op w k a imm) = op := by
  cases w <;> simp only [opcodeOf, encCI]
  all_goals
    apply BitVec.eq_of_getLsbD_eq
    intro i hi
    simp only [opcode32, opcode16, field, BitVec.getLsbD_extractLsb', hi, decide_true, Bool.true_and]
    (repeat erw [BitVec.getLsbD_append])
    split_ifs <;> first | omega | (congr 1; omega)

theorem opcodeOf_encM (op : BitVec 6) (w : Width) (imm : BitVec 6) : opcodeOf (encM op w imm) = op := by
  cases w <;> simp only [opcodeOf, encM]
  all_goals
    apply BitVec.eq_of_getLsbD_eq
    intro i hi
    simp only [opcode32, opcode16, field, BitVec.getLsbD_extractLsb', hi, decide_true, Bool.true_and]
    (repeat erw [BitVec.getLsbD_append])
    split_ifs <;> first | omega | (congr 1; omega)

theorem opcodeOf_encZ (op : BitVec 6) (f : Form) : opcodeOf (encZ op f) = op := by
  cases f <;> simp only [opcodeOf, encZ, opcode32_encForm]
  all_goals
    apply BitVec.eq_of_getLsbD_eq
    intro i hi
    simp only [opcode16, field, BitVec.getLsbD_extractLsb', hi, decide_true, Bool.true_and]
    (repeat erw [BitVec.getLsbD_append])
    split_ifs <;> first | omega | (congr 1; omega)

/-- The opcode numbers of R148. -/
def Opcode.number : Instr → BitVec 6
  | .nop _ => 0x00
  | .add _ _ _ _ => 0x01
  | .addi _ _ _ _ => 0x02
  | .addiu _ _ _ _ => 0x03
  | .addu _ _ _ _ => 0x04
  | .mulhi _ _ => 0x05
  | .muli _ _ _ _ => 0x06
  | .muls _ _ _ _ => 0x07
  | .mulu _ _ _ _ => 0x08
  | .mulus _ _ _ _ => 0x09
  | .muls16 _ _ _ _ => 0x0A
  | .mulu16 _ _ _ _ => 0x0B
  | .mulus16 _ _ _ _ => 0x0C
  | .sub _ _ _ _ => 0x0D
  | .subu _ _ _ _ => 0x0E
  | .exb _ _ _ _ => 0x0F
  | .exbf _ _ _ _ => 0x10
  | .exbfi _ _ _ _ => 0x11
  | .exh _ _ _ _ => 0x12
  | .lli _ _ => 0x13
  | .lui _ _ => 0x13
  | .sext _ _ _ _ => 0x14
  | .sexti _ _ _ _ => 0x15
  | .conb _ _ _ _ => 0x16
  | .conh _ _ _ _ => 0x17
  | .and _ _ _ _ => 0x18
  | .andi _ _ _ _ => 0x19
  | .not _ _ _ => 0x1A
  | .or _ _ _ _ => 0x1B
  | .ori _ _ _ _ => 0x1C
  | .xor _ _ _ _ => 0x1D
  | .rcon _ _ => 0x1E
  | .scon _ _ => 0x1F
  | .bc _ _ _ => 0x20
  | .begt _ _ _ => 0x21
  | .belt _ _ _ => 0x22
  | .beq _ _ _ => 0x23
  | .bgt _ _ _ => 0x24
  | .blt _ _ _ => 0x25
  | .bne _ _ _ => 0x26
  | .bnc _ _ _ => 0x27
  | .jal _ _ => 0x28
  | .jalr _ _ => 0x29
  | .jmp _ _ => 0x2A
  | .jmpr _ _ => 0x2B
  | .cmp _ _ _ _ => 0x2C
  | .cmpi _ _ _ _ => 0x2D
  | .sll _ _ _ _ => 0x2E
  | .slli _ _ _ _ => 0x2F
  | .sra _ _ _ _ => 0x30
  | .srai _ _ _ _ => 0x31
  | .srl _ _ _ _ => 0x32
  | .srli _ _ _ _ => 0x33
  | .ld _ _ _ _ => 0x34
  | .st _ _ _ _ => 0x35
  | .mov _ _ _ => 0x36
  | .cop _ _ => 0x37
  | .movfc _ _ _ _ => 0x38
  | .movtc _ _ _ _ => 0x39
  | .chrs _ _ => 0x3A
  | .di _ => 0x3B
  | .ei _ => 0x3B
  | .swm _ _ => 0x3C
  | .reti _ => 0x3D
  | .retu _ => 0x3D
  | .scall _ => 0x3E
  | .trap _ _ => 0x3F

/-- The word of an instruction carries the opcode of its mnemonic. -/
def Opcode.Statement (i : Instr) : Prop := opcodeOf (encode i) = Opcode.number i

end Sys2Proof.Laws

namespace Sys2Proof

theorem Laws.Opcode.nop (w : Width) :
    Laws.Opcode.Statement (.nop w) :=
  Laws.opcodeOf_encM ..

theorem Laws.Opcode.add (f : Form) (dreg sreg1 sreg2 : Reg) :
    Laws.Opcode.Statement (.add f dreg sreg1 sreg2) :=
  Laws.opcodeOf_encR3 ..

theorem Laws.Opcode.addi (f : Form) (dreg sreg1 : Reg) (imm : Int) :
    Laws.Opcode.Statement (.addi f dreg sreg1 imm) :=
  Laws.opcodeOf_encRI ..

theorem Laws.Opcode.addiu (f : Form) (dreg sreg1 : Reg) (imm : Nat) :
    Laws.Opcode.Statement (.addiu f dreg sreg1 imm) :=
  Laws.opcodeOf_encRI ..

theorem Laws.Opcode.addu (f : Form) (dreg sreg1 sreg2 : Reg) :
    Laws.Opcode.Statement (.addu f dreg sreg1 sreg2) :=
  Laws.opcodeOf_encR3 ..

theorem Laws.Opcode.mulhi (f : Form) (dreg : Reg) :
    Laws.Opcode.Statement (.mulhi f dreg) :=
  Laws.opcodeOf_encD ..

theorem Laws.Opcode.muli (f : Form) (dreg sreg1 : Reg) (imm : Int) :
    Laws.Opcode.Statement (.muli f dreg sreg1 imm) :=
  Laws.opcodeOf_encRI ..

theorem Laws.Opcode.muls (f : Form) (dreg sreg1 sreg2 : Reg) :
    Laws.Opcode.Statement (.muls f dreg sreg1 sreg2) :=
  Laws.opcodeOf_encR3 ..

theorem Laws.Opcode.mulu (f : Form) (dreg sreg1 sreg2 : Reg) :
    Laws.Opcode.Statement (.mulu f dreg sreg1 sreg2) :=
  Laws.opcodeOf_encR3 ..

theorem Laws.Opcode.mulus (f : Form) (dreg sreg1 sreg2 : Reg) :
    Laws.Opcode.Statement (.mulus f dreg sreg1 sreg2) :=
  Laws.opcodeOf_encR3 ..

theorem Laws.Opcode.muls16 (f : Form) (dreg sreg1 sreg2 : Reg) :
    Laws.Opcode.Statement (.muls16 f dreg sreg1 sreg2) :=
  Laws.opcodeOf_encR3 ..

theorem Laws.Opcode.mulu16 (f : Form) (dreg sreg1 sreg2 : Reg) :
    Laws.Opcode.Statement (.mulu16 f dreg sreg1 sreg2) :=
  Laws.opcodeOf_encR3 ..

theorem Laws.Opcode.mulus16 (f : Form) (dreg sreg1 sreg2 : Reg) :
    Laws.Opcode.Statement (.mulus16 f dreg sreg1 sreg2) :=
  Laws.opcodeOf_encR3 ..

theorem Laws.Opcode.sub (f : Form) (dreg sreg1 sreg2 : Reg) :
    Laws.Opcode.Statement (.sub f dreg sreg1 sreg2) :=
  Laws.opcodeOf_encR3 ..

theorem Laws.Opcode.subu (f : Form) (dreg sreg1 sreg2 : Reg) :
    Laws.Opcode.Statement (.subu f dreg sreg1 sreg2) :=
  Laws.opcodeOf_encR3 ..

theorem Laws.Opcode.exb (f : Form) (dreg sreg : Reg) (imm : BitVec 2) :
    Laws.Opcode.Statement (.exb f dreg sreg imm) :=
  Laws.opcodeOf_encXB ..

theorem Laws.Opcode.exbf (f : Form) (dreg sreg1 sreg2 : Reg) :
    Laws.Opcode.Statement (.exbf f dreg sreg1 sreg2) :=
  Laws.opcodeOf_encR3 ..

theorem Laws.Opcode.exbfi (dreg sreg1 : Reg) (len : BitVec 6) (lsb : BitVec 5) :
    Laws.Opcode.Statement (.exbfi dreg sreg1 len lsb) := by
  unfold Laws.Opcode.Statement
  apply BitVec.eq_of_getLsbD_eq
  intro i hi
  simp only [Laws.opcodeOf, encode, Laws.Opcode.number, opcode32, field, BitVec.getLsbD_extractLsb', hi, decide_true,
    Bool.true_and]
  (repeat erw [BitVec.getLsbD_append])
  split_ifs <;> first | omega | (congr 1; omega)

theorem Laws.Opcode.exh (f : Form) (dreg sreg1 : Reg) (imm : BitVec 1) :
    Laws.Opcode.Statement (.exh f dreg sreg1 imm) :=
  Laws.opcodeOf_encXH ..

theorem Laws.Opcode.lli (dreg : Reg) (imm : BitVec 16) :
    Laws.Opcode.Statement (.lli dreg imm) := by
  unfold Laws.Opcode.Statement
  apply BitVec.eq_of_getLsbD_eq
  intro i hi
  simp only [Laws.opcodeOf, encode, Laws.Opcode.number, opcode32, field, BitVec.getLsbD_extractLsb', hi, decide_true,
    Bool.true_and]
  (repeat erw [BitVec.getLsbD_append])
  split_ifs <;> first | omega | (congr 1; omega)

theorem Laws.Opcode.lui (dreg : Reg) (imm : BitVec 16) :
    Laws.Opcode.Statement (.lui dreg imm) := by
  unfold Laws.Opcode.Statement
  apply BitVec.eq_of_getLsbD_eq
  intro i hi
  simp only [Laws.opcodeOf, encode, Laws.Opcode.number, opcode32, field, BitVec.getLsbD_extractLsb', hi, decide_true,
    Bool.true_and]
  (repeat erw [BitVec.getLsbD_append])
  split_ifs <;> first | omega | (congr 1; omega)

theorem Laws.Opcode.sext (f : Form) (dreg sreg1 sreg2 : Reg) :
    Laws.Opcode.Statement (.sext f dreg sreg1 sreg2) :=
  Laws.opcodeOf_encR3 ..

theorem Laws.Opcode.sexti (f : Form) (dreg sreg : Reg) (imm : BitVec 5) :
    Laws.Opcode.Statement (.sexti f dreg sreg imm) :=
  Laws.opcodeOf_encSX ..

theorem Laws.Opcode.conb (f : Form) (dreg sreg1 sreg2 : Reg) :
    Laws.Opcode.Statement (.conb f dreg sreg1 sreg2) :=
  Laws.opcodeOf_encR3 ..

theorem Laws.Opcode.conh (f : Form) (dreg sreg1 sreg2 : Reg) :
    Laws.Opcode.Statement (.conh f dreg sreg1 sreg2) :=
  Laws.opcodeOf_encR3 ..

theorem Laws.Opcode.and (f : Form) (dreg sreg1 sreg2 : Reg) :
    Laws.Opcode.Statement (.and f dreg sreg1 sreg2) :=
  Laws.opcodeOf_encR3 ..

theorem Laws.Opcode.andi (f : Form) (dreg sreg1 : Reg) (imm : Nat) :
    Laws.Opcode.Statement (.andi f dreg sreg1 imm) :=
  Laws.opcodeOf_encRI ..

theorem Laws.Opcode.not (f : Form) (dreg sreg1 : Reg) :
    Laws.Opcode.Statement (.not f dreg sreg1) :=
  Laws.opcodeOf_encR2 ..

theorem Laws.Opcode.or (f : Form) (dreg sreg1 sreg2 : Reg) :
    Laws.Opcode.Statement (.or f dreg sreg1 sreg2) :=
  Laws.opcodeOf_encR3 ..

theorem Laws.Opcode.ori (f : Form) (dreg sreg1 : Reg) (imm : Nat) :
    Laws.Opcode.Statement (.ori f dreg sreg1 imm) :=
  Laws.opcodeOf_encRI ..

theorem Laws.Opcode.xor (f : Form) (dreg sreg1 sreg2 : Reg) :
    Laws.Opcode.Statement (.xor f dreg sreg1 sreg2) :=
  Laws.opcodeOf_encR3 ..

theorem Laws.Opcode.rcon (w : Width) (sreg1 : Reg) :
    Laws.Opcode.Statement (.rcon w sreg1) :=
  Laws.opcodeOf_encS ..

theorem Laws.Opcode.scon (w : Width) (dreg : Reg) :
    Laws.Opcode.Statement (.scon w dreg) :=
  Laws.opcodeOf_encD ..

theorem Laws.Opcode.bc (w : Width) (creg : CReg) (imm : Int) :
    Laws.Opcode.Statement (.bc w creg imm) :=
  Laws.opcodeOf_encB ..

theorem Laws.Opcode.begt (w : Width) (creg : CReg) (imm : Int) :
    Laws.Opcode.Statement (.begt w creg imm) :=
  Laws.opcodeOf_encB ..

theorem Laws.Opcode.belt (w : Width) (creg : CReg) (imm : Int) :
    Laws.Opcode.Statement (.belt w creg imm) :=
  Laws.opcodeOf_encB ..

theorem Laws.Opcode.beq (w : Width) (creg : CReg) (imm : Int) :
    Laws.Opcode.Statement (.beq w creg imm) :=
  Laws.opcodeOf_encB ..

theorem Laws.Opcode.bgt (w : Width) (creg : CReg) (imm : Int) :
    Laws.Opcode.Statement (.bgt w creg imm) :=
  Laws.opcodeOf_encB ..

theorem Laws.Opcode.blt (w : Width) (creg : CReg) (imm : Int) :
    Laws.Opcode.Statement (.blt w creg imm) :=
  Laws.opcodeOf_encB ..

theorem Laws.Opcode.bne (w : Width) (creg : CReg) (imm : Int) :
    Laws.Opcode.Statement (.bne w creg imm) :=
  Laws.opcodeOf_encB ..

theorem Laws.Opcode.bnc (w : Width) (creg : CReg) (imm : Int) :
    Laws.Opcode.Statement (.bnc w creg imm) :=
  Laws.opcodeOf_encB ..

theorem Laws.Opcode.jal (w : Width) (imm : Int) :
    Laws.Opcode.Statement (.jal w imm) :=
  Laws.opcodeOf_encJ ..

theorem Laws.Opcode.jalr (f : Form) (sreg1 : Reg) :
    Laws.Opcode.Statement (.jalr f sreg1) :=
  Laws.opcodeOf_encS ..

theorem Laws.Opcode.jmp (w : Width) (imm : Int) :
    Laws.Opcode.Statement (.jmp w imm) :=
  Laws.opcodeOf_encJ ..

theorem Laws.Opcode.jmpr (f : Form) (sreg1 : Reg) :
    Laws.Opcode.Statement (.jmpr f sreg1) :=
  Laws.opcodeOf_encS ..

theorem Laws.Opcode.cmp (w : Width) (creg : CReg) (sreg1 sreg2 : Reg) :
    Laws.Opcode.Statement (.cmp w creg sreg1 sreg2) :=
  Laws.opcodeOf_encCR ..

theorem Laws.Opcode.cmpi (w : Width) (creg : CReg) (sreg1 : Reg) (imm : Int) :
    Laws.Opcode.Statement (.cmpi w creg sreg1 imm) :=
  Laws.opcodeOf_encCI ..

theorem Laws.Opcode.sll (f : Form) (dreg sreg1 sreg2 : Reg) :
    Laws.Opcode.Statement (.sll f dreg sreg1 sreg2) :=
  Laws.opcodeOf_encR3 ..

theorem Laws.Opcode.slli (f : Form) (dreg sreg1 : Reg) (imm : BitVec 6) :
    Laws.Opcode.Statement (.slli f dreg sreg1 imm) :=
  Laws.opcodeOf_encSH ..

theorem Laws.Opcode.sra (f : Form) (dreg sreg1 sreg2 : Reg) :
    Laws.Opcode.Statement (.sra f dreg sreg1 sreg2) :=
  Laws.opcodeOf_encR3 ..

theorem Laws.Opcode.srai (f : Form) (dreg sreg1 : Reg) (imm : BitVec 6) :
    Laws.Opcode.Statement (.srai f dreg sreg1 imm) :=
  Laws.opcodeOf_encSH ..

theorem Laws.Opcode.srl (f : Form) (dreg sreg1 sreg2 : Reg) :
    Laws.Opcode.Statement (.srl f dreg sreg1 sreg2) :=
  Laws.opcodeOf_encR3 ..

theorem Laws.Opcode.srli (f : Form) (dreg sreg1 : Reg) (imm : BitVec 6) :
    Laws.Opcode.Statement (.srli f dreg sreg1 imm) :=
  Laws.opcodeOf_encSH ..

theorem Laws.Opcode.ld (f : Form) (dreg sreg1 : Reg) (imm : Int) :
    Laws.Opcode.Statement (.ld f dreg sreg1 imm) :=
  Laws.opcodeOf_encRM ..

theorem Laws.Opcode.st (f : Form) (sreg2 sreg1 : Reg) (imm : Int) :
    Laws.Opcode.Statement (.st f sreg2 sreg1 imm) :=
  Laws.opcodeOf_encRM ..

theorem Laws.Opcode.mov (f : Form) (dreg sreg1 : Reg) :
    Laws.Opcode.Statement (.mov f dreg sreg1) :=
  Laws.opcodeOf_encR2 ..

theorem Laws.Opcode.cop (k : BitVec 2) (word : BitVec 24) :
    Laws.Opcode.Statement (.cop k word) := by
  unfold Laws.Opcode.Statement
  apply BitVec.eq_of_getLsbD_eq
  intro i hi
  simp only [Laws.opcodeOf, encode, Laws.Opcode.number, opcode32, field, BitVec.getLsbD_extractLsb', hi, decide_true,
    Bool.true_and]
  (repeat erw [BitVec.getLsbD_append])
  split_ifs <;> first | omega | (congr 1; omega)

theorem Laws.Opcode.movfc (f : Form) (k : BitVec 2) (dreg : Reg) (cpSreg : BitVec 5) :
    Laws.Opcode.Statement (.movfc f k dreg cpSreg) :=
  Laws.opcodeOf_encCF ..

theorem Laws.Opcode.movtc (f : Form) (k : BitVec 2) (cpDreg : BitVec 5) (sreg1 : Reg) :
    Laws.Opcode.Statement (.movtc f k cpDreg sreg1) :=
  Laws.opcodeOf_encCT ..

theorem Laws.Opcode.chrs (w : Width) (imm : BitVec 2) :
    Laws.Opcode.Statement (.chrs w imm) :=
  Laws.opcodeOf_encM ..

theorem Laws.Opcode.di (w : Width) :
    Laws.Opcode.Statement (.di w) :=
  Laws.opcodeOf_encM ..

theorem Laws.Opcode.ei (w : Width) :
    Laws.Opcode.Statement (.ei w) :=
  Laws.opcodeOf_encM ..

theorem Laws.Opcode.swm (w : Width) (imm : BitVec 6) :
    Laws.Opcode.Statement (.swm w imm) :=
  Laws.opcodeOf_encM ..

theorem Laws.Opcode.reti (w : Width) :
    Laws.Opcode.Statement (.reti w) :=
  Laws.opcodeOf_encM ..

theorem Laws.Opcode.retu (w : Width) :
    Laws.Opcode.Statement (.retu w) :=
  Laws.opcodeOf_encM ..

theorem Laws.Opcode.scall (f : Form) :
    Laws.Opcode.Statement (.scall f) :=
  Laws.opcodeOf_encZ ..

theorem Laws.Opcode.trap (w : Width) (imm : BitVec 5) :
    Laws.Opcode.Statement (.trap w imm) :=
  Laws.opcodeOf_encM ..

end Sys2Proof
end

