-- ==== Sys2Proof/Laws/Platform.lean ====
section
/-! SUPPORT. Every setting of the parameters of Machine/Platform.lean makes a machine: what is packed is unpacked, a word
that is stored is read back, and data memory keeps its canonical form. -/

namespace Sys2Proof.Machine

/-! ## CR_PACK -/

/-- The three flags have bits of their own. -/
def CrPackLegal (p : CrPack) : Prop := p.z ≠ p.n ∧ p.z ≠ p.c ∧ p.n ≠ p.c

theorem crPackLegal_default : CrPackLegal Config.crPack := by unfold CrPackLegal; decide

theorem ofImageIn_imageIn {p : CrPack} (h : CrPackLegal p) (f : Flags) : Flags.ofImageIn p (f.imageIn p) = f := by
  obtain ⟨z, n, c, l⟩ := p
  obtain ⟨fz, fn, fc⟩ := f
  unfold CrPackLegal at h
  simp only at h
  cases l <;> revert z n c fz fn fc <;> decide

/-- Taking one image out of a word of eight. -/
theorem extract_image (image : Fin 8 → BitVec 3) (k : Fin 8) :
    (0#8 ++ image 7 ++ image 6 ++ image 5 ++ image 4 ++ image 3 ++ image 2 ++ image 1 ++ image 0).extractLsb' (3 * k.val) 3
      = image k := by
  apply BitVec.eq_of_getLsbD_eq
  intro i hi
  have : i = 0 ∨ i = 1 ∨ i = 2 := by omega
  rcases this with rfl | rfl | rfl <;> fin_cases k <;>
    (simp only [BitVec.getLsbD_extractLsb', BitVec.getLsbD_append]; rfl)

theorem crPlace_crPlace (p : CrPack) (i : Fin 8) : crPlace p (crPlace p i) = i := by
  unfold crPlace
  split
  · rfl
  · revert i; decide

theorem unpackFlagsIn_packFlagsIn {p : CrPack} (h : CrPackLegal p) (cr : Vector Flags 8) :
    unpackFlagsIn p (packFlagsIn p cr) = cr := by
  apply Vector.ext
  intro i hi
  simp only [unpackFlagsIn, Vector.getElem_ofFn, packFlagsIn]
  have := extract_image (fun k => (cr[crPlace p k]).imageIn p) (crPlace p ⟨i, hi⟩)
  simp only [crPlace_crPlace] at this
  rw [this, ofImageIn_imageIn h]
  rfl

/-! ## DMEM_UNIT -/

theorem Memory.extract_byte (w0 w1 w2 w3 : Byte) (k : Nat) (hk : k < 4) :
    (w0 ++ w1 ++ w2 ++ w3).extractLsb' (8 * (3 - k)) 8 = if k = 0 then w0 else if k = 1 then w1 else if k = 2 then w2 else w3 := by
  have : k = 0 ∨ k = 1 ∨ k = 2 ∨ k = 3 := by omega
  apply BitVec.eq_of_getLsbD_eq
  intro i hi
  simp only [BitVec.getLsbD_extractLsb', BitVec.getLsbD_append, hi, decide_true, Bool.true_and]
  rcases this with rfl | rfl | rfl | rfl
  · rw [if_neg (by omega), if_neg (by omega), if_neg (by omega), if_pos rfl]; congr 1; omega
  · rw [if_neg (by omega), if_neg (by omega), if_pos (by omega), if_neg (by decide), if_pos rfl]; congr 1; omega
  · rw [if_neg (by omega), if_pos (by omega), if_neg (by decide), if_neg (by decide), if_pos rfl]; congr 1; omega
  · rw [if_pos (by omega), if_neg (by decide), if_neg (by decide), if_neg (by decide)]; congr 1; omega

theorem Memory.wf_setLane {m : List (Nat × Word)} (hm : Memory.wf m = true) (b : Word) (v : Byte) :
    Memory.wf (Memory.setLane m b v) = true :=
  Memory.wf_write hm (by have := b.isLt; omega) _

/-- A byte of the store after a byte has been replaced. -/
theorem Memory.lane_setLane {m : List (Nat × Word)} (hm : Memory.wf m = true) (b c : Word) (v : Byte) :
    Memory.lane (Memory.setLane m b v) c = if c = b then v else Memory.lane m c := by
  have hc := c.isLt
  unfold Memory.setLane
  conv => lhs; unfold Memory.lane
  rw [Memory.read_write hm]
  by_cases hw : c.toNat / 4 * 4 = b.toNat / 4 * 4
  · have hk : ∀ k, c.toNat % 4 = k → BitVec.ofNat 32 (b.toNat / 4 * 4 + k) = c := by
      intro k hk
      apply BitVec.eq_of_toNat_eq
      rw [BitVec.toNat_ofNat]
      omega
    have hcb : c = b ↔ c.toNat % 4 = b.toNat % 4 := by
      rw [← BitVec.toNat_inj]; omega
    rw [if_pos hw, Memory.extract_byte _ _ _ _ _ (by omega)]
    have hl : ∀ k, c.toNat % 4 = k → Memory.laneWith m b v k = if c = b then v else Memory.lane m c := by
      intro k hk'
      unfold Memory.laneWith
      rw [hk k hk']
      simp only [hcb, hk']
    have : c.toNat % 4 = 0 ∨ c.toNat % 4 = 1 ∨ c.toNat % 4 = 2 ∨ c.toNat % 4 = 3 := by omega
    rcases this with h | h | h | h <;> rw [← hl _ h] <;> simp [h]
  · rw [if_neg hw, if_neg (by rintro rfl; exact hw rfl)]
    rfl

theorem Memory.wf_writeWord {u : DmemUnit} {m : List (Nat × Word)} (hm : Memory.wf m = true) (a v : Word) :
    Memory.wf (Memory.writeWord u m a v) = true := by
  unfold Memory.writeWord
  split
  · exact Memory.wf_write hm a.isLt v
  · exact Memory.wf_setLane (Memory.wf_setLane (Memory.wf_setLane (Memory.wf_setLane hm _ _) _ _) _ _) _ _
  · exact Memory.wf_setLane (Memory.wf_setLane (Memory.wf_setLane (Memory.wf_setLane hm _ _) _ _) _ _) _ _

theorem Memory.join_bytes (v : Word) :
    v.extractLsb' 24 8 ++ v.extractLsb' 16 8 ++ v.extractLsb' 8 8 ++ v.extractLsb' 0 8 = v := by
  apply BitVec.eq_of_getLsbD_eq
  intro i hi
  simp only [BitVec.getLsbD_append, BitVec.getLsbD_extractLsb']
  by_cases h0 : i < 8
  · simp [h0]
  by_cases h1 : i < 16
  · have e : 8 + (i - 8) = i := by omega
    simp [h0, show i - 8 < 8 by omega, e]
  by_cases h2 : i < 24
  · have e : 16 + (i - 8 - 8) = i := by omega
    simp [h0, show ¬i - 8 < 8 by omega, show i - 8 - 8 < 8 by omega, e]
  · have e : 24 + (i - 8 - 8 - 8) = i := by omega
    simp [h0, show ¬i - 8 < 8 by omega, show ¬i - 8 - 8 < 8 by omega, show i - 8 - 8 - 8 < 8 by omega, e]

/-- What is stored at an address is read back from it, whatever an address names. -/
theorem Memory.readWord_writeWord {u : DmemUnit} {m : List (Nat × Word)} (hm : Memory.wf m = true) (a v : Word) :
    Memory.readWord u (Memory.writeWord u m a v) a = v := by
  cases u with
  | cell => exact (Memory.read_write hm _ _ _).trans (if_pos rfl)
  | byte big =>
    cases big <;>
    · simp only [Memory.readWord, Memory.writeWord]
      rw [Memory.lane_setLane (Memory.wf_setLane (Memory.wf_setLane (Memory.wf_setLane hm _ _) _ _) _ _),
        Memory.lane_setLane (Memory.wf_setLane (Memory.wf_setLane (Memory.wf_setLane hm _ _) _ _) _ _),
        Memory.lane_setLane (Memory.wf_setLane (Memory.wf_setLane (Memory.wf_setLane hm _ _) _ _) _ _),
        Memory.lane_setLane (Memory.wf_setLane (Memory.wf_setLane (Memory.wf_setLane hm _ _) _ _) _ _)]
      simp only [Memory.lane_setLane (Memory.wf_setLane (Memory.wf_setLane hm _ _) _ _),
        Memory.lane_setLane (Memory.wf_setLane hm _ _), Memory.lane_setLane hm]
      simp [Memory.join_bytes]

end Sys2Proof.Machine
end

