-- ==== Sys2Proof/Laws/Timers.lean ====
section
/-! SUPPORT. What a number of clock cycles does to an enabled timer: how many ticks they make, and where ticks lead. -/

namespace Sys2Proof.Machine

/-- `n` ticks of a timer. -/
def ticks (cont : Bool) (max : Word) : Nat → TimerRun → TimerRun
  | 0, r => r
  | n + 1, r => ticks cont max n (timerTick cont max r)

theorem timerTick_div (cont : Bool) (max : Word) (r : TimerRun) (d : BitVec 8) :
    timerTick cont max { r with div := d } = { timerTick cont max r with div := d } := by
  unfold timerTick
  simp only
  split
  · split <;> rfl
  · rfl

/-- A timer ticks once every DIV + 1 cycles, and at once from a divider count that is not below DIV. -/
theorem timerCycles_eq (c : TimerConf) (max : Word) (n : Nat) (r : TimerRun) :
    timerCycles c max (n + 1) r =
      ticks c.cont max ((min r.div.toNat c.div.toNat + (n + 1)) / (c.div.toNat + 1))
        { r with div := BitVec.ofNat 8 ((min r.div.toNat c.div.toNat + (n + 1)) % (c.div.toNat + 1)) } := by
  have hc := c.div.isLt
  induction n generalizing r with
  | zero =>
    simp only [timerCycles, timerCycle]
    split
    · rename_i h
      rw [Nat.min_eq_left (by omega), Nat.div_eq_of_lt (by omega), Nat.mod_eq_of_lt (by omega), ticks]
      congr 1
    · rw [Nat.min_eq_right (by omega), Nat.div_self (by omega), Nat.mod_self]
      rfl
  | succ n ih =>
    rw [timerCycles, timerCycle]
    split
    · rename_i h
      have hd : (r.div + 1).toNat = r.div.toNat + 1 := by
        rw [BitVec.toNat_add]; have : (1 : BitVec 8).toNat = 1 := rfl
        rw [this]; omega
      rw [ih]
      simp only [hd]
      rw [Nat.min_eq_left (by omega), Nat.min_eq_left (by omega), show r.div.toNat + 1 + (n + 1) = r.div.toNat + (n + 1 + 1) by omega]
    · have e : (min r.div.toNat c.div.toNat + (n + 1 + 1)) = (n + 1) + (c.div.toNat + 1) := by omega
      rw [e, Nat.add_div_right _ (by omega), Nat.add_mod_right, ih, timerTick_div]
      simp only [BitVec.toNat_zero, ticks, timerTick_div, Nat.zero_min, Nat.zero_add, BitVec.ofNat_eq_ofNat]

/-- One more, modulo MAX + 1. -/
theorem mod_succ_tick (m x : Nat) : (x + 1) % (m + 1) = if x % (m + 1) = m then 0 else x % (m + 1) + 1 := by
  have h : x % (m + 1) < m + 1 := Nat.mod_lt x (Nat.succ_pos m)
  rw [Nat.add_mod]
  split
  · rename_i e
    rw [e]
    cases m with
    | zero => rfl
    | succ m => rw [Nat.mod_eq_of_lt (show 1 < m + 1 + 1 by omega), Nat.mod_self]
  · rename_i e
    cases m with
    | zero => omega
    | succ m => rw [Nat.mod_eq_of_lt (show 1 < m + 1 + 1 by omega), Nat.mod_eq_of_lt (by omega)]

/-- A count after one more tick. -/
theorem countAfter_succ (cont : Bool) {max cnt : Nat} (k : Nat) (hm : max < 2 ^ 32) (hc : cnt < 2 ^ 32) :
    countAfter cont max cnt (k + 1) =
      if countAfter cont max cnt k = max then if cont then 0 else max else (countAfter cont max cnt k + 1) % 2 ^ 32 := by
  have round (x : Nat) : (if cont then (x + 1) % (max + 1) else min (x + 1) max) =
      if (if cont then x % (max + 1) else min x max) = max then if cont then 0 else max
      else ((if cont then x % (max + 1) else min x max) + 1) % 2 ^ 32 := by
    have h : x % (max + 1) < max + 1 := Nat.mod_lt x (Nat.succ_pos max)
    cases cont with
    | true =>
      simp only [if_true, mod_succ_tick max x]
      split
      · rfl
      · exact (Nat.mod_eq_of_lt (by omega)).symm
    | false =>
      simp only [Bool.false_eq_true, if_false]
      split <;> omega
  unfold countAfter
  simp only
  split
  · exact round (cnt + k)
  · rename_i h
    by_cases h1 : cnt + (k + 1) < 2 ^ 32
    · rw [if_pos h1, if_pos (show cnt + k < 2 ^ 32 by omega), if_neg (by omega),
        Nat.mod_eq_of_lt (show cnt + k + 1 < 2 ^ 32 by omega), Nat.add_assoc]
    · rw [if_neg h1]
      by_cases h2 : cnt + k < 2 ^ 32
      · have e : cnt + k = 2 ^ 32 - 1 := by omega
        have z : cnt + (k + 1) - 2 ^ 32 = 0 := by omega
        rw [if_pos h2, if_neg (show ¬cnt + k = max by omega), e, z]
        cases cont <;> simp
      · rw [if_neg h2, show cnt + (k + 1) - 2 ^ 32 = cnt + k - 2 ^ 32 + 1 by omega]
        exact round _

/-- No tick, no change. -/
theorem countAfter_zero (cont : Bool) {max cnt : Nat} (hc : cnt < 2 ^ 32) : countAfter cont max cnt 0 = cnt := by
  unfold countAfter
  simp only
  split
  · rename_i h
    cases cont
    · simp only [Bool.false_eq_true, if_false]; omega
    · exact Nat.mod_eq_of_lt (by omega)
  · rw [if_pos (by omega)]; rfl

/-- The last tick apart. -/
theorem ticks_succ (cont : Bool) (max : Word) (n : Nat) (r : TimerRun) :
    ticks cont max (n + 1) r = timerTick cont max (ticks cont max n r) := by
  induction n generalizing r with
  | zero => rfl
  | succ n ih => rw [ticks, ih]; rfl

/-- A tick, on the numbers: the next count, and whether it is the one that reaches the maximum. -/
theorem timerTick_eq (cont : Bool) (max : Word) (r : TimerRun) :
    (timerTick cont max r).cnt.toNat =
      (if r.cnt.toNat = max.toNat then if cont then 0 else max.toNat else (r.cnt.toNat + 1) % 2 ^ 32) ∧
    ((timerTick cont max r).fired = true ↔ r.fired = true ∨
      ((timerTick cont max r).cnt.toNat = max.toNat ∧ (cont = true ∨ r.cnt.toNat ≠ max.toNat))) := by
  unfold timerTick
  by_cases h : r.cnt = max
  · rw [if_pos h, if_pos (congrArg BitVec.toNat h)]
    cases cont
    · exact ⟨congrArg BitVec.toNat h, .inl, fun e => e.elim id fun ⟨_, e⟩ => by simp [h] at e⟩
    · refine ⟨rfl, ?_⟩
      simp only [if_true, Bool.or_eq_true, decide_eq_true_eq, true_or, and_true]
      rw [← BitVec.toNat_inj, eq_comm (a := max.toNat)]
  · have h' : r.cnt.toNat ≠ max.toNat := fun e => h (BitVec.eq_of_toNat_eq e)
    rw [if_neg h, if_neg h']
    refine ⟨BitVec.toNat_add _ _, ?_⟩
    simp only [Bool.or_eq_true, decide_eq_true_eq, ne_eq, h', not_false_eq_true, or_true, and_true]
    rw [← BitVec.toNat_inj]

/-- Where `n` ticks lead: the count, and whether one of them has reached the maximum (R377). -/
theorem ticks_eq (cont : Bool) (max : Word) (n : Nat) (r : TimerRun) :
    (ticks cont max n r).cnt.toNat = countAfter cont max.toNat r.cnt.toNat n ∧
    ((ticks cont max n r).fired = true ↔ r.fired = true ∨
      ∃ k < n, countAfter cont max.toNat r.cnt.toNat (k + 1) = max.toNat ∧
        (cont = true ∨ countAfter cont max.toNat r.cnt.toNat k ≠ max.toNat)) := by
  induction n with
  | zero => exact ⟨(countAfter_zero cont r.cnt.isLt).symm, by simp [ticks]⟩
  | succ n ih =>
    obtain ⟨h1, h2⟩ := timerTick_eq cont max (ticks cont max n r)
    have hc : (ticks cont max (n + 1) r).cnt.toNat = countAfter cont max.toNat r.cnt.toNat (n + 1) := by
      rw [ticks_succ, h1, ih.1, countAfter_succ cont n max.isLt r.cnt.isLt]
    refine ⟨hc, ?_⟩
    rw [ticks_succ, h2, ← ticks_succ, hc, ih.1, ih.2, or_assoc]
    refine or_congr Iff.rfl ⟨?_, ?_⟩
    · rintro (⟨k, hk, h⟩ | h)
      · exact ⟨k, by omega, h⟩
      · exact ⟨n, by omega, h⟩
    · rintro ⟨k, hk, h⟩
      rcases Nat.lt_succ_iff_lt_or_eq.mp hk with hk | rfl
      · exact .inl ⟨k, hk, h⟩
      · exact .inr h

theorem ticks_div (cont : Bool) (max : Word) (n : Nat) (r : TimerRun) : (ticks cont max n r).div = r.div := by
  induction n generalizing r with
  | zero => rfl
  | succ n ih =>
    rw [ticks, ih]
    unfold timerTick
    split
    · split <;> rfl
    · rfl

/-! ## A timer with no CCB write in flight -/

/-- The fields of TMR_CONF that a timer sees are those of its half. -/
theorem timerConf_settled {s : State} (h : Settled s) (one : Bool) :
    (timerConf one s).en = tmrBit one 15 s ∧ (timerConf one s).cont = tmrBit one 14 s ∧
    (timerConf one s).gint = tmrBit one 13 s ∧ (timerConf one s).wdog = tmrBit one 12 s ∧
    (timerConf one s).intn.toNat = tmrField one 8 3 s ∧ (timerConf one s).div.toNat = tmrField one 0 8 s := by
  unfold timerConf
  rw [seen_settled h, show ccbRead offTmrConf s = s.ccb.tmrConf from rfl]
  unfold tmrBit tmrField decodeTimerConf
  have hw := s.ccb.tmrConf.isLt
  cases one <;> simp [BitVec.extractLsb'_toNat, Nat.shiftRight_eq_div_pow]
  all_goals omega

/-- Where a timer gets to is where its ticks lead. -/
theorem timerResult_settled {s : State} (h : Settled s) (one : Bool) :
    timerResult one s =
      ticks (tmrBit one 14 s) (if one then s.ccb.tmr1Max else s.ccb.tmr0Max) (tmrTicks one s)
        { div := BitVec.ofNat 8 (tmrCycles one s % (tmrField one 0 8 s + 1))
          cnt := if one then s.ccb.tmr1Cnt else s.ccb.tmr0Cnt, fired := false } := by
  have hd : (divider one s).toNat = tmrDivider one s := by cases one <;> rfl
  have hc : seen .timer (offCnt one) s = if one then s.ccb.tmr1Cnt else s.ccb.tmr0Cnt := by
    rw [seen_settled h]; cases one <;> rfl
  have hm : seen .timer (offMax one) s = if one then s.ccb.tmr1Max else s.ccb.tmr0Max := by
    rw [seen_settled h]; cases one <;> rfl
  obtain ⟨-, hcont, -, -, -, hdiv⟩ := timerConf_settled h one
  unfold timerResult
  rw [timerCycles_eq, hcont, hc, hm]
  simp only [hd, hdiv]
  rfl

/-- A timer after the clock cycles of a step: its divider, its count, and whether it has reached its maximum. -/
theorem timerResult_eq {s : State} (h : Settled s) (one : Bool) :
    (timerResult one s).div.toNat = tmrCycles one s % (tmrField one 0 8 s + 1) ∧
    (timerResult one s).cnt.toNat = tmrAfter one (tmrTicks one s) s ∧
    ((timerResult one s).fired = true ↔
      ∃ k < tmrTicks one s, tmrAfter one (k + 1) s = tmrMax one s ∧
        (tmrBit one 14 s = true ∨ tmrAfter one k s ≠ tmrMax one s)) := by
  have hc : (if one then s.ccb.tmr1Cnt else s.ccb.tmr0Cnt).toNat = tmrCnt one s := by cases one <;> rfl
  have hm : (if one then s.ccb.tmr1Max else s.ccb.tmr0Max).toNat = tmrMax one s := by cases one <;> rfl
  have hf : tmrField one 0 8 s < 256 := by unfold tmrField; omega
  have hlt := Nat.mod_lt (tmrCycles one s) (Nat.succ_pos (tmrField one 0 8 s))
  rw [timerResult_settled h]
  obtain ⟨h1, h2⟩ := ticks_eq (tmrBit one 14 s) (if one then s.ccb.tmr1Max else s.ccb.tmr0Max) (tmrTicks one s)
    { div := BitVec.ofNat 8 (tmrCycles one s % (tmrField one 0 8 s + 1))
      cnt := if one then s.ccb.tmr1Cnt else s.ccb.tmr0Cnt, fired := false }
  simp only [hc, hm, Bool.false_eq_true, false_or] at h1 h2
  refine ⟨?_, h1, h2⟩
  rw [ticks_div, BitVec.toNat_ofNat]
  exact Nat.mod_eq_of_lt (lt_of_lt_of_le hlt (by omega))

/-- An enabled timer fires exactly when it reaches its maximum. -/
theorem timerFires_iff {s : State} (h : Settled s) (one : Bool) : timerFires one s = true ↔ TmrReaches one s := by
  unfold timerFires TmrReaches
  rw [Bool.and_eq_true, (timerConf_settled h one).1, (timerResult_eq h one).2.2]

end Sys2Proof.Machine
end

