-- ==== Sys2Proof/Tests/Slice0.lean ====
section
/-! SUPPORT. The model's own tests. Expected results are the vectors V<n> of `95_test_vectors.md` and `96_scenarios.md`,
words are those of the encoding tables; witness theorems show that the hypotheses of the statements can be met. -/

namespace Sys2Proof.Tests

open Sys2Proof.Machine

/-! ## Helpers -/

/-- Super user mode, 32-bit words, SET 1 (PSR = 08h), as the vectors' defaults have it. -/
def psrSuper : Psr := { ie := false, il := true, rswr := false, rsrd := false, um := false }

/-- The vectors' default start: pc = 100h, PSR = 08h, EXCEP_ADDR = 40h. -/
def start : State := { State.reset with psr := psrSuper, pc := 0x100#32, ccb := { Ccb.reset with excepAddr := 0x40#32 } }

/-- The same in another mode. -/
def startIn (psr : BitVec 8) : State := { start with psr := Psr.ofByte psr }

/-- User mode with all addresses allowed (MEM_CONF = 0). -/
def user : State := { startIn 0x09#8 with ccb := { start.ccb with memConf := 0#2 } }

/-- User mode that may not fetch or jump to 2000h..2FFFh, nor access data there. -/
def fenced : State :=
  { startIn 0x09#8 with
    ccb := { start.ccb with
      memConf := 3#2, imemBoundLo := 0x2000#32, imemBoundHi := 0x2FFF#32, dmemBoundLo := 0x2000#32
      dmemBoundHi := 0x2FFF#32 } }

/-- `Rn` holds `v`. -/
def State.r (s : State) (n : Reg) (v : Word) : State := writeSet false n v s

/-- `Cn` holds (Z, N, C). -/
def State.c (s : State) (n : CReg) (z nn c : Bool) : State := setCr n { z := z, n := nn, c := c } s

/-- The outcome is a next state in which `p` holds. -/
def runs (r : Result) (p : State → Bool) : Bool :=
  match r with
  | .next t => p t
  | .fault _ => false
  | .refused _ => false

/-- One step over the word `w` placed at pc. -/
def check (s : State) (nbits w : Nat) (p : State → Bool) : Bool := runs (step (s.withFetchWord nbits w)) p

/-- One step over the word `w` ends in this fault. -/
def stops (s : State) (nbits w : Nat) (why : Fault) : Bool :=
  match step (s.withFetchWord nbits w) with
  | .next _ => false
  | .fault f => f == why
  | .refused _ => false

/-- Exception entry with this code and EXCEPTION_PC: PSR = 0Eh, pc = EXCEP_ADDR. -/
def took (code : BitVec 8) (at_ : Word) (t : State) : Bool :=
  t.ccb.exceptionCs == code && t.ccb.exceptionPc == at_ && t.psr.toByte == 0x0E#8 && t.pc == 0x40#32

/-- `Rn`, and a condition register as (Z, N, C). -/
def rd (n : Reg) (t : State) : Word := readSet false n t
def flags (n : CReg) (t : State) : Bool × Bool × Bool := ((readCr n t).z, (readCr n t).n, (readCr n t).c)

theorem runs_spec {r : Result} {p : State → Bool} (h : runs r p = true) : ∃ t, r = .next t ∧ p t = true := by
  unfold runs at h
  cases r with
  | next t => exact ⟨t, rfl, h⟩
  | fault f => simp at h
  | refused f => simp at h


/-! ## Well-formedness: each check refuses a term -/

theorem test_wf_refuses_low_register16 : (Instr.mov .w16 23#5 24#5).wf = false := by decide
theorem test_wf_refuses_unshared16 : (Instr.add .w16 24#5 25#5 26#5).wf = false := by decide
theorem test_wf_refuses_unshared_source16 : (Instr.addi .w16 24#5 25#5 1).wf = false := by decide
theorem test_wf_refuses_signed15 : (Instr.addi .w32 1#5 1#5 16384).wf = false := by decide
theorem test_wf_refuses_signed9 : (Instr.addi (.cex .eq 1#3) 1#5 1#5 (-257)).wf = false := by decide
theorem test_wf_refuses_unsigned15 : (Instr.andi .w32 1#5 1#5 32768).wf = false := by decide
theorem test_wf_refuses_unsigned7 : (Instr.ori .w16 24#5 24#5 128).wf = false := by decide
theorem test_wf_refuses_offset4 : (Instr.ld .w16 24#5 25#5 8).wf = false := by decide
theorem test_wf_refuses_creg16 : (Instr.cmp .w16 1#3 24#5 25#5).wf = false := by decide
theorem test_wf_refuses_width_register16 : (Instr.scon .w16 5#5).wf = false := by decide
theorem test_wf_refuses_branch22 : (Instr.beq .w32 0#3 (2 ^ 21)).wf = false := by decide
theorem test_wf_refuses_branch10 : (Instr.beq .w16 0#3 512).wf = false := by decide
theorem test_wf_refuses_jump25 : (Instr.jmp .w32 (-(2 ^ 24) - 1)).wf = false := by decide
theorem test_wf_refuses_cmpi17 : (Instr.cmpi .w32 0#3 1#5 65536).wf = false := by decide
theorem test_wf_accepts_boundaries : (Instr.addi .w32 1#5 1#5 (-16384)).wf = true ∧ (Instr.ld .w16 24#5 31#5 7).wf = true ∧
    (Instr.jmp .w32 (2 ^ 24 - 1)).wf = true ∧ (Instr.cmpi .w16 0#3 24#5 (-64)).wf = true := by decide


/-! ## Decoding, on words written from the tables of `30_encoding.md` R146 to R148 -/

theorem test_decode_arithmetic :
    decode32 0x04000823#32 = .ok (.add .w32 3 1 2) ∧
    decode32 0x06D80823#32 = .ok (.add (.cex .eq 3) 3 1 2) ∧
    decode16 0x0408#16 = .ok (.add .w16 24 25 24) ∧
    decode32 0x09FFFC21#32 = .ok (.addi .w32 1 1 (-1)) ∧
    decode32 0x0A6C0022#32 = .ok (.addi (.cex .lt 1) 2 1 (-256)) ∧
    decode16 0x0A07#16 = .ok (.addi .w16 31 31 (-64)) ∧
    decode32 0x0DFFFC22#32 = .ok (.addiu .w32 2 1 32767) ∧
    decode16 0x0FFA#16 = .ok (.addiu .w16 26 26 127) ∧
    decode32 0x10000823#32 = .ok (.addu .w32 3 1 2) ∧
    decode16 0x3408#16 = .ok (.sub .w16 24 25 24) ∧
    decode32 0x38000823#32 = .ok (.subu .w32 3 1 2) := by decide

theorem test_decode_multiplication :
    decode32 0x14000004#32 = .ok (.mulhi .w32 4) ∧
    decode32 0x16000004#32 = .ok (.mulhi (.cex .c 0) 4) ∧
    decode16 0x1405#16 = .ok (.mulhi .w16 29) ∧
    decode32 0x19FFF822#32 = .ok (.muli .w32 2 1 (-2)) ∧
    decode16 0x1A03#16 = .ok (.muli .w16 27 27 (-64)) ∧
    decode32 0x1C000823#32 = .ok (.muls .w32 3 1 2) ∧
    decode32 0x20000823#32 = .ok (.mulu .w32 3 1 2) ∧
    decode32 0x24000443#32 = .ok (.mulus .w32 3 2 1) ∧
    decode32 0x28000823#32 = .ok (.muls16 .w32 3 1 2) ∧
    decode32 0x2C000823#32 = .ok (.mulu16 .w32 3 1 2) ∧
    decode32 0x30000823#32 = .ok (.mulus16 .w32 3 1 2) := by decide

theorem test_decode_bitfield :
    decode32 0x3C000C22#32 = .ok (.exb .w32 2 1 3) ∧
    decode16 0x3C88#16 = .ok (.exb .w16 24 25 2) ∧
    decode32 0x40000803#32 = .ok (.exbf .w32 3 0 2) ∧
    decode32 0x44029803#32 = .ok (.exbfi 3 0 5 6) ∧
    decode16 0x4848#16 = .ok (.exh .w16 24 25 1) ∧
    decode32 0x4C0014C2#32 = .ok (.lli 2 0x00A6#16) ∧
    decode32 0x4E1BD5A2#32 = .ok (.lui 2 0xDEAD#16) ∧
    decode32 0x50000823#32 = .ok (.sext .w32 3 1 2) ∧
    decode32 0x54007C23#32 = .ok (.sexti .w32 3 1 31) ∧
    decode16 0x543E#16 = .ok (.sexti .w16 30 30 7) ∧
    decode32 0x58000823#32 = .ok (.conb .w32 3 1 2) ∧
    decode16 0x5C08#16 = .ok (.conh .w16 24 25 24) := by decide

theorem test_decode_logic_shift :
    decode32 0x60000823#32 = .ok (.and .w32 3 1 2) ∧
    decode32 0x65FFFC23#32 = .ok (.andi .w32 3 1 32767) ∧
    decode16 0x67F8#16 = .ok (.andi .w16 24 24 127) ∧
    decode16 0x6808#16 = .ok (.not .w16 24 25) ∧
    decode32 0x6C000823#32 = .ok (.or .w32 3 1 2) ∧
    decode32 0x70000423#32 = .ok (.ori .w32 3 1 1) ∧
    decode32 0x74000823#32 = .ok (.xor .w32 3 1 2) ∧
    decode16 0xB808#16 = .ok (.sll .w16 24 25 24) ∧
    decode32 0xBC007C23#32 = .ok (.slli .w32 3 1 31) ∧
    decode32 0xC0000823#32 = .ok (.sra .w32 3 1 2) ∧
    decode16 0xC4FC#16 = .ok (.srai .w16 28 28 31) ∧
    decode32 0xC8000823#32 = .ok (.srl .w32 3 1 2) ∧
    decode32 0xCC008023#32 = .ok (.srli .w32 3 1 32) := by decide

theorem test_decode_branch :
    decode32 0xB0800820#32 = .ok (.cmp .w32 2 1 2) ∧
    decode16 0xB001#16 = .ok (.cmp .w16 0 24 25) ∧
    decode32 0xB43FFFA1#32 = .ok (.cmpi .w32 0 1 (-3)) ∧
    decode16 0xB600#16 = .ok (.cmpi .w16 0 24 (-64)) ∧
    decode32 0x80400008#32 = .ok (.bc .w32 1 8) ∧
    decode32 0x84400008#32 = .ok (.begt .w32 1 8) ∧
    decode32 0x88400008#32 = .ok (.belt .w32 1 8) ∧
    decode32 0x8CBFFFFC#32 = .ok (.beq .w32 2 (-4)) ∧
    decode16 0x8C05#16 = .ok (.beq .w16 0 5) ∧
    decode32 0x90400008#32 = .ok (.bgt .w32 1 8) ∧
    decode32 0x94400008#32 = .ok (.blt .w32 1 8) ∧
    decode32 0x98400008#32 = .ok (.bne .w32 1 8) ∧
    decode32 0x9C400008#32 = .ok (.bnc .w32 1 8) ∧
    decode32 0xA0000010#32 = .ok (.jal .w32 16) ∧
    decode32 0xA9FFFFFE#32 = .ok (.jmp .w32 (-2)) ∧
    decode32 0xA40003E0#32 = .ok (.jalr .w32 31) ∧
    decode32 0xAF1800A0#32 = .ok (.jmpr (.cex .eq 4) 5) ∧
    decode16 0xAC28#16 = .ok (.jmpr .w16 29) := by decide

theorem test_decode_memory_coprocessor :
    decode32 0xD1FFFC22#32 = .ok (.ld .w32 2 1 (-1)) ∧
    decode16 0xD208#16 = .ok (.ld .w16 24 25 (-8)) ∧
    decode32 0xD7440022#32 = .ok (.st (.cex .c 5) 2 1 (-256)) ∧
    decode16 0xD5CA#16 = .ok (.st .w16 26 25 7) ∧
    decode32 0xD800003D#32 = .ok (.mov .w32 29 1) ∧
    decode16 0xD838#16 = .ok (.mov .w16 24 31) ∧
    decode32 0xDFFFFFFF#32 = .ok (.cop 3 0xFFFFFF#24) ∧
    decode32 0xE0000482#32 = .ok (.movfc .w32 1 2 4) ∧
    decode16 0xE04F#16 = .ok (.movfc .w16 0 31 9) ∧
    decode32 0xE4000831#32 = .ok (.movtc .w32 2 17 1) ∧
    decode16 0xE7F8#16 = .ok (.movtc .w16 3 31 24) := by decide

theorem test_decode_system :
    decode32 0x00000000#32 = .ok (.nop .w32) ∧
    decode16 0x0000#16 = .ok (.nop .w16) ∧
    decode32 0xE8000003#32 = .ok (.chrs .w32 3) ∧
    decode32 0xEC000000#32 = .ok (.di .w32) ∧
    decode16 0xEC01#16 = .ok (.ei .w16) ∧
    decode32 0xF0000020#32 = .ok (.swm .w32 32) ∧
    decode16 0xF010#16 = .ok (.swm .w16 16) ∧
    decode32 0xF4000000#32 = .ok (.reti .w32) ∧
    decode32 0xF4000001#32 = .ok (.retu .w32) ∧
    decode32 0xFAB00000#32 = .ok (.scall (.cex .ne 2)) ∧
    decode16 0xF800#16 = .ok (.scall .w16) ∧
    decode32 0xFC00001F#32 = .ok (.trap .w32 31) ∧
    decode32 0x78000020#32 = .ok (.rcon .w32 1) ∧
    decode16 0x7830#16 = .ok (.rcon .w16 30) ∧
    decode32 0x7C000002#32 = .ok (.scon .w32 2) ∧
    decode16 0x7C05#16 = .ok (.scon .w16 29) := by decide

/-- V87, V88, V213, and words that are no instruction (R145, R149). -/
theorem test_decode_refuses :
    decode16 0x4400#16 = .illegal16 ∧ decode16 0x4C00#16 = .illegal16 ∧ decode16 0xDC00#16 = .illegal16 ∧
    decode32 0x04008823#32 = .refused (.unassignedBits 0x01#6) ∧ decode32 0xA2000010#32 = .refused (.neverConditional 0x28#6) ∧
    decode16 0x0448#16 = .refused (.unassignedBits 0x01#6) ∧ decodeBytes .w32 [0#8] = .refused .wrongLength := by decide

/-- Bit 0 of the table's word is the least significant; the hardware stores the top byte first. -/
theorem test_table_word : decodeTableWord 32 0xD5FFF022 = some (.st .w32 2 1 (-4)) ∧
    decodeTableWord 16 0x0408 = some (.add .w16 24 25 24) ∧ decodeTableWord 16 0x4C00 = none := by decide


/-! ## One step, against the vectors -/

/-- V8 -/
theorem test_add : check (State.r (State.r (start) 1 0x5#32) 2 0xFFFFFFFD#32) 32 0x04000823 (fun t => rd 3 t == 0x2#32 && flags 0 t == (false, false, true) && t.pc == 0x104#32) = true := by decide

/-- V11: nothing is written -/
theorem test_add_overflow : check (State.c (State.r (State.r (State.r (start) 1 0x7FFFFFFF#32) 2 0x1#32) 3 0x7#32) 0 false true false) 32 0x04000823 (fun t => took 0x06#8 0x100#32 t && rd 3 t == 0x7#32 && flags 0 t == (false, true, false)) = true := by decide

/-- V16 -/
theorem test_addi : check (State.r (start) 1 0x1#32) 32 0x09FFFC21 (fun t => rd 1 t == 0x0#32 && flags 0 t == (true, false, true)) = true := by decide

/-- V21 -/
theorem test_addi_overflow : check (State.r (start) 1 0x7FFFFFFF#32) 32 0x08000421 (fun t => took 0x06#8 0x100#32 t && rd 1 t == 0x7FFFFFFF#32) = true := by decide

/-- V24: the immediate is zero extended -/
theorem test_addiu : check (State.r (start) 1 0x10#32) 32 0x0DFFFC22 (fun t => rd 2 t == 0x800F#32) = true := by decide

/-- V22 -/
theorem test_addiu_wraps : check (State.r (start) 1 0xFFFFFFFF#32) 32 0x0C000421 (fun t => rd 1 t == 0x0#32 && flags 0 t == (true, false, true)) = true := by decide

/-- V25: no overflow exception -/
theorem test_addu : check (State.r (State.r (start) 1 0x7FFFFFFF#32) 2 0x1#32) 32 0x10000823 (fun t => rd 3 t == 0x80000000#32 && flags 0 t == (false, true, false)) = true := by decide

/-- V35: computes sr - dr -/
theorem test_sub16 : check (State.r (State.r (start) 24 0x3#32) 25 0xA#32) 16 0x3408 (fun t => rd 24 t == 0x7#32 && flags 0 t == (false, false, true) && t.pc == 0x102#32) = true := by decide

/-- V30 -/
theorem test_sub_overflow : check (State.r (State.r (start) 1 0x0#32) 2 0x80000000#32) 32 0x34000823 (fun t => took 0x06#8 0x100#32 t) = true := by decide

/-- V33: C is the carry of a + not b + 1 -/
theorem test_subu : check (State.r (State.r (start) 1 0x0#32) 2 0x1#32) 32 0x38000823 (fun t => rd 3 t == 0xFFFFFFFF#32 && flags 0 t == (false, true, false)) = true := by decide

/-- V42 -/
theorem test_mulu : check (State.r (State.r (start) 1 0xFFFFFFFF#32) 2 0xFFFFFFFF#32) 32 0x20000823 (fun t => rd 3 t == 0x1#32 && t.mulHi == some 0xFFFFFFFE#32) = true := by decide

/-- V44 -/
theorem test_muls : check (State.r (State.r (start) 1 0x80000000#32) 2 0x80000000#32) 32 0x1C000823 (fun t => rd 3 t == 0x0#32 && t.mulHi == some 0x40000000#32) = true := by decide

/-- V46: the first source is unsigned -/
theorem test_mulus : check (State.r (State.r (start) 1 0x2#32) 2 0xFFFFFFFF#32) 32 0x24000443 (fun t => rd 3 t == 0xFFFFFFFE#32 && t.mulHi == some 1#32) = true := by decide

/-- V48 -/
theorem test_muli : check (State.r (State.r (start) 1 0x80000000#32) 2 0x77#32) 32 0x19000022 (fun t => rd 2 t == 0x0#32 && t.mulHi == some 0x2000#32) = true := by decide

/-- V49 -/
theorem test_muls_16 : check ({ State.r (State.r (start) 1 0x1FFFF#32) 2 0x2#32 with mulHi := some 7#32 }) 32 0x28000823 (fun t => rd 3 t == 0xFFFFFFFE#32 && t.mulHi == none) = true := by decide

/-- V51 -/
theorem test_mulu_16 : check (State.r (State.r (start) 1 0xFFFF#32) 2 0xFFFF#32) 32 0x2C000823 (fun t => rd 3 t == 0xFFFE0001#32) = true := by decide

/-- V52 -/
theorem test_mulus_16 : check (State.r (State.r (start) 1 0xFFFF#32) 2 0xFFFF#32) 32 0x30000823 (fun t => rd 3 t == 0xFFFF0001#32) = true := by decide

/-- V39 -/
theorem test_mulhi : check ({ State.r (start) 4 0x9#32 with mulHi := some 1#32 }) 32 0x14000004 (fun t => rd 4 t == 0x1#32 && t.mulHi == none) = true := by decide

/-- V40 -/
theorem test_mulhi_unpaired : stops (State.r (start) 4 0x9#32) 32 0x14000004 .mulhiUnpaired = true := by decide

/-- V59 -/
theorem test_exb : check (State.r (start) 1 0xAABBCCDD#32) 32 0x3C000C22 (fun t => rd 2 t == 0xAA#32) = true := by decide

/-- V61 -/
theorem test_exh : check (State.r (start) 1 0xAABBCCDD#32) 32 0x48000422 (fun t => rd 2 t == 0xAABB#32) = true := by decide

/-- V65: zeros come in from above bit 31 -/
theorem test_exbfi : check (State.r (start) 0 0xDEADBEEF#32) 32 0x44047003 (fun t => rd 3 t == 0xD#32) = true := by decide

/-- V67: completes with any value -/
theorem test_exbfi_long : check (State.r (State.r (start) 0 0xDEADBEEF#32) 4 0x55#32) 32 0x44140003 (fun t => rd 4 t == 0x55#32 && t.pc == 0x104#32) = true := by decide

/-- V69: bits 31..11 of the control word are ignored -/
theorem test_exbf : check (State.r (State.r (start) 0 0x12345678#32) 2 0xFFFFF8A6#32) 32 0x40000803 (fun t => rd 3 t == 0x19#32) = true := by decide

/-- V70 -/
theorem test_lli : check (State.r (start) 2 0xFFFFFFFF#32) 32 0x4C0014C2 (fun t => rd 2 t == 0xA6#32) = true := by decide

/-- V71 -/
theorem test_lui : check (State.r (start) 2 0xBEEF#32) 32 0x4E1BD5A2 (fun t => rd 2 t == 0xDEADBEEF#32) = true := by decide

/-- V73 -/
theorem test_sext : check (State.r (State.r (start) 1 0x17F#32) 2 0xFFFFFFE7#32) 32 0x50000823 (fun t => rd 3 t == 0x7F#32) = true := by decide

/-- V76 -/
theorem test_sexti : check (State.r (start) 1 0x1#32) 32 0x54000023 (fun t => rd 3 t == 0xFFFFFFFF#32) = true := by decide

/-- V78 -/
theorem test_sexti_all : check (State.r (start) 1 0x12348765#32) 32 0x54007C23 (fun t => rd 3 t == 0x12348765#32) = true := by decide

/-- V79 -/
theorem test_conb : check (State.r (State.r (start) 1 0x111111AA#32) 2 0x222222BB#32) 32 0x58000823 (fun t => rd 3 t == 0xAABB#32) = true := by decide

/-- V80 -/
theorem test_conh : check (State.r (State.r (start) 1 0x1111AAAA#32) 2 0x2222BBBB#32) 32 0x5C000823 (fun t => rd 3 t == 0xBBBBAAAA#32) = true := by decide

/-- V89: no flag is written -/
theorem test_and : check (State.c (State.r (State.r (start) 1 0xFF00FF00#32) 2 0x0FF00FF0#32) 0 true true true) 32 0x60000823 (fun t => rd 3 t == 0x0F000F00#32 && flags 0 t == (true, true, true)) = true := by decide

/-- V90 -/
theorem test_andi : check (State.r (start) 1 0xFFFFFFFF#32) 32 0x65FFFC23 (fun t => rd 3 t == 0x7FFF#32) = true := by decide

/-- V91 -/
theorem test_not : check (State.r (start) 1 0xFFFF#32) 32 0x68000023 (fun t => rd 3 t == 0xFFFF0000#32) = true := by decide

/-- V92 -/
theorem test_or : check (State.r (State.r (start) 1 0xFF00FF00#32) 2 0x0FF00FF0#32) 32 0x6C000823 (fun t => rd 3 t == 0xFFF0FFF0#32) = true := by decide

/-- V93 -/
theorem test_ori : check (State.r (start) 1 0x80000000#32) 32 0x70000423 (fun t => rd 3 t == 0x80000001#32) = true := by decide

/-- V94 -/
theorem test_xor : check (State.r (State.r (start) 1 0xFF00FF00#32) 2 0x0FF00FF0#32) 32 0x74000823 (fun t => rd 3 t == 0xF0F0F0F0#32) = true := by decide

/-- V96 -/
theorem test_sll : check (State.r (State.r (start) 1 0x80000001#32) 2 0x1#32) 32 0xB8000823 (fun t => rd 3 t == 0x2#32 && flags 0 t == (false, false, true)) = true := by decide

/-- V98 -/
theorem test_sll_clamps : check (State.r (State.r (start) 1 0x3#32) 2 0x21#32) 32 0xB8000823 (fun t => rd 3 t == 0x0#32 && flags 0 t == (true, false, true)) = true := by decide

/-- V102 -/
theorem test_slli : check (State.r (start) 1 0xC0000000#32) 32 0xBC000423 (fun t => rd 3 t == 0x80000000#32 && flags 0 t == (false, true, true)) = true := by decide

/-- V104 -/
theorem test_sra : check (State.r (State.r (start) 1 0x80000000#32) 2 0x20#32) 32 0xC0000823 (fun t => rd 3 t == 0xFFFFFFFF#32) = true := by decide

/-- V111 -/
theorem test_srai : check (State.r (start) 28 0x80000000#32) 16 0xC4FC (fun t => rd 28 t == 0xFFFFFFFF#32) = true := by decide

/-- V107 -/
theorem test_srl : check (State.r (State.r (start) 1 0xF0000000#32) 2 0x44#32) 32 0xC8000823 (fun t => rd 3 t == 0x0F000000#32) = true := by decide

/-- V109 -/
theorem test_srli : check (State.r (start) 1 0xFFFFFFFF#32) 32 0xCC007C23 (fun t => rd 3 t == 0x1#32) = true := by decide

/-- V116: N from the exact difference -/
theorem test_cmp : check (State.r (State.r (start) 1 0x7FFFFFFF#32) 2 0xFFFFFFFF#32) 32 0xB1C00820 (fun t => flags 7 t == (false, false, false)) = true := by decide

/-- V120 -/
theorem test_cmpi : check (State.r (start) 1 0xFFFF0000#32) 32 0xB4E00001 (fun t => flags 3 t == (true, false, true)) = true := by decide

/-- V124 -/
theorem test_bc_taken : check (State.c (start) 1 false false true) 32 0x80400008 (fun t => t.delayedPc == some 0x114#32 && t.pc == 0x104#32) = true := by decide

/-- V125 -/
theorem test_bc_not_taken : check (State.c (start) 1 true true false) 32 0x80400008 (fun t => t.delayedPc == none && t.pc == 0x104#32) = true := by decide

/-- V126 -/
theorem test_begt_taken : check (State.c (start) 1 false false false) 32 0x84400008 (fun t => t.delayedPc == some 0x114#32 && t.pc == 0x104#32) = true := by decide

/-- V127 -/
theorem test_begt_not_taken : check (State.c (start) 1 false true false) 32 0x84400008 (fun t => t.delayedPc == none && t.pc == 0x104#32) = true := by decide

/-- V128 -/
theorem test_belt_taken : check (State.c (start) 1 false true false) 32 0x88400008 (fun t => t.delayedPc == some 0x114#32 && t.pc == 0x104#32) = true := by decide

/-- V129 -/
theorem test_belt_not_taken : check (State.c (start) 1 false false false) 32 0x88400008 (fun t => t.delayedPc == none && t.pc == 0x104#32) = true := by decide

/-- V130 -/
theorem test_beq_taken : check (State.c (start) 1 true false false) 32 0x8C400008 (fun t => t.delayedPc == some 0x114#32 && t.pc == 0x104#32) = true := by decide

/-- V131 -/
theorem test_beq_not_taken : check (State.c (start) 1 false true true) 32 0x8C400008 (fun t => t.delayedPc == none && t.pc == 0x104#32) = true := by decide

/-- V132 -/
theorem test_bgt_taken : check (State.c (start) 1 false false false) 32 0x90400008 (fun t => t.delayedPc == some 0x114#32 && t.pc == 0x104#32) = true := by decide

/-- V133 -/
theorem test_bgt_not_taken : check (State.c (start) 1 true false false) 32 0x90400008 (fun t => t.delayedPc == none && t.pc == 0x104#32) = true := by decide

/-- V134 -/
theorem test_blt_taken : check (State.c (start) 1 false true false) 32 0x94400008 (fun t => t.delayedPc == some 0x114#32 && t.pc == 0x104#32) = true := by decide

/-- V135 -/
theorem test_blt_not_taken : check (State.c (start) 1 true true false) 32 0x94400008 (fun t => t.delayedPc == none && t.pc == 0x104#32) = true := by decide

/-- V136 -/
theorem test_bnc_taken : check (State.c (start) 1 true true false) 32 0x9C400008 (fun t => t.delayedPc == some 0x114#32 && t.pc == 0x104#32) = true := by decide

/-- V137 -/
theorem test_bnc_not_taken : check (State.c (start) 1 false false true) 32 0x9C400008 (fun t => t.delayedPc == none && t.pc == 0x104#32) = true := by decide

/-- V138 -/
theorem test_bne_taken : check (State.c (start) 1 false true true) 32 0x98400008 (fun t => t.delayedPc == some 0x114#32 && t.pc == 0x104#32) = true := by decide

/-- V139 -/
theorem test_bne_not_taken : check (State.c (start) 1 true false false) 32 0x98400008 (fun t => t.delayedPc == none && t.pc == 0x104#32) = true := by decide

/-- V149 -/
theorem test_jmp : check (start) 32 0xA8000100 (fun t => t.delayedPc == some 0x304#32) = true := by decide

/-- V153: 04h before 03h -/
theorem test_jmp_overflow : check ({ start with pc := 0xFFFFFFF8#32 }) 32 0xA8000005 (fun t => took 0x04#8 0xFFFFFFF8#32 t) = true := by decide

/-- V156: the link goes to PR31 -/
theorem test_jal : check (startIn 0x0E#8) 32 0xA0000010 (fun t => t.pr31 == 0x108#32 && t.delayedPc == some 0x124#32) = true := by decide

/-- V157 -/
theorem test_jal16 : check (start) 16 0xA010 (fun t => rd 31 t == 0x104#32 && t.delayedPc == some 0x122#32) = true := by decide

/-- V170: outside the protected range -/
theorem test_jmpr : check (State.r (fenced) 5 0x3000#32) 32 0xAC0000A0 (fun t => t.delayedPc == some 0x3000#32) = true := by decide

/-- V169 -/
theorem test_jmpr_illegal : check (State.r (fenced) 5 0x2000#32) 32 0xAC0000A0 (fun t => took 0x09#8 0x100#32 t) = true := by decide

/-- V166: the target is read before the link is written -/
theorem test_jalr : check (State.r (start) 31 0x3000#32) 32 0xA40003E0 (fun t => rd 31 t == 0x108#32 && t.delayedPc == some 0x3000#32) = true := by decide

/-- V167: no link is written -/
theorem test_jalr_misaligned : check (State.r (State.r (start) 5 0x2002#32) 31 0x55#32) 32 0xA40000A0 (fun t => took 0x03#8 0x100#32 t && rd 31 t == 0x55#32) = true := by decide

/-- V172 -/
theorem test_jump_in_slot : stops ({ start with delayedPc := some 0x200#32 }) 32 0xA8000004 .forbiddenInSlot = true := by decide

/-- V173 -/
theorem test_ld : check (State.writeData (State.r (start) 1 0x1000#32) 0x1004#32 0xDEADBEEF#32) 32 0xD0001022 (fun t => rd 2 t == 0xDEADBEEF#32) = true := by decide

/-- V178 -/
theorem test_ld_overflow : check (State.r (State.r (start) 1 0x3#32) 2 0x55#32) 32 0xD1FFF022 (fun t => took 0x08#8 0x100#32 t && rd 2 t == 0x55#32) = true := by decide

/-- V184 -/
theorem test_st : check (State.r (State.r (start) 1 0x2000#32) 2 0xFF#32) 32 0xD5FFF022 (fun t => t.dmem == [(0x1FFC, 0xFF#32)]) = true := by decide

/-- V182: INT_MASK keeps 12 bits -/
theorem test_st_ccb : check (State.r (State.r (start) 1 0x10012#32) 2 0xFFFFFFFF#32) 32 0xD4000022 (fun t => t.ccb.intMask == 0xFFF#12 && t.dmem == []) = true := by decide

/-- V200 -/
theorem test_mov_psr : check (startIn 0x0E#8) 32 0xD80003A2 (fun t => readSet true 2 t == 0x0E#32) = true := by decide

/-- V198: RSRD = 1, RSWR = 0 -/
theorem test_mov : check (writeSet true 1 0x1111#32 (State.r (startIn 0x0A#8) 1 0x2222#32)) 32 0xD8000022 (fun t => rd 2 t == 0x1111#32) = true := by decide

/-- V207 -/
theorem test_cop : check ({ start with ccb := { start.ccb with copConf := 0x00F8003#28 } }) 32 0xDFFFFFFF (fun t => t.outputs == [.copWrite 3 31 0x00FFFFFF#32]) = true := by decide

/-- V208 -/
theorem test_movtc : check (State.r (start) 1 0xDEADBEEF#32) 32 0xE4000831 (fun t => t.outputs == [.copWrite 2 17 0xDEADBEEF#32]) = true := by decide

/-- V209, but for the answer -/
theorem test_movfc : check (start) 32 0xE0000482 (fun t => t.outputs == [.copRead 1 4]) = true := by decide

/-- V210: no access -/
theorem test_movfc_false : check (State.c (start) 0 true false false) 32 0xE2300482 (fun t => t.outputs == [] && t.pc == 0x104#32) = true := by decide

/-- V219 -/
theorem test_chrs : check (startIn 0x1E#8) 32 0xE8000000 (fun t => t.psr.toByte == 0x18#8) = true := by decide

/-- V220 -/
theorem test_chrs_user : check (user) 32 0xE8000003 (fun t => took 0x02#8 0x100#32 t && t.ccb.exceptionPsr == 0x09#8) = true := by decide

/-- V222 -/
theorem test_di : check (startIn 0x1E#8) 32 0xEC000000 (fun t => t.psr.toByte == 0x0E#8 && t.diWindow) = true := by decide

/-- V225 -/
theorem test_ei : check (startIn 0x0E#8) 32 0xEC000001 (fun t => t.psr.toByte == 0x1E#8) = true := by decide

/-- V230 -/
theorem test_swm_to16 : check (start) 32 0xF0000010 (fun t => t.psr.toByte == 0x00#8 && t.pc == 0x10A#32) = true := by decide

/-- V232 -/
theorem test_swm_to32 : check ({ start with pc := 0x102#32 }) 16 0xF020 (fun t => t.psr.toByte == 0x08#8 && t.pc == 0x108#32) = true := by decide

/-- V233 -/
theorem test_swm_reserved : stops (start) 32 0xF0000008 .swmReserved = true := by decide

/-- V237: nested, the newest entry only -/
theorem test_reti : check ({ startIn 0x0E#8 with
      hwstack := [{ addr := 0x300#32, psr := 0x09#8, cr0 := 0b010#3 }, { addr := 0x120#32, psr := 0x1C#8, cr0 := 0b101#3 }]
      servOrder := [1, 4], ccb := { start.ccb with intServ := 0x012#12 } }) 32 0xF4000000 (fun t => t.pc == 0x300#32 && t.psr.toByte == 0x09#8 && flags 0 t == (false, true, false) && t.ccb.intServ == 0x010#12 && t.servOrder == [4] &&
      t.hwstack.length == 1 && t.outputs == []) = true := by decide

/-- V240 -/
theorem test_reti_empty : stops (startIn 0x0E#8) 32 0xF4000000 .retiEmptyStack = true := by decide

/-- V242 -/
theorem test_retu : check ({ startIn 0x0E#8 with spsr := 0xFFFFFFE6#32, pr31 := 0x400#32 }) 32 0xF4000001 (fun t => t.psr.toByte == 0x01#8 && t.pc == 0x400#32) = true := by decide

/-- V248 -/
theorem test_scall : check ({ startIn 0x1A#8 with spsr := 0xABCDEF00#32, ccb := { start.ccb with systemAddr := 0x800#32 } }) 32 0xF8000000 (fun t => t.spsr == 0xABCDEF1A#32 && t.pr31 == 0x108#32 && t.psr.toByte == 0x0E#8 && t.pc == 0x800#32) = true := by decide

/-- V252 -/
theorem test_trap : check ({ user with pc := 0x208#32, psr := Psr.ofByte 0x19#8 }) 32 0xFC000005 (fun t => took 0xE5#8 0x208#32 t && t.ccb.exceptionPsr == 0x19#8) = true := by decide

/-- V257: bits 31..24 ignored, all eight written -/
theorem test_rcon : check (State.c (State.c (State.r (start) 1 0xFF000005#32) 0 false true false) 7 true true true) 32 0x78000020 (fun t => flags 0 t == (true, false, true) && flags 7 t == (false, false, false)) = true := by decide

/-- V258 -/
theorem test_scon : check (State.c (State.c (State.c (State.r (start) 2 0xFFFFFFFF#32) 0 true false true) 1 false true false) 7 true true true) 32 0x7C000002 (fun t => rd 2 t == 0xE00015#32) = true := by decide

/-- V261 -/
theorem test_nop : check ({ start with mulHi := some 5#32 }) 32 0x00000000 (fun t => t.mulHi == none && t.pc == 0x104#32) = true := by decide

/-- V267: 05h before 00h -/
theorem test_fetch_misaligned : check ({ fenced with pc := 0x2002#32 }) 32 0x00000000 (fun t => took 0x05#8 0x2002#32 t) = true := by decide

/-- V263 -/
theorem test_fetch_protected : check ({ fenced with pc := 0x2000#32 }) 32 0x08000421 (fun t => took 0x00#8 0x2000#32 t) = true := by decide

/-- V269, its second step: the target is dropped -/
theorem test_slot_raises : check ({ State.r (State.r (State.r (start) 1 0x7FFFFFFF#32) 2 0x1#32) 31 0x108#32 with pc := 0x104#32, delayedPc := some 0x124#32 }) 32 0x04000823 (fun t => took 0x06#8 0x104#32 t && t.delayedPc == none && rd 31 t == 0x108#32) = true := by decide

/-! ## Interrupts and timers -/

/-- Source 5 with priority 2 before source 4 with priority 5, both pending and unmasked (I1 of `96_scenarios.md`). -/
def requested : State :=
  { startIn 0x18#8 with
    pc := 0x104#32
    acceptWait := some (5, 0)
    ccb := { start.ccb with
      intPend := 0x030#12, intMask := 0x030#12, extIntPri := 0x25#32, intModeUm := 0#12
      intVec := (start.ccb.intVec.set 4 0x800#32).set 5 0x900#32 } }

/-- I1, the entry after its first step. -/
theorem test_interrupt_entry : runs (step requested) (fun t =>
    t.pc == 0x900#32 && t.psr.toByte == 0x0E#8 && t.ccb.intServ == 0x020#12 && t.ccb.intPend == 0x010#12 &&
    t.servOrder == [5] && t.hwstack == [{ addr := 0x104#32, psr := 0x18#8, cr0 := 0#3 }] &&
    t.outputs == [.intAck 5]) = true := by decide

/-- R346: a source in service keeps a less urgent one waiting. -/
theorem test_interrupt_nesting :
    acceptable { requested with ccb := { requested.ccb with intServ := 0x020#12, intPend := 0x010#12 } } = none ∧
    acceptable { requested with ccb := { requested.ccb with intServ := 0x010#12, intPend := 0x020#12 } } = some 5 := by
  decide

/-- R377: count, reach the maximum, wrap; R376: the divider. -/
theorem test_timer_tick :
    timerTick true 2#32 { div := 0, cnt := 1#32, fired := false } = { div := 0, cnt := 2#32, fired := true } ∧
    timerTick true 2#32 { div := 0, cnt := 2#32, fired := false } = { div := 0, cnt := 0#32, fired := false } ∧
    timerTick false 2#32 { div := 0, cnt := 2#32, fired := false } = { div := 0, cnt := 2#32, fired := false } ∧
    timerCycle { en := true, cont := true, gint := false, wdog := false, intn := 0, div := 1 } 2#32
      { div := 0, cnt := 1#32, fired := false } = { div := 1, cnt := 1#32, fired := false } := by decide

/-! ## Parameters at other values, the guard distance, the pop -/

/-- R196: with SUB_CARRY the borrow, C of 0 - 1 is set; with N_ON_WRAP the exact sign, 7FFFFFFFh + 1 is not negative. -/
theorem test_flag_parameters : subCarry .borrow 0#32 1#32 = true ∧ subCarry .carryOut 0#32 1#32 = false ∧
    negative .exactSign (2 ^ 31) 0x80000000#32 = false ∧ negative .bit31 (2 ^ 31) 0x80000000#32 = true := by decide

/-- R85: the default image of Z alone is 100b; in a packing with C in bit 2 and Z in bit 0 it is 001b. -/
theorem test_image_parameter : ({ z := true, n := false, c := false } : Flags).image = 0b100#3 ∧
    Flags.imageIn { z := 0, n := 1, c := 2, c0Low := false } { z := true, n := false, c := false } = 0b001#3 := by decide

/-- R102: with a byte per address, the word at 101h has bytes 101h to 104h, in either order of the bytes. -/
theorem test_byte_unit : Memory.readWord (.byte true) [(0x100, 0x11223344#32)] 0x101#32 = 0x22334400#32 ∧
    Memory.readWord (.byte false) [(0x100, 0x11223344#32)] 0x101#32 = 0x00443322#32 ∧
    Memory.writeWord (.byte true) [(0x100, 0x11223344#32)] 0x102#32 0xAABBCCDD#32 =
      [(0x100, 0x1122AABB#32), (0x104, 0xCCDD0000#32)] := by decide

/-- R121: which stores touch the instruction byte at 102h. -/
theorem test_store_touches : storeTouches .cell 0x100#32 0x102#32 = true ∧ storeTouches .cell 0x102#32 0x102#32 = false ∧
    storeTouches (.byte true) 0xFF#32 0x102#32 = true ∧ storeTouches (.byte true) 0xFE#32 0x102#32 = false := by decide

/-- R415: a write of IMEM_BOUND_LO three instructions ago may be unseen by the fetch of the first slot, not of the second. -/
theorem test_slot_guards :
    lagging offImemBoundLo (guards (.slot 1)) [{ offset := offImemBoundLo, old := 7#32, age := 3 }] = [7#32] ∧
    lagging offImemBoundLo (guards (.slot 2)) [{ offset := offImemBoundLo, old := 7#32, age := 3 }] = [] := by decide

/-- Log 11: with three guards between, a write of MEM_CONF may be unseen by a jump, one of IMEM_BOUND_LO is
seen. -/
theorem test_jump_guards :
    lagging offMemConf (guards (confUse .jump)) [{ offset := offMemConf, old := 3#32, age := 4 }] = [3#32] ∧
    lagging offImemBoundLo (guards .jump) [{ offset := offImemBoundLo, old := 7#32, age := 4 }] = [] := by decide

/-- Log 21: `reti` at address 0 is not behind the last instruction of the address space. -/
theorem test_reti_follows :
    retiFollows { start with imem := [(0, 0xF4#8), (0x104, 0xF4#8)] } = true ∧
    retiFollows { start with pc := 0xFFFFFFFC#32, imem := [(0, 0xF4#8)] } = false := by decide

/-- Log 21: with an empty hardware stack a data exception in front of `reti` is an ordinary one. -/
theorem test_empty_stack_not_popped :
    runs (raiseData 0x08#8 { start with
      imem := [(0x104, 0xF4#8)], ccbInflight := [{ offset := offRetiPsr, old := 9#32, age := 1 }] })
      (fun t => t.ccbInflight == [{ offset := offRetiPsr, old := 9#32, age := 2 }] && t.pc == 0x40#32) = true := by decide

/-- Log 11: a pop forgets a write to RETI_PSR that is in flight, and no other. -/
theorem test_pop_forgets :
    (popStack { start with ccbInflight := [{ offset := offRetiPsr, old := 9#32, age := 1 },
      { offset := offExcepAddr, old := 0#32, age := 2 }] }).ccbInflight =
      [{ offset := offExcepAddr, old := 0#32, age := 2 }] := by decide

/-! ## Witnesses: the hypotheses of each statement, met together -/

/-- A reset with BOOT_SEL high, from a state that is not the reset state. -/
theorem witness_ResetLeaves : ∃ s t : State, t = coreReset s ∧ s.bootSel = true ∧ s.pc ≠ 0#32 ∧ t.pc = 0x80#32 :=
  ⟨{ user with bootSel := true, bootAddr := 0x80#32 }, _, rfl, by decide, by decide, by decide⟩

theorem witness_StepRunsDecoded :
    ∃ u, atBoundary (beforeBoundary (user.withFetchWord 32 0x04000823)) = .goOn u ∧ u.pc.toNat % u.ilen = 0 ∧
      (u.psr.um = true → instrAllowed .fetch u.pc u = true) ∧ u.psr.um = true ∧
      decodeBytes u.psr.width (u.codeBytes u.pc u.ilen) = .ok (.add .w32 3 1 2) ∧
      Instr.wf (.add .w32 3 1 2) = true :=
  ⟨_, rfl, by decide, by decide, by decide, by decide, by decide⟩

/-- IE set, and a request pending that is masked. -/
def quiet : State :=
  { start.withFetchWord 32 0x04000823 with
    psr := { psrSuper with ie := true }, ccb := { start.ccb with intPend := 0x010#12 }, inputs := [[], [.reset]] }

theorem witness_QuietStepAddsNothing :
    Settled quiet ∧ quiet.inputs.headD [] = [] ∧ quiet.ccb.tmrConf.getLsbD 15 = false ∧
    quiet.ccb.tmrConf.getLsbD 31 = false ∧
    ((quiet.psr.ie = false ∧ quiet.diWindow = false) ∨ quiet.ccb.intPend &&& quiet.ccb.intMask = 0#12) ∧
    quiet.pc.toNat % quiet.ilen = 0 ∧ quiet.psr.um = false ∧
    decodeBytes quiet.psr.width (quiet.codeBytes quiet.pc quiet.ilen) = .ok (.add .w32 3 1 2) ∧
    Instr.wf (.add .w32 3 1 2) = true :=
  ⟨rfl, by decide, by decide, by decide, .inr (by decide), by decide, by decide, by decide, by decide⟩

theorem witness_DecodeEncode : (Instr.st (.cex .nc 7#3) 31#5 0#5 (-256)).wf = true := by decide

theorem canAdvance_start : CanAdvance start := .inr (by decide)

/-- The highest pc from which execution goes on, and a slot at the very top whose target is pending. -/
theorem witness_CanAdvance : CanAdvance { start with pc := 0xFFFFFFF8#32 } ∧
    CanAdvance { start with pc := 0xFFFFFFFC#32, delayedPc := some 0#32 } ∧
    ¬CanAdvance { start with pc := 0xFFFFFFFC#32 } :=
  ⟨.inr (by decide), .inl rfl, fun h => by rcases h with h | h <;> revert h <;> decide⟩

theorem witness_ConditionCodes :
    executes (.cex (Cond.ofBits 0b111#3) 7#3) start = true ∧
    (executes (.cex (Cond.ofBits 0b000#3) 0#3) start = false ∧ start.delayedPc = none ∧ CanAdvance start) :=
  ⟨by decide, by decide, rfl, canAdvance_start⟩

theorem witness_RegisterSetsAndMove :
    start.psr.rsrd = false ∧ (startIn 0x0E#8).psr.rsrd = true ∧ (28#5 : Reg).toNat < 29 ∧
    executes .w32 start = true ∧ CanAdvance start := ⟨rfl, by decide, by decide, rfl, canAdvance_start⟩

/-- An instruction, and an interrupt that is taken. -/
theorem witness_boundaries : (∃ u, atBoundary (beforeBoundary start) = .goOn u) ∧
    ∃ s : State, atBoundary s = .taken 5 s := ⟨⟨_, rfl⟩, requested, by decide⟩

/-- Sums at both ends of the signed range. -/
theorem witness_AddChecked :
    executes .w32 (State.r start 1 0x7FFFFFFE#32) = true ∧ CanAdvance (State.r start 1 0x7FFFFFFE#32) ∧
    (let s := State.r (State.r start 1 0x7FFFFFFE#32) 2 1#32
     (-(2 : Int) ^ 31) ≤ (readX 1 s).toInt + (readX 2 s).toInt ∧ (readX 1 s).toInt + (readX 2 s).toInt < 2 ^ 31) ∧
    (let s := State.r start 1 0x80000001#32
     (-(2 : Int) ^ 31) ≤ (readX 1 s).toInt + (sext (-1)).toInt ∧ (readX 1 s).toInt + (sext (-1)).toInt < 2 ^ 31) ∧
    (-(2 : Int) ^ 31 ≤ -(2 : Int) ^ 31 ∧ (2 : Int) ^ 31 - 1 < 2 ^ 31) :=
  ⟨rfl, .inr (by decide), by decide, by decide, by decide⟩

theorem witness_AddWrapping : executes .w32 start = true ∧ CanAdvance start ∧ (32767 : Nat) < 2 ^ 15 :=
  ⟨rfl, canAdvance_start, by decide⟩

theorem witness_Subtract :
    let s := State.r (State.r start 1 0x80000001#32) 2 1#32
    executes .w32 s = true ∧ CanAdvance s ∧
    -(2 : Int) ^ 31 ≤ (readX 1 s).toInt - (readX 2 s).toInt ∧ (readX 1 s).toInt - (readX 2 s).toInt < 2 ^ 31 :=
  ⟨rfl, .inr (by decide), by decide, by decide⟩

/-- One above and one below the range, for each of the three, and an overflow that is seen in EXCEPTION_CS. -/
theorem witness_ArithmeticOverflow :
    (let s := State.r (State.r start 1 0x7FFFFFFF#32) 2 1#32
     executes .w32 s = true ∧ 2 ^ 31 - 1 < (readX 1 s).toInt + (readX 2 s).toInt) ∧
    (let s := State.r start 1 0x80000000#32
     executes .w32 s = true ∧ (readX 1 s).toInt + (sext (-1)).toInt < -(2 : Int) ^ 31) ∧
    (let s := State.r (State.r start 1 0x80000000#32) 2 1#32
     executes .w32 s = true ∧ (readX 1 s).toInt - (readX 2 s).toInt < -(2 : Int) ^ 31) ∧
    (let s := State.r start 1 0x7FFFFFFF#32
     s.ccb.exceptionCs ≠ 0x06#8 ∧ ∃ t, exec (.addi .w32 1 1 1) s = .next t ∧ t.ccb.exceptionCs = 0x06#8) :=
  ⟨by decide, by decide, by decide, by decide, _, rfl, by decide⟩

theorem witness_Multiply : executes .w32 start = true ∧ CanAdvance start ∧ -(2 : Int) ^ 14 ≤ -16384 ∧
    (16383 : Int) < (2 : Int) ^ 14 := ⟨rfl, canAdvance_start, by decide, by decide⟩

theorem witness_Mulhi :
    (executes .w32 start = true ∧ { start with mulHi := some 7#32 }.mulHi = some 7#32 ∧
      CanAdvance { start with mulHi := some 7#32 }) ∧
    start.mulHi = none ∧
    (∃ t, exec (.muls .w32 3 1 2) start = .next t ∧ t.mulHi ≠ none) :=
  ⟨⟨rfl, rfl, .inr (by decide)⟩, rfl, _, rfl, by decide⟩

theorem witness_BytesAndHalfwords : executes .w16 (startIn 0x00#8) = true ∧ CanAdvance (startIn 0x00#8) :=
  ⟨rfl, .inr (by decide)⟩

/-- Lengths 32 and 33, from a register and from the immediate. -/
theorem witness_ExtractField :
    executes .w32 start = true ∧ CanAdvance start ∧ start.psr.il = true ∧
    (readX 2 (State.r start 2 0x400#32)).toNat / 2 ^ 5 % 2 ^ 6 ≤ 32 ∧
    32 < (readX 2 (State.r start 2 0x420#32)).toNat / 2 ^ 5 % 2 ^ 6 ∧ (32#6).toNat ≤ 32 ∧ 32 < (33#6).toNat :=
  ⟨rfl, canAdvance_start, rfl, by decide, by decide, by decide, by decide⟩

theorem witness_LoadConstant : start.psr.il = true ∧ CanAdvance start := ⟨rfl, canAdvance_start⟩

theorem witness_SignExtend : executes (.cex .ne 0#3) start = true ∧ CanAdvance start := ⟨by decide, canAdvance_start⟩

theorem witness_BooleanOps : executes .w32 start = true ∧ CanAdvance start ∧ (32767 : Nat) < 2 ^ 15 :=
  ⟨rfl, canAdvance_start, by decide⟩

theorem witness_Shifts : executes .w32 start = true ∧ CanAdvance start := ⟨rfl, canAdvance_start⟩

theorem witness_Compare : CanAdvance start ∧ -(2 : Int) ^ 16 ≤ -65536 ∧ (65535 : Int) < (2 : Int) ^ 16 :=
  ⟨canAdvance_start, by decide, by decide⟩

theorem witness_CompareOrders : ∃ t, exec (.cmp .w32 2 1 2) (State.r start 1 0x80000000#32) = .next t := ⟨_, rfl⟩

/-- Targets 0 and FFFF FFFCh, in user mode with an allowed target, and a condition that is false. -/
theorem witness_Branches :
    (let s : State := { State.c user 1 true false false with pc := 0x10#32 }
     s.delayedPc = none ∧ CanAdvance s ∧ condTrue .eq (readCr 1 s) = true ∧
     0 ≤ (s.pc.toNat : Int) + s.ilen + 2 * (-10) ∧ (s.pc.toNat : Int) + s.ilen + 2 * (-10) < (2 : Int) ^ 32 ∧
     ((s.pc.toNat : Int) + s.ilen + 2 * (-10)) % s.ilen = 0 ∧
     (s.psr.um = true → instrAllowed .jump (BitVec.ofInt 32 ((s.pc.toNat : Int) + s.ilen + 2 * (-10))) s = true)) ∧
    (let s : State := { start with pc := 0xFFFFFFF4#32 }
     s.delayedPc = none ∧ CanAdvance s ∧ condTrue .ne (readCr 1 s) = true ∧
     0 ≤ (s.pc.toNat : Int) + s.ilen + 2 * 2 ∧ (s.pc.toNat : Int) + s.ilen + 2 * 2 < (2 : Int) ^ 32 ∧
     ((s.pc.toNat : Int) + s.ilen + 2 * 2) % s.ilen = 0 ∧
     (s.psr.um = true → instrAllowed .jump (BitVec.ofInt 32 ((s.pc.toNat : Int) + s.ilen + 2 * 2)) s = true)) ∧
    condTrue .eq (readCr 1 start) = false :=
  ⟨⟨rfl, .inr (by decide), by decide, by decide, by decide, by decide, by decide⟩,
    ⟨rfl, .inr (by decide), by decide, by decide, by decide, by decide, by decide⟩, by decide⟩

theorem witness_Jumps :
    (let s := start
     s.delayedPc = none ∧ CanAdvance s ∧ 0 ≤ (s.pc.toNat : Int) + s.ilen + 2 * (-2) ∧
     (s.pc.toNat : Int) + s.ilen + 2 * (-2) < (2 : Int) ^ 32 ∧ ((s.pc.toNat : Int) + s.ilen + 2 * (-2)) % s.ilen = 0 ∧
     (s.psr.um = true → instrAllowed .jump (BitVec.ofInt 32 ((s.pc.toNat : Int) + s.ilen + 2 * (-2))) s = true)) ∧
    (let s := State.r fenced 5 0x3000#32
     s.delayedPc = none ∧ CanAdvance s ∧ executes .w32 s = true ∧ (readX 5 s).toNat % s.ilen = 0 ∧
     (s.psr.um = true → instrAllowed .jump (readX 5 s) s = true)) :=
  ⟨⟨rfl, .inr (by decide), by decide, by decide, by decide, by decide⟩,
    ⟨rfl, .inr (by decide), rfl, by decide, by decide⟩⟩

/-- A target one halfword below 0, one at 2^32, a misaligned one and a protected one, PC relative and from a register. -/
theorem witness_TransferExceptions :
    ((start.pc.toNat : Int) + start.ilen + 2 * (-131) < 0 ∧ start.delayedPc = none) ∧
    (2 : Int) ^ 32 ≤ ({ start with pc := 0xFFFFFFF8#32 }.pc.toNat : Int) + start.ilen + 2 * 2 ∧
    (0 ≤ (start.pc.toNat : Int) + start.ilen + 2 * 1 ∧ ((start.pc.toNat : Int) + start.ilen + 2 * 1) % start.ilen ≠ 0) ∧
    (let s : State := { fenced with pc := 0x1FFC#32 }
     ((s.pc.toNat : Int) + s.ilen + 2 * 0) % s.ilen = 0 ∧ s.psr.um = true ∧
     instrAllowed .jump (BitVec.ofInt 32 ((s.pc.toNat : Int) + s.ilen + 2 * 0)) s = false) ∧
    (let s := State.r start 5 0x2002#32
     executes .w32 s = true ∧ (readX 5 s).toNat % s.ilen ≠ 0) ∧
    (let s := State.r fenced 5 0x2FFC#32
     executes .w32 s = true ∧ (readX 5 s).toNat % s.ilen = 0 ∧ s.psr.um = true ∧ instrAllowed .jump (readX 5 s) s = false) ∧
    condTrue .ne (readCr 0 start) = true :=
  ⟨⟨by decide, rfl⟩, by decide, ⟨by decide, by decide⟩, ⟨by decide, by decide, by decide⟩, ⟨rfl, by decide⟩,
    ⟨rfl, by decide, by decide, by decide⟩, by decide⟩

theorem witness_BranchSlot :
    let s : State := { start with delayedPc := some 0x200#32 }
    s.delayedPc = some 0x200#32 ∧
    ((Instr.retu .w32).notInSlot = true ∧ (∀ f, (Instr.retu .w32).condForm = some f → executes f s = true) ∧
      ((∃ w, Instr.retu .w32 = .retu w) → s.psr.um = false)) ∧
    ((Instr.scall .w32).notInSlot = true ∧ (∀ f, (Instr.scall .w32).condForm = some f → executes f s = true)) ∧
    (∃ t, exec (.nop .w32) s = .next t ∧ t.pc = 0x200#32) ∧ (∃ t, exec (.trap .w32 0) s = .next t ∧ t.pc = 0x40#32) :=
  ⟨rfl, ⟨rfl, fun f h => by simp [Instr.condForm] at h, fun _ => rfl⟩,
    ⟨rfl, fun f h => by cases h; rfl⟩, ⟨_, rfl, rfl⟩, _, rfl, by decide⟩

theorem witness_FalseCondition : (Instr.jmpr (.cex .eq 4#3) 5).condForm = some (.cex .eq 4#3) ∧
    executes (.cex .eq 4#3) start = false ∧ CanAdvance start := ⟨rfl, by decide, canAdvance_start⟩

/-- The first and the last address of each window, and the first above. -/
theorem witness_DataWindows :
    Settled start ∧ start.ccb.ccbBase.toNat % 256 = 0 ∧
    (start.ccb.ccbBase.toNat ≤ (0x100FF#32).toNat ∧ (0x100FF#32).toNat ≤ start.ccb.ccbBase.toNat + 255) ∧
    (¬(0x10100#32).toNat ≤ start.ccb.ccbBase.toNat + 255 ∧ start.ccb.pcbBase.toNat ≤ (0x10100#32).toNat ∧
      (0x101FF#32).toNat ≤ start.ccb.pcbEnd.toNat) ∧
    ¬(0x10200#32).toNat ≤ start.ccb.pcbEnd.toNat :=
  ⟨rfl, by decide, by decide, by decide, by decide⟩

theorem witness_DataProtection :
    (Settled fenced ∧ (0 : Int) ≤ 0 ∧ (2 ^ 32 - 1 : Int) < (2 : Int) ^ 32) ∧ start.psr.um = false ∧
    (fenced.psr.um = true ∧ fenced.ccb.memConf.getLsbD 1 = true) ∧
    (user.psr.um = true ∧ user.ccb.memConf.getLsbD 1 = false) ∧
    (let s : State := { user with ccb := Ccb.reset }
     s.psr.um = true ∧ s.ccb = Ccb.reset ∧ Settled s) :=
  ⟨⟨rfl, by decide, by decide⟩, rfl, by decide, by decide, ⟨rfl, rfl, rfl⟩⟩

/-- An access to memory, one to the last CCB offset and one to the last PCB address. -/
theorem witness_Load :
    (let s := State.r fenced 1 0x3000#32
     executes .w32 s = true ∧ CanAdvance s ∧ 0 ≤ ((readX 1 s).toNat : Int) + (-1 + 1) ∧
     ((readX 1 s).toNat : Int) + 0 < (2 : Int) ^ 32 ∧
     (s.psr.um = true → dataAllowed (BitVec.ofInt 32 (((readX 1 s).toNat : Int) + 0)) s = true) ∧
     windowOf (BitVec.ofInt 32 (((readX 1 s).toNat : Int) + 0)) s = .mem) ∧
    windowOf 0x100FF#32 start = .ccb 0xFF#8 ∧ windowOf 0x101FF#32 start = .pcb 0xFF#32 ∧
    windowOf 0xFFFFFFFF#32 start = .mem :=
  ⟨⟨rfl, .inr (by decide), by decide, by decide, by decide, by decide⟩, by decide, by decide, by decide⟩

theorem witness_Store :
    let s := State.r start 1 0x2000#32
    Canonical s ∧ executes .w32 s = true ∧ CanAdvance s ∧ 0 ≤ ((readX 1 s).toNat : Int) + (-4) ∧
    ((readX 1 s).toNat : Int) + (-4) < (2 : Int) ^ 32 ∧
    (s.psr.um = true → dataAllowed (BitVec.ofInt 32 (((readX 1 s).toNat : Int) + (-4))) s = true) ∧
    windowOf (BitVec.ofInt 32 (((readX 1 s).toNat : Int) + (-4))) s = .mem ∧
    windowOf 0x10100#32 s = .pcb 0x00#32 :=
  ⟨⟨rfl, rfl⟩, rfl, .inr (by decide), by decide, by decide, by decide, by decide, by decide⟩

/-- CCB_BASE with a bad and a good value, a narrow register, a read-only one, an unused offset. -/
theorem witness_StoreCcb :
    (let s := State.r (State.r start 1 0x10000#32) 2 0x20001#32
     executes .w32 s = true ∧ CanAdvance s ∧ 0 ≤ ((readX 1 s).toNat : Int) + 0 ∧
     ((readX 1 s).toNat : Int) + 0 < (2 : Int) ^ 32 ∧
     (s.psr.um = true → dataAllowed (BitVec.ofInt 32 (((readX 1 s).toNat : Int) + 0)) s = true) ∧
     windowOf (BitVec.ofInt 32 (((readX 1 s).toNat : Int) + 0)) s = .ccb 0#8 ∧ (readX 2 s).toNat % 256 ≠ 0) ∧
    (readX 2 (State.r start 2 0x20000#32)).toNat % 256 = 0 ∧
    (windowOf 0x1002A#32 start = .ccb 0x2A#8 ∧ ccbWidth 0x2A#8 ≠ 0) ∧
    (windowOf 0x10017#32 start = .ccb 0x17#8 ∧ ccbWidth 0x17#8 = 0) ∧
    (windowOf 0x100FF#32 start = .ccb 0xFF#8 ∧ ccbWidth 0xFF#8 = 0) ∧ start.hwstack = [] ∧
    { start with hwstack := [{ addr := 0#32, psr := 0#8, cr0 := 0#3 }] }.hwstack ≠ [] :=
  ⟨⟨rfl, .inr (by decide), by decide, by decide, by decide, by decide, by decide⟩, by decide, ⟨by decide, by decide⟩,
    ⟨by decide, by decide⟩, ⟨by decide, by decide⟩, rfl, by decide⟩

/-- 07h at the last protected address, 08h one below 0 and at 2^32. -/
theorem witness_DataExceptions :
    (let s := State.r fenced 1 0x2FFF#32
     executes .w32 s = true ∧ s.psr.um = true ∧
     dataAllowed (BitVec.ofInt 32 (((readX 1 s).toNat : Int) + 0)) s = false) ∧
    (let s := start
     executes .w32 s = true ∧ (s.psr.um = true → dataAllowed (BitVec.ofInt 32 (((readX 1 s).toNat : Int) + (-1))) s = true) ∧
     ((readX 1 s).toNat : Int) + (-1) < 0) ∧
    (let s := State.r start 1 0xFFFFFFFF#32
     executes .w32 s = true ∧ (2 : Int) ^ 32 ≤ ((readX 1 s).toNat : Int) + 1) :=
  ⟨by decide, by decide, by decide⟩

theorem witness_LoadAfterStore :
    let s := State.r (State.r (State.r start 1 0x2000#32) 2 7#32) 3 0x1FF0#32
    executes (.cex .ne 0#3) s = true ∧ Canonical s ∧ s.psr.um = false ∧ Settled s ∧ 0 ≤ ((readX 1 s).toNat : Int) + 0 ∧
    ((readX 1 s).toNat : Int) + 0 < (2 : Int) ^ 32 ∧ windowOf (BitVec.ofInt 32 (((readX 1 s).toNat : Int) + 0)) s = .mem ∧
    ∃ t, exec (.st (.cex .ne 0#3) 2 1 0) s = .next t ∧ executes .w32 t = true ∧
      ∃ u, exec (.ld .w32 4 3 16) t = .next u ∧
      0 ≤ ((readX 3 t).toNat : Int) + 16 ∧ ((readX 3 t).toNat : Int) + 16 < (2 : Int) ^ 32 ∧
      windowOf (BitVec.ofInt 32 (((readX 3 t).toNat : Int) + 16)) s = .mem ∧ ¬(s.psr.rswr = true ∧ (4#5 : Reg) = 29#5) :=
  ⟨by decide, ⟨rfl, rfl⟩, rfl, rfl, by decide, by decide, by decide, _, rfl, rfl, _, rfl, by decide, by decide, by decide,
    by decide⟩

theorem witness_Coprocessor : CanAdvance start ∧ start.psr.il = true ∧ Settled start ∧ executes .w32 start = true :=
  ⟨canAdvance_start, rfl, rfl, rfl⟩

theorem witness_NopAndConditionRegisters : CanAdvance start := canAdvance_start

theorem witness_StatusInstructions : start.psr.um = false ∧ CanAdvance start := ⟨rfl, canAdvance_start⟩

theorem witness_IllegalInstruction : user.psr.um = true ∧ (startIn 0x00#8).psr.il = false ∧
    (0x4400#16).toNat / 2 ^ 10 = 0x11 ∧ (0x4FFF#16).toNat / 2 ^ 10 = 0x13 ∧ (0xDC00#16).toNat / 2 ^ 10 = 0x37 := by decide

theorem slotOk_start (n : Nat) (h : n ≤ 3) : SlotOk n start := by
  have : n = 0 ∨ n = 1 ∨ n = 2 ∨ n = 3 := by omega
  rcases this with rfl | rfl | rfl | rfl <;> exact ⟨by decide, rfl, fun h => by cases h⟩

theorem witness_SwitchMode :
    start.delayedPc = none ∧ SlotOk 1 start ∧
    ((16#6).toNat = 16 ∧ start.pc.toNat + 2 * start.ilen + 2 < 2 ^ 32 ∧
      NopAt .w16 (BitVec.ofNat 32 (start.pc.toNat + 2 * start.ilen)) start) ∧
    ((32#6).toNat = 32 ∧ (start.pc.toNat + 2 * start.ilen) / 4 * 4 + 4 < 2 ^ 32 ∧
      NopAt .w32 (BitVec.ofNat 32 ((start.pc.toNat + 2 * start.ilen) / 4 * 4)) start) ∧
    (start.psr.um = false) ∧ (8#6).toNat ≠ 16 ∧ (8#6).toNat ≠ 32 :=
  ⟨rfl, slotOk_start 1 (by decide), ⟨rfl, by decide, rfl⟩, ⟨rfl, by decide, rfl⟩, rfl, by decide, by decide⟩

/-- A state inside the service of source 4. -/
def serving : State :=
  { start with
    hwstack := [{ addr := 0x120#32, psr := 0x1C#8, cr0 := 0b101#3 }], servOrder := [4]
    ccb := { start.ccb with intServ := 0x010#12 } }

theorem witness_ReturnFromInterrupt :
    serving.delayedPc = none ∧ serving.hwstack ≠ [] ∧ Settled serving ∧
    serving.hwstack = { addr := 0x120#32, psr := 0x1C#8, cr0 := 0b101#3 } :: [] ∧ serving.servOrder = 4 :: [] ∧
    SlotOk 1 serving ∧ SlotOk 2 serving ∧ SlotOk 3 serving ∧ start.hwstack = [] :=
  ⟨rfl, by decide, rfl, rfl, rfl, ⟨by decide, rfl, fun h => by cases h⟩, ⟨by decide, rfl, fun h => by cases h⟩,
    ⟨by decide, rfl, fun h => by cases h⟩, rfl⟩

theorem witness_ReturnToUser : start.psr.um = false ∧ start.delayedPc = none ∧ SlotOk 1 start :=
  ⟨rfl, rfl, slotOk_start 1 (by decide)⟩

/-- From user mode, with a write of SPSR just before in another state. -/
theorem witness_SystemCall :
    (executes .w32 user = true ∧ user.delayedPc = none ∧ SlotOk 1 user ∧ Settled user ∧ user.spsrInflight = []) ∧
    (let s : State := { start with spsrInflight := [{ old := 0xFFFFFFFF#32, age := 1 }] }
     SlotOk 1 s ∧ Settled s) :=
  ⟨⟨rfl, rfl, ⟨by decide, rfl, fun _ => by decide⟩, rfl, rfl⟩, ⟨by decide, rfl, fun h => by cases h⟩, rfl⟩

/-- `serving` with `addi` in the `n`-th slot of an instruction at 100h. -/
def badSlot (n : Nat) : State := { serving with imem := [(0x100 + 4 * n, 0x08#8)] }

theorem slotNotNop_badSlot : SlotNotNop 1 (badSlot 1) ∧ SlotNotNop 3 (badSlot 3) :=
  ⟨⟨by decide, by show ¬(badSlot 1).codeBytes _ 4 = _; decide, by decide⟩,
    ⟨by decide, by show ¬(badSlot 3).codeBytes _ 4 = _; decide, by decide⟩⟩

/-- The first slot, and the last slot of `reti` and of `swm` behind good ones. -/
theorem witness_SlotMustBeNop :
    (badSlot 1).delayedPc = none ∧ SlotNotNop 1 (badSlot 1) ∧ (badSlot 1).hwstack ≠ [] ∧ (badSlot 1).psr.um = false ∧
    executes .w32 (badSlot 1) = true ∧
    (SlotNotNop 3 (badSlot 3) ∧ SlotOk 1 (badSlot 3) ∧ SlotOk 2 (badSlot 3)) ∧
    (SlotOk 1 (badSlot 2) ∧ (badSlot 2).pc.toNat + 2 * (badSlot 2).ilen < 2 ^ 32 ∧
      ((badSlot 2).pc.toNat + 2 * (badSlot 2).ilen) / 4 * 4 < 2 ^ 32 ∧
      ¬NopAt .w16 (BitVec.ofNat 32 ((badSlot 2).pc.toNat + 2 * (badSlot 2).ilen)) (badSlot 2) ∧
      ¬NopAt .w32 (BitVec.ofNat 32 (((badSlot 2).pc.toNat + 2 * (badSlot 2).ilen) / 4 * 4)) (badSlot 2)) :=
  ⟨rfl, slotNotNop_badSlot.1, by decide, rfl, rfl,
    ⟨slotNotNop_badSlot.2, ⟨by decide, rfl, fun h => by cases h⟩, ⟨by decide, rfl, fun h => by cases h⟩⟩,
    ⟨by decide, rfl, fun h => by cases h⟩, by decide, by decide,
    by show ¬(badSlot 2).codeBytes _ 2 = _; decide, by show ¬(badSlot 2).codeBytes _ 4 = _; decide⟩

theorem witness_ExceptionEntry : Settled start ∧ (0x05#8 : BitVec 8) ≠ 0x02#8 := ⟨rfl, by decide⟩

/-- The last: protection inside the bounds, outside them, and as reset leaves it. -/
theorem witness_FetchExceptions :
    { start with pc := 0x102#32 }.pc.toNat % start.ilen ≠ 0 ∧
    (let s : State := { fenced with pc := 0x2000#32 }
     s.pc.toNat % s.ilen = 0 ∧ s.psr.um = true ∧ instrAllowed .fetch s.pc s = false) ∧
    (let s := (startIn 0x00#8).withFetchWord 16 0x4C00
     s.pc.toNat % s.ilen = 0 ∧ (s.psr.um = true → instrAllowed .fetch s.pc s = true) ∧
     decodeBytes s.psr.width (s.codeBytes s.pc s.ilen) = .illegal16) ∧
    (Settled fenced ∧ fenced.ccb.memConf.getLsbD 0 = true ∧ instrAllowed .jump 0x1FFF#32 fenced = true ∧
      instrAllowed .jump 0x2000#32 fenced = false) ∧
    (Settled user ∧ user.ccb.memConf.getLsbD 0 = false) ∧
    (let s : State := { user with ccb := Ccb.reset }
     Settled s ∧ s.ccb = Ccb.reset) :=
  ⟨by decide, by decide, by decide, ⟨rfl, by decide, by decide, by decide⟩, ⟨rfl, by decide⟩, rfl, rfl⟩

/-- The state of `test_interrupt_entry`, whose acceptable source is 5. -/
theorem witness_AcceptableRequest :
    Settled requested ∧ requested.extHandler = false ∧ acceptable requested = some 5 ∧
    { requested with extHandler := true }.extHandler = true ∧
    ∃ rank : Source → Nat, ∀ x, rank x = 12 * (if x.val < 4 then requested.ccb.copIntPri.toNat / 2 ^ (4 * x.val) % 16
        else if requested.extHandler then 15 else requested.ccb.extIntPri.toNat / 2 ^ (4 * (x.val - 4)) % 16) + x.val :=
  ⟨rfl, rfl, by decide, rfl, _, fun _ => rfl⟩

/-- Taken, declined once more, newly acceptable, acceptable after another source, blocked, and nothing acceptable. -/
theorem witness_InterruptBoundary :
    (∃ u, atBoundary requested = .taken 5 u) ∧
    (acceptable requested = some 5 ∧ requested.intBlock = false ∧ requested.delayedPc = none ∧
      requested.acceptWait = some (5, 0)) ∧
    (let s : State := { requested with acceptWait := some (5, 0 + 1) }
     acceptable s = some 5 ∧ s.intBlock = false ∧ s.delayedPc = none ∧ s.acceptWait = some (5, 0 + 1)) ∧
    (let s : State := { requested with acceptWait := none }
     acceptable s = some 5 ∧ s.intBlock = false ∧ s.delayedPc = none ∧ ∀ m, s.acceptWait ≠ some (5, m)) ∧
    (let s : State := { requested with acceptWait := some (4, 0) }
     acceptable s = some 5 ∧ s.intBlock = false ∧ s.delayedPc = none ∧ ∀ m, s.acceptWait ≠ some (5, m)) ∧
    (let s : State := { requested with delayedPc := some 0#32 }
     acceptable s = some 5 ∧ s.delayedPc ≠ none) ∧
    acceptable start = none :=
  ⟨⟨_, rfl⟩, by decide, by decide, ⟨by decide, rfl, rfl, fun m h => by cases h⟩,
    ⟨by decide, rfl, rfl, fun m h => by revert h; simp⟩, ⟨by decide, by decide⟩, by decide⟩

/-- The last entry that fits and the first that does not, and an external handler. -/
theorem witness_InterruptEntry :
    (let s : State := { requested with hwstack := List.replicate 11 { addr := 0#32, psr := 0#8, cr0 := 0#3 } }
     Settled s ∧ s.hwstack.length < 12) ∧
    (let s : State := { requested with hwstack := List.replicate 12 { addr := 0#32, psr := 0#8, cr0 := 0#3 } }
     Settled s ∧ 12 ≤ s.hwstack.length) ∧
    (requested.extHandler = false ∨ (3 : Source).val < 4) ∧ { requested with extHandler := true }.extHandler = true ∧
    4 ≤ (4 : Source).val :=
  ⟨⟨rfl, by decide⟩, ⟨rfl, by decide⟩, .inl rfl, rfl, by decide⟩

/-- A request with an external handler, and another master that owns the bus over a memory that is not empty. -/
theorem witness_RequestCapture :
    (∃ t, t = applyEvent (.request 4 0x55#8) { start with extHandler := true } ∧
      { start with extHandler := true }.extHandler = true) ∧
    (start.extHandler = false ∨ (3 : Source).val < 4) ∧
    (let s : State := { start with busToken := .external, dmem := [(0x2000, 1#32)] }
     Canonical s ∧ s.busToken = .external ∧ (applyEvent (.masterWrite 0x2004#32 7#32) s).dmem ≠ s.dmem) ∧
    (Canonical start ∧ start.busToken = .core) ∧ start.inputs = [] ∧
    { start with inputs := [[.busRequest, .masterWrite 0#32 7#32], [.reset]] }.inputs =
      [.busRequest, .masterWrite 0#32 7#32] :: [[.reset]] :=
  ⟨⟨_, rfl, rfl⟩, .inl rfl, ⟨⟨by decide, by decide⟩, rfl, by decide⟩, ⟨⟨rfl, rfl⟩, rfl⟩, rfl, rfl⟩

/-- The same events in their order: the write comes after the request for the bus. -/
theorem test_events_in_order :
    (applyInputs { start with inputs := [[.busRequest, .masterWrite 0#32 7#32], [.reset]] }).dmem = [(0, 7#32)] ∧
    (applyInputs { start with inputs := [[.masterWrite 0#32 7#32, .busRequest]] }).dmem = [] := by decide

/-- Timer 0 continuous at the highest MAX with GINT and DIV = 0. -/
def timer0Top : State :=
  { start with ccb := { start.ccb with tmrConf := 0x0000E100#32, tmr0Cnt := 0xFFFFFFFF#32, tmr0Max := 0xFFFFFFFF#32 } }

/-- Timer 1 one-shot just below MAX with DIV = 255. -/
def timer1Once : State :=
  { start with ccb := { start.ccb with tmrConf := 0xA0FF0000#32, tmr1Cnt := 4#32, tmr1Max := 5#32 } }

/-- Both timers, both modes, and a disabled timer; what ticks do to a count at, just below and above MAX. -/
theorem witness_TimerPeriod :
    (Settled timer0Top ∧ tmrBit false 12 timer0Top = false ∧ tmrBit true 12 timer0Top = false ∧
      tmrBit false 15 timer0Top = true ∧ tmrBit false 14 timer0Top = true ∧ tmrBit false 13 timer0Top = true ∧
      tmrCnt false timer0Top ≤ tmrMax false timer0Top ∧
      (tmrBit (!false) 15 timer0Top = false ∨ tmrBit (!false) 13 timer0Top = false)) ∧
    (Settled timer1Once ∧ tmrBit false 12 timer1Once = false ∧ tmrBit true 12 timer1Once = false ∧
      tmrBit true 15 timer1Once = true ∧ tmrBit true 14 timer1Once = false ∧ tmrField true 0 8 timer1Once = 255 ∧
      tmrCnt true timer1Once ≤ tmrMax true timer1Once) ∧
    tmrBit false 15 start = false :=
  ⟨⟨rfl, by decide⟩, ⟨rfl, by decide⟩, by decide⟩

/-- R377: round, stop, and from above the maximum through zero. -/
theorem test_count_after :
    tmrAfter false 1 timer0Top = 0 ∧ tmrAfter true 3 timer1Once = 5 ∧ countAfter true 5 7 1 = 8 ∧
    countAfter true 5 0xFFFFFFFE 3 = 1 ∧ countAfter false 5 0xFFFFFFFE 9 = 5 := by decide

/-- Timer 0 a watchdog one count below MAX with DIV = 0, beside an enabled timer 1. -/
def watchdog0 : State :=
  { start with ccb := { start.ccb with tmrConf := 0x80059000#32, tmr0Cnt := 0#32, tmr0Max := 1#32 } }

/-- Timer 1 a one-shot watchdog that stands at MAX, beside an enabled timer 0 with GINT, one below MAX. -/
def watchdog1 : State :=
  { start with ccb := { start.ccb with
      tmrConf := 0x9003A700#32, tmr1Cnt := 1#32, tmr1Max := 1#32, tmr0Cnt := 5#32, tmr0Max := 6#32 } }

theorem watchdog0_reaches : TmrReaches false watchdog0 := by
  refine ⟨by decide, 0, ?_, by decide, .inr (by decide)⟩
  show 0 < (min (0 : Nat) 0 + (Config.extraCycles _ + 1)) / (0 + 1)
  rw [Nat.div_one]
  exact Nat.succ_pos _

theorem watchdog1_stands : ¬TmrReaches true watchdog1 := by
  rintro ⟨-, k, -, -, h | h⟩
  · revert h; decide
  · refine h ?_
    show min (1 + k) 1 = 1
    omega

/-- Both timers as watchdogs, one that reaches its maximum and one that does not. -/
theorem witness_Watchdog :
    (Settled watchdog0 ∧ tmrBit false 12 watchdog0 = true ∧ TmrReaches false watchdog0) ∧
    (Settled watchdog1 ∧ (∀ one, tmrBit one 12 watchdog1 = true → ¬TmrReaches one watchdog1) ∧
      tmrBit true 12 watchdog1 = true ∧ tmrBit false 15 watchdog1 = true ∧ tmrBit false 13 watchdog1 = true) ∧
    tmrBit false 15 start = false :=
  ⟨⟨rfl, by decide, watchdog0_reaches⟩,
    ⟨rfl, fun one h => by
      cases one
      · exact absurd h (by decide)
      · exact watchdog1_stands, by decide, by decide, by decide⟩, by decide⟩

/-- A write just outside the distance of a data access, and one inside it. -/
theorem witness_GuardDistance :
    (∀ w ∈ [CcbWrite.mk offMemConf 3#32 2], w.offset = offMemConf → guards .dataAccess < w.age) ∧
    ¬(∀ w ∈ [CcbWrite.mk offMemConf 3#32 1], w.offset = offMemConf → guards .dataAccess < w.age) := by decide

/-- A store, whose step goes on. -/
theorem witness_MemoryStaysCanonical :
    ∃ s t, Canonical s ∧ s.dmem ≠ [] ∧ step s = .next t :=
  ⟨{ (State.r (State.r start 1 0x2000#32) 2 7#32).withFetchWord 32 0xD4000022 with dmem := [(0x2000, 1#32)] }, _,
    ⟨by decide, by decide⟩, by decide, rfl⟩

theorem serviceInv_serving : ServiceInv serving :=
  ⟨by show ∀ src : Source, serving.ccb.intServ.getLsbD src.val = true ↔ src ∈ [(4 : Source)]; decide,
    by show [(4 : Source)].Nodup; decide, by decide⟩

theorem witness_ServiceStaysInOrder : ∃ s t, ServiceInv s ∧ s.servOrder ≠ [] ∧ step s = .next t :=
  ⟨serving.withFetchWord 32 0xF4000000, _,
    ⟨serviceInv_serving.mirror, serviceInv_serving.nodup, serviceInv_serving.depth⟩, by decide, rfl⟩

/-- `reti` to a user image. -/
theorem witness_UserModeUsesSet1 : ∃ s t, SetsLegal s.psr ∧ ImagesLegal s ∧ step s = .next t ∧ t.psr.um = true := by
  refine ⟨{ serving with hwstack := [{ addr := 0x120#32, psr := 0x19#8, cr0 := 0#3 }] }.withFetchWord 32 0xF4000000, _,
    fun h => ?_, ⟨fun e he => ?_, fun _ => ⟨by decide, by decide⟩, fun w hw => ?_⟩, rfl, by decide⟩
  · revert h; decide
  · have : e ∈ [StackEntry.mk 0x120#32 0x19#8 0#3] := he
    rw [List.mem_singleton] at this
    subst this
    exact fun _ => ⟨by decide, by decide⟩
  · have : w ∈ ([] : List CcbWrite) := hw
    cases this

/-- The other conclusion: a `st` of 1Fh to RETI_PSR that is executed. -/
theorem witness_StoresIllegalImage :
    StoresIllegalImage ((State.r (State.r start 1 0x10029#32) 2 0x1F#32).withFetchWord 32 0xD4000022) :=
  ⟨_, .w32, 2, 1, 0, rfl, by decide, (fun h => by cases h), by decide, rfl, by decide, by decide,
    fun h => by revert h; unfold SetsLegal; decide⟩

theorem witness_PsrWriters : ∃ t, exec (.trap .w32 5) user = .next t ∧ t.psr ≠ user.psr := ⟨_, rfl, by decide⟩

/-- Out of user mode by `scall` and by an exception, into it by `retu`. -/
theorem witness_ModeTransitions :
    (Settled user ∧ ∃ t, exec (.scall .w32) user = .next t ∧ user.psr.um = true ∧ t.psr.um = false) ∧
    (∃ t, exec (.di .w32) user = .next t ∧ t.psr.um = false) ∧
    (Settled start ∧ ∃ t, exec (.retu .w32) start = .next t ∧ start.psr.um = false ∧ t.psr.um = true) :=
  ⟨⟨rfl, _, rfl, rfl, by decide⟩, ⟨_, rfl, by decide⟩, rfl, _, rfl, rfl, by decide⟩

theorem witness_UserModeIgnoresSet2 :
    user.psr.um = true ∧ SetsLegal user.psr ∧ (∀ f, Instr.mov .w32 30 1 ≠ .scall f) ∧
    ∃ t, exec (.mov .w32 30 1) user = .next t :=
  ⟨rfl, fun _ => ⟨rfl, rfl⟩, (fun _ h => nomatch h), _, rfl⟩

/-- Two data memories that differ in one protected cell, and a store and a load beside it. -/
theorem witness_UserModeIsolation :
    let s : State := { State.r (State.r fenced 1 0x3000#32) 2 9#32 with dmem := [(0x2000, 1#32), (0x3000, 2#32)] }
    let m := [(0x2000, 5#32), (0x3000, 2#32)]
    Canonical s ∧ Memory.wf m = true ∧ s.psr.um = true ∧
    (∀ a, dataAllowed a s = true → Memory.read m a.toNat = s.readData a) ∧
    m ≠ s.dmem ∧ (∃ t, exec (.st .w32 2 1 0) s = .next t ∧ t.dmem = [(0x2000, 1#32), (0x3000, 9#32)]) ∧
    ∃ t, exec (.ld .w32 3 1 0) s = .next t ∧ readSet false 3 t = 2#32 := by
  refine ⟨⟨by decide, by decide⟩, by decide, rfl, fun a h => ?_, by decide, ⟨_, rfl, by decide⟩, _, rfl, by decide⟩
  by_cases ha : a.toNat = 0x2000
  · have : a = 0x2000#32 := BitVec.eq_of_toNat_eq ha
    subst this
    revert h; decide
  · simp [Memory.read, readData_eq, Ne.symm ha]


end Sys2Proof.Tests
end

/-! SUPPORT. The statements of `00_scope.md` R10: what a step is whose boundary goes on, and what it is when nothing is
due. -/

namespace Sys2Proof.Machine

/-! ## Fetch -/

/-- With the default IMEM_SHARED no fetch meets a stored location (R121; log 2). -/
theorem codeModified_eq_false (s : State) (a : Word) (n : Nat) : s.codeModified a n = false := rfl

/-- The bytes of an instruction depend on nothing but instruction memory (log 2). -/
theorem codeBytes_congr {s t : State} (h : t.imem = s.imem) (a : Word) (n : Nat) :
    t.codeBytes a n = s.codeBytes a n := by
  induction n generalizing a with
  | zero => rfl
  | succ n ih => simp only [State.codeBytes, readCode_eq, h, ih]

/-- What is fetched depends on nothing but PSR, pc and instruction memory. -/
theorem decoded_congr {s t : State} (hpsr : t.psr = s.psr) (hpc : t.pc = s.pc) (hmem : t.imem = s.imem) :
    decodeBytes t.psr.width (t.codeBytes t.pc t.ilen) = decodeBytes s.psr.width (s.codeBytes s.pc s.ilen) := by
  simp only [State.ilen, hpsr, hpc, codeBytes_congr hmem]

/-- When a fetch raises nothing: alignment, and protection in user mode only (R111, R117). -/
theorem fetchFault_eq_none_iff (s : State) :
    fetchFault s = none ↔
      s.pc.toNat % s.ilen = 0 ∧ (s.psr.um = true → instrAllowed .fetch s.pc s = true) := by
  unfold fetchFault
  by_cases ha : s.pc.toNat % s.ilen = 0
  · cases hum : s.psr.um
    · simp [ha]
    · cases hp : instrAllowed .fetch s.pc s <;> simp [ha]
  · simp [ha]

/-- A fetch that raises nothing gives what the bytes at pc decode to. -/
theorem fetch_of_decodes {s : State} {i : Instr} (hf : fetchFault s = none)
    (hd : decodeBytes s.psr.width (s.codeBytes s.pc s.ilen) = .ok i) : fetch s = .ok i := by
  simp only [fetch, hf, codeModified_eq_false, hd, Bool.false_eq_true, if_false]

theorem runInstruction_of_fetch {s : State} {i : Instr} (h : fetch s = .ok i) : runInstruction s = exec i s := by
  simp only [runInstruction, h]

theorem step_of_goOn {s u : State} (h : atBoundary (beforeBoundary s) = .goOn u) : step s = runInstruction u := by
  simp only [step, h]

/-- R10 (2) to (7), where the fetch raises nothing and the bytes are an instruction. -/
theorem step_eq_exec {s u : State} {i : Instr} (hb : atBoundary (beforeBoundary s) = .goOn u)
    (ha : u.pc.toNat % u.ilen = 0) (hp : u.psr.um = true → instrAllowed .fetch u.pc u = true)
    (hd : decodeBytes u.psr.width (u.codeBytes u.pc u.ilen) = .ok i) : step s = exec i u := by
  rw [step_of_goOn hb]
  exact runInstruction_of_fetch (fetch_of_decodes ((fetchFault_eq_none_iff u).2 ⟨ha, hp⟩) hd)

/-! ## Byte order -/

/-- Two parts joined: the first is the upper one. -/
theorem toNat_append_eq {m n : Nat} (x : BitVec m) (y : BitVec n) :
    (x ++ y).toNat = 2 ^ n * x.toNat + y.toNat := by
  rw [BitVec.toNat_append, Nat.shiftLeft_eq, Nat.mul_comm, Nat.two_pow_add_eq_or_of_lt y.isLt]

/-- R113: the word at an address has the byte there on top. -/
theorem append_four_bytes (b0 b1 b2 b3 : Byte) :
    b0 ++ b1 ++ b2 ++ b3 =
      BitVec.ofNat 32 (2 ^ 24 * b0.toNat + 2 ^ 16 * b1.toNat + 2 ^ 8 * b2.toNat + b3.toNat) := by
  apply BitVec.eq_of_toNat_eq
  simp only [toNat_append_eq, BitVec.toNat_ofNat]
  omega

theorem append_two_bytes (b0 b1 : Byte) : b0 ++ b1 = BitVec.ofNat 16 (2 ^ 8 * b0.toNat + b1.toNat) := by
  apply BitVec.eq_of_toNat_eq
  simp only [toNat_append_eq, BitVec.toNat_ofNat]
  omega

theorem decodeBytes_w32 (b0 b1 b2 b3 : Byte) :
    decodeBytes .w32 [b0, b1, b2, b3] =
      decode32 (BitVec.ofNat 32 (2 ^ 24 * b0.toNat + 2 ^ 16 * b1.toNat + 2 ^ 8 * b2.toNat + b3.toNat)) :=
  congrArg decode32 (append_four_bytes b0 b1 b2 b3)

theorem decodeBytes_w16 (b0 b1 : Byte) :
    decodeBytes .w16 [b0, b1] = decode16 (BitVec.ofNat 16 (2 ^ 8 * b0.toNat + b1.toNat)) :=
  congrArg decode16 (append_two_bytes b0 b1)

/-- Settles O2: the step by the lemma on an undisturbed fetch, the order of the bytes by `codeBytes_getElem?`, and the
word they make by appending them, the first on top. -/
theorem stepRunsDecoded : Obligations.StepRunsDecoded := by
  refine ⟨fun s u i hb ha hp hd _ => step_eq_exec hb ha hp hd, codeBytes_getElem?, fun b0 b1 b2 b3 => ?_⟩
  exact ⟨decodeBytes_w32 b0 b1 b2 b3, decodeBytes_w16 b0 b1⟩

/-! ## Before a boundary where nothing is due -/

/-- With no event due the environment's turn only uses up the head of the schedule (log 17). -/
theorem applyInputs_of_noneDue {s : State} (h : s.inputs.headD [] = []) :
    applyInputs s = { s with inputs := s.inputs.tail } := by
  cases hi : s.inputs with
  | nil => simp only [applyInputs, hi, List.tail_nil]; rw [← hi]
  | cons es rest =>
    rw [hi] at h
    obtain rfl : es = [] := h
    simp only [applyInputs, hi, applyEvents, List.tail_cons]

/-- A disabled timer loses its divider count (R376). -/
theorem runTimer_of_disabled {one : Bool} {s : State} (h : (timerConf one s).en = false) :
    runTimer one s = setDivider one 0 s := by
  simp only [runTimer, h, Bool.false_eq_true, if_false]

theorem timerFires_of_disabled {one : Bool} {s : State} (h : (timerConf one s).en = false) :
    timerFires one s = false := by
  simp only [timerFires, h, Bool.false_and]

theorem timerRequest_of_disabled {one : Bool} {b : State} (h : (timerConf one b).en = false) (s : State) :
    timerRequest one b s = s := by
  simp only [timerRequest, timerFires_of_disabled h, Bool.false_and, Bool.false_eq_true, if_false]

/-- What a timer is configured to do does not depend on a divider count. -/
theorem timerConf_setDivider (one two : Bool) (d : BitVec 8) (s : State) :
    timerConf one (setDivider two d s) = timerConf one s := by
  cases two <;> exact congrArg (fun v : Word => decodeTimerConf (v.extractLsb' _ 16)) (seen_congr rfl rfl rfl rfl rfl _ _)

/-- With both timers disabled their turn zeroes the dividers. -/
theorem tickTimers_of_disabled {s : State} (hs : Settled s) (h0 : s.ccb.tmrConf.getLsbD 15 = false)
    (h1 : s.ccb.tmrConf.getLsbD 31 = false) : tickTimers s = { s with tmr0Div := 0#8, tmr1Div := 0#8 } := by
  have en0 : (timerConf false s).en = false := (timerConf_settled hs false).1.trans h0
  have en1 : (timerConf true s).en = false := (timerConf_settled hs true).1.trans h1
  have en1' : (timerConf true (setDivider false 0 s)).en = false := by rw [timerConf_setDivider, en1]
  have hw : (watchdogFires false s || watchdogFires true s) = false := by
    simp only [watchdogFires, timerFires_of_disabled en0, timerFires_of_disabled en1, Bool.false_and, Bool.or_self]
  unfold tickTimers
  rw [hw, timerRequest_of_disabled en1, timerRequest_of_disabled en0, runTimer_of_disabled en0,
    runTimer_of_disabled en1']
  rfl

/-- The state that a boundary with nothing due is decided in (logs 8, 17). -/
def afterIdle (s : State) : State :=
  { s with freeCount := s.freeCount + 1, inputs := s.inputs.tail, tmr0Div := 0#8, tmr1Div := 0#8 }

theorem beforeBoundary_of_noneDue {s : State} (hs : Settled s) (hi : s.inputs.headD [] = [])
    (h0 : s.ccb.tmrConf.getLsbD 15 = false) (h1 : s.ccb.tmrConf.getLsbD 31 = false) :
    beforeBoundary s = afterIdle s := by
  have hin : applyInputs { s with freeCount := s.freeCount + 1 } =
      { s with freeCount := s.freeCount + 1, inputs := s.inputs.tail } := applyInputs_of_noneDue hi
  unfold beforeBoundary
  rw [hin]
  exact tickTimers_of_disabled hs h0 h1

/-! ## A boundary without an acceptable request -/

/-- A pending request whose mask bit is set, with nothing in flight (R346). -/
theorem eligible_settled {s : State} (h : Settled s) (src : Source) :
    eligible src s = (s.ccb.intPend &&& s.ccb.intMask).getLsbD src.val := by
  have hm : ccbRead offIntMask s = s.ccb.intMask.setWidth 32 := rfl
  have hlt : src.val < 32 := by omega
  simp only [eligible, seen_settled h, hm, BitVec.getLsbD_setWidth, BitVec.getLsbD_and, hlt, decide_true, Bool.true_and]

/-- No request is acceptable while interrupts are disabled, the window after `di` apart (R346, R352). -/
theorem acceptable_of_disabled {s : State} (hie : s.psr.ie = false) (hdi : s.diWindow = false) :
    acceptable s = none := by
  simp only [acceptable, hie, hdi, Bool.or_self, Bool.false_eq_true, if_false]

/-- No request is acceptable while every pending one is masked. -/
theorem acceptable_of_masked {s : State} (hs : Settled s) (h : s.ccb.intPend &&& s.ccb.intMask = 0#12) :
    acceptable s = none := by
  have hwins : ∀ src : Source, wins src s = false := fun src => by
    simp only [wins, eligible_settled hs, h, BitVec.getLsbD_zero, Bool.false_and]
  simp only [acceptable, hwins, Bool.false_eq_true, List.find?_eq_none.2, not_false_eq_true, implies_true, ite_self]

theorem atBoundary_of_notAcceptable {s : State} (h : acceptable s = none) :
    atBoundary s = .goOn { s with diWindow := false, acceptWait := none } := by
  simp only [atBoundary, h]

/-- Settles O3: the environment and the timers leave the state that the boundary is decided in, no request is acceptable
there, and in super user mode no fetch is protected. -/
theorem quietStepAddsNothing : Obligations.QuietStepAddsNothing := by
  intro s i hs hi h0 h1 hreq ha hum hd _
  have hacc : acceptable (afterIdle s) = none := by
    rcases hreq with ⟨hie, hdi⟩ | hmask
    · exact acceptable_of_disabled hie hdi
    · exact acceptable_of_masked hs hmask
  have hb := (congrArg atBoundary (beforeBoundary_of_noneDue hs hi h0 h1)).trans (atBoundary_of_notAcceptable hacc)
  refine step_eq_exec hb ha (fun h => absurd (hum.symm.trans h) Bool.false_ne_true) (Eq.trans ?_ hd)
  exact decoded_congr rfl rfl rfl

end Sys2Proof.Machine

/-! SUPPORT. Stores to the CCB as the invariants of the machine see them: which of them reach the hardware stack. -/

namespace Sys2Proof.Machine

/-! ## The entry behind the RETI registers -/

theorem retiEntry_setRetiEntry (e : StackEntry) (s : State) : retiEntry (setRetiEntry e s) = e := by
  cases hs : s.hwstack <;> simp [retiEntry, setRetiEntry, hs]

theorem setRetiEntry_hwstack_length (e : StackEntry) (s : State) :
    (setRetiEntry e s).hwstack.length = s.hwstack.length := by
  cases hs : s.hwstack <;> simp [setRetiEntry, hs]

theorem setRetiEntry_hwstack_tail (e : StackEntry) (s : State) :
    (setRetiEntry e s).hwstack.tail = s.hwstack.tail := by
  cases hs : s.hwstack <;> simp [setRetiEntry, hs]

/-- The entry behind the RETI registers is on the hardware stack unless that is empty (R40; log 20). -/
theorem setRetiEntry_retiBase {s : State} (h : s.hwstack ≠ []) (e : StackEntry) :
    (setRetiEntry e s).retiBase = s.retiBase := by
  cases hs : s.hwstack with
  | nil => exact absurd hs h
  | cons => simp [setRetiEntry, hs]

/-- Every entry that `reti` could find is an old one or the one that was put there. -/
theorem mem_setRetiEntry {e x : StackEntry} {s : State} (h : x ∈ (setRetiEntry e s).hwstack) :
    x = e ∨ x ∈ s.hwstack := by
  cases hs : s.hwstack with
  | nil => simp [setRetiEntry, hs] at h
  | cons y l =>
    simp only [setRetiEntry, hs, List.mem_cons] at h ⊢
    exact h.imp_right .inr

theorem setRetiEntry_retiBase_cases (e : StackEntry) (s : State) :
    (setRetiEntry e s).retiBase = e ∨ (setRetiEntry e s).retiBase = s.retiBase := by
  cases hs : s.hwstack <;> simp [setRetiEntry, hs]

/-- What the RETI registers show is on the hardware stack or behind it. -/
theorem retiEntry_cases (s : State) : retiEntry s ∈ s.hwstack ∨ retiEntry s = s.retiBase := by
  cases hs : s.hwstack <;> simp [retiEntry, hs]

/-! ## A store to the CCB -/

/-- A store to the CCB replaces stored registers, INT_SERV never among them, or the entry that `reti` would restore,
whose PSR image only a store to RETI_PSR changes (R45). -/
theorem ccbSet_cases (off : BitVec 8) (v : Word) (s : State) :
    (∃ c : Ccb, c.intServ = s.ccb.intServ ∧ ccbSet off v s = { s with ccb := c }) ∨
    (∃ e : StackEntry, (e.psr = (retiEntry s).psr ∨ off = offRetiPsr ∧ e.psr = v.setWidth 8) ∧
      ccbSet off v s = setRetiEntry e s) := by
  unfold ccbSet
  split
  · exact .inl ⟨_, by rfl, rfl⟩
  · split
    case h_24 => exact .inr ⟨{ retiEntry s with addr := v }, .inl rfl, rfl⟩
    case h_25 h => exact .inr ⟨_, .inr ⟨BitVec.eq_of_toNat_eq h, rfl⟩, rfl⟩
    case h_26 => exact .inr ⟨{ retiEntry s with cr0 := v.setWidth 3 }, .inl rfl, rfl⟩
    all_goals exact .inl ⟨_, by rfl, rfl⟩

theorem ccbWrite_of_writable {off : BitVec 8} (h : ccbWritable off = true) (v : Word) (s : State) :
    ccbWrite off v s =
      { ccbSet off v s with ccbInflight := { offset := off, old := ccbRead off s, age := 0 } :: s.ccbInflight } := by
  simp only [ccbWrite, h, if_true]

theorem ccbWrite_of_readOnly {off : BitVec 8} (h : ccbWritable off = false) (v : Word) (s : State) :
    ccbWrite off v s = s := by
  simp only [ccbWrite, h, Bool.false_eq_true, if_false]

theorem ccbWrite_intServ (off : BitVec 8) (v : Word) (s : State) :
    (ccbWrite off v s).ccb.intServ = s.ccb.intServ := by
  cases hw : ccbWritable off with
  | false => rw [ccbWrite_of_readOnly hw]
  | true =>
    rw [ccbWrite_of_writable hw]
    rcases ccbSet_cases off v s with ⟨c, hc, h⟩ | ⟨e, -, h⟩ <;> simp only [h]
    · exact hc
    · rw [setRetiEntry_ccb]

theorem ccbWrite_hwstack_length (off : BitVec 8) (v : Word) (s : State) :
    (ccbWrite off v s).hwstack.length = s.hwstack.length := by
  cases hw : ccbWritable off with
  | false => rw [ccbWrite_of_readOnly hw]
  | true =>
    rw [ccbWrite_of_writable hw]
    rcases ccbSet_cases off v s with ⟨c, -, h⟩ | ⟨e, -, h⟩ <;> simp only [h]
    exact setRetiEntry_hwstack_length e s

/-! ## Interrupt entry -/

/-- What interrupt entry does to the service of interrupts and to PSR (R350, R354). -/
theorem interruptEntry_next {src : Source} {s t : State} (h : interruptEntry src s = .next t) :
    t.hwstack = { addr := s.pc, psr := s.psr.toByte, cr0 := (s.cr[0]).image } :: s.hwstack ∧
    t.servOrder = src :: s.servOrder ∧ t.ccb.intServ = s.ccb.intServ ||| BitVec.twoPow 12 src.val ∧
    t.retiBase = s.retiBase ∧ t.ccbInflight = dropRetiWrites s.ccbInflight ∧ t.psr = entryPsr src s := by
  unfold interruptEntry at h
  split at h
  · cases h
  · cases h; exact ⟨rfl, rfl, rfl, rfl, rfl, rfl⟩

theorem interruptEntry_overflow {src : Source} {s : State} (h : interruptEntry src s = .fault .hwstackOverflow) :
    Config.hwstackDepth ≤ s.hwstack.length := by
  unfold interruptEntry at h
  split at h
  · assumption
  · cases h

/-- A step is the entry of the acceptable source, or the instruction at pc, after what the boundary leaves. -/
theorem step_eq_cases (s : State) :
    (∃ src, acceptable (beforeBoundary s) = some src ∧ step s = interruptEntry src (beforeBoundary s)) ∨
    (∃ wait, atBoundary (beforeBoundary s) = .goOn { beforeBoundary s with diWindow := false, acceptWait := wait } ∧
      step s = runInstruction { beforeBoundary s with diWindow := false, acceptWait := wait }) := by
  rcases atBoundary_cases (beforeBoundary s) with ⟨src, hb, ha, -, -⟩ | ⟨wait, hb⟩
  · exact .inl ⟨src, ha, by simp only [step, hb]⟩
  · exact .inr ⟨wait, hb, step_of_goOn hb⟩

end Sys2Proof.Machine

/-! SUPPORT. The order of service (`10_state.md` R41): what an acceptable request says about it, and that every step
keeps it. -/

namespace Sys2Proof.Machine

/-- The order of service depends on INT_SERV and its own list; the hardware stack may only shrink. -/
theorem ServiceInv.congr {s t : State} (h : ServiceInv s) (hserv : t.ccb.intServ = s.ccb.intServ)
    (horder : t.servOrder = s.servOrder) (hdepth : t.hwstack.length ≤ s.hwstack.length) : ServiceInv t := by
  constructor
  · rw [hserv, horder]; exact h.mirror
  · rw [horder]; exact h.nodup
  · rw [horder]; exact hdepth.trans h.depth

theorem serviceInv_coreReset (s : State) : ServiceInv (coreReset s) := by
  refine ⟨fun src => iff_of_false (fun h => ?_) (List.not_mem_nil), List.nodup_nil, Nat.le_refl 0⟩
  exact Bool.false_ne_true (BitVec.getLsbD_zero.symm.trans h)

/-- A new source in service, its return stacked. -/
theorem ServiceInv.push {s t : State} {src : Source} {e : StackEntry} (h : ServiceInv s) (hsrc : src ∉ s.servOrder)
    (hserv : t.ccb.intServ = s.ccb.intServ ||| BitVec.twoPow 12 src.val) (horder : t.servOrder = src :: s.servOrder)
    (hstack : t.hwstack = e :: s.hwstack) : ServiceInv t := by
  refine ⟨fun x => ?_, by rw [horder]; exact h.nodup.cons hsrc, ?_⟩
  · rw [hserv, horder, List.mem_cons, ← h.mirror x, BitVec.getLsbD_or, BitVec.getLsbD_twoPow, Bool.or_eq_true, or_comm]
    simp only [src.isLt, decide_true, Bool.true_and, decide_eq_true_eq, Fin.ext_iff]
    exact or_congr eq_comm Iff.rfl
  · rw [horder, hstack]
    exact Nat.succ_le_succ h.depth

/-- The newest service ended, its return popped. -/
theorem ServiceInv.pop {s t : State} {src : Source} {rest : List Source} (h : ServiceInv s)
    (hs : s.servOrder = src :: rest) (hserv : t.ccb.intServ = s.ccb.intServ &&& ~~~(BitVec.twoPow 12 src.val))
    (horder : t.servOrder = rest) (hstack : t.hwstack = s.hwstack.tail) : ServiceInv t := by
  have hn : src ∉ rest ∧ rest.Nodup := by rw [← List.nodup_cons, ← hs]; exact h.nodup
  refine ⟨fun x => ?_, by rw [horder]; exact hn.2, ?_⟩
  · have hx := x.isLt
    have hm := h.mirror x
    rw [hs, List.mem_cons] at hm
    rw [hserv, horder, BitVec.getLsbD_and, BitVec.getLsbD_not, BitVec.getLsbD_twoPow, Bool.and_eq_true, hm]
    by_cases hxs : x = src
    · subst hxs; simp [hn.1, hx]
    · have : src.val ≠ x.val := fun e => hxs (Fin.ext e.symm)
      simp [hxs, hx, this]
  · have hd := h.depth
    rw [hs, List.length_cons] at hd
    rw [horder, hstack, List.length_tail]
    omega

/-! ## Instructions -/

theorem ServiceInv.returnFromInterrupt {s : State} (h : ServiceInv s) (hs : s.hwstack ≠ []) :
    ServiceInv (returnFromInterrupt s) := by
  cases ho : s.servOrder with
  | nil =>
    have hd := h.depth
    rw [ho, List.length_nil, Nat.le_zero_eq, List.length_eq_zero_iff] at hd
    exact absurd hd hs
  | cons src rest =>
    refine h.pop ho ?_ ?_ rfl
    · simp [Machine.returnFromInterrupt, ho]
    · simp [Machine.returnFromInterrupt, ho]

theorem ServiceInv.of_did {i : Instr} {s t : State} (h : ServiceInv s) (hd : Did i s t) : ServiceInv t := by
  cases hd with
  | nothing => exact h.congr rfl rfl (Nat.le_refl _)
  | register d v cr outs tok => exact h.congr (by simp [touched]) (by simp [touched]) (by simp [touched])
  | exception => exact h.congr rfl rfl (Nat.le_refl _)
  | exceptionPopped => exact h.congr rfl rfl (by simp)
  | ccb f b a imm hi off =>
    exact h.congr (by simp [ccbWrite_intServ]) (by simp) (by simp [ccbWrite_hwstack_length])
  | memory => exact h.congr rfl rfl (Nat.le_refl _)
  | sets => exact h.congr rfl rfl (Nat.le_refl _)
  | disables => exact h.congr rfl rfl (Nat.le_refl _)
  | enables => exact h.congr rfl rfl (Nat.le_refl _)
  | switches => exact h.congr rfl rfl (Nat.le_refl _)
  | returns w hi hd hs => exact h.returnFromInterrupt hs
  | toUser => exact h.congr rfl rfl (Nat.le_refl _)
  | calls => exact h.congr rfl rfl (Nat.le_refl _)

theorem ServiceInv.runInstruction {s t : State} (h : ServiceInv s) (hr : runInstruction s = .next t) :
    ServiceInv t := by
  rcases runInstruction_cases hr with ⟨c, rfl | rfl⟩ | ⟨i, -, -, he⟩
  · exact h.congr rfl rfl (Nat.le_refl _)
  · exact h.congr rfl rfl (Nat.le_refl _)
  · exact h.of_did (exec_did he)

/-! ## The environment and the timers -/

theorem ServiceInv.applyEvent {s : State} (e : EnvEvent) (h : ServiceInv s) : ServiceInv (applyEvent e s) := by
  rcases applyEvent_cases e s with ⟨_, _, he⟩ | he | ⟨_, he⟩ | ⟨_, _, he⟩ <;> rw [he]
  · exact h.congr rfl rfl (Nat.le_refl _)
  · exact serviceInv_coreReset s
  · exact h.congr rfl rfl (Nat.le_refl _)
  · exact h.congr rfl rfl (Nat.le_refl _)

theorem ServiceInv.ticked {s t : State} (ht : Ticked s t) (h : ServiceInv s) : ServiceInv t := by
  obtain ⟨_, _, _, _, _, _, rfl⟩ := ht.eq
  exact h.congr rfl rfl (Nat.le_refl _)

theorem ServiceInv.beforeBoundary {s : State} (h : ServiceInv s) : ServiceInv (beforeBoundary s) :=
  beforeBoundary_keeps (P := ServiceInv) (fun _ _ h => h.congr rfl rfl (Nat.le_refl _))
    (fun _ _ h => h.congr rfl rfl (Nat.le_refl _)) (fun e _ h => h.applyEvent e)
    (fun s _ => serviceInv_coreReset s) (fun _ _ ht h => h.ticked ht) h

/-! ## An acceptable request -/

theorem outranks_self (src : Source) (s : State) : outranks src src s = false := by
  simp [outranks]

/-- A source in service blocks itself (R346, log 43). -/
theorem inService_of_wins {src : Source} {s : State} (h : wins src s = true) : inService src s = false := by
  simp only [wins, Bool.and_eq_true, List.all_eq_true] at h
  simpa [outranks_self] using (h.2 src (List.mem_finRange src)).2

theorem wins_of_acceptable {src : Source} {s : State} (h : acceptable s = some src) : wins src s = true := by
  unfold acceptable at h
  split at h
  · exact List.find?_some (p := fun src => wins src s) h
  · cases h

theorem ServiceInv.not_mem_of_acceptable {s : State} {src : Source} (h : ServiceInv s)
    (ha : acceptable s = some src) : src ∉ s.servOrder := fun hm => by
  have hs : s.ccb.intServ.getLsbD src.val = false := inService_of_wins (wins_of_acceptable ha)
  exact Bool.false_ne_true (hs.symm.trans ((h.mirror src).2 hm))

/-- While a source is out of service fewer than twelve are in service, so fewer than twelve returns are stacked. -/
theorem ServiceInv.hwstack_length_lt {s : State} {src : Source} (h : ServiceInv s) (hsrc : src ∉ s.servOrder) :
    s.hwstack.length < Config.hwstackDepth := by
  have hc : (src :: s.servOrder).length ≤ Fintype.card Source := (h.nodup.cons hsrc).length_le_card
  rw [List.length_cons, Fintype.card_fin] at hc
  exact lt_of_le_of_lt h.depth hc

/-! ## Which faults an instruction has -/

/-- The outcome is not an overflow of the hardware stack. -/
structure NoOverflow (r : Result) : Prop where
  ne : r ≠ .fault .hwstackOverflow

section
variable {s : State} {k : State → Result}

theorem noOverflow_next (t : State) : NoOverflow (.next t) := ⟨fun h => by cases h⟩

theorem noOverflow_fault {why : Fault} (h : why ≠ .hwstackOverflow) : NoOverflow (.fault why) :=
  ⟨fun e => h (Host.Outcome.fault.inj e)⟩

theorem noOverflow_retireWith (delayed mulHi : Option Word) (block : Bool) (s : State) :
    NoOverflow (retireWith delayed mulHi block s) := by
  rcases retireWith_outcome delayed mulHi block s with ⟨t, h⟩ | h <;> rw [h]
  · exact noOverflow_next t
  · exact noOverflow_fault (by decide)

theorem noOverflow_retire (s : State) : NoOverflow (retire s) := noOverflow_retireWith ..

theorem noOverflow_writeResult (d : Reg) (v : Word) (s : State) : NoOverflow (writeResult d v s) :=
  noOverflow_retire _

theorem noOverflow_writeFlagged (d : Reg) (v : Word) (f : Flags) (s : State) : NoOverflow (writeFlagged d v f s) :=
  noOverflow_retire _

theorem noOverflow_multiply (d : Reg) (p : Int) (s : State) : NoOverflow (multiply d p s) :=
  noOverflow_retireWith ..

theorem noOverflow_raise (c : BitVec 8) (s : State) : NoOverflow (raise c s) := noOverflow_next _

theorem noOverflow_guarded (f : Form) (h : ∀ s, NoOverflow (k s)) : NoOverflow (guarded f k s) := by
  unfold guarded
  split
  · exact h s
  · exact noOverflow_retireWith ..

theorem noOverflow_wideOnly (h : ∀ s, NoOverflow (k s)) : NoOverflow (wideOnly k s) := by
  unfold wideOnly
  split
  · exact h s
  · exact noOverflow_raise ..

theorem noOverflow_superOnly (h : ∀ s, NoOverflow (k s)) : NoOverflow (superOnly k s) := by
  unfold superOnly
  split
  · exact noOverflow_raise ..
  · exact h s

theorem noOverflow_notInSlot (h : ∀ s, NoOverflow (k s)) : NoOverflow (notInSlot k s) := by
  unfold notInSlot
  split
  · exact noOverflow_fault (by decide)
  · exact h s

theorem noOverflow_addChecked (d : Reg) (a b : Word) (s : State) : NoOverflow (addChecked d a b s) := by
  unfold addChecked
  split
  · exact noOverflow_raise ..
  · exact noOverflow_writeFlagged ..

theorem noOverflow_subChecked (d : Reg) (a b : Word) (s : State) : NoOverflow (subChecked d a b s) := by
  unfold subChecked
  split
  · exact noOverflow_raise ..
  · exact noOverflow_writeFlagged ..

theorem noOverflow_transfer (relative : Bool) (a : Int) (s : State) : NoOverflow (transfer relative a s) := by
  unfold transfer
  split
  · exact noOverflow_raise ..
  · exact noOverflow_retireWith ..

theorem noOverflow_transferLink (relative : Bool) (a : Int) (s : State) :
    NoOverflow (transferLink relative a s) := by
  unfold transferLink
  split
  · exact noOverflow_raise ..
  · exact noOverflow_retireWith ..

theorem noOverflow_branch (cond : Cond) (c : CReg) (imm : Int) (s : State) : NoOverflow (branch cond c imm s) := by
  refine noOverflow_notInSlot fun s => ?_
  split
  · exact noOverflow_transfer ..
  · exact noOverflow_retireWith ..

theorem noOverflow_raiseData (c : BitVec 8) (s : State) : NoOverflow (raiseData c s) := by
  unfold raiseData
  split
  · split <;> exact noOverflow_raise ..
  · exact noOverflow_raise ..

theorem noOverflow_execMulhi (f : Form) (d : Reg) (s : State) : NoOverflow (execMulhi f d s) := by
  refine noOverflow_guarded f fun s => ?_
  split
  · exact noOverflow_writeResult ..
  · exact noOverflow_fault (by decide)

theorem noOverflow_execLd (f : Form) (d a : Reg) (imm : Int) (s : State) : NoOverflow (execLd f d a imm s) := by
  refine noOverflow_guarded f fun s => ?_
  simp only
  split
  · exact noOverflow_raiseData ..
  · exact noOverflow_writeResult ..

theorem noOverflow_execSt (f : Form) (b a : Reg) (imm : Int) (s : State) : NoOverflow (execSt f b a imm s) := by
  refine noOverflow_guarded f fun s => ?_
  simp only
  split
  · exact noOverflow_raiseData ..
  · split
    · exact noOverflow_retire _
    · exact noOverflow_fault (by decide)

/-- What is wrong with a slot is never the hardware stack. -/
theorem slotFault_ne_overflow {why f : Fault} {n a : Nat} {w : Width} (hw : why ≠ .hwstackOverflow)
    (h : slotFault why n w a s = some f) : f ≠ .hwstackOverflow := by
  unfold slotFault at h
  split at h
  · cases h; decide
  · split at h
    · cases h; decide
    · split at h
      · cases h; decide
      · split at h
        · cases h
        · cases h; exact hw

theorem slotsFault_ne_overflow {why f : Fault} (hw : why ≠ .hwstackOverflow) {n first : Nat}
    (h : slotsFault why n first s = some f) : f ≠ .hwstackOverflow := by
  induction n generalizing first with
  | zero => cases h
  | succ n ih =>
    unfold slotsFault at h
    split at h
    · cases h; exact slotFault_ne_overflow hw ‹_›
    · exact ih h

theorem noOverflow_switchMode (wide : Bool) (s : State) : NoOverflow (switchMode wide s) := by
  unfold switchMode
  split
  · exact noOverflow_fault (slotFault_ne_overflow (why := .swmSlotNotNop) (by decide) ‹_›)
  · split
    · exact noOverflow_fault (slotFault_ne_overflow (why := .swmSlotNotNop) (by decide) ‹_›)
    · split
      · exact noOverflow_fault (by decide)
      · exact noOverflow_next _

theorem noOverflow_execSwm (w : Width) (imm : BitVec 6) (s : State) : NoOverflow (execSwm w imm s) := by
  refine noOverflow_notInSlot fun s => ?_
  split
  · exact noOverflow_switchMode ..
  · split
    · exact noOverflow_switchMode ..
    · exact noOverflow_fault (by decide)

theorem noOverflow_execReti (w : Width) (s : State) : NoOverflow (execReti w s) := by
  refine noOverflow_notInSlot fun s => ?_
  split
  · exact noOverflow_fault (by decide)
  · split
    · exact noOverflow_fault (slotsFault_ne_overflow (why := .retiSlotNotNop) (by decide) ‹_›)
    · exact noOverflow_next _

theorem noOverflow_execRetu (w : Width) (s : State) : NoOverflow (execRetu w s) := by
  refine noOverflow_superOnly fun _ => noOverflow_notInSlot fun s => ?_
  split
  · exact noOverflow_fault (slotsFault_ne_overflow (why := .retuSlotNotNop) (by decide) ‹_›)
  · exact noOverflow_next _

theorem noOverflow_execScall (f : Form) (s : State) : NoOverflow (execScall f s) := by
  refine noOverflow_guarded f fun _ => noOverflow_notInSlot fun s => ?_
  split
  · exact noOverflow_fault (slotsFault_ne_overflow (why := .scallSlotNotNop) (by decide) ‹_›)
  · exact noOverflow_next _

theorem noOverflow_execJmpr (f : Form) (a : Reg) (s : State) : NoOverflow (execJmpr f a s) := by
  unfold execJmpr
  split
  · exact noOverflow_notInSlot fun _ => noOverflow_transfer ..
  · exact noOverflow_retireWith ..

theorem noOverflow_execJalr (f : Form) (a : Reg) (s : State) : NoOverflow (execJalr f a s) := by
  unfold execJalr
  split
  · exact noOverflow_notInSlot fun _ => noOverflow_transferLink ..
  · exact noOverflow_retireWith ..

end

/-- Only interrupt entry overflows the hardware stack: no instruction pushes on it. -/
theorem exec_noOverflow (i : Instr) (s : State) : NoOverflow (exec i s) := by
  cases i with
  | add | addi =>
    simp only [exec, execAdd, execAddi]
    exact noOverflow_guarded _ fun _ => noOverflow_addChecked ..
  | sub =>
    simp only [exec, execSub]
    exact noOverflow_guarded _ fun _ => noOverflow_subChecked ..
  | addiu | addu | subu | sll | slli =>
    simp only [exec, execAddiu, execAddu, execSubu, execSll, execSlli]
    exact noOverflow_guarded _ fun _ => noOverflow_writeFlagged ..
  | muli | muls | mulu | mulus =>
    simp only [exec, execMuli, execMuls, execMulu, execMulus]
    exact noOverflow_guarded _ fun _ => noOverflow_multiply ..
  | muls16 | mulu16 | mulus16 | exb | exbf | exh | sext | sexti | conb | conh | and | andi | not | or | ori | xor
  | sra | srai | srl | srli | mov | movfc =>
    simp only [exec, execMuls16, execMulu16, execMulus16, execExb, execExbf, execExh, execSext, execSexti, execConb,
      execConh, execAnd, execAndi, execNot, execOr, execOri, execXor, execSra, execSrai, execSrl, execSrli, execMov,
      execMovfc]
    exact noOverflow_guarded _ fun _ => noOverflow_writeResult ..
  | movtc =>
    simp only [exec, execMovtc]
    exact noOverflow_guarded _ fun _ => noOverflow_retire _
  | exbfi | lli | lui =>
    simp only [exec, execExbfi, execLli, execLui]
    exact noOverflow_wideOnly fun _ => noOverflow_writeResult ..
  | cop =>
    simp only [exec, execCop]
    exact noOverflow_wideOnly fun _ => noOverflow_retire _
  | chrs | di | ei =>
    simp only [exec, execChrs, execDi, execEi]
    exact noOverflow_superOnly fun _ => noOverflow_retire _
  | nop | rcon | cmp | cmpi => exact noOverflow_retire _
  | scon => exact noOverflow_writeResult ..
  | bc | begt | belt | beq | bgt | blt | bne | bnc => exact noOverflow_branch ..
  | jal => exact noOverflow_notInSlot fun _ => noOverflow_transferLink ..
  | jmp => exact noOverflow_notInSlot fun _ => noOverflow_transfer ..
  | jalr => exact noOverflow_execJalr ..
  | jmpr => exact noOverflow_execJmpr ..
  | mulhi => exact noOverflow_execMulhi ..
  | ld => exact noOverflow_execLd ..
  | st => exact noOverflow_execSt ..
  | swm w imm => exact noOverflow_execSwm w imm s
  | reti w => exact noOverflow_execReti w s
  | retu w => exact noOverflow_execRetu w s
  | scall => exact noOverflow_execScall ..
  | trap => exact noOverflow_raise ..

theorem runInstruction_noOverflow (s : State) : NoOverflow (runInstruction s) := by
  unfold runInstruction
  split
  · unfold fetchException
    split
    · exact noOverflow_raise ..
    · exact noOverflow_next _
  · exact ⟨fun h => by cases h⟩
  · rename_i why hf
    refine noOverflow_fault fun e => ?_
    subst e
    unfold fetch at hf
    split at hf
    · cases hf
    · rw [codeModified_eq_false] at hf
      simp only [Bool.false_eq_true, if_false] at hf
      split at hf <;> cases hf
  · exact exec_noOverflow ..

/-- Settles O54: the environment and the timers keep the order of service; an acceptable source is not in service, so
its entry finds fewer than twelve returns stacked and leaves the order with one source more; no instruction overflows
the hardware stack, and only `reti` ends a service, the newest. -/
theorem serviceStaysInOrder : Obligations.ServiceStaysInOrder := by
  intro s h
  have hb := h.beforeBoundary
  rcases step_eq_cases s with ⟨src, ha, hstep⟩ | ⟨wait, -, hstep⟩ <;> rw [hstep]
  · have hsrc := hb.not_mem_of_acceptable ha
    refine ⟨fun ho => ?_, fun t ht => ?_⟩
    · exact absurd (interruptEntry_overflow ho) (Nat.not_le.2 (hb.hwstack_length_lt hsrc))
    · obtain ⟨hstack, horder, hserv, -⟩ := interruptEntry_next ht
      exact hb.push hsrc hserv horder hstack
  · refine ⟨(runInstruction_noOverflow _).ne, fun t ht => ServiceInv.runInstruction ?_ ht⟩
    exact hb.congr rfl rfl (Nat.le_refl _)

end Sys2Proof.Machine

/-! SUPPORT. User mode and SET 1 (`10_state.md` R28): which images `reti` can restore, and what each agent does to PSR
and to them. -/

namespace Sys2Proof.Machine

/-! ## What an implicit use sees, and where writes in flight come from -/

/-- An implicit use sees the current value, or one that a write in flight replaced (R415; log 11). -/
theorem seen_cases (use : CcbUse) (off : BitVec 8) (s : State) :
    seen use off s = ccbRead off s ∨
    ∃ w ∈ s.ccbInflight, w.offset = off ∧ w.age ≤ guards use ∧ seen use off s = w.old := by
  unfold seen
  split
  · exact .inl rfl
  · rename_i i _
    by_cases hi : i < (lagging off (guards use) s.ccbInflight).length
    · have hm := List.getElem_mem hi
      rw [← List.getD_eq_getElem _ (ccbRead off s) hi] at hm
      obtain ⟨w, hw, ho⟩ := List.mem_map.1 hm
      simp only [List.mem_filter, Bool.and_eq_true, beq_iff_eq, decide_eq_true_eq] at hw
      obtain ⟨hmem, hoff, hage⟩ := hw
      exact .inr ⟨w, hmem, hoff, hage, ho.symm⟩
    · exact .inl (List.getD_eq_default _ _ (Nat.le_of_not_lt hi))

theorem mem_ageCcb {n : Nat} {l : List CcbWrite} {w : CcbWrite} (h : w ∈ ageCcb n l) :
    ∃ x ∈ l, x.offset = w.offset ∧ x.old = w.old := by
  obtain ⟨x, hx, rfl⟩ := List.mem_map.1 (List.mem_of_mem_filter h)
  exact ⟨x, hx, rfl, rfl⟩

/-! ## PSR -/

theorem ofByte_toByte (p : Psr) : Psr.ofByte p.toByte = p := by
  obtain ⟨ie, il, rswr, rsrd, um⟩ := p
  revert ie il rswr rsrd um
  decide

theorem setsLegal_handler : SetsLegal Psr.handler := fun h => absurd h Bool.false_ne_true

/-- What RETI_PSR holds after a reset (R45). -/
theorem setsLegal_resetImage : SetsLegal (Psr.ofByte 0x09#8) := fun _ => ⟨by decide, by decide⟩

/-- Interrupt entry into user mode uses SET 1 (R354; log 30). -/
theorem setsLegal_entryPsr (src : Source) (s : State) : SetsLegal (entryPsr src s) := fun h => by
  have hum : (seen .interrupt offIntModeUm s).getLsbD src.val = true := h
  exact ⟨by simp only [entryPsr, hum, Bool.not_true], by simp only [entryPsr, hum, Bool.not_true]⟩

/-! ## The images that `reti` can restore -/

/-- Fewer entries and fewer writes in flight keep the images legal. -/
theorem ImagesLegal.mono {s t : State} (h : ImagesLegal s) (hstack : ∀ e ∈ t.hwstack, e ∈ s.hwstack)
    (hbase : t.retiBase = s.retiBase)
    (hinflight : ∀ w ∈ t.ccbInflight, w.offset = offRetiPsr →
      ∃ x ∈ s.ccbInflight, x.offset = offRetiPsr ∧ x.old = w.old) : ImagesLegal t := by
  refine ⟨fun e he => h.stack e (hstack e he), by rw [hbase]; exact h.base, fun w hw ho => ?_⟩
  obtain ⟨x, hx, hxo, hxw⟩ := hinflight w hw ho
  rw [← hxw]
  exact h.inflight x hx hxo

theorem ImagesLegal.congr {s t : State} (h : ImagesLegal s) (hstack : t.hwstack = s.hwstack)
    (hbase : t.retiBase = s.retiBase) (hinflight : t.ccbInflight = s.ccbInflight) : ImagesLegal t :=
  h.mono (by rw [hstack]; exact fun _ he => he) hbase (by rw [hinflight]; exact fun w hw ho => ⟨w, hw, ho, rfl⟩)

/-- The image that the RETI registers show is one of them. -/
theorem ImagesLegal.retiEntry {s : State} (h : ImagesLegal s) : SetsLegal (Psr.ofByte (retiEntry s).psr) := by
  rcases retiEntry_cases s with hs | hs
  · exact h.stack _ hs
  · rw [hs]; exact h.base

theorem setWidth_ccbRead_offRetiPsr (s : State) : (ccbRead offRetiPsr s).setWidth 8 = (Machine.retiEntry s).psr := by
  have hr : ccbRead offRetiPsr s = (Machine.retiEntry s).psr.setWidth 32 := rfl
  rw [hr, BitVec.setWidth_setWidth_of_le _ (by decide), BitVec.setWidth_eq]

/-- So is every image that `reti` may see. -/
theorem ImagesLegal.seen {s : State} (h : ImagesLegal s) (use : CcbUse) :
    SetsLegal (Psr.ofByte ((seen use offRetiPsr s).setWidth 8)) := by
  rcases seen_cases use offRetiPsr s with hs | ⟨w, hw, ho, -, hs⟩ <;> rw [hs]
  · rw [setWidth_ccbRead_offRetiPsr]; exact h.retiEntry
  · exact h.inflight w hw ho

/-- Writes in flight that grow older, or are settled, hold no other values. -/
theorem ImagesLegal.aged {s t : State} {n : Nat} (h : ImagesLegal s) (hstack : t.hwstack = s.hwstack)
    (hbase : t.retiBase = s.retiBase) (hinflight : t.ccbInflight = ageCcb n s.ccbInflight) : ImagesLegal t := by
  refine h.mono (by rw [hstack]; exact fun _ he => he) hbase fun w hw ho => ?_
  rw [hinflight] at hw
  obtain ⟨x, hx, hxo, hxw⟩ := mem_ageCcb hw
  exact ⟨x, hx, hxo.trans ho, hxw⟩

theorem ImagesLegal.popStack {s : State} (h : ImagesLegal s) : ImagesLegal (popStack s) :=
  h.mono (fun _ he => List.mem_of_mem_tail he) rfl fun w hw ho => ⟨w, List.mem_of_mem_filter hw, ho, rfl⟩

theorem ImagesLegal.settleForEi {s : State} (h : ImagesLegal s) :
    ImagesLegal { s with ccbInflight := settleForEi s.ccbInflight } :=
  h.mono (fun _ he => he) rfl fun w hw ho => ⟨w, List.mem_of_mem_filter hw, ho, rfl⟩

/-- Interrupt entry stacks the PSR of the interrupted code. -/
theorem ImagesLegal.interruptEntry {src : Source} {s t : State} (h : ImagesLegal s) (hp : SetsLegal s.psr)
    (he : interruptEntry src s = .next t) : ImagesLegal t := by
  obtain ⟨hstack, -, -, hbase, hinflight, -⟩ := interruptEntry_next he
  refine ⟨fun e hm => ?_, by rw [hbase]; exact h.base, fun w hw ho => ?_⟩
  · rw [hstack, List.mem_cons] at hm
    rcases hm with rfl | hm
    · rw [ofByte_toByte]; exact hp
    · exact h.stack e hm
  · rw [hinflight] at hw
    exact h.inflight w (List.mem_of_mem_filter hw) ho

theorem ImagesLegal.setRetiEntry {s : State} {e : StackEntry} (h : ImagesLegal s)
    (he : SetsLegal (Psr.ofByte e.psr)) : ImagesLegal (setRetiEntry e s) := by
  refine ⟨fun x hx => ?_, ?_, by rw [setRetiEntry_ccbInflight]; exact h.inflight⟩
  · rcases mem_setRetiEntry hx with rfl | hx
    · exact he
    · exact h.stack x hx
  · rcases setRetiEntry_retiBase_cases e s with hb | hb <;> rw [hb]
    · exact he
    · exact h.base

theorem ImagesLegal.ccbSet {s : State} {off : BitVec 8} {v : Word} (h : ImagesLegal s)
    (hv : off = offRetiPsr → SetsLegal (Psr.ofByte (v.setWidth 8))) : ImagesLegal (ccbSet off v s) := by
  rcases ccbSet_cases off v s with ⟨c, -, hs⟩ | ⟨e, he, hs⟩ <;> rw [hs]
  · exact h.congr rfl rfl rfl
  · refine h.setRetiEntry ?_
    rcases he with he | ⟨hoff, he⟩ <;> rw [he]
    · exact h.retiEntry
    · exact hv hoff

/-- A store to the CCB keeps the images legal unless it stores an illegal one to RETI_PSR. -/
theorem ImagesLegal.ccbWrite {s : State} {off : BitVec 8} {v : Word} (h : ImagesLegal s)
    (hv : off = offRetiPsr → SetsLegal (Psr.ofByte (v.setWidth 8))) : ImagesLegal (ccbWrite off v s) := by
  cases hw : ccbWritable off with
  | false => rw [ccbWrite_of_readOnly hw]; exact h
  | true =>
    rw [ccbWrite_of_writable hw]
    have hset := h.ccbSet hv
    refine ⟨hset.stack, hset.base, fun w hm ho => ?_⟩
    rcases List.mem_cons.1 hm with rfl | hm
    · obtain rfl : off = offRetiPsr := ho
      rw [setWidth_ccbRead_offRetiPsr]
      exact h.retiEntry
    · exact h.inflight w hm ho

/-! ## Instructions -/

/-- An instruction leaves user mode in SET 1: `chrs` is not for user mode, and `reti` restores a legal image. -/
theorem Did.setsLegal {i : Instr} {s t : State} (hp : SetsLegal s.psr) (h : ImagesLegal s) (hd : Did i s t) :
    SetsLegal t.psr := by
  cases hd with
  | nothing => exact hp
  | register d v cr outs tok => rw [ended_psr, writeX_psr]; exact hp
  | exception | exceptionPopped => exact setsLegal_handler
  | ccb => rw [ended_psr, ccbWrite_psr]; exact hp
  | memory => exact hp
  | sets w imm hi hu => exact fun h => absurd (hu.symm.trans h) Bool.false_ne_true
  | disables | enables | switches => exact hp
  | returns => exact h.seen .reti
  | toUser => exact fun _ => ⟨rfl, rfl⟩
  | calls => exact setsLegal_handler

/-- No instruction but `st` makes an image that `reti` could restore. -/
theorem Did.imagesLegal {i : Instr} {s t : State} (h : ImagesLegal s) (hd : Did i s t)
    (hst : ∀ f b a imm, i ≠ .st f b a imm) : ImagesLegal t := by
  cases hd with
  | nothing | exception | sets | disables | switches | toUser | calls => exact h.aged rfl rfl rfl
  | register d v cr outs tok =>
    exact h.aged (by simp [touched]) (by simp [touched]) (by simp only [ended_ccbInflight, writeX_ccbInflight]; rfl)
  | exceptionPopped | returns => exact h.popStack.aged rfl rfl rfl
  | ccb f b a imm hi => exact absurd hi (hst f b a imm)
  | memory f b a imm hi => exact absurd hi (hst f b a imm)
  | enables => exact h.settleForEi.aged rfl rfl rfl

/-- The proviso of R28, at the instruction: an executed and allowed `st` of an illegal image to RETI_PSR. -/
def IllegalImageStore (f : Form) (b a : Reg) (imm : Int) (s : State) : Prop :=
  executes f s = true ∧ dataFault (effectiveAddress a imm s) s = none ∧
  windowOf (BitVec.ofInt 32 (effectiveAddress a imm s)) s = .ccb offRetiPsr ∧
  ¬SetsLegal (Psr.ofByte ((readX b s).setWidth 8))

theorem ImagesLegal.execSt {f : Form} {b a : Reg} {imm : Int} {s t : State} (h : ImagesLegal s)
    (he : execSt f b a imm s = .next t) : IllegalImageStore f b a imm s ∨ ImagesLegal t := by
  rcases execSt_cases he with ⟨-, rfl⟩ | ⟨-, c, -, hr⟩ | ⟨hx, hf, u, hw, rfl⟩
  · exact .inr (h.aged rfl rfl rfl)
  · rcases raiseData_cases hr with rfl | ⟨-, -, rfl⟩
    · exact .inr (h.aged rfl rfl rfl)
    · exact .inr (h.popStack.aged rfl rfl rfl)
  · rcases memWrite_cases hw with ⟨off, hoff, -, rfl⟩ | ⟨d, -, rfl⟩ | ⟨-, rfl⟩
    · by_cases hv : off = offRetiPsr → SetsLegal (Psr.ofByte ((readX b s).setWidth 8))
      · exact .inr ((h.ccbWrite hv).aged rfl rfl rfl)
      · obtain ⟨rfl, hillegal⟩ := Classical.not_imp.1 hv
        exact .inl ⟨hx, hf, hoff, hillegal⟩
    · exact .inr (h.aged rfl rfl rfl)
    · exact .inr (h.aged rfl rfl rfl)

theorem ImagesLegal.exec {i : Instr} {s t : State} (h : ImagesLegal s) (he : exec i s = .next t) :
    (∃ f b a imm, i = .st f b a imm ∧ IllegalImageStore f b a imm s) ∨ ImagesLegal t := by
  by_cases hi : ∃ f b a imm, i = .st f b a imm
  · obtain ⟨f, b, a, imm, rfl⟩ := hi
    exact (h.execSt he).imp_left fun hs => ⟨f, b, a, imm, rfl, hs⟩
  · exact .inr ((exec_did he).imagesLegal h fun f b a imm e => hi ⟨f, b, a, imm, e⟩)

/-! ## The environment and the timers -/

/-- PSR and every image that `reti` could restore use SET 1 in user mode. -/
structure UserInSet1 (s : State) : Prop where
  psr : SetsLegal s.psr
  images : ImagesLegal s

theorem UserInSet1.congr {s t : State} (h : UserInSet1 s) (hpsr : t.psr = s.psr) (hstack : t.hwstack = s.hwstack)
    (hbase : t.retiBase = s.retiBase) (hinflight : t.ccbInflight = s.ccbInflight) : UserInSet1 t :=
  ⟨by rw [hpsr]; exact h.psr, h.images.congr hstack hbase hinflight⟩

/-- A reset leaves super user mode, an empty stack and 09h in RETI_PSR (R95, R45). -/
theorem userInSet1_coreReset (s : State) : UserInSet1 (coreReset s) where
  psr := setsLegal_handler
  images := ⟨fun _ he => absurd he List.not_mem_nil, setsLegal_resetImage,
    fun _ hw => absurd hw List.not_mem_nil⟩

theorem UserInSet1.applyEvent {s : State} (e : EnvEvent) (h : UserInSet1 s) : UserInSet1 (applyEvent e s) := by
  rcases applyEvent_cases e s with ⟨_, _, he⟩ | he | ⟨_, he⟩ | ⟨_, _, he⟩ <;> rw [he]
  · exact h.congr rfl rfl rfl rfl
  · exact userInSet1_coreReset s
  · exact h.congr rfl rfl rfl rfl
  · exact h.congr rfl rfl rfl rfl

/-- A timer that counts on a replaced value counts on its own register's. -/
theorem UserInSet1.ticked {s t : State} (ht : Ticked s t) (h : UserInSet1 s) : UserInSet1 t := by
  have hinflight := ht.inflight
  obtain ⟨_, _, _, _, _, _, rfl⟩ := ht.eq
  refine ⟨h.psr, h.images.mono (fun _ he => he) rfl fun w hw ho => ?_⟩
  obtain ⟨x, hx, -, -, hxw⟩ := hinflight w hw
  obtain rfl := hxw (by rw [ho]; decide) (by rw [ho]; decide)
  exact ⟨x, hx, ho, rfl⟩

theorem UserInSet1.beforeBoundary {s : State} (h : UserInSet1 s) : UserInSet1 (beforeBoundary s) :=
  beforeBoundary_keeps (P := UserInSet1) (fun _ _ h => h.congr rfl rfl rfl rfl)
    (fun _ _ h => h.congr rfl rfl rfl rfl) (fun e _ h => h.applyEvent e)
    (fun s _ => userInSet1_coreReset s) (fun _ _ ht h => h.ticked ht) h

/-- An instruction of a step, its fetch included. -/
theorem UserInSet1.runInstruction {s u t : State} (h : UserInSet1 u)
    (hb : atBoundary (Machine.beforeBoundary s) = .goOn u) (hr : runInstruction u = .next t) :
    SetsLegal t.psr ∧ (StoresIllegalImage s ∨ ImagesLegal t) := by
  rcases runInstruction_cases hr with ⟨c, rfl | rfl⟩ | ⟨i, hf, hd, he⟩
  · exact ⟨setsLegal_handler, .inr (h.images.congr rfl rfl rfl)⟩
  · exact ⟨setsLegal_handler, .inr (h.images.aged rfl rfl rfl)⟩
  · refine ⟨(exec_did he).setsLegal h.psr h.images, (h.images.exec he).imp_left ?_⟩
    rintro ⟨f, b, a, imm, rfl, hx, hdf, hw, hv⟩
    obtain ⟨halign, hallow⟩ := fetchFault_none hf
    exact ⟨u, f, b, a, imm, hb, halign, hallow, hd, hx, hdf, hw, hv⟩

/-- Settles O55: the environment and the timers keep PSR and the images legal, interrupt entry stacks a legal PSR and
enters with one, and of all instructions only a `st` to RETI_PSR makes a new image. -/
theorem userModeUsesSet1 : Obligations.UserModeUsesSet1 := by
  intro s t hp hi hstep
  have h : UserInSet1 (beforeBoundary s) := UserInSet1.beforeBoundary ⟨hp, hi⟩
  rcases step_eq_cases s with ⟨src, -, he⟩ | ⟨wait, hb, he⟩ <;> rw [he] at hstep
  · obtain ⟨-, -, -, -, -, hpsr⟩ := interruptEntry_next hstep
    exact ⟨by rw [hpsr]; exact setsLegal_entryPsr src _, .inr (h.images.interruptEntry h.psr hstep)⟩
  · refine UserInSet1.runInstruction ?_ hb hstep
    exact h.congr rfl rfl rfl rfl

end Sys2Proof.Machine

/-! SUPPORT. What `ld` reads from the CCB after a `st` to it, offset by offset (R45). -/

namespace Sys2Proof.Machine

/-- The writable registers are those that have a width (R45). -/
theorem ccbWritable_iff (off : BitVec 8) : ccbWritable off = true ↔ ccbWidth off ≠ 0 := by
  revert off; decide

theorem ccbWritable_eq_false_iff (off : BitVec 8) : ccbWritable off = false ↔ ccbWidth off = 0 := by
  rw [← not_iff_not, Bool.not_eq_false]
  exact ccbWritable_iff off

/-- What an unused offset reads as (R87; log 23). -/
theorem ccbRead_unused {off : BitVec 8} (h : 0x2C ≤ off.toNat) (s : State) : ccbRead off s = Config.coreVerId := by
  unfold ccbRead
  rw [dif_neg (by omega)]
  split
  all_goals first | rfl | omega

/-- A writable register reads as the low bits of what was stored (R44, R45). -/
theorem ccbRead_ccbSet_same {off : BitVec 8} (h : ccbWidth off ≠ 0) (v : Word) (s : State) :
    (ccbRead off (ccbSet off v s)).toNat = v.toNat % 2 ^ ccbWidth off := by
  have hv := v.isLt
  unfold ccbSet
  split
  case isTrue hvec =>
    have hw : ccbWidth off = 32 := if_pos (by omega)
    simp only [ccbRead, hvec, and_self, dite_true, Vector.getElem_set_self, hw]
    omega
  case isFalse =>
    split
    case h_27 =>
      rw [← ccbWritable_iff] at h
      simp only [ccbWritable, Bool.or_eq_true, decide_eq_true_eq, beq_iff_eq] at h
      simp only [imp_false] at *
      omega
    all_goals
      rename_i ho
      simp only [ccbRead, ccbWidth, ho, retiEntry_setRetiEntry, BitVec.toNat_setWidth, Nat.reduceLT, Nat.reduceLeDiff,
        Nat.reduceEqDiff, and_true, and_false, dite_false, reduceIte]
      omega

/-- Only the RETI registers show a change of the entry behind them. -/
theorem ccbRead_setRetiEntry {o : BitVec 8} {e : StackEntry} {s : State}
    (haddr : o.toNat = 0x28 → e.addr = (retiEntry s).addr) (hpsr : o.toNat = 0x29 → e.psr = (retiEntry s).psr)
    (hcr0 : o.toNat = 0x2A → e.cr0 = (retiEntry s).cr0) : ccbRead o (setRetiEntry e s) = ccbRead o s := by
  unfold ccbRead
  split
  · simp only [setRetiEntry_ccb]
  · split
    case h_29 ho => rw [retiEntry_setRetiEntry, haddr ho]
    case h_30 ho => rw [retiEntry_setRetiEntry, hpsr ho]
    case h_31 ho => rw [retiEntry_setRetiEntry, hcr0 ho]
    case h_32 => rw [setRetiEntry_freeCount]
    case h_33 => rfl
    all_goals rw [setRetiEntry_ccb]

/-- Every other offset reads as before. -/
theorem ccbRead_ccbSet_other {o off : BitVec 8} (h : o ≠ off) (v : Word) (s : State) :
    ccbRead o (ccbSet off v s) = ccbRead o s := by
  have hne : o.toNat ≠ off.toNat := fun e => h (BitVec.eq_of_toNat_eq e)
  unfold ccbSet
  split
  case isTrue hvec =>
    by_cases hvo : 4 ≤ o.toNat ∧ o.toNat < 16
    · simp only [ccbRead, hvo, and_self, dite_true]
      exact Vector.getElem_set_ne _ _ (by omega)
    · simp only [ccbRead, hvo, dite_false]
      rfl
  case isFalse =>
    split
    case h_24 ho => exact ccbRead_setRetiEntry (fun e => absurd (e.trans ho.symm) hne) (fun _ => rfl) fun _ => rfl
    case h_25 ho => exact ccbRead_setRetiEntry (fun _ => rfl) (fun e => absurd (e.trans ho.symm) hne) fun _ => rfl
    case h_26 ho => exact ccbRead_setRetiEntry (fun _ => rfl) (fun _ => rfl) fun e => absurd (e.trans ho.symm) hne
    case h_27 => rfl
    all_goals
      rename_i ho
      rw [ho] at hne
      unfold ccbRead
      split
      · rfl
      · split
        all_goals first | rfl | exact absurd ‹_› hne

/-! ## A `st` to the CCB -/

theorem ccbWrite_of_width {off : BitVec 8} (h : ccbWidth off ≠ 0) (v : Word) (s : State) :
    ccbWrite off v s =
      { ccbSet off v s with ccbInflight := { offset := off, old := ccbRead off s, age := 0 } :: s.ccbInflight } :=
  ccbWrite_of_writable ((ccbWritable_iff off).2 h) v s

theorem ccbWrite_of_noWidth {off : BitVec 8} (h : ccbWidth off = 0) (v : Word) (s : State) : ccbWrite off v s = s :=
  ccbWrite_of_readOnly ((ccbWritable_eq_false_iff off).2 h) v s

theorem ccbRead_ccbWrite_same {off : BitVec 8} (h : ccbWidth off ≠ 0) (v : Word) (s : State) :
    (ccbRead off (ccbWrite off v s)).toNat = v.toNat % 2 ^ ccbWidth off := by
  rw [ccbWrite_of_width h, ← ccbRead_ccbSet_same h v s]
  exact congrArg BitVec.toNat (ccbRead_congr rfl rfl rfl rfl off)

theorem ccbRead_ccbWrite_other {o off : BitVec 8} (h : o ≠ off) (v : Word) (s : State) :
    ccbRead o (ccbWrite off v s) = ccbRead o s := by
  by_cases hw : ccbWidth off = 0
  · rw [ccbWrite_of_noWidth hw]
  · rw [ccbWrite_of_width hw, ← ccbRead_ccbSet_other h v s]
    exact ccbRead_congr rfl rfl rfl rfl o

theorem ccbSet_hwstack_tail (off : BitVec 8) (v : Word) (s : State) :
    (ccbSet off v s).hwstack.tail = s.hwstack.tail := by
  rcases ccbSet_cases off v s with ⟨c, -, h⟩ | ⟨e, -, h⟩ <;> rw [h]
  exact setRetiEntry_hwstack_tail e s

theorem ccbSet_retiBase {s : State} (hs : s.hwstack ≠ []) (off : BitVec 8) (v : Word) :
    (ccbSet off v s).retiBase = s.retiBase := by
  rcases ccbSet_cases off v s with ⟨c, -, h⟩ | ⟨e, -, h⟩ <;> rw [h]
  exact setRetiEntry_retiBase hs e

theorem ccbWrite_hwstack_tail (off : BitVec 8) (v : Word) (s : State) :
    (ccbWrite off v s).hwstack.tail = s.hwstack.tail := by
  by_cases hw : ccbWidth off = 0
  · rw [ccbWrite_of_noWidth hw]
  · rw [ccbWrite_of_width hw]; exact ccbSet_hwstack_tail off v s

theorem ccbWrite_retiBase {s : State} (hs : s.hwstack ≠ []) (off : BitVec 8) (v : Word) :
    (ccbWrite off v s).retiBase = s.retiBase := by
  by_cases hw : ccbWidth off = 0
  · rw [ccbWrite_of_noWidth hw]
  · rw [ccbWrite_of_width hw]; exact ccbSet_retiBase hs off v

/-- A new write in flight is one instruction old when its own instruction has ended (log 11). -/
theorem ageCcb_cons_zero (off : BitVec 8) (old : Word) (l : List CcbWrite) :
    ageCcb 1 ({ offset := off, old := old, age := 0 } :: l) = { offset := off, old := old, age := 1 } :: ageCcb 1 l :=
  rfl

/-- An instruction ends where there is a next pc. -/
theorem retire_eq_ended {s : State} (h : CanAdvance s) : retire s = .next (ended none none false s) :=
  retireWith_next h none none false

/-- A data access raises nothing where it is in range and the mode may make it (R105). -/
theorem dataFault_eq_none {ea : Int} {s : State} (h0 : 0 ≤ ea) (h1 : ea < (2 : Int) ^ 32)
    (ha : s.psr.um = true → dataAllowed (BitVec.ofInt 32 ea) s = true) : dataFault ea s = none := by
  have hviolates : (s.psr.um && !dataAllowed (BitVec.ofInt 32 ea) s) = false := by
    cases hum : s.psr.um
    · rfl
    · rw [ha hum]; rfl
  unfold dataFault
  rw [hviolates, if_neg Bool.false_ne_true, if_neg (by omega)]

/-- An executed and allowed `st` into the CCB window. -/
theorem execSt_ccb {f : Form} {b a : Reg} {imm : Int} {s : State} {off : BitVec 8} (hx : executes f s = true)
    (hf : dataFault (effectiveAddress a imm s) s = none)
    (hw : windowOf (BitVec.ofInt 32 (effectiveAddress a imm s)) s = .ccb off) :
    execSt f b a imm s =
      if off = offCcbBase ∧ (readX b s).toNat % 256 ≠ 0 then .fault .ccbBaseUnaligned
      else retire (ccbWrite off (readX b s) s) := by
  unfold execSt
  rw [guarded_true hx]
  simp only [hf, memWrite, hw]
  by_cases hc : off = offCcbBase ∧ (readX b s).toNat % 256 ≠ 0
  · simp only [if_pos hc]
  · simp only [if_neg hc]

/-- Of the state behind the interrupts a `st` to the CCB changes only the entry behind an empty hardware stack. -/
theorem sameBehind_ccbWrite (off : BitVec 8) (v : Word) (s : State) :
    SameBehind s { ended none none false (ccbWrite off v s) with retiBase := s.retiBase } where
  retiBase := rfl
  extOffset := ccbWrite_extOffset s off v
  tmr0Div := ccbWrite_tmr0Div s off v
  tmr1Div := ccbWrite_tmr1Div s off v
  extHandler := ccbWrite_extHandler s off v
  bootSel := ccbWrite_bootSel s off v
  bootAddr := ccbWrite_bootAddr s off v
  stored := ccbWrite_stored s off v
  inputs := ccbWrite_inputs s off v
  freeCount := ccbWrite_freeCount s off v

/-- Settles O31: an executed and allowed `st` into the CCB window stops or is a `ccbWrite` that ends, and each field of
that is said by a lemma. -/
theorem storeCcb : Obligations.StoreCcb := by
  rintro f b a imm s hx hadv ea rfl h0 h1 ha off hw
  have hst := execSt_ccb (b := b) hx (dataFault_eq_none h0 h1 ha) hw
  refine ⟨fun hoff hv => hst.trans (if_pos ⟨hoff, hv⟩), fun hv => ?_⟩
  have hnext : exec (.st f b a imm) s = .next (ended none none false (ccbWrite off (readX b s) s)) := by
    refine hst.trans ((if_neg fun h => h.2 (hv h.1)).trans (retire_eq_ended ?_))
    exact hadv.congr (by simp) (by simp) (by simp)
  have hread (o : BitVec 8) : ccbRead o (ended none none false (ccbWrite off (readX b s) s)) =
      ccbRead o (ccbWrite off (readX b s) s) := ccbRead_congr rfl rfl rfl rfl o
  refine ⟨_, hnext, fun hwidth => ?_, fun hwidth => ?_, fun o ho => ?_, fun hwidth => ?_, fun hwidth => ?_,
    ⟨fun x => ?_, fun x => ?_⟩, ⟨fun two i => ?_, ?_⟩, fun j => ?_, ⟨ccbWrite_psr .., ccbWrite_diWindow ..⟩,
    ⟨ccbWrite_outputs .., ccbWrite_busToken ..⟩, ccbWrite_hwstack_length .., ccbWrite_hwstack_tail ..,
    ccbWrite_servOrder .., sameBehind_ccbWrite .., fun hs => ccbWrite_retiBase hs .., ccbWrite_acceptWait ..,
    followingPc_congr (by simp) (by simp) (by simp), rfl, rfl, rfl⟩
  · rw [hread]; exact ccbRead_ccbWrite_same hwidth _ _
  · rw [hread, ccbWrite_of_noWidth hwidth]
  · rw [hread]; exact ccbRead_ccbWrite_other ho _ _
  · rw [ended_ccbInflight, ccbWrite_of_width hwidth]
    exact ageCcb_cons_zero ..
  · rw [ended_ccbInflight, ccbWrite_of_noWidth hwidth]
  · simp only [readData_eq, ended_dmem, ccbWrite_dmem]
  · simp only [readCode_eq, ended_imem, ccbWrite_imem]
  · exact readSet_congr (by simp) (by simp) (by simp) (by simp) (by simp) two i
  · rw [ended_spsrInflight, ccbWrite_spsrInflight]
  · simp only [readCr, ended_cr, ccbWrite_cr]

end Sys2Proof.Machine

/-! SUPPORT. The reset state, the register sets and the condition codes. -/

namespace Sys2Proof.Machine

/-! ## Reset -/

/-- Settles O56: the reset state is a closed term; that it meets the invariants is what every reset leaves. -/
theorem invariantsAtReset : Obligations.InvariantsAtReset := by
  have hreset : coreReset State.reset = State.reset := rfl
  refine ⟨hreset, rfl, reset_memories_wf, ?_, ?_, ?_⟩
  · rw [← hreset]; exact serviceInv_coreReset _
  · exact setsLegal_handler
  · rw [← hreset]; exact (userInSet1_coreReset _).images

/-- Registers after a reset, PSR and SPSR apart (R95; log 5). -/
theorem readSet_false_coreReset (s : State) (i : Reg) : readSet false i (coreReset s) = 0#32 := by
  simp only [readSet, Bool.false_eq_true, if_false, coreReset_set1, State.reset, Vector.getElem_replicate]

theorem readSet_true_coreReset (s : State) {i : Reg} (h : i.toNat < 29 ∨ i = 31#5) :
    readSet true i (coreReset s) = 0#32 := by
  rcases h with h | rfl
  · simp only [readSet, if_true, h, dite_true, coreReset_set2, State.reset, Vector.getElem_replicate]
  · rfl

theorem readCr_coreReset (s : State) (k : CReg) : readCr k (coreReset s) = { z := false, n := false, c := false } := by
  simp only [readCr, coreReset_cr, State.reset, Vector.getElem_replicate]

/-- The vectors after a reset (R45). -/
theorem ccbRead_coreReset_vector (s : State) {o : BitVec 8} (h0 : 4 ≤ o.toNat) (h1 : o.toNat < 16) :
    ccbRead o (coreReset s) = 1#32 := by
  unfold ccbRead
  rw [dif_pos ⟨h0, h1⟩, coreReset_ccb]
  exact Vector.getElem_replicate _

/-- INT_MASK to DMEM_BOUND_LO, COP_CONF and the timers after a reset (R45). -/
theorem ccbRead_coreReset_zero (s : State) {o : BitVec 8}
    (h : 0x12 ≤ o.toNat ∧ o.toNat < 0x1B ∨ 0x22 ≤ o.toNat ∧ o.toNat < 0x28) : ccbRead o (coreReset s) = 0#32 := by
  unfold ccbRead
  rw [dif_neg (by omega)]
  split
  case h_33 =>
    simp only [imp_false] at *
    omega
  all_goals first | rfl | omega

/-- Settles O1: registers, the CCB by ranges of offsets, and the rest as the reset state holds it. -/
theorem resetLeaves : Obligations.ResetLeaves := by
  rintro s _ rfl
  refine ⟨readSet_false_coreReset s, fun i => readSet_true_coreReset s, handler_toByte, rfl, readCr_coreReset s,
    rfl, rfl, rfl, rfl, rfl, rfl, fun k => ?_, rfl, rfl, rfl, rfl, rfl, rfl, rfl, rfl, rfl,
    fun o => ccbRead_coreReset_vector s, rfl, rfl, fun o h0 h1 => ccbRead_coreReset_zero s (.inl ⟨h0, h1⟩),
    rfl, rfl, rfl, rfl, rfl, rfl, rfl, fun o h0 h1 => ccbRead_coreReset_zero s (.inr ⟨h0, h1⟩), rfl, rfl, rfl,
    fun o ho => ccbRead_unused ho _, ⟨fun a => rfl, fun a => rfl⟩, rfl, rfl, rfl, rfl, rfl, rfl, rfl, rfl, rfl⟩
  exact Vector.getElem_replicate _

/-! ## The register sets -/

/-- Register `i` of SET 1 (R21). -/
theorem readSet_false (s : State) (i : Reg) : readSet false i s = s.set1[i.toNat]'i.isLt := rfl

/-- PR0..PR28 (R22). -/
theorem readSet_true_gpr (s : State) {i : Reg} (h : i.toNat < 29) : readSet true i s = s.set2[i.toNat]'h := by
  simp only [readSet, if_true, h, dite_true]

/-- PSR as a number, a bit each (R23). -/
theorem toByte_setWidth (p : Psr) : p.toByte.setWidth 32 =
    BitVec.ofNat 32 (16 * p.ie.toNat + 8 * p.il.toNat + 4 * p.rswr.toNat + 2 * p.rsrd.toNat + p.um.toNat) := by
  obtain ⟨ie, il, rswr, rsrd, um⟩ := p
  revert ie il rswr rsrd um
  decide

/-- A source register is read from the set that RSRD selects (R26). -/
theorem readX_of_rsrd {s : State} {two : Bool} (h : s.psr.rsrd = two) (i : Reg) : readX i s = readSet two i s := by
  rw [readX, h]

/-- Settles O7: a read by the set that RSRD selects and the register's number, and `mov` by the rule of an instruction
that writes one register. -/
theorem registerSetsAndMove : Obligations.RegisterSetsAndMove := by
  intro s i
  refine ⟨rfl, readSet_false s i, fun h => readSet_true_gpr s h, ?_, ?_, ?_, fun hr => readX_of_rsrd hr i,
    fun hr h => (readX_of_rsrd hr i).trans (readSet_true_gpr s h), fun hr => ?_, fun hr => ?_, fun hr => ?_,
    fun f d hx hadv => ?_⟩
  · rintro rfl; rfl
  · rintro rfl; rfl
  · rintro rfl; rfl
  · rintro rfl; exact (readX_of_rsrd hr _).trans (toByte_setWidth s.psr)
  · rintro rfl; exact readX_of_rsrd hr _
  · rintro rfl; exact readX_of_rsrd hr _
  · obtain ⟨t, ht, hgives⟩ := writeResult_next hadv d (readX i s)
    exact ⟨t, (guarded_true hx _).trans ht, hgives⟩

/-! ## The condition codes -/

/-- The table of R37, by code. -/
theorem condTrue_ofBits_iff (b : BitVec 3) (f : Flags) : condTrue (Cond.ofBits b) f = true ↔
    (b = 0b000#3 ∧ f.c = true) ∨ (b = 0b001#3 ∧ (f.z = true ∨ f.n = false)) ∨
    (b = 0b010#3 ∧ (f.z = true ∨ f.n = true)) ∨ (b = 0b011#3 ∧ f.z = true) ∨
    (b = 0b100#3 ∧ f.z = false ∧ f.n = false) ∨ (b = 0b101#3 ∧ f.z = false ∧ f.n = true) ∨
    (b = 0b110#3 ∧ f.z = false) ∨ (b = 0b111#3 ∧ f.c = false) := by
  obtain ⟨z, n, c⟩ := f
  revert b z n c
  decide

theorem bits_ofBits (b : BitVec 3) : (Cond.ofBits b).bits = b := by
  revert b; decide

/-- The branch of a condition, as every one of the eight runs (R251 to R258). -/
theorem exec_branchOf (cond : Cond) (w : Width) (k : CReg) (imm : Int) (s : State) :
    exec (branchOf cond w k imm) s = branch cond k imm s := by
  cases cond <;> rfl

/-- A branch whose condition holds is a `jmp` (R249). -/
theorem branch_of_condTrue {cond : Cond} {k : CReg} {s : State} (h : condTrue cond (readCr k s) = true) (imm : Int) :
    branch cond k imm s = notInSlot (fun s => transfer true (relativeTarget imm s) s) s := by
  simp only [branch, notInSlot, h, if_true]

/-- A branch whose condition does not hold only ends, outside a slot (R246, R248). -/
theorem branch_of_not_condTrue {cond : Cond} {k : CReg} {s : State} (h : condTrue cond (readCr k s) = false)
    (hd : s.delayedPc = none) (imm : Int) : branch cond k imm s = notTaken s := by
  simp only [branch, notInSlot, h, hd, Option.isSome_none, Bool.false_eq_true, if_false]

/-- Settles O6: the table of R37 on all codes and flags, and a branch by whether its condition holds. -/
theorem conditionCodes : Obligations.ConditionCodes := by
  intro b k s
  refine ⟨condTrue_ofBits_iff b (readCr k s), bits_ofBits b, rfl, rfl, fun w imm => ⟨fun h => ?_, fun h hd hadv => ?_⟩⟩
  · rw [exec_branchOf]
    exact branch_of_condTrue h imm
  · rw [exec_branchOf, branch_of_not_condTrue h hd]
    exact retire_next hadv true

end Sys2Proof.Machine

/-! SUPPORT. SET 2 behind user mode (`10_state.md` R28): an instruction that reads and writes SET 1 commutes with
putting other contents into PR0..PR28, SPSR and PR31. -/

namespace Sys2Proof.Machine

/-- The state with other contents of PR0..PR28, SPSR and PR31. -/
def withSet2 (p : Vector Word 29) (q r : Word) (s : State) : State := { s with set2 := p, spsr := q, pr31 := r }

/-- An outcome whose next state, if there is one, is changed. -/
def onNext (g : State → State) : Result → Result
  | .next t => .next (g t)
  | .fault why => .fault why
  | .refused why => .refused why

/-- `k` does at `s` the same to everything else whatever SET 2 holds. -/
structure Blind (k : State → Result) (s : State) : Prop where
  commutes : ∀ p q r, k (withSet2 p q r s) = onNext (withSet2 p q r) (k s)

/-- PSR selects SET 1 for reading and for writing. -/
structure InSet1 (s : State) : Prop where
  writes : s.psr.rswr = false
  reads : s.psr.rsrd = false

/-- What is blind leaves SET 2 alone: put back what it holds. -/
theorem Blind.frame {k : State → Result} {s t : State} (h : Blind k s) (ht : k s = .next t) :
    t.set2 = s.set2 ∧ t.spsr = s.spsr ∧ t.pr31 = s.pr31 := by
  have hself : k s = onNext (withSet2 s.set2 s.spsr s.pr31) (k s) := h.commutes s.set2 s.spsr s.pr31
  rw [ht] at hself
  have heq : t = withSet2 s.set2 s.spsr s.pr31 t := Host.Outcome.next.inj hself
  exact ⟨by rw [heq]; rfl, by rw [heq]; rfl, by rw [heq]; rfl⟩

section
variable {s : State} {k : State → Result} (p : Vector Word 29) (q r : Word)

/-! ## What does not depend on SET 2 -/

theorem readX_withSet2 (h : InSet1 s) (i : Reg) : readX i (withSet2 p q r s) = readX i s := by
  have hr : (withSet2 p q r s).psr.rsrd = false := h.reads
  rw [readX_of_rsrd hr, readX_of_rsrd h.reads]
  rfl

theorem readTarget_withSet2 (h : InSet1 s) (i : Reg) : readTarget i (withSet2 p q r s) = readTarget i s := by
  have hr : (withSet2 p q r s).psr.rswr = false := h.writes
  rw [readTarget, readTarget, hr, h.writes]
  rfl

theorem seen_withSet2 (use : CcbUse) (off : BitVec 8) (s : State) : seen use off (withSet2 p q r s) = seen use off s :=
  seen_congr rfl rfl rfl rfl rfl use off

theorem instrAllowed_withSet2 (use : CcbUse) (a : Word) (s : State) :
    instrAllowed use a (withSet2 p q r s) = instrAllowed use a s := by
  simp only [instrAllowed, seen_withSet2]

theorem dataAllowed_withSet2 (a : Word) (s : State) : dataAllowed a (withSet2 p q r s) = dataAllowed a s := by
  simp only [dataAllowed, seen_withSet2]

theorem windowOf_withSet2 (a : Word) (s : State) : windowOf a (withSet2 p q r s) = windowOf a s := by
  simp only [windowOf, seen_withSet2]

theorem dataFault_withSet2 (ea : Int) (s : State) : dataFault ea (withSet2 p q r s) = dataFault ea s := by
  simp only [dataFault, dataAllowed_withSet2]
  rfl

theorem transferFault_withSet2 (relative : Bool) (a : Int) (s : State) :
    transferFault relative a (withSet2 p q r s) = transferFault relative a s := by
  simp only [transferFault, instrAllowed_withSet2]
  rfl

theorem effectiveAddress_withSet2 (h : InSet1 s) (a : Reg) (imm : Int) :
    effectiveAddress a imm (withSet2 p q r s) = effectiveAddress a imm s := by
  simp only [effectiveAddress, readX_withSet2 p q r h]

theorem memRead_withSet2 (a : Word) (s : State) : memRead a (withSet2 p q r s) = memRead a s := by
  unfold memRead
  rw [windowOf_withSet2]
  cases windowOf a s with
  | ccb off => exact ccbRead_congr rfl rfl rfl rfl off
  | pcb | mem => rfl

theorem retiFollows_withSet2 (s : State) : retiFollows (withSet2 p q r s) = retiFollows s := by
  have hcode := codeBytes_congr (s := s) (t := withSet2 p q r s) rfl
  simp only [retiFollows, hcode]
  rfl

theorem slotFault_withSet2 (why : Fault) (n : Nat) (w : Width) (a : Nat) (s : State) :
    slotFault why n w a (withSet2 p q r s) = slotFault why n w a s := by
  have hcode := codeBytes_congr (s := s) (t := withSet2 p q r s) rfl
  simp only [slotFault, isNopAt, instrAllowed_withSet2, hcode]
  rfl

theorem slotsFault_withSet2 (why : Fault) (n first : Nat) (s : State) :
    slotsFault why n first (withSet2 p q r s) = slotsFault why n first s := by
  induction n generalizing first with
  | zero => rfl
  | succ n ih =>
    unfold slotsFault
    rw [slotFault_withSet2, ih]
    rfl

/-! ## What commutes with a change of SET 2 -/

theorem writeX_withSet2 (h : InSet1 s) (d : Reg) (v : Word) :
    writeX d v (withSet2 p q r s) = withSet2 p q r (writeX d v s) := by
  have hw : (withSet2 p q r s).psr.rswr = false := h.writes
  rw [writeX, writeX, hw, h.writes]
  rfl

theorem setRetiEntry_withSet2 (e : StackEntry) (s : State) :
    setRetiEntry e (withSet2 p q r s) = withSet2 p q r (setRetiEntry e s) := by
  have hs : (withSet2 p q r s).hwstack = s.hwstack := rfl
  unfold setRetiEntry
  rw [hs]
  cases s.hwstack <;> rfl

theorem ccbSet_withSet2 (off : BitVec 8) (v : Word) (s : State) :
    ccbSet off v (withSet2 p q r s) = withSet2 p q r (ccbSet off v s) := by
  unfold ccbSet
  split
  · rfl
  · split
    case h_24 | h_25 | h_26 => exact setRetiEntry_withSet2 p q r _ s
    all_goals rfl

theorem ccbWrite_withSet2 (off : BitVec 8) (v : Word) (s : State) :
    ccbWrite off v (withSet2 p q r s) = withSet2 p q r (ccbWrite off v s) := by
  cases hw : ccbWritable off with
  | false => rw [ccbWrite_of_readOnly hw, ccbWrite_of_readOnly hw]
  | true =>
    have hr : ccbRead off (withSet2 p q r s) = ccbRead off s := ccbRead_congr rfl rfl rfl rfl off
    rw [ccbWrite_of_writable hw, ccbWrite_of_writable hw, ccbSet_withSet2, hr]
    rfl

theorem memWrite_withSet2 (a v : Word) (s : State) :
    memWrite a v (withSet2 p q r s) = (memWrite a v s).map (withSet2 p q r) := by
  unfold memWrite
  rw [windowOf_withSet2]
  cases windowOf a s with
  | ccb off =>
    simp only [ccbWrite_withSet2]
    split <;> rfl
  | pcb | mem => rfl

theorem readEffect_withSet2 (a : Word) (s : State) :
    readEffect a (withSet2 p q r s) = withSet2 p q r (readEffect a s) := by
  unfold readEffect
  rw [windowOf_withSet2]
  cases windowOf a s <;> rfl

theorem returnFromInterrupt_withSet2 (s : State) :
    returnFromInterrupt (withSet2 p q r s) = withSet2 p q r (returnFromInterrupt s) := by
  simp only [returnFromInterrupt, seen_withSet2]
  rfl

theorem retireWith_withSet2 (delayed mulHi : Option Word) (block : Bool) (s : State) :
    retireWith delayed mulHi block (withSet2 p q r s) = onNext (withSet2 p q r) (retireWith delayed mulHi block s) := by
  have hn : nextPc (withSet2 p q r s) = nextPc s := rfl
  unfold retireWith
  rw [hn]
  cases nextPc s <;> rfl

theorem raise_withSet2 (c : BitVec 8) (s : State) :
    raise c (withSet2 p q r s) = onNext (withSet2 p q r) (raise c s) := by
  simp only [raise, takeException, seen_withSet2]
  rfl

theorem raiseData_withSet2 (c : BitVec 8) (s : State) :
    raiseData c (withSet2 p q r s) = onNext (withSet2 p q r) (raiseData c s) := by
  have hstack : (withSet2 p q r s).hwstack = s.hwstack := rfl
  have hcount : (withSet2 p q r s).freeCount = s.freeCount := rfl
  have hpop : popStack (withSet2 p q r s) = withSet2 p q r (popStack s) := rfl
  unfold raiseData
  rw [retiFollows_withSet2, hstack, hcount, hpop]
  split
  · split <;> exact raise_withSet2 ..
  · exact raise_withSet2 ..

end

/-! ## Blind operations -/

section
variable {s : State} {k : State → Result}

theorem blind_raise (c : BitVec 8) (s : State) : Blind (raise c) s := ⟨fun p q r => raise_withSet2 p q r c s⟩

/-- An instruction that changes the state blindly and ends. -/
theorem blind_retireWith {u : State → State} {delayed mulHi : State → Option Word} {block : Bool}
    (hd : ∀ p q r, delayed (withSet2 p q r s) = delayed s) (hm : ∀ p q r, mulHi (withSet2 p q r s) = mulHi s)
    (hu : ∀ p q r, u (withSet2 p q r s) = withSet2 p q r (u s)) :
    Blind (fun s => retireWith (delayed s) (mulHi s) block (u s)) s := by
  refine ⟨fun p q r => ?_⟩
  simp only [hd, hm, hu]
  exact retireWith_withSet2 ..

theorem blind_retire {u : State → State} (hu : ∀ p q r, u (withSet2 p q r s) = withSet2 p q r (u s)) :
    Blind (fun s => retire (u s)) s :=
  blind_retireWith (delayed := fun _ => none) (mulHi := fun _ => none) (fun _ _ _ => rfl) (fun _ _ _ => rfl) hu

/-- An instruction that writes a register, after an effect that leaves PSR alone. -/
theorem blind_writeResult (h : InSet1 s) {d : Reg} {v : State → Word} {u : State → State}
    (hv : ∀ p q r, v (withSet2 p q r s) = v s) (hu : ∀ p q r, u (withSet2 p q r s) = withSet2 p q r (u s))
    (hpsr : (u s).psr = s.psr) : Blind (fun s => writeResult d (v s) (u s)) s := by
  have hset : InSet1 (u s) := ⟨by rw [hpsr]; exact h.writes, by rw [hpsr]; exact h.reads⟩
  refine blind_retire fun p q r => ?_
  rw [hv, hu, writeX_withSet2 p q r hset]

theorem blind_result (h : InSet1 s) {d : Reg} {v : State → Word} (hv : ∀ p q r, v (withSet2 p q r s) = v s) :
    Blind (fun s => writeResult d (v s) s) s :=
  blind_writeResult h (u := fun s => s) hv (fun _ _ _ => rfl) rfl

theorem blind_flagged (h : InSet1 s) {d : Reg} {v : State → Word} {fl : State → Flags}
    (hv : ∀ p q r, v (withSet2 p q r s) = v s) (hf : ∀ p q r, fl (withSet2 p q r s) = fl s) :
    Blind (fun s => writeFlagged d (v s) (fl s) s) s := by
  refine blind_retire fun p q r => ?_
  rw [hv, hf, writeX_withSet2 p q r h]
  rfl

theorem blind_multiply (h : InSet1 s) {d : Reg} {n : State → Int} (hn : ∀ p q r, n (withSet2 p q r s) = n s) :
    Blind (fun s => multiply d (n s) s) s := by
  refine blind_retireWith (delayed := fun _ => none) (fun _ _ _ => rfl) (fun p q r => ?_) fun p q r => ?_
  · rw [hn]
  · rw [hn, writeX_withSet2 p q r h]

theorem blind_addChecked (h : InSet1 s) {d : Reg} {a b : State → Word} (ha : ∀ p q r, a (withSet2 p q r s) = a s)
    (hb : ∀ p q r, b (withSet2 p q r s) = b s) : Blind (fun s => addChecked d (a s) (b s) s) s := by
  refine ⟨fun p q r => ?_⟩
  simp only [ha, hb, addChecked]
  split
  · exact raise_withSet2 ..
  · exact (blind_flagged h (v := fun _ => a s + b s) (fl := fun _ => addFlags (a s) (b s)) (fun _ _ _ => rfl)
      fun _ _ _ => rfl).commutes p q r

theorem blind_subChecked (h : InSet1 s) {d : Reg} {a b : State → Word} (ha : ∀ p q r, a (withSet2 p q r s) = a s)
    (hb : ∀ p q r, b (withSet2 p q r s) = b s) : Blind (fun s => subChecked d (a s) (b s) s) s := by
  refine ⟨fun p q r => ?_⟩
  simp only [ha, hb, subChecked]
  split
  · exact raise_withSet2 ..
  · exact (blind_flagged h (v := fun _ => a s - b s) (fl := fun _ => subFlags (a s) (b s)) (fun _ _ _ => rfl)
      fun _ _ _ => rfl).commutes p q r

theorem blind_guarded (f : Form) (h : Blind k s) : Blind (guarded f k) s := by
  refine ⟨fun p q r => ?_⟩
  have hx : executes f (withSet2 p q r s) = executes f s := rfl
  unfold guarded
  rw [hx]
  split
  · exact h.commutes p q r
  · exact retireWith_withSet2 ..

theorem blind_wideOnly (h : Blind k s) : Blind (wideOnly k) s := by
  refine ⟨fun p q r => ?_⟩
  have hpsr : (withSet2 p q r s).psr = s.psr := rfl
  unfold wideOnly
  rw [hpsr]
  split
  · exact h.commutes p q r
  · exact raise_withSet2 ..

theorem blind_notInSlot (h : Blind k s) : Blind (notInSlot k) s := by
  refine ⟨fun p q r => ?_⟩
  have hd : (withSet2 p q r s).delayedPc = s.delayedPc := rfl
  unfold notInSlot
  rw [hd]
  split
  · rfl
  · exact h.commutes p q r

/-- What only super user mode may do is an exception in user mode (R341). -/
theorem blind_superOnly (hum : s.psr.um = true) (k : State → Result) : Blind (superOnly k) s := by
  refine ⟨fun p q r => ?_⟩
  have hpsr : (withSet2 p q r s).psr = s.psr := rfl
  unfold superOnly
  rw [hpsr, hum]
  exact raise_withSet2 ..

theorem blind_transfer {relative : Bool} {a : State → Int} (ha : ∀ p q r, a (withSet2 p q r s) = a s) :
    Blind (fun s => transfer relative (a s) s) s := by
  refine ⟨fun p q r => ?_⟩
  simp only [ha, transfer, transferFault_withSet2]
  split
  · exact raise_withSet2 ..
  · exact retireWith_withSet2 ..

theorem blind_transferLink (h : InSet1 s) {relative : Bool} {a : State → Int}
    (ha : ∀ p q r, a (withSet2 p q r s) = a s) : Blind (fun s => transferLink relative (a s) s) s := by
  refine ⟨fun p q r => ?_⟩
  have hl : linkAddress (withSet2 p q r s) = linkAddress s := rfl
  simp only [ha, hl, transferLink, transferFault_withSet2, writeX_withSet2 p q r h]
  split
  · exact raise_withSet2 ..
  · exact retireWith_withSet2 ..

theorem blind_branch (cond : Cond) (c : CReg) (imm : Int) (s : State) : Blind (branch cond c imm) s := by
  refine blind_notInSlot ⟨fun p q r => ?_⟩
  have hc : readCr c (withSet2 p q r s) = readCr c s := rfl
  simp only [hc]
  split
  · exact (blind_transfer (a := relativeTarget imm) fun _ _ _ => rfl).commutes p q r
  · exact retireWith_withSet2 ..

/-! ### Instructions of their own shape -/

theorem blind_execMulhi (h : InSet1 s) (f : Form) (d : Reg) : Blind (execMulhi f d) s := by
  refine blind_guarded f ⟨fun p q r => ?_⟩
  have hm : (withSet2 p q r s).mulHi = s.mulHi := rfl
  simp only [hm]
  cases s.mulHi with
  | none => rfl
  | some v => exact (blind_result h (v := fun _ => v) fun _ _ _ => rfl).commutes p q r

theorem blind_execLd (h : InSet1 s) (f : Form) (d a : Reg) (imm : Int) : Blind (execLd f d a imm) s := by
  refine blind_guarded f ⟨fun p q r => ?_⟩
  simp only [effectiveAddress_withSet2 p q r h, dataFault_withSet2]
  split
  · exact raiseData_withSet2 ..
  · refine (blind_writeResult h (fun _ _ _ => memRead_withSet2 ..) (fun _ _ _ => readEffect_withSet2 ..)
      ?_).commutes p q r
    rcases readEffect_cases (BitVec.ofInt 32 (effectiveAddress a imm s)) s with ⟨_, -, hr⟩ | ⟨_, -, hr⟩ | ⟨-, hr⟩ <;>
      rw [hr]

theorem blind_execSt (h : InSet1 s) (f : Form) (b a : Reg) (imm : Int) : Blind (execSt f b a imm) s := by
  refine blind_guarded f ⟨fun p q r => ?_⟩
  simp only [effectiveAddress_withSet2 p q r h, readX_withSet2 p q r h, dataFault_withSet2, memWrite_withSet2]
  split
  · exact raiseData_withSet2 ..
  · cases memWrite (BitVec.ofInt 32 (effectiveAddress a imm s)) (readX b s) s with
    | none => rfl
    | some t => exact retireWith_withSet2 ..

theorem blind_execJmpr (h : InSet1 s) (f : Form) (a : Reg) : Blind (execJmpr f a) s := by
  refine ⟨fun p q r => ?_⟩
  have hx : executes f (withSet2 p q r s) = executes f s := rfl
  unfold execJmpr
  rw [hx]
  split
  · refine (blind_notInSlot (blind_transfer fun p q r => ?_)).commutes p q r
    rw [readX_withSet2 p q r h]
  · exact retireWith_withSet2 ..

theorem blind_execJalr (h : InSet1 s) (f : Form) (a : Reg) : Blind (execJalr f a) s := by
  refine ⟨fun p q r => ?_⟩
  have hx : executes f (withSet2 p q r s) = executes f s := rfl
  unfold execJalr
  rw [hx]
  split
  · refine (blind_notInSlot (blind_transferLink h fun p q r => ?_)).commutes p q r
    rw [readX_withSet2 p q r h]
  · exact retireWith_withSet2 ..

theorem blind_switchMode (wide : Bool) (s : State) : Blind (switchMode wide) s := by
  refine ⟨fun p q r => ?_⟩
  have hslot : swmSlot2 wide (withSet2 p q r s) = swmSlot2 wide s := rfl
  have hpsr : (withSet2 p q r s).psr = s.psr := rfl
  have hpc : (withSet2 p q r s).pc = s.pc := rfl
  have hlen : (withSet2 p q r s).ilen = s.ilen := rfl
  simp only [switchMode, slotFault_withSet2, hslot, hpsr, hpc, hlen]
  split
  · rfl
  · split
    · rfl
    · split <;> rfl

theorem blind_execSwm (w : Width) (imm : BitVec 6) (s : State) : Blind (execSwm w imm) s := by
  refine blind_notInSlot ⟨fun p q r => ?_⟩
  split
  · exact (blind_switchMode ..).commutes p q r
  · split
    · exact (blind_switchMode ..).commutes p q r
    · rfl

theorem blind_execReti (w : Width) (s : State) : Blind (execReti w) s := by
  refine blind_notInSlot ⟨fun p q r => ?_⟩
  have hstack : (withSet2 p q r s).hwstack = s.hwstack := rfl
  simp only [hstack, slotsFault_withSet2, returnFromInterrupt_withSet2]
  split
  · rfl
  · split <;> rfl

end

/-- In user mode on SET 1 every instruction but `scall` is blind to SET 2. -/
theorem exec_blind {s : State} (hum : s.psr.um = true) (h : InSet1 s) {i : Instr} (hi : ∀ f, i ≠ .scall f) :
    Blind (exec i) s := by
  have hread (a : Reg) (p : Vector Word 29) (q r : Word) := readX_withSet2 p q r h a
  refine ⟨fun p q r => ?_⟩
  cases i with
  | add | addi =>
    simp only [exec, execAdd, execAddi]
    exact (blind_guarded _ (blind_addChecked h (fun p q r => by simp only [hread])
      fun p q r => by simp only [hread])).commutes p q r
  | sub =>
    simp only [exec, execSub]
    exact (blind_guarded _ (blind_subChecked h (fun p q r => by simp only [hread])
      fun p q r => by simp only [hread])).commutes p q r
  | addiu | addu | subu | sll | slli =>
    simp only [exec, execAddiu, execAddu, execSubu, execSll, execSlli]
    exact (blind_guarded _ (blind_flagged h (fun p q r => by simp only [hread])
      fun p q r => by simp only [hread])).commutes p q r
  | muli | muls | mulu | mulus =>
    simp only [exec, execMuli, execMuls, execMulu, execMulus]
    exact (blind_guarded _ (blind_multiply h fun p q r => by simp only [hread])).commutes p q r
  | muls16 | mulu16 | mulus16 | exb | exh | sext | sexti | conb | conh | and | andi | not | or | ori | xor | sra
  | srai | srl | srli | mov =>
    simp only [exec, execMuls16, execMulu16, execMulus16, execExb, execExh, execSext, execSexti, execConb, execConh,
      execAnd, execAndi, execNot, execOr, execOri, execXor, execSra, execSrai, execSrl, execSrli, execMov]
    exact (blind_guarded _ (blind_result h fun p q r => by simp only [hread])).commutes p q r
  | exbf =>
    simp only [exec, execExbf]
    exact (blind_guarded _ (blind_result h fun p q r => by simp only [hread]; rfl)).commutes p q r
  | exbfi =>
    simp only [exec, execExbfi]
    exact (blind_wideOnly (blind_result h fun p q r => by simp only [hread]; rfl)).commutes p q r
  | lli =>
    simp only [exec, execLli]
    exact (blind_wideOnly (blind_result h (v := fun _ => _) fun _ _ _ => rfl)).commutes p q r
  | lui =>
    simp only [exec, execLui]
    exact (blind_wideOnly (blind_result h fun p q r => by simp only [readTarget_withSet2 p q r h])).commutes p q r
  | scon =>
    simp only [exec, execScon]
    exact (blind_result h (v := fun s => packFlags s.cr) fun _ _ _ => rfl).commutes p q r
  | movtc =>
    simp only [exec, execMovtc]
    exact (blind_guarded _ (blind_retire fun p q r => by simp only [hread]; rfl)).commutes p q r
  | movfc =>
    simp only [exec, execMovfc]
    exact (blind_guarded _ (blind_writeResult h (fun _ _ _ => rfl) (fun _ _ _ => rfl) rfl)).commutes p q r
  | cop =>
    simp only [exec, execCop]
    exact (blind_wideOnly (blind_retire fun p q r => by simp only [seen_withSet2]; rfl)).commutes p q r
  | chrs | di | ei =>
    simp only [exec, execChrs, execDi, execEi]
    exact (blind_superOnly hum _).commutes p q r
  | nop => exact retireWith_withSet2 ..
  | rcon w a =>
    simp only [exec, execRcon, hread]
    exact retireWith_withSet2 p q r none none false { s with cr := unpackFlags (readX a s) }
  | cmp w c a b =>
    simp only [exec, execCmp, hread]
    exact retireWith_withSet2 p q r none none false (setCr c (cmpFlags (readX a s) (readX b s)) s)
  | cmpi w c a imm =>
    simp only [exec, execCmpi, hread]
    exact retireWith_withSet2 p q r none none false (setCr c (cmpFlags (readX a s) (sext imm)) s)
  | bc | begt | belt | beq | bgt | blt | bne | bnc => exact (blind_branch ..).commutes p q r
  | jal w imm =>
    exact (blind_notInSlot (blind_transferLink h (a := relativeTarget imm) fun _ _ _ => rfl)).commutes p q r
  | jmp w imm => exact (blind_notInSlot (blind_transfer (a := relativeTarget imm) fun _ _ _ => rfl)).commutes p q r
  | jalr => exact (blind_execJalr h ..).commutes p q r
  | jmpr => exact (blind_execJmpr h ..).commutes p q r
  | mulhi => exact (blind_execMulhi h ..).commutes p q r
  | ld => exact (blind_execLd h ..).commutes p q r
  | st => exact (blind_execSt h ..).commutes p q r
  | swm w imm => exact (blind_execSwm w imm s).commutes p q r
  | reti w => exact (blind_execReti w s).commutes p q r
  | retu => exact (blind_superOnly hum _).commutes p q r
  | scall f => exact absurd rfl (hi f)
  | trap => exact raise_withSet2 ..

/-- Settles O59: such an instruction is blind to SET 2, and what is blind leaves SET 2 alone. -/
theorem userModeIgnoresSet2 : Obligations.UserModeIgnoresSet2 := by
  intro i s t p q r hum hlegal hi he
  obtain ⟨hwrites, hreads⟩ := hlegal hum
  have hblind : Blind (exec i) s := exec_blind hum ⟨hwrites, hreads⟩ hi
  obtain ⟨hset2, hspsr, hpr31⟩ := hblind.frame he
  refine ⟨hset2, hspsr, hpr31, (hblind.commutes p q r).trans ?_⟩
  rw [he]
  rfl

end Sys2Proof.Machine

/-! SUPPORT. The canonical form of both memories, step by step (`20_memory.md` R101, R113). -/

namespace Sys2Proof.Machine

/-- Whatever leaves both memories alone keeps their form. -/
theorem Canonical.congr {s t : State} (h : Canonical s) (himem : t.imem = s.imem) (hdmem : t.dmem = s.dmem) :
    Canonical t := by
  obtain ⟨hi, hd⟩ := h
  exact ⟨by rw [himem]; exact hi, by rw [hdmem]; exact hd⟩

theorem Canonical.writeData {s : State} (h : Canonical s) (a v : Word) : Canonical (s.writeData a v) := by
  obtain ⟨hi, hd⟩ := h
  exact ⟨hi, writeData_wf hd a v⟩

/-- Of all instructions only a store to data memory changes a memory. -/
theorem Canonical.of_did {i : Instr} {s t : State} (h : Canonical s) (hd : Did i s t) : Canonical t := by
  cases hd with
  | nothing | exception | exceptionPopped | sets | disables | enables | switches | returns | toUser | calls =>
    exact h.congr rfl rfl
  | register d v cr outs tok => exact h.congr (by simp [touched]) (by simp [touched])
  | ccb => exact h.congr (by simp) (by simp)
  | memory => exact (h.writeData _ _).congr rfl rfl

theorem Canonical.runInstruction {s t : State} (h : Canonical s) (hr : runInstruction s = .next t) :
    Canonical t := by
  rcases runInstruction_cases hr with ⟨c, rfl | rfl⟩ | ⟨i, -, -, he⟩
  · exact h.congr rfl rfl
  · exact h.congr rfl rfl
  · exact h.of_did (exec_did he)

theorem Canonical.interruptEntry {src : Source} {s t : State} (h : Canonical s)
    (he : interruptEntry src s = .next t) : Canonical t := by
  unfold Machine.interruptEntry at he
  split at he
  · cases he
  · cases he; exact h.congr rfl rfl

theorem Canonical.applyEvent {s : State} (e : EnvEvent) (h : Canonical s) : Canonical (applyEvent e s) := by
  rcases applyEvent_cases e s with ⟨_, _, he⟩ | he | ⟨_, he⟩ | ⟨a, v, he⟩ <;> rw [he]
  · exact h.congr rfl rfl
  · exact h.congr rfl rfl
  · exact h.congr rfl rfl
  · exact h.writeData a v

theorem Canonical.ticked {s t : State} (ht : Ticked s t) (h : Canonical s) : Canonical t := by
  obtain ⟨_, _, _, _, _, _, rfl⟩ := ht.eq
  exact h.congr rfl rfl

theorem Canonical.beforeBoundary {s : State} (h : Canonical s) : Canonical (beforeBoundary s) :=
  beforeBoundary_keeps (P := Canonical) (fun _ _ h => h.congr rfl rfl) (fun _ _ h => h.congr rfl rfl)
    (fun e _ h => h.applyEvent e) (fun _ h => h.congr rfl rfl) (fun _ _ ht h => h.ticked ht) h

/-- Settles O53: memories change only where another master or a `st` writes a cell of data memory, and a write keeps the
canonical form. -/
theorem memoryStaysCanonical : Obligations.MemoryStaysCanonical := by
  intro s t h hstep
  have hb := h.beforeBoundary
  rcases step_cases hstep with ⟨src, -, he⟩ | ⟨wait, hr⟩
  · exact hb.interruptEntry he
  · refine Canonical.runInstruction ?_ hr
    exact hb.congr rfl rfl

end Sys2Proof.Machine

/-! SUPPORT. Windows, protection, and the exceptions of fetches and data accesses (`20_memory.md` R104, R105, R111,
R116, R117). -/

namespace Sys2Proof.Machine

/-! ## Protection -/

/-- The range of R116 and R117, ends included. -/
theorem rangeAllowed_iff (protectInside : Bool) (lo hi a : Word) :
    rangeAllowed protectInside lo hi a = true ↔
      if protectInside = true then ¬(lo.toNat ≤ a.toNat ∧ a.toNat ≤ hi.toNat)
      else lo.toNat ≤ a.toNat ∧ a.toNat ≤ hi.toNat := by
  cases protectInside with
  | false => simp [rangeAllowed]
  | true => simp [rangeAllowed, Decidable.imp_iff_not_or]

/-- A range that is the whole address space, protected inside, allows nothing. -/
theorem rangeAllowed_all (a : Word) : rangeAllowed true 0#32 0xFFFFFFFF#32 a = false := by
  have ha : a.toNat ≤ 0xFFFFFFFF := Nat.le_of_lt_succ a.isLt
  simp [rangeAllowed, ha]

/-- R105: an access raises nothing exactly where user mode may make it and its exact address is one. -/
theorem dataFault_eq_none_iff (ea : Int) (s : State) :
    dataFault ea s = none ↔
      (s.psr.um = true → dataAllowed (BitVec.ofInt 32 ea) s = true) ∧ 0 ≤ ea ∧ ea < (2 : Int) ^ 32 :=
  ⟨fun h => by obtain ⟨h0, h1, ha⟩ := dataFault_none h; exact ⟨ha, h0, h1⟩,
    fun ⟨ha, h0, h1⟩ => dataFault_eq_none h0 h1 ha⟩

/-- R105: a violation comes first, whatever the exact address. -/
theorem dataFault_of_violation {ea : Int} {s : State} (hum : s.psr.um = true)
    (ha : dataAllowed (BitVec.ofInt 32 ea) s = false) : dataFault ea s = some codeDataViolation := by
  simp [dataFault, hum, ha]

theorem dataFault_of_overflow {ea : Int} {s : State}
    (ha : s.psr.um = true → dataAllowed (BitVec.ofInt 32 ea) s = true) (hr : ea < 0 ∨ (2 : Int) ^ 32 ≤ ea) :
    dataFault ea s = some codeDataOverflow := by
  have hv : ¬((s.psr.um && !dataAllowed (BitVec.ofInt 32 ea) s) = true) := by
    simpa using ha
  rw [dataFault, if_neg hv, if_pos hr]

/-- An address as a word is the exact one where that is in range. -/
theorem toNat_ofInt_of_range {ea : Int} (h0 : 0 ≤ ea) (h1 : ea < (2 : Int) ^ 32) :
    ((BitVec.ofInt 32 ea).toNat : Int) = ea := by
  rw [BitVec.toNat_ofInt]
  omega

/-- Settles O28: an access in range raises nothing exactly where user mode may make it, which with no CCB write in
flight the bounds themselves decide. -/
theorem dataProtection : Obligations.DataProtection := by
  intro s ea hs h0 h1
  have hallowed (a : Word) := rangeAllowed_iff (s.ccb.memConf.getLsbD 1) s.ccb.dmemBoundLo s.ccb.dmemBoundHi a
  simp only [← dataAllowed_settled hs] at hallowed
  have hfault : dataFault ea s = none ↔ (s.psr.um = true → dataAllowed (BitVec.ofInt 32 ea) s = true) := by
    rw [dataFault_eq_none_iff]
    exact and_iff_left ⟨h0, h1⟩
  have hea := toNat_ofInt_of_range h0 h1
  refine ⟨fun hum => ?_, fun hum hconf => ?_, fun hum hconf => ?_, fun hum hreset => ?_, hallowed⟩
  · rw [hfault, hum]
    exact fun h => absurd h Bool.false_ne_true
  · rw [hfault, imp_iff_right hum, hallowed, if_pos hconf]
    omega
  · rw [hfault, imp_iff_right hum, hallowed, if_neg (by rw [hconf]; exact Bool.false_ne_true)]
    omega
  · refine dataFault_of_violation hum ?_
    rw [dataAllowed_settled hs, hreset]
    exact rangeAllowed_all _

/-! ## Windows -/

/-- The offset of an address in the CCB window. -/
theorem setWidth_sub_eq_ofNat {a base : Word} (h : base.toNat ≤ a.toNat) :
    (a - base).setWidth 8 = BitVec.ofNat 8 (a.toNat - base.toNat) := by
  apply BitVec.eq_of_toNat_eq
  rw [BitVec.toNat_setWidth, BitVec.toNat_sub_of_le h, BitVec.toNat_ofNat]

/-- R104, with no CCB write in flight. -/
theorem windowOf_settled {s : State} (h : Settled s) (a : Word) :
    windowOf a s =
      if s.ccb.ccbBase.toNat ≤ a.toNat ∧ a.toNat ≤ s.ccb.ccbBase.toNat + 255 then
        .ccb ((a - s.ccb.ccbBase).setWidth 8)
      else if s.ccb.pcbBase.toNat ≤ a.toNat ∧ a.toNat ≤ s.ccb.pcbEnd.toNat then .pcb (a &&& s.ccb.pcbAmask)
      else .mem := by
  simp only [windowOf, seen_settled h]
  rfl

/-- Settles O27: the three branches of `windowOf`. -/
theorem dataWindows : Obligations.DataWindows := by
  intro a s hs _
  rw [windowOf_settled hs]
  refine ⟨fun hc => ?_, fun hc => ⟨fun hp => ?_, fun hp => ?_⟩⟩
  · rw [if_pos hc, setWidth_sub_eq_ofNat hc.1]
  · rw [if_neg hc, if_pos hp]
  · rw [if_neg hc, if_neg hp]

/-! ## Exceptions of `ld` and `st` -/

/-- R334: a data exception finds the hardware stack as it was, or popped where `reti` stands behind. -/
theorem raiseData_raised (c : BitVec 8) (s : State) :
    ∃ t, raiseData c s = .next t ∧
      (Raised c s t ∨ (retiFollows s = true ∧ s.hwstack ≠ [] ∧ Raised c (popStack s) t)) := by
  obtain ⟨t, ht⟩ : ∃ t, raiseData c s = .next t := by
    unfold raiseData
    split
    · split <;> exact ⟨_, rfl⟩
    · exact ⟨_, rfl⟩
  refine ⟨t, ht, ?_⟩
  rcases raiseData_cases ht with rfl | ⟨hr, hs, rfl⟩
  · exact .inl (raise_raised c s)
  · exact .inr ⟨hr, hs, raise_raised c (popStack s)⟩

theorem execLd_of_dataFault {f : Form} {a : Reg} {imm : Int} {s : State} {c : BitVec 8} (hx : executes f s = true)
    (hf : dataFault (effectiveAddress a imm s) s = some c) (d : Reg) : execLd f d a imm s = raiseData c s := by
  rw [execLd, guarded_true hx]
  simp only [hf]

theorem execSt_of_dataFault {f : Form} {a : Reg} {imm : Int} {s : State} {c : BitVec 8} (hx : executes f s = true)
    (hf : dataFault (effectiveAddress a imm s) s = some c) (b : Reg) : execSt f b a imm s = raiseData c s := by
  rw [execSt, guarded_true hx]
  simp only [hf]

/-- Settles O32: the exception is the one of `dataFault`, both instructions raise it before any access, and
`retiFollows` is what it says. -/
theorem dataExceptions : Obligations.DataExceptions := by
  refine ⟨fun f d a imm s hx ea hea c hc i hi => ?_, retiFollows_iff⟩
  obtain rfl : ea = effectiveAddress a imm s := hea
  have hf : dataFault (effectiveAddress a imm s) s = some c := by
    rcases hc with ⟨hum, ha, rfl⟩ | ⟨ha, hr, rfl⟩
    · exact dataFault_of_violation hum ha
    · exact dataFault_of_overflow ha hr
  have he : exec i s = raiseData c s := by
    rcases hi with rfl | rfl
    · exact execLd_of_dataFault hx hf d
    · exact execSt_of_dataFault hx hf d
  rw [he]
  exact raiseData_raised c s

/-! ## Exceptions of the fetch -/

theorem fetchFault_of_misaligned {s : State} (h : s.pc.toNat % s.ilen ≠ 0) :
    fetchFault s = some codeMisalignedInstr := if_pos h

theorem fetchFault_of_violation {s : State} (ha : s.pc.toNat % s.ilen = 0) (hum : s.psr.um = true)
    (hp : instrAllowed .fetch s.pc s = false) : fetchFault s = some codeInstrAddressViolation := by
  simp [fetchFault, ha, hum, hp]

/-- A fetch that raises executes no instruction (R331, R332). -/
theorem runInstruction_of_fetchFault {s : State} {c : BitVec 8} (h : fetchFault s = some c)
    (hc : c ≠ codeIllegalInstruction) : runInstruction s = .next (takeException c s) := by
  simp only [runInstruction, fetch, h, fetchException, if_neg hc]

/-- A 16-bit word that only 32-bit mode has is an instruction that raises (R324). -/
theorem runInstruction_of_illegal16 {s : State} (hf : fetchFault s = none)
    (hd : decodeBytes s.psr.width (s.codeBytes s.pc s.ilen) = .illegal16) :
    runInstruction s = raise codeIllegalInstruction s := by
  simp only [runInstruction, fetch, hf, codeModified_eq_false, hd, fetchException, Bool.false_eq_true, if_false,
    if_true]

/-- Settles O45: alignment is judged before protection and both before the decoder; with no CCB write in flight the
bounds themselves decide what user mode may fetch. -/
theorem fetchExceptions : Obligations.FetchExceptions := by
  intro s
  refine ⟨fun ha => ?_, fun ha hum hp => ?_, fun ha hp hd => ?_, fun hs use a => ?_⟩
  · exact ⟨_, runInstruction_of_fetchFault (fetchFault_of_misaligned ha) (by decide),
      takeException_raisedAtFetch _ s⟩
  · exact ⟨_, runInstruction_of_fetchFault (fetchFault_of_violation ha hum hp) (by decide),
      takeException_raisedAtFetch _ s⟩
  · exact ⟨_, runInstruction_of_illegal16 ((fetchFault_eq_none_iff s).2 ⟨ha, hp⟩) hd, raise_raised _ s⟩
  · rw [instrAllowed_settled hs, rangeAllowed_iff]
    refine ⟨fun hconf => by rw [if_pos hconf], fun hconf => ?_, fun hreset => ?_⟩
    · rw [if_neg (by rw [hconf]; exact Bool.false_ne_true)]
    · rw [hreset]
      exact rangeAllowed_all a

end Sys2Proof.Machine

/-! SUPPORT. Data memory behind user mode (`20_memory.md` R116): an instruction commutes with putting another data
memory into the machine, as long as user mode reads the same where it may. -/

namespace Sys2Proof.Machine

/-- The state with another data memory. -/
def withDmem (m : List (Nat × Word)) (s : State) : State := { s with dmem := m }

/-- The data memory that instruction `i` leaves of `m`: a `st` that executes, is allowed and goes to memory replaces a
cell, and nothing else does. -/
def dmemAfter (i : Instr) (s : State) (m : List (Nat × Word)) : List (Nat × Word) :=
  match i with
  | .st f b a imm =>
    if executes f s = true ∧ dataFault (effectiveAddress a imm s) s = none ∧
        windowOf (BitVec.ofInt 32 (effectiveAddress a imm s)) s = .mem then
      Memory.write m (BitVec.ofInt 32 (effectiveAddress a imm s)).toNat (readX b s)
    else m
  | _ => m

/-- `m` holds what data memory does wherever user mode may access it. -/
def AgreesWhereAllowed (m : List (Nat × Word)) (s : State) : Prop :=
  ∀ a, dataAllowed a s = true → Memory.read m a.toNat = s.readData a

/-- `k` does at `s` the same to everything else with `m` for data memory, and leaves it alone. -/
structure DataBlind (m : List (Nat × Word)) (k : State → Result) (s : State) : Prop where
  commutes : k (withDmem m s) = onNext (withDmem m) (k s)

section
variable {s : State} {k : State → Result} (m : List (Nat × Word))

/-! ## What does not depend on data memory -/

theorem readX_withDmem (i : Reg) (s : State) : readX i (withDmem m s) = readX i s := rfl

theorem seen_withDmem (use : CcbUse) (off : BitVec 8) (s : State) : seen use off (withDmem m s) = seen use off s :=
  seen_congr rfl rfl rfl rfl rfl use off

theorem instrAllowed_withDmem (use : CcbUse) (a : Word) (s : State) :
    instrAllowed use a (withDmem m s) = instrAllowed use a s := by
  simp only [instrAllowed, seen_withDmem]

theorem windowOf_withDmem (a : Word) (s : State) : windowOf a (withDmem m s) = windowOf a s := by
  simp only [windowOf, seen_withDmem]

theorem dataFault_withDmem (ea : Int) (s : State) : dataFault ea (withDmem m s) = dataFault ea s := by
  simp only [dataFault, dataAllowed, seen_withDmem]
  rfl

theorem transferFault_withDmem (relative : Bool) (a : Int) (s : State) :
    transferFault relative a (withDmem m s) = transferFault relative a s := by
  simp only [transferFault, instrAllowed_withDmem]
  rfl

theorem retiFollows_withDmem (s : State) : retiFollows (withDmem m s) = retiFollows s := by
  have hcode := codeBytes_congr (s := s) (t := withDmem m s) rfl
  simp only [retiFollows, hcode]
  rfl

theorem slotFault_withDmem (why : Fault) (n : Nat) (w : Width) (a : Nat) (s : State) :
    slotFault why n w a (withDmem m s) = slotFault why n w a s := by
  have hcode := codeBytes_congr (s := s) (t := withDmem m s) rfl
  simp only [slotFault, isNopAt, instrAllowed_withDmem, hcode]
  rfl

theorem slotsFault_withDmem (why : Fault) (n first : Nat) (s : State) :
    slotsFault why n first (withDmem m s) = slotsFault why n first s := by
  induction n generalizing first with
  | zero => rfl
  | succ n ih =>
    unfold slotsFault
    rw [slotFault_withDmem, ih]
    rfl

/-! ## What commutes with a change of data memory -/

theorem writeX_withDmem (d : Reg) (v : Word) (s : State) :
    writeX d v (withDmem m s) = withDmem m (writeX d v s) := by
  have hpsr : (withDmem m s).psr = s.psr := rfl
  unfold writeX writeSet
  rw [hpsr]
  split
  · split
    · rfl
    · split
      · rfl
      · split <;> rfl
  · rfl

theorem setRetiEntry_withDmem (e : StackEntry) (s : State) :
    setRetiEntry e (withDmem m s) = withDmem m (setRetiEntry e s) := by
  have hs : (withDmem m s).hwstack = s.hwstack := rfl
  unfold setRetiEntry
  rw [hs]
  cases s.hwstack <;> rfl

theorem ccbSet_withDmem (off : BitVec 8) (v : Word) (s : State) :
    ccbSet off v (withDmem m s) = withDmem m (ccbSet off v s) := by
  unfold ccbSet
  split
  · rfl
  · split
    case h_24 | h_25 | h_26 => exact setRetiEntry_withDmem m _ s
    all_goals rfl

theorem ccbWrite_withDmem (off : BitVec 8) (v : Word) (s : State) :
    ccbWrite off v (withDmem m s) = withDmem m (ccbWrite off v s) := by
  cases hw : ccbWritable off with
  | false => rw [ccbWrite_of_readOnly hw, ccbWrite_of_readOnly hw]
  | true =>
    have hr : ccbRead off (withDmem m s) = ccbRead off s := ccbRead_congr rfl rfl rfl rfl off
    rw [ccbWrite_of_writable hw, ccbWrite_of_writable hw, ccbSet_withDmem, hr]
    rfl

theorem readEffect_withDmem (a : Word) (s : State) : readEffect a (withDmem m s) = withDmem m (readEffect a s) := by
  unfold readEffect
  rw [windowOf_withDmem]
  cases windowOf a s <;> rfl

theorem returnFromInterrupt_withDmem (s : State) :
    returnFromInterrupt (withDmem m s) = withDmem m (returnFromInterrupt s) := by
  simp only [returnFromInterrupt, seen_withDmem]
  rfl

theorem systemCall_withDmem (s : State) : systemCall (withDmem m s) = withDmem m (systemCall s) := by
  simp only [systemCall, seen_withDmem]
  rfl

theorem retireWith_withDmem (delayed mulHi : Option Word) (block : Bool) (s : State) :
    retireWith delayed mulHi block (withDmem m s) = onNext (withDmem m) (retireWith delayed mulHi block s) := by
  have hn : nextPc (withDmem m s) = nextPc s := rfl
  unfold retireWith
  rw [hn]
  cases nextPc s <;> rfl

theorem raise_withDmem (c : BitVec 8) (s : State) :
    raise c (withDmem m s) = onNext (withDmem m) (raise c s) := by
  simp only [raise, takeException, seen_withDmem]
  rfl

theorem raiseData_withDmem (c : BitVec 8) (s : State) :
    raiseData c (withDmem m s) = onNext (withDmem m) (raiseData c s) := by
  have hstack : (withDmem m s).hwstack = s.hwstack := rfl
  have hcount : (withDmem m s).freeCount = s.freeCount := rfl
  have hpop : popStack (withDmem m s) = withDmem m (popStack s) := rfl
  unfold raiseData
  rw [retiFollows_withDmem, hstack, hcount, hpop]
  split
  · split <;> exact raise_withDmem ..
  · exact raise_withDmem ..

/-! ## The access itself -/

/-- User mode reads the same from a data memory that agrees where it may access (R105, R116). -/
theorem memRead_withDmem {ea : Int} (hum : s.psr.um = true) (hf : dataFault ea s = none)
    (hm : AgreesWhereAllowed m s) :
    memRead (BitVec.ofInt 32 ea) (withDmem m s) = memRead (BitVec.ofInt 32 ea) s := by
  obtain ⟨-, -, hallowed⟩ := dataFault_none hf
  unfold memRead
  rw [windowOf_withDmem]
  cases windowOf (BitVec.ofInt 32 ea) s with
  | ccb off => exact ccbRead_congr rfl rfl rfl rfl off
  | pcb d => rfl
  | mem => exact hm _ (hallowed hum)

/-- A write goes to the same window, and replaces the same cell of any data memory. -/
theorem memWrite_withDmem (a v : Word) (s : State) :
    memWrite a v (withDmem m s) =
      (memWrite a v s).map (withDmem (if windowOf a s = .mem then Memory.write m a.toNat v else m)) := by
  unfold memWrite
  rw [windowOf_withDmem]
  cases windowOf a s with
  | ccb off =>
    simp only [ccbWrite_withDmem, reduceCtorEq, if_false]
    split <;> rfl
  | pcb d => simp only [reduceCtorEq, if_false]; rfl
  | mem => simp only [if_true]; rfl

/-! ## Operations blind to data memory -/

theorem dataBlind_raise (c : BitVec 8) (s : State) : DataBlind m (raise c) s := ⟨raise_withDmem m c s⟩

/-- An instruction that changes the state blindly and ends. -/
theorem dataBlind_retireWith {u : State → State} {delayed mulHi : State → Option Word} {block : Bool}
    (hd : delayed (withDmem m s) = delayed s) (hh : mulHi (withDmem m s) = mulHi s)
    (hu : u (withDmem m s) = withDmem m (u s)) :
    DataBlind m (fun s => retireWith (delayed s) (mulHi s) block (u s)) s := by
  refine ⟨?_⟩
  simp only [hd, hh, hu]
  exact retireWith_withDmem ..

theorem dataBlind_retire {u : State → State} (hu : u (withDmem m s) = withDmem m (u s)) :
    DataBlind m (fun s => retire (u s)) s :=
  dataBlind_retireWith m (delayed := fun _ => none) (mulHi := fun _ => none) rfl rfl hu

theorem dataBlind_writeResult {d : Reg} {v : State → Word} {u : State → State} (hv : v (withDmem m s) = v s)
    (hu : u (withDmem m s) = withDmem m (u s)) : DataBlind m (fun s => writeResult d (v s) (u s)) s :=
  dataBlind_retire m (by rw [hv, hu, writeX_withDmem])

theorem dataBlind_result {d : Reg} {v : State → Word} (hv : v (withDmem m s) = v s) :
    DataBlind m (fun s => writeResult d (v s) s) s :=
  dataBlind_writeResult m (u := fun s => s) hv rfl

theorem dataBlind_flagged {d : Reg} {v : State → Word} {fl : State → Flags} (hv : v (withDmem m s) = v s)
    (hf : fl (withDmem m s) = fl s) : DataBlind m (fun s => writeFlagged d (v s) (fl s) s) s := by
  refine dataBlind_retire m ?_
  rw [hv, hf, writeX_withDmem]
  rfl

theorem dataBlind_multiply {d : Reg} {n : State → Int} (hn : n (withDmem m s) = n s) :
    DataBlind m (fun s => multiply d (n s) s) s :=
  dataBlind_retireWith m (delayed := fun _ => none) rfl (by rw [hn]) (by rw [hn, writeX_withDmem])

/-- Two blind operations, by a condition that data memory has no part in. -/
theorem dataBlind_ite {c : State → Bool} {k1 k2 : State → Result} (hc : c (withDmem m s) = c s)
    (h1 : DataBlind m k1 s) (h2 : DataBlind m k2 s) : DataBlind m (fun s => if c s then k1 s else k2 s) s := by
  refine ⟨?_⟩
  simp only [hc]
  split
  · exact h1.commutes
  · exact h2.commutes

theorem dataBlind_addChecked {d : Reg} {a b : State → Word} (ha : a (withDmem m s) = a s)
    (hb : b (withDmem m s) = b s) : DataBlind m (fun s => addChecked d (a s) (b s) s) s :=
  dataBlind_ite m (c := fun s => overflows ((a s).toInt + (b s).toInt)) (by rw [ha, hb]) (dataBlind_raise m _ s)
    (dataBlind_flagged m (v := fun s => a s + b s) (fl := fun s => addFlags (a s) (b s)) (by rw [ha, hb])
      (by rw [ha, hb]))

theorem dataBlind_subChecked {d : Reg} {a b : State → Word} (ha : a (withDmem m s) = a s)
    (hb : b (withDmem m s) = b s) : DataBlind m (fun s => subChecked d (a s) (b s) s) s :=
  dataBlind_ite m (c := fun s => overflows ((a s).toInt - (b s).toInt)) (by rw [ha, hb]) (dataBlind_raise m _ s)
    (dataBlind_flagged m (v := fun s => a s - b s) (fl := fun s => subFlags (a s) (b s)) (by rw [ha, hb])
      (by rw [ha, hb]))

theorem dataBlind_transfer {relative : Bool} {a : State → Int} (ha : a (withDmem m s) = a s) :
    DataBlind m (fun s => transfer relative (a s) s) s := by
  refine ⟨?_⟩
  simp only [ha, transfer, transferFault_withDmem]
  split
  · exact raise_withDmem ..
  · exact retireWith_withDmem ..

theorem dataBlind_transferLink {relative : Bool} {a : State → Int} (ha : a (withDmem m s) = a s) :
    DataBlind m (fun s => transferLink relative (a s) s) s := by
  refine ⟨?_⟩
  have hl : linkAddress (withDmem m s) = linkAddress s := rfl
  simp only [ha, hl, transferLink, transferFault_withDmem, writeX_withDmem]
  split
  · exact raise_withDmem ..
  · exact retireWith_withDmem ..

theorem dataBlind_notTaken (s : State) : DataBlind m notTaken s := ⟨retireWith_withDmem ..⟩

variable {m}

theorem dataBlind_guarded (f : Form) (h : DataBlind m k s) : DataBlind m (guarded f k) s :=
  dataBlind_ite m (c := executes f) rfl h ⟨retireWith_withDmem ..⟩

theorem dataBlind_wideOnly (h : DataBlind m k s) : DataBlind m (wideOnly k) s :=
  dataBlind_ite m (c := fun s => s.psr.il) rfl h (dataBlind_raise m _ s)

theorem dataBlind_superOnly (h : DataBlind m k s) : DataBlind m (superOnly k) s :=
  dataBlind_ite m (c := fun s => s.psr.um) rfl (dataBlind_raise m _ s) h

theorem dataBlind_notInSlot (h : DataBlind m k s) : DataBlind m (notInSlot k) s :=
  dataBlind_ite m (c := fun s => s.delayedPc.isSome) (k1 := fun _ => .fault .forbiddenInSlot) rfl ⟨rfl⟩ h

variable (m)

/-! ### Instructions of their own shape -/

theorem dataBlind_execMulhi (f : Form) (d : Reg) (s : State) : DataBlind m (execMulhi f d) s := by
  refine dataBlind_guarded f ⟨?_⟩
  have hh : (withDmem m s).mulHi = s.mulHi := rfl
  simp only [hh]
  cases s.mulHi with
  | none => rfl
  | some v => exact (dataBlind_result m (v := fun _ => v) rfl).commutes

theorem dataBlind_branch (cond : Cond) (c : CReg) (imm : Int) (s : State) : DataBlind m (branch cond c imm) s :=
  dataBlind_notInSlot (dataBlind_ite m (c := fun s => condTrue cond (readCr c s)) rfl
    (dataBlind_transfer m (a := relativeTarget imm) rfl) (dataBlind_notTaken m s))

theorem dataBlind_execJmpr (f : Form) (a : Reg) (s : State) : DataBlind m (execJmpr f a) s :=
  dataBlind_ite m (c := executes f) rfl
    (dataBlind_notInSlot (dataBlind_transfer m (a := fun s => (readX a s).toNat) rfl)) (dataBlind_notTaken m s)

theorem dataBlind_execJalr (f : Form) (a : Reg) (s : State) : DataBlind m (execJalr f a) s :=
  dataBlind_ite m (c := executes f) rfl
    (dataBlind_notInSlot (dataBlind_transferLink m (a := fun s => (readX a s).toNat) rfl)) (dataBlind_notTaken m s)

theorem dataBlind_switchMode (wide : Bool) (s : State) : DataBlind m (switchMode wide) s := by
  refine ⟨?_⟩
  have hslot : swmSlot2 wide (withDmem m s) = swmSlot2 wide s := rfl
  have hpsr : (withDmem m s).psr = s.psr := rfl
  have hpc : (withDmem m s).pc = s.pc := rfl
  have hlen : (withDmem m s).ilen = s.ilen := rfl
  simp only [switchMode, slotFault_withDmem, hslot, hpsr, hpc, hlen]
  split
  · rfl
  · split
    · rfl
    · split <;> rfl

theorem dataBlind_execSwm (w : Width) (imm : BitVec 6) (s : State) : DataBlind m (execSwm w imm) s := by
  refine dataBlind_notInSlot ⟨?_⟩
  split
  · exact (dataBlind_switchMode ..).commutes
  · split
    · exact (dataBlind_switchMode ..).commutes
    · rfl

theorem dataBlind_execReti (w : Width) (s : State) : DataBlind m (execReti w) s := by
  refine dataBlind_notInSlot ⟨?_⟩
  have hstack : (withDmem m s).hwstack = s.hwstack := rfl
  simp only [hstack, slotsFault_withDmem, returnFromInterrupt_withDmem]
  split
  · rfl
  · split <;> rfl

theorem dataBlind_execRetu (w : Width) (s : State) : DataBlind m (execRetu w) s := by
  refine dataBlind_superOnly (dataBlind_notInSlot ⟨?_⟩)
  simp only [slotsFault_withDmem]
  split <;> rfl

theorem dataBlind_execScall (f : Form) (s : State) : DataBlind m (execScall f) s := by
  refine dataBlind_guarded f (dataBlind_notInSlot ⟨?_⟩)
  simp only [slotsFault_withDmem, systemCall_withDmem]
  split <;> rfl

variable {m}

/-- A `ld` in user mode sees nothing of the cells it may not access. -/
theorem dataBlind_execLd (hum : s.psr.um = true) (hm : AgreesWhereAllowed m s) (f : Form) (d a : Reg) (imm : Int) :
    DataBlind m (execLd f d a imm) s := by
  refine dataBlind_guarded f ⟨?_⟩
  have hea : effectiveAddress a imm (withDmem m s) = effectiveAddress a imm s := rfl
  simp only [hea, dataFault_withDmem]
  split
  · exact raiseData_withDmem ..
  · rename_i hf
    exact (dataBlind_writeResult m (v := memRead _) (memRead_withDmem m hum hf hm)
      (readEffect_withDmem m _ s)).commutes

variable (m)

/-- A `st` does the same whatever data memory holds, and replaces the same cell, if any. -/
theorem execSt_withDmem (f : Form) (b a : Reg) (imm : Int) (s : State) :
    execSt f b a imm (withDmem m s) =
      onNext (withDmem (dmemAfter (.st f b a imm) s m)) (execSt f b a imm s) := by
  have hx : executes f (withDmem m s) = executes f s := rfl
  have hea : effectiveAddress a imm (withDmem m s) = effectiveAddress a imm s := rfl
  unfold execSt guarded
  simp only [hx, hea, dataFault_withDmem, readX_withDmem, memWrite_withDmem, dmemAfter]
  cases executes f s with
  | false =>
    simp only [Bool.false_eq_true, false_and, if_false]
    exact retireWith_withDmem ..
  | true =>
    cases dataFault (effectiveAddress a imm s) s with
    | some c =>
      simp only [reduceCtorEq, false_and, and_false, if_false, if_true]
      exact raiseData_withDmem ..
    | none =>
      simp only [true_and, if_true]
      cases memWrite (BitVec.ofInt 32 (effectiveAddress a imm s)) (readX b s) s with
      | none => rfl
      | some u => exact retireWith_withDmem ..

end

/-! ## Every instruction -/

/-- In user mode an instruction does the same with a data memory that agrees where the mode may access it, and leaves of
it what `dmemAfter` says. -/
theorem exec_withDmem {s : State} {m : List (Nat × Word)} (hum : s.psr.um = true) (hm : AgreesWhereAllowed m s)
    (i : Instr) : exec i (withDmem m s) = onNext (withDmem (dmemAfter i s m)) (exec i s) := by
  cases i with
  | st f b a imm => exact execSt_withDmem m f b a imm s
  | ld f d a imm => exact (dataBlind_execLd hum hm f d a imm).commutes
  | add | addi =>
    simp only [exec, execAdd, execAddi]
    exact (dataBlind_guarded _ (dataBlind_addChecked m rfl rfl)).commutes
  | sub =>
    simp only [exec, execSub]
    exact (dataBlind_guarded _ (dataBlind_subChecked m rfl rfl)).commutes
  | addiu | addu | subu | sll | slli =>
    simp only [exec, execAddiu, execAddu, execSubu, execSll, execSlli]
    exact (dataBlind_guarded _ (dataBlind_flagged m rfl rfl)).commutes
  | muli | muls | mulu | mulus =>
    simp only [exec, execMuli, execMuls, execMulu, execMulus]
    exact (dataBlind_guarded _ (dataBlind_multiply m rfl)).commutes
  | muls16 | mulu16 | mulus16 | exb | exbf | exh | sext | sexti | conb | conh | and | andi | not | or | ori | xor | sra
  | srai | srl | srli | mov =>
    simp only [exec, execMuls16, execMulu16, execMulus16, execExb, execExbf, execExh, execSext, execSexti, execConb,
      execConh, execAnd, execAndi, execNot, execOr, execOri, execXor, execSra, execSrai, execSrl, execSrli, execMov]
    exact (dataBlind_guarded _ (dataBlind_result m rfl)).commutes
  | exbfi | lli | lui =>
    simp only [exec, execExbfi, execLli, execLui]
    exact (dataBlind_wideOnly (dataBlind_result m rfl)).commutes
  | scon =>
    simp only [exec, execScon]
    exact (dataBlind_result m (v := fun s => packFlags s.cr) rfl).commutes
  | movtc =>
    simp only [exec, execMovtc]
    exact (dataBlind_guarded _ (dataBlind_retire m (by rfl))).commutes
  | movfc =>
    simp only [exec, execMovfc]
    exact (dataBlind_guarded _ (dataBlind_writeResult m (by rfl) (by rfl))).commutes
  | cop =>
    simp only [exec, execCop]
    exact (dataBlind_wideOnly (dataBlind_retire m (by rw [seen_withDmem]; rfl))).commutes
  | chrs | di | ei =>
    simp only [exec, execChrs, execDi, execEi]
    exact (dataBlind_superOnly (dataBlind_retire m (by rfl))).commutes
  | nop => exact retireWith_withDmem ..
  | rcon w a => exact (dataBlind_retire m (u := fun s => { s with cr := unpackFlags (readX a s) }) rfl).commutes
  | cmp w c a b =>
    exact (dataBlind_retire m (u := fun s => setCr c (cmpFlags (readX a s) (readX b s)) s) rfl).commutes
  | cmpi w c a imm =>
    exact (dataBlind_retire m (u := fun s => setCr c (cmpFlags (readX a s) (sext imm)) s) rfl).commutes
  | bc | begt | belt | beq | bgt | blt | bne | bnc => exact (dataBlind_branch m ..).commutes
  | jal w imm => exact (dataBlind_notInSlot (dataBlind_transferLink m (a := relativeTarget imm) rfl)).commutes
  | jmp w imm => exact (dataBlind_notInSlot (dataBlind_transfer m (a := relativeTarget imm) rfl)).commutes
  | jalr => exact (dataBlind_execJalr m ..).commutes
  | jmpr => exact (dataBlind_execJmpr m ..).commutes
  | mulhi => exact (dataBlind_execMulhi m ..).commutes
  | swm w imm => exact (dataBlind_execSwm m w imm s).commutes
  | reti w => exact (dataBlind_execReti m w s).commutes
  | retu w => exact (dataBlind_execRetu m w s).commutes
  | scall => exact (dataBlind_execScall m ..).commutes
  | trap => exact raise_withDmem ..

/-! ## What is left of a data memory -/

/-- A store of user mode leaves every cell alone that it may not access (log 1). -/
theorem read_dmemAfter_of_not_allowed {s : State} (hum : s.psr.um = true) (i : Instr) (m : List (Nat × Word))
    {a : Word} (ha : dataAllowed a s = false) : Memory.read (dmemAfter i s m) a.toNat = Memory.read m a.toNat := by
  unfold dmemAfter
  split
  · split
    · rename_i b base imm hst
      obtain ⟨-, hf, -⟩ := hst
      obtain ⟨-, -, hallowed⟩ := dataFault_none hf
      refine Memory.read_write_other m _ fun e => ?_
      rw [BitVec.eq_of_toNat_eq e, hallowed hum] at ha
      exact Bool.false_ne_true ha.symm
    · rfl
  · rfl

/-- Two canonical memories that agree in a cell do so after the same store. -/
theorem read_dmemAfter_congr {m n : List (Nat × Word)} (hm : Memory.wf m = true) (hn : Memory.wf n = true) {a : Nat}
    (h : Memory.read m a = Memory.read n a) (i : Instr) (s : State) :
    Memory.read (dmemAfter i s m) a = Memory.read (dmemAfter i s n) a := by
  unfold dmemAfter
  split
  · split
    · rw [Memory.read_write hm, Memory.read_write hn, h]
    · exact h
  · exact h

/-- What an instruction of user mode leaves of data memory. -/
theorem dmem_of_exec {i : Instr} {s t : State} (hum : s.psr.um = true) (he : exec i s = .next t) :
    t.dmem = dmemAfter i s s.dmem := by
  have hself : exec i s = onNext (withDmem (dmemAfter i s s.dmem)) (exec i s) :=
    exec_withDmem (m := s.dmem) hum (fun _ _ => rfl) i
  rw [he] at hself
  rw [Host.Outcome.next.inj hself]
  rfl

/-- Settles O60: with the other data memory the instruction answers the same state with `dmemAfter` of that memory,
which is `dmemAfter` of its own in the cells that user mode may access and the old memory in the others. -/
theorem userModeIsolation : Obligations.UserModeIsolation := by
  intro i s t m hs hwf hum hm he
  obtain ⟨-, hdmem⟩ := hs
  have ht := dmem_of_exec hum he
  refine ⟨fun a ha => ?_, withDmem (dmemAfter i s m) t, ?_, rfl, fun a ha => ?_, fun a ha => ?_⟩
  · rw [readData_eq, ht]
    exact read_dmemAfter_of_not_allowed hum i s.dmem ha
  · have hrun := exec_withDmem hum hm i
    rw [he] at hrun
    exact hrun
  · rw [readData_eq, readData_eq, ht]
    exact read_dmemAfter_congr hwf hdmem (hm a ha) i s
  · exact read_dmemAfter_of_not_allowed hum i m ha

end Sys2Proof.Machine

/-! SUPPORT. The decoder undoes the encoder (`30_encoding.md` R146 to R148): which field of a joined word is which part,
one round trip per format, and the opcode that leads the decoder to the format. -/

namespace Sys2Proof

/-! ## Fields of joined parts -/

section
variable {m n lo len hi : Nat}

@[simp] theorem field_self (x : BitVec n) : field x 0 n = x := by
  simp [field]

@[simp] theorem field_zero : field (0#n) lo len = 0#len :=
  BitVec.extractLsb'_zero

@[simp] theorem field_append_low (x : BitVec m) (y : BitVec n) (h : lo + len ≤ n) :
    field (x ++ y) lo len = field y lo len := by
  apply BitVec.eq_of_getLsbD_eq
  intro i hlt
  have hlow : lo + i < n := by omega
  simp [field, BitVec.getLsbD_append, hlow]

@[simp] theorem field_append_high (x : BitVec m) (y : BitVec n) (h : n ≤ lo) :
    field (x ++ y) lo len = field x (lo - n) len := by
  apply BitVec.eq_of_getLsbD_eq
  intro i hlt
  have hhigh : ¬ lo + i < n := by omega
  have hsub : lo + i - n = lo - n + i := by omega
  simp [field, BitVec.getLsbD_append, hhigh, hsub]

@[simp] theorem field_setWidth (x : BitVec n) (h : n ≤ m) : field (x.setWidth m) 0 n = x := by
  apply BitVec.eq_of_getLsbD_eq
  intro i hlt
  have hm : i < m := by omega
  simp [field, hlt, hm]

theorem field_signExtend (x : BitVec n) (h : n ≤ m) : field (x.signExtend m) 0 n = x := by
  apply BitVec.eq_of_getLsbD_eq
  intro i hlt
  have hm : i < m := by omega
  simp only [field, BitVec.getLsbD_extractLsb', BitVec.getLsbD_signExtend, Nat.zero_add, hlt, hm, decide_true, if_true,
    Bool.true_and]

/-- A bit is a field of one bit. -/
theorem getLsbD_eq_field (w : BitVec n) (i : Nat) : w.getLsbD i = (field w i 1 == 1#1) := by
  have hfield : field w i 1 = BitVec.ofBool (w.getLsbD i) := by
    apply BitVec.eq_of_getLsbD_eq
    intro j hj
    obtain rfl : j = 0 := by omega
    simp [field]
  rw [hfield]
  cases w.getLsbD i <;> rfl

theorem cexBit_eq_field (w : BitVec 32) : cexBit w = (field w 25 1 == 1#1) := getLsbD_eq_field w 25

theorem isZero_iff (w : BitVec n) (hi lo : Nat) :
    isZero w hi lo = true ↔ ∀ i, lo ≤ i → i ≤ hi → w.getLsbD i = false := by
  rw [isZero, beq_iff_eq]
  constructor
  · intro h i hlo hhi
    have hbit : (field w lo (hi + 1 - lo)).getLsbD (i - lo) = false := by rw [h]; exact BitVec.getLsbD_zero
    have hlt : i - lo < hi + 1 - lo := by omega
    have hsum : lo + (i - lo) = i := by omega
    simpa [field, hlt, hsum] using hbit
  · intro h
    apply BitVec.eq_of_getLsbD_eq
    intro i hlt
    simp [field, h (lo + i) (by omega) (by omega)]

@[simp] theorem isZero_zero : isZero (0#n) hi lo = true :=
  (isZero_iff _ _ _).2 fun _ _ _ => BitVec.getLsbD_zero

@[simp] theorem isZero_append_low (x : BitVec m) (y : BitVec n) (h : hi < n) :
    isZero (x ++ y) hi lo = isZero y hi lo := by
  rw [Bool.eq_iff_iff, isZero_iff, isZero_iff]
  refine forall_congr' fun i => forall_congr' fun _ => forall_congr' fun hhi => ?_
  rw [BitVec.getLsbD_append, if_pos (by omega)]

@[simp] theorem isZero_append_high (x : BitVec m) (y : BitVec n) (hlo : n ≤ lo) (hhi : n ≤ hi) :
    isZero (x ++ y) hi lo = isZero x (hi - n) (lo - n) := by
  rw [Bool.eq_iff_iff, isZero_iff, isZero_iff]
  simp only [BitVec.getLsbD_append]
  constructor
  · intro h i hfrom hto
    simpa [show ¬ i + n < n by omega] using h (i + n) (by omega) (by omega)
  · intro h i hfrom hto
    rw [if_neg (by omega)]
    exact h (i - n) (by omega) (by omega)

@[simp] theorem isZero_append_across (x : BitVec m) (y : BitVec n) (hlo : lo < n) (hhi : n ≤ hi) :
    isZero (x ++ y) hi lo = (isZero x (hi - n) 0 && isZero y (n - 1) lo) := by
  rw [Bool.eq_iff_iff, Bool.and_eq_true, isZero_iff, isZero_iff, isZero_iff]
  simp only [BitVec.getLsbD_append]
  constructor
  · intro h
    refine ⟨fun i _ hto => ?_, fun i hfrom _ => ?_⟩
    · simpa [show ¬ i + n < n by omega] using h (i + n) (by omega) (by omega)
    · simpa [show i < n by omega] using h i hfrom (by omega)
  · rintro ⟨hx, hy⟩ i hfrom hto
    split
    · exact hy i hfrom (by omega)
    · exact hx (i - n) (by omega) (by omega)

@[simp] theorem isZero_setWidth (x : BitVec n) (h : n ≤ lo) : isZero (x.setWidth m) hi lo = true := by
  rw [isZero_iff]
  intro i hfrom _
  rw [BitVec.getLsbD_setWidth, BitVec.getLsbD_of_ge x i (by omega), Bool.and_false]

/-! ## Immediates (R150) and registers (R160) -/

/-- The field of a signed immediate that fits it: the word is the field's sign extension. -/
theorem toInt_field_imm32 {imm : Int} (h : fitsSigned n imm = true) (h0 : 0 < n := by decide)
    (hn : n ≤ 32 := by decide) : (field (imm32 imm) 0 n).toInt = imm := by
  obtain ⟨hlo, hhi⟩ := of_decide_eq_true h
  have hself : (BitVec.ofInt n imm).toInt = imm := BitVec.toInt_ofInt_eq_self h0 hlo hhi
  have hword : imm32 imm = (BitVec.ofInt n imm).signExtend 32 := by rw [BitVec.signExtend, hself, imm32]
  rw [hword, field_signExtend _ hn, hself]

/-- The field of an unsigned immediate that fits it. -/
theorem toNat_field_ofNat {imm : Nat} (h : fitsUnsigned n imm = true) (hn : n ≤ 32 := by decide) :
    (field (BitVec.ofNat 32 imm) 0 n).toNat = imm := by
  have hlt : imm < 2 ^ n := of_decide_eq_true h
  have hpow : 2 ^ n ≤ 2 ^ 32 := Nat.pow_le_pow_right (by decide) hn
  simp only [field, BitVec.extractLsb'_toNat, BitVec.toNat_ofNat, Nat.shiftRight_zero]
  rw [Nat.mod_eq_of_lt (hlt.trans_le hpow), Nat.mod_eq_of_lt hlt]

end

/-- A register of a 16-bit form is the one that its three bits name. -/
theorem reg16_low3 {r : Reg} (h : Form.w16.regOk r = true) : reg16 (low3 r) = r := by
  revert r
  decide

theorem Form.wf2_w16 {d a : Reg} (h : Form.w16.wf2 d a = true) : reg16 (low3 d) = d ∧ reg16 (low3 a) = a := by
  obtain ⟨hd, ha⟩ := Bool.and_eq_true_iff.1 h
  exact ⟨reg16_low3 hd, reg16_low3 ha⟩

theorem Form.wf3_w16 {d a b : Reg} (h : Form.w16.wf3 d a b = true) :
    reg16 (low3 d) = d ∧ reg16 (low3 a) = a ∧ d = b := by
  obtain ⟨hda, hb⟩ := Bool.and_eq_true_iff.1 h
  obtain ⟨hd, ha⟩ := Form.wf2_w16 hda
  exact ⟨hd, ha, beq_iff_eq.1 hb⟩

theorem Form.wfShared_w16 {d a : Reg} (h : Form.w16.wfShared d a = true) : reg16 (low3 d) = d ∧ d = a := by
  obtain ⟨hd, ha⟩ := Bool.and_eq_true_iff.1 h
  exact ⟨reg16_low3 hd, beq_iff_eq.1 ha⟩

/-! ## The conditional form (R146) -/

theorem ofBits_bits (cond : Cond) : Cond.ofBits cond.bits = cond := by
  cases cond <;> rfl

section
variable (op : BitVec 6) (f : Form) (area : BitVec 19)

@[simp] theorem field_encForm {lo len : Nat} (h : lo + len ≤ 19) :
    field (encForm op f area) lo len = field area lo len := by
  cases f <;> exact field_append_low _ _ h

@[simp] theorem cexBit_encForm_w32 : cexBit (encForm op .w32 area) = false := by
  simp (disch := omega) [-Nat.reduceAdd, encForm, cexBit_eq_field]

@[simp] theorem cexBit_encForm_cex (cond : Cond) (creg : CReg) :
    cexBit (encForm op (.cex cond creg) area) = true := by
  simp (disch := omega) [-Nat.reduceAdd, encForm, cexBit_eq_field]

@[simp] theorem areaClear_encForm {lo : Nat} (h : lo ≤ 18) :
    areaClear (encForm op f area) lo = isZero area 18 lo := by
  cases f <;> simp (disch := omega) [-Nat.reduceAdd, areaClear, encForm, cexBit_eq_field]

/-- The operand area of an instruction that is never conditional. -/
@[simp] theorem isZero_encForm_w32 {lo : Nat} (h : lo ≤ 18) :
    isZero (encForm op .w32 area) 24 lo = isZero area 18 lo := by
  simp (disch := omega) [-Nat.reduceAdd, encForm]

@[simp] theorem form32_encForm_w32 : form32 (encForm op .w32 area) = .w32 := by
  rw [form32, cexBit_encForm_w32, if_neg Bool.false_ne_true]

@[simp] theorem form32_encForm_cex (cond : Cond) (creg : CReg) :
    form32 (encForm op (.cex cond creg) area) = .cex cond creg := by
  rw [form32, cexBit_encForm_cex, if_pos rfl]
  simp (disch := omega) [-Nat.reduceAdd, encForm, ofBits_bits]

@[simp] theorem isZero_encForm {hi lo : Nat} (h : hi ≤ 18) :
    isZero (encForm op f area) hi lo = isZero area hi lo := by
  cases f <;> exact isZero_append_low _ _ (by omega)

end

/-! ## The formats (R146, R147)

A word read in its own format gives the operands back. The widths of joined parts stay the sums they are written as
(`-Nat.reduceAdd`): the rules for fields match on them. -/

/-- What a reader of 32-bit words and one of 16-bit words make of a word. -/
def Encoded.readBy (dec : BitVec 32 → Decoded) (dec' : BitVec 16 → Decoded) : Encoded → Decoded
  | .word w => dec w
  | .half h => dec' h

@[simp] theorem Encoded.readBy_word (dec : BitVec 32 → Decoded) (dec' : BitVec 16 → Decoded) (w : BitVec 32) :
    (Encoded.word w).readBy dec dec' = dec w := rfl

@[simp] theorem Encoded.readBy_half (dec : BitVec 32 → Decoded) (dec' : BitVec 16 → Decoded) (h : BitVec 16) :
    (Encoded.half h).readBy dec dec' = dec' h := rfl

@[simp] theorem ifClear_true (op : BitVec 6) (i : Instr) : ifClear true op i = .ok i := rfl

section
variable {op : BitVec 6} {f : Form} {w : Width} {d a b : Reg}

theorem readBy_encR3 {mk : Form → Reg → Reg → Reg → Instr} (h : f.wf3 d a b = true) :
    (encR3 op f d a b).readBy (decR3 mk) (decR3' mk) = .ok (mk f d a b) := by
  cases f with
  | w16 =>
    obtain ⟨hd, ha, rfl⟩ := Form.wf3_w16 h
    simp (disch := omega) [-Nat.reduceAdd, encR3, decR3', lowReg, midReg, hd, ha]
  | w32 | cex => simp (disch := omega) [-Nat.reduceAdd, encR3, decR3, regLow, regMid, regHigh]

theorem readBy_encR2 {mk : Form → Reg → Reg → Instr} (h : f.wf2 d a = true) :
    (encR2 op f d a).readBy (decR2 mk) (decR2' mk) = .ok (mk f d a) := by
  cases f with
  | w16 =>
    obtain ⟨hd, ha⟩ := Form.wf2_w16 h
    simp (disch := omega) [-Nat.reduceAdd, encR2, decR2', lowReg, midReg, hd, ha]
  | w32 | cex => simp (disch := omega) [-Nat.reduceAdd, encR2, decR2, regLow, regMid]

theorem readBy_encSH {mk : Form → Reg → Reg → BitVec 6 → Instr} {imm : BitVec 6} (h : f.wfShared d a = true) :
    (encSH op f d a imm).readBy (decSH mk) (decSH' mk) = .ok (mk f d a imm) := by
  cases f with
  | w16 =>
    obtain ⟨hd, rfl⟩ := Form.wfShared_w16 h
    simp (disch := omega) [-Nat.reduceAdd, encSH, decSH', lowReg, hd]
  | w32 | cex => simp (disch := omega) [-Nat.reduceAdd, encSH, decSH, regLow, regMid]

theorem readBy_encSX {mk : Form → Reg → Reg → BitVec 5 → Instr} {imm : BitVec 5} (h : f.wfShared d a = true) :
    (encSX op f d a imm).readBy (decSX mk) (decSX' mk) = .ok (mk f d a imm) := by
  cases f with
  | w16 =>
    obtain ⟨hd, rfl⟩ := Form.wfShared_w16 h
    simp (disch := omega) [-Nat.reduceAdd, encSX, decSX', lowReg, hd]
  | w32 | cex => simp (disch := omega) [-Nat.reduceAdd, encSX, decSX, regLow, regMid]

theorem readBy_encXB {mk : Form → Reg → Reg → BitVec 2 → Instr} {imm : BitVec 2} (h : f.wf2 d a = true) :
    (encXB op f d a imm).readBy (decXB mk) (decXB' mk) = .ok (mk f d a imm) := by
  cases f with
  | w16 =>
    obtain ⟨hd, ha⟩ := Form.wf2_w16 h
    simp (disch := omega) [-Nat.reduceAdd, encXB, decXB', lowReg, midReg, hd, ha]
  | w32 | cex => simp (disch := omega) [-Nat.reduceAdd, encXB, decXB, regLow, regMid]

theorem readBy_encXH {mk : Form → Reg → Reg → BitVec 1 → Instr} {imm : BitVec 1} (h : f.wf2 d a = true) :
    (encXH op f d a imm).readBy (decXH mk) (decXH' mk) = .ok (mk f d a imm) := by
  cases f with
  | w16 =>
    obtain ⟨hd, ha⟩ := Form.wf2_w16 h
    simp (disch := omega) [-Nat.reduceAdd, encXH, decXH', lowReg, midReg, hd, ha]
  | w32 | cex => simp (disch := omega) [-Nat.reduceAdd, encXH, decXH, regLow, regMid]

theorem readBy_encD {mk : Form → Reg → Instr} (h : f.regOk d = true) :
    (encD op f d).readBy (decD mk) (decD' mk) = .ok (mk f d) := by
  cases f with
  | w16 => simp (disch := omega) [-Nat.reduceAdd, encD, decD', lowReg, reg16_low3 h]
  | w32 | cex => simp (disch := omega) [-Nat.reduceAdd, encD, decD, regLow]

theorem readBy_encS {mk : Form → Reg → Instr} (h : f.regOk a = true) :
    (encS op f a).readBy (decS mk) (decS' mk) = .ok (mk f a) := by
  cases f with
  | w16 => simp (disch := omega) [-Nat.reduceAdd, encS, decS', midReg, reg16_low3 h]
  | w32 | cex => simp (disch := omega) [-Nat.reduceAdd, encS, decS, regMid]

theorem readBy_encCF {mk : Form → BitVec 2 → Reg → BitVec 5 → Instr} {k : BitVec 2} {c : BitVec 5}
    (h : f.regOk d = true) :
    (encCF op f k c d).readBy (decCF mk) (decCF' mk) = .ok (mk f k d c) := by
  cases f with
  | w16 => simp (disch := omega) [-Nat.reduceAdd, encCF, decCF', lowReg, reg16_low3 h]
  | w32 | cex => simp (disch := omega) [-Nat.reduceAdd, encCF, decCF, regLow, regMid]

theorem readBy_encCT {mk : Form → BitVec 2 → BitVec 5 → Reg → Instr} {k : BitVec 2} {c : BitVec 5}
    (h : f.regOk a = true) :
    (encCT op f k a c).readBy (decCT mk) (decCT' mk) = .ok (mk f k c a) := by
  cases f with
  | w16 => simp (disch := omega) [-Nat.reduceAdd, encCT, decCT', lowReg, reg16_low3 h]
  | w32 | cex => simp (disch := omega) [-Nat.reduceAdd, encCT, decCT, regLow, regMid]

theorem readBy_encZ_decZC {mk : Form → Instr} :
    (encZ op f).readBy (decZC mk) (decZC' mk) = .ok (mk f) := by
  cases f with
  | w16 => simp (disch := omega) [-Nat.reduceAdd, encZ, decZC']
  | w32 | cex => simp (disch := omega) [-Nat.reduceAdd, encZ, decZC]

/-! ### Immediates that depend on the form -/

theorem readBy_encRI {mk : Form → Reg → Reg → Int → Instr} {imm : Int}
    (h : (f.wfShared d a && fitsSigned f.immBits imm) = true) :
    (encRI op f d a (imm32 imm)).readBy (decRI mk) (decRI' mk) = .ok (mk f d a imm) := by
  obtain ⟨hreg, himm⟩ := Bool.and_eq_true_iff.1 h
  cases f with
  | w16 =>
    obtain ⟨hd, rfl⟩ := Form.wfShared_w16 hreg
    simp (disch := omega) [-Nat.reduceAdd, encRI, decRI', lowReg, hd, toInt_field_imm32 (n := 7) himm]
  | w32 =>
    simp (disch := omega) [-Nat.reduceAdd, encRI, decRI, form32, cexBit_eq_field, regLow, regMid,
      toInt_field_imm32 (n := 15) himm]
  | cex =>
    simp (disch := omega) [-Nat.reduceAdd, encRI, decRI, form32, cexBit_eq_field, regLow, regMid,
      ofBits_bits, toInt_field_imm32 (n := 9) himm]

theorem readBy_encRI_decRU {mk : Form → Reg → Reg → Nat → Instr} {imm : Nat}
    (h : (f.wfShared d a && fitsUnsigned f.immBits imm) = true) :
    (encRI op f d a (BitVec.ofNat 32 imm)).readBy (decRU mk) (decRU' mk) = .ok (mk f d a imm) := by
  obtain ⟨hreg, himm⟩ := Bool.and_eq_true_iff.1 h
  cases f with
  | w16 =>
    obtain ⟨hd, rfl⟩ := Form.wfShared_w16 hreg
    simp (disch := omega) [-Nat.reduceAdd, encRI, decRU', lowReg, hd, toNat_field_ofNat (n := 7) himm]
  | w32 =>
    simp (disch := omega) [-Nat.reduceAdd, encRI, decRU, form32, cexBit_eq_field, regLow, regMid,
      toNat_field_ofNat (n := 15) himm]
  | cex =>
    simp (disch := omega) [-Nat.reduceAdd, encRI, decRU, form32, cexBit_eq_field, regLow, regMid,
      ofBits_bits, toNat_field_ofNat (n := 9) himm]

theorem readBy_encRM {mk : Form → Reg → Reg → Int → Instr} {imm : Int}
    (h : (f.wf2 d a && fitsSigned f.offsetBits imm) = true) :
    (encRM op f d a (imm32 imm)).readBy (decRM mk) (decRM' mk) = .ok (mk f d a imm) := by
  obtain ⟨hreg, himm⟩ := Bool.and_eq_true_iff.1 h
  cases f with
  | w16 =>
    obtain ⟨hd, ha⟩ := Form.wf2_w16 hreg
    simp (disch := omega) [-Nat.reduceAdd, encRM, decRM', lowReg, midReg, hd, ha,
      toInt_field_imm32 (n := 4) himm]
  | w32 =>
    simp (disch := omega) [-Nat.reduceAdd, encRM, decRM, decRI, form32, cexBit_eq_field, regLow, regMid,
      toInt_field_imm32 (n := 15) himm]
  | cex =>
    simp (disch := omega) [-Nat.reduceAdd, encRM, decRM, decRI, form32, cexBit_eq_field, regLow, regMid,
      ofBits_bits, toInt_field_imm32 (n := 9) himm]

/-! ### Instructions that are never conditional (R164) -/

theorem readBy_encD_decDR {mk : Width → Reg → Instr} (h : w.regOk d = true) :
    (encD op w.form d).readBy (decDR mk) (decDR' mk) = .ok (mk w d) := by
  cases w with
  | w16 => simp (disch := omega) [-Nat.reduceAdd, Width.form, encD, decDR', lowReg, reg16_low3 h]
  | w32 => simp (disch := omega) [-Nat.reduceAdd, Width.form, encD, decDR, ifPlain, regLow]

theorem readBy_encS_decSR {mk : Width → Reg → Instr} (h : w.regOk a = true) :
    (encS op w.form a).readBy (decSR mk) (decSR' mk) = .ok (mk w a) := by
  cases w with
  | w16 => simp (disch := omega) [-Nat.reduceAdd, Width.form, encS, decSR', midReg, reg16_low3 h]
  | w32 => simp (disch := omega) [-Nat.reduceAdd, Width.form, encS, decSR, ifPlain, regMid]

theorem readBy_encB {mk : Width → CReg → Int → Instr} {k : CReg} {imm : Int} (h : w.wfBranch k imm = true) :
    (encB op w k (imm32 imm)).readBy (decB mk) (decB' mk) = .ok (mk w k imm) := by
  obtain ⟨hk, himm⟩ := Bool.and_eq_true_iff.1 h
  cases w with
  | w16 =>
    obtain rfl : k = 0 := beq_iff_eq.1 hk
    simp (disch := omega) [-Nat.reduceAdd, encB, decB', toInt_field_imm32 (n := 10) himm]
  | w32 =>
    simp (disch := omega) [-Nat.reduceAdd, encB, decB, ifPlain, cexBit_eq_field,
      toInt_field_imm32 (n := 22) himm]

theorem readBy_encJ {mk : Width → Int → Instr} {imm : Int} (h : fitsSigned w.jumpBits imm = true) :
    (encJ op w (imm32 imm)).readBy (decJ mk) (decJ' mk) = .ok (mk w imm) := by
  cases w with
  | w16 => simp (disch := omega) [-Nat.reduceAdd, encJ, decJ', toInt_field_imm32 (n := 10) h]
  | w32 =>
    simp (disch := omega) [-Nat.reduceAdd, encJ, decJ, ifPlain, cexBit_eq_field,
      toInt_field_imm32 (n := 25) h]

theorem readBy_encCR {mk : Width → CReg → Reg → Reg → Instr} {k : CReg}
    (h : (w.cregOk k && w.regOk a && w.regOk b) = true) :
    (encCR op w k a b).readBy (decCR mk) (decCR' mk) = .ok (mk w k a b) := by
  obtain ⟨hka, hb⟩ := Bool.and_eq_true_iff.1 h
  obtain ⟨hk, ha⟩ := Bool.and_eq_true_iff.1 hka
  cases w with
  | w16 =>
    obtain rfl : k = 0 := beq_iff_eq.1 hk
    simp (disch := omega) [-Nat.reduceAdd, encCR, decCR', lowReg, midReg, reg16_low3 ha,
      reg16_low3 hb]
  | w32 =>
    simp (disch := omega) [-Nat.reduceAdd, encCR, decCR, ifPlain, cexBit_eq_field, regMid, regHigh]

theorem readBy_encCI {mk : Width → CReg → Reg → Int → Instr} {k : CReg} {imm : Int}
    (h : (w.cregOk k && w.regOk a && fitsSigned w.cmpiBits imm) = true) :
    (encCI op w k a (imm32 imm)).readBy (decCI mk) (decCI' mk) = .ok (mk w k a imm) := by
  obtain ⟨hka, himm⟩ := Bool.and_eq_true_iff.1 h
  obtain ⟨hk, ha⟩ := Bool.and_eq_true_iff.1 hka
  cases w with
  | w16 =>
    obtain rfl : k = 0 := beq_iff_eq.1 hk
    simp (disch := omega) [-Nat.reduceAdd, encCI, decCI', lowReg, reg16_low3 ha,
      toInt_field_imm32 (n := 7) himm]
  | w32 =>
    simp (disch := omega) [-Nat.reduceAdd, encCI, decCI, ifPlain, cexBit_eq_field, regLow,
      toInt_field_imm32 (n := 17) himm]

theorem readBy_encM_decZ {mk : Width → Instr} : (encM op w 0).readBy (decZ mk) (decZ' mk) = .ok (mk w) := by
  cases w with
  | w16 => simp (disch := omega) [-Nat.reduceAdd, encM, decZ']
  | w32 => simp (disch := omega) [-Nat.reduceAdd, encM, decZ, ifPlain, cexBit_eq_field]

theorem readBy_encM_decT {mk : Width → BitVec 5 → Instr} {imm : BitVec 5} :
    (encM op w (imm.setWidth 6)).readBy (decT mk) (decT' mk) = .ok (mk w imm) := by
  cases w with
  | w16 => simp (disch := omega) [-Nat.reduceAdd, encM, decT']
  | w32 => simp (disch := omega) [-Nat.reduceAdd, encM, decT, ifPlain, cexBit_eq_field]

theorem readBy_encM_decM2 {mk : Width → BitVec 2 → Instr} {imm : BitVec 2} :
    (encM op w (imm.setWidth 6)).readBy (decM2 mk) (decM2' mk) = .ok (mk w imm) := by
  cases w with
  | w16 => simp (disch := omega) [-Nat.reduceAdd, encM, decM2']
  | w32 => simp (disch := omega) [-Nat.reduceAdd, encM, decM2, ifPlain, cexBit_eq_field]

theorem readBy_encM_decM6 {mk : Width → BitVec 6 → Instr} {imm : BitVec 6} :
    (encM op w imm).readBy (decM6 mk) (decM6' mk) = .ok (mk w imm) := by
  cases w with
  | w16 => simp (disch := omega) [-Nat.reduceAdd, encM, decM6']
  | w32 => simp (disch := omega) [-Nat.reduceAdd, encM, decM6, ifPlain, cexBit_eq_field]

/-- Format M1, bit 0 clear. -/
theorem readBy_encM_decM1_zero {mk0 mk1 : Width → Instr} :
    (encM op w 0).readBy (decM1 mk0 mk1) (decM1' mk0 mk1) = .ok (mk0 w) := by
  cases w with
  | w16 =>
    simp (disch := omega) [-Nat.reduceAdd, -BitVec.getLsbD_eq_getElem, encM, decM1', getLsbD_eq_field]
  | w32 =>
    simp (disch := omega) [-Nat.reduceAdd, -BitVec.getLsbD_eq_getElem, encM, decM1, ifPlain, getLsbD_eq_field,
      cexBit_eq_field]

/-- Format M1, bit 0 set. -/
theorem readBy_encM_decM1_one {mk0 mk1 : Width → Instr} :
    (encM op w 1).readBy (decM1 mk0 mk1) (decM1' mk0 mk1) = .ok (mk1 w) := by
  have hfirst : field 1#6 0 1 = 1#1 := by decide
  have hrest : isZero 1#6 5 1 = true := by decide
  cases w with
  | w16 =>
    simp (disch := omega) [-Nat.reduceAdd, -BitVec.getLsbD_eq_getElem, encM, decM1', getLsbD_eq_field,
      hfirst, hrest]
  | w32 =>
    simp (disch := omega) [-Nat.reduceAdd, -BitVec.getLsbD_eq_getElem, encM, decM1, ifPlain, getLsbD_eq_field,
      cexBit_eq_field, hfirst, hrest]

/-! ### Instructions of 32-bit mode only (R166) -/

theorem readBy_wordXF {mk : Reg → Reg → BitVec 6 → BitVec 5 → Instr} {len : BitVec 6} {lsb : BitVec 5} :
    (Encoded.word (op ++ 0#5 ++ len ++ lsb ++ a ++ d)).readBy (decXF mk) (fun _ => .illegal16) =
      .ok (mk d a len lsb) := by
  simp (disch := omega) [-Nat.reduceAdd, decXF, ifPlain, cexBit_eq_field, regLow, regMid]

theorem readBy_wordLI {upper : Bool} {imm : BitVec 16} :
    (Encoded.word (op ++ BitVec.ofBool upper ++ 0#4 ++ imm ++ d)).readBy decLI (fun _ => .illegal16) =
      .ok (if upper then .lui d imm else .lli d imm) := by
  cases upper with
  | false => simp (disch := omega) [-Nat.reduceAdd, decLI, cexBit_eq_field, regLow]
  | true => simp (disch := omega) [-Nat.reduceAdd, decLI, cexBit_eq_field, regLow]

theorem readBy_wordCO {mk : BitVec 2 → BitVec 24 → Instr} {k : BitVec 2} {word : BitVec 24} :
    (Encoded.word (op ++ k ++ word)).readBy (decCO mk) (fun _ => .illegal16) = .ok (mk k word) := by
  simp (disch := omega) [-Nat.reduceAdd, decCO]

end

/-! ## The opcodes (R148) -/

/-- A word with this opcode is read in these formats. -/
structure OpcodeReadBy (op : BitVec 6) (dec : BitVec 32 → Decoded) (dec' : BitVec 16 → Decoded) : Prop where
  word : ∀ w, opcode32 w = op → decode32 w = dec w
  half : ∀ h, opcode16 h = op → decode16 h = dec' h

/-- The decoder undoes the encoder where the opcode of the word leads it to formats that do; which formats those are, the
tables of the decoder say. -/
theorem decodeEncoded_encode_of_readBy {i : Instr} {dec : BitVec 32 → Decoded} {dec' : BitVec 16 → Decoded}
    (hop : Laws.Opcode.Statement i) (hread : (encode i).readBy dec dec' = .ok i)
    (htable : OpcodeReadBy (Laws.Opcode.number i) dec dec' := by
      exact ⟨fun w h => by rw [decode32, h]; rfl, fun w h => by rw [decode16, h]; rfl⟩) :
    decodeEncoded (encode i) = .ok i := by
  unfold Laws.Opcode.Statement at hop
  cases he : encode i with
  | word w =>
    rw [he] at hop hread
    exact (htable.word w hop).trans hread
  | half h =>
    rw [he] at hop hread
    exact (htable.half h hop).trans hread

/-- Settles O5: per instruction, the opcode of its word and the round trip of its format. -/
theorem decodeEncode : Obligations.DecodeEncode := by
  intro i hwf
  cases i with
  | nop => exact decodeEncoded_encode_of_readBy (Laws.Opcode.nop ..) readBy_encM_decZ
  | add => exact decodeEncoded_encode_of_readBy (Laws.Opcode.add ..) (readBy_encR3 hwf)
  | addi => exact decodeEncoded_encode_of_readBy (Laws.Opcode.addi ..) (readBy_encRI hwf)
  | addiu => exact decodeEncoded_encode_of_readBy (Laws.Opcode.addiu ..) (readBy_encRI_decRU hwf)
  | addu => exact decodeEncoded_encode_of_readBy (Laws.Opcode.addu ..) (readBy_encR3 hwf)
  | mulhi => exact decodeEncoded_encode_of_readBy (Laws.Opcode.mulhi ..) (readBy_encD hwf)
  | muli => exact decodeEncoded_encode_of_readBy (Laws.Opcode.muli ..) (readBy_encRI hwf)
  | muls => exact decodeEncoded_encode_of_readBy (Laws.Opcode.muls ..) (readBy_encR3 hwf)
  | mulu => exact decodeEncoded_encode_of_readBy (Laws.Opcode.mulu ..) (readBy_encR3 hwf)
  | mulus => exact decodeEncoded_encode_of_readBy (Laws.Opcode.mulus ..) (readBy_encR3 hwf)
  | muls16 => exact decodeEncoded_encode_of_readBy (Laws.Opcode.muls16 ..) (readBy_encR3 hwf)
  | mulu16 => exact decodeEncoded_encode_of_readBy (Laws.Opcode.mulu16 ..) (readBy_encR3 hwf)
  | mulus16 => exact decodeEncoded_encode_of_readBy (Laws.Opcode.mulus16 ..) (readBy_encR3 hwf)
  | sub => exact decodeEncoded_encode_of_readBy (Laws.Opcode.sub ..) (readBy_encR3 hwf)
  | subu => exact decodeEncoded_encode_of_readBy (Laws.Opcode.subu ..) (readBy_encR3 hwf)
  | exb => exact decodeEncoded_encode_of_readBy (Laws.Opcode.exb ..) (readBy_encXB hwf)
  | exbf => exact decodeEncoded_encode_of_readBy (Laws.Opcode.exbf ..) (readBy_encR3 hwf)
  | exbfi => exact decodeEncoded_encode_of_readBy (Laws.Opcode.exbfi ..) readBy_wordXF
  | exh => exact decodeEncoded_encode_of_readBy (Laws.Opcode.exh ..) (readBy_encXH hwf)
  | lli => exact decodeEncoded_encode_of_readBy (Laws.Opcode.lli ..) (readBy_wordLI (upper := false))
  | lui => exact decodeEncoded_encode_of_readBy (Laws.Opcode.lui ..) (readBy_wordLI (upper := true))
  | sext => exact decodeEncoded_encode_of_readBy (Laws.Opcode.sext ..) (readBy_encR3 hwf)
  | sexti => exact decodeEncoded_encode_of_readBy (Laws.Opcode.sexti ..) (readBy_encSX hwf)
  | conb => exact decodeEncoded_encode_of_readBy (Laws.Opcode.conb ..) (readBy_encR3 hwf)
  | conh => exact decodeEncoded_encode_of_readBy (Laws.Opcode.conh ..) (readBy_encR3 hwf)
  | and => exact decodeEncoded_encode_of_readBy (Laws.Opcode.and ..) (readBy_encR3 hwf)
  | andi => exact decodeEncoded_encode_of_readBy (Laws.Opcode.andi ..) (readBy_encRI_decRU hwf)
  | not => exact decodeEncoded_encode_of_readBy (Laws.Opcode.not ..) (readBy_encR2 hwf)
  | or => exact decodeEncoded_encode_of_readBy (Laws.Opcode.or ..) (readBy_encR3 hwf)
  | ori => exact decodeEncoded_encode_of_readBy (Laws.Opcode.ori ..) (readBy_encRI_decRU hwf)
  | xor => exact decodeEncoded_encode_of_readBy (Laws.Opcode.xor ..) (readBy_encR3 hwf)
  | rcon => exact decodeEncoded_encode_of_readBy (Laws.Opcode.rcon ..) (readBy_encS_decSR hwf)
  | scon => exact decodeEncoded_encode_of_readBy (Laws.Opcode.scon ..) (readBy_encD_decDR hwf)
  | bc => exact decodeEncoded_encode_of_readBy (Laws.Opcode.bc ..) (readBy_encB hwf)
  | begt => exact decodeEncoded_encode_of_readBy (Laws.Opcode.begt ..) (readBy_encB hwf)
  | belt => exact decodeEncoded_encode_of_readBy (Laws.Opcode.belt ..) (readBy_encB hwf)
  | beq => exact decodeEncoded_encode_of_readBy (Laws.Opcode.beq ..) (readBy_encB hwf)
  | bgt => exact decodeEncoded_encode_of_readBy (Laws.Opcode.bgt ..) (readBy_encB hwf)
  | blt => exact decodeEncoded_encode_of_readBy (Laws.Opcode.blt ..) (readBy_encB hwf)
  | bne => exact decodeEncoded_encode_of_readBy (Laws.Opcode.bne ..) (readBy_encB hwf)
  | bnc => exact decodeEncoded_encode_of_readBy (Laws.Opcode.bnc ..) (readBy_encB hwf)
  | jal => exact decodeEncoded_encode_of_readBy (Laws.Opcode.jal ..) (readBy_encJ hwf)
  | jalr => exact decodeEncoded_encode_of_readBy (Laws.Opcode.jalr ..) (readBy_encS hwf)
  | jmp => exact decodeEncoded_encode_of_readBy (Laws.Opcode.jmp ..) (readBy_encJ hwf)
  | jmpr => exact decodeEncoded_encode_of_readBy (Laws.Opcode.jmpr ..) (readBy_encS hwf)
  | cmp => exact decodeEncoded_encode_of_readBy (Laws.Opcode.cmp ..) (readBy_encCR hwf)
  | cmpi => exact decodeEncoded_encode_of_readBy (Laws.Opcode.cmpi ..) (readBy_encCI hwf)
  | sll => exact decodeEncoded_encode_of_readBy (Laws.Opcode.sll ..) (readBy_encR3 hwf)
  | slli => exact decodeEncoded_encode_of_readBy (Laws.Opcode.slli ..) (readBy_encSH hwf)
  | sra => exact decodeEncoded_encode_of_readBy (Laws.Opcode.sra ..) (readBy_encR3 hwf)
  | srai => exact decodeEncoded_encode_of_readBy (Laws.Opcode.srai ..) (readBy_encSH hwf)
  | srl => exact decodeEncoded_encode_of_readBy (Laws.Opcode.srl ..) (readBy_encR3 hwf)
  | srli => exact decodeEncoded_encode_of_readBy (Laws.Opcode.srli ..) (readBy_encSH hwf)
  | ld => exact decodeEncoded_encode_of_readBy (Laws.Opcode.ld ..) (readBy_encRM hwf)
  | st => exact decodeEncoded_encode_of_readBy (Laws.Opcode.st ..) (readBy_encRM hwf)
  | mov => exact decodeEncoded_encode_of_readBy (Laws.Opcode.mov ..) (readBy_encR2 hwf)
  | cop => exact decodeEncoded_encode_of_readBy (Laws.Opcode.cop ..) readBy_wordCO
  | movfc => exact decodeEncoded_encode_of_readBy (Laws.Opcode.movfc ..) (readBy_encCF hwf)
  | movtc => exact decodeEncoded_encode_of_readBy (Laws.Opcode.movtc ..) (readBy_encCT hwf)
  | chrs => exact decodeEncoded_encode_of_readBy (Laws.Opcode.chrs ..) readBy_encM_decM2
  | di => exact decodeEncoded_encode_of_readBy (Laws.Opcode.di ..) (readBy_encM_decM1_zero (mk1 := .ei))
  | ei => exact decodeEncoded_encode_of_readBy (Laws.Opcode.ei ..) (readBy_encM_decM1_one (mk0 := .di))
  | swm => exact decodeEncoded_encode_of_readBy (Laws.Opcode.swm ..) readBy_encM_decM6
  | reti => exact decodeEncoded_encode_of_readBy (Laws.Opcode.reti ..) (readBy_encM_decM1_zero (mk1 := .retu))
  | retu => exact decodeEncoded_encode_of_readBy (Laws.Opcode.retu ..) (readBy_encM_decM1_one (mk0 := .reti))
  | scall => exact decodeEncoded_encode_of_readBy (Laws.Opcode.scall ..) readBy_encZ_decZC
  | trap => exact decodeEncoded_encode_of_readBy (Laws.Opcode.trap ..) readBy_encM_decT

/-- Settles O4: each word by running the decoder on it. -/
theorem wordsDecode : Obligations.WordsDecode :=
  ⟨rfl, rfl, rfl, rfl, rfl, rfl⟩

end Sys2Proof

/-! SUPPORT. A false condition (`30_encoding.md` R163): each of the 41 conditional instructions only ends. -/

namespace Sys2Proof.Machine

/-- `jmpr` or `jalr`: a false one is a transfer not taken, and keeps interrupts out of the next boundary (log 15). -/
def jumpsToRegister : Instr → Bool
  | .jmpr _ _ => true
  | .jalr _ _ => true
  | _ => false

/-- A conditional instruction whose condition is false only ends: the two register jumps as a transfer that is not taken,
the others by the rule of `guarded`. -/
theorem exec_of_not_executes {i : Instr} {f : Form} {s : State} (hf : i.condForm = some f)
    (hx : executes f s = false) : exec i s = retireWith none none (jumpsToRegister i) s := by
  cases i with
  | jalr | jmpr =>
    cases hf
    exact if_neg (Bool.eq_false_iff.1 hx)
  | nop | exbfi | lli | lui | rcon | scon | bc | begt | belt | beq | bgt | blt | bne | bnc | jal | jmp | cmp | cmpi | cop
  | chrs | di | ei | swm | reti | retu | trap => cases hf
  | _ =>
    cases hf
    unfold exec
    exact guarded_false hx _

/-- Settles O26: such an instruction only ends, and an instruction that only ends has no other effect. -/
theorem falseCondition : Obligations.FalseCondition := by
  intro i f s hf hx hadv
  rw [exec_of_not_executes hf hx]
  exact retire_next hadv (jumpsToRegister i)

end Sys2Proof.Machine

/-! SUPPORT. The instructions of `40_arithmetic.md`: their flags as arithmetic on the operands, the checked and the
wrapping results, and which instructions write EXCEPTION_CS and the latch `mul_hi`. -/

namespace Sys2Proof.Machine

/-! ## Operands -/

/-- An immediate that fits 32 bits is sign extended. -/
theorem toInt_sext {imm : Int} (h0 : -(2 : Int) ^ 31 ≤ imm) (h1 : imm < (2 : Int) ^ 31) : (sext imm).toInt = imm :=
  BitVec.toInt_ofInt_eq_self (by decide) h0 h1

theorem toNat_zext {imm : Nat} (h : imm < 2 ^ 32) : (zext imm).toNat = imm := by
  rw [zext, BitVec.toNat_ofNat, Nat.mod_eq_of_lt h]

theorem lowSigned_eq (v : Word) : lowSigned v = (v.setWidth 16).toInt := by
  rw [lowSigned, BitVec.setWidth_eq_extractLsb' (by decide)]

theorem lowUnsigned_eq (v : Word) : lowUnsigned v = v.toNat % 2 ^ 16 := by
  simp only [lowUnsigned, BitVec.extractLsb'_toNat, Nat.shiftRight_zero]

/-! ## Flags (R196) -/

/-- Z and N of an addition, from the wrapped sum. -/
theorem addFlags_eq_wrapped (a b : Word) : addFlags a b =
    { z := decide ((a.toNat + b.toNat) % 2 ^ 32 = 0)
      n := decide (2 ^ 31 ≤ (a.toNat + b.toNat) % 2 ^ 32)
      c := decide (2 ^ 32 ≤ a.toNat + b.toNat) } := by
  have hz : (a + b == 0) = decide ((a.toNat + b.toNat) % 2 ^ 32 = 0) := by
    rw [Bool.beq_eq_decide_eq, decide_eq_decide, ← BitVec.toNat_inj, BitVec.toNat_add]; rfl
  have hn : (a + b).msb = decide (2 ^ 31 ≤ (a.toNat + b.toNat) % 2 ^ 32) := by
    rw [BitVec.msb_eq_decide, BitVec.toNat_add]
  simp only [addFlags, Config.nOnWrap, negative, hz, hn]

/-- Z and N of a word are those of its signed value. -/
theorem beq_zero_and_msb_of_toInt {r : Word} {x : Int} (h : r.toInt = x) :
    (r == 0) = decide (x = 0) ∧ r.msb = decide (x < 0) := by
  subst h
  refine ⟨?_, BitVec.msb_eq_toInt⟩
  rw [Bool.beq_eq_decide_eq, decide_eq_decide, ← BitVec.toInt_inj]; rfl

/-- Z and N of an addition whose exact sum fits. -/
theorem addFlags_eq_exact {a b : Word} (h : -(2 : Int) ^ 31 ≤ a.toInt + b.toInt ∧ a.toInt + b.toInt < 2 ^ 31) :
    addFlags a b =
      { z := decide (a.toInt + b.toInt = 0)
        n := decide (a.toInt + b.toInt < 0)
        c := decide (2 ^ 32 ≤ a.toNat + b.toNat) } := by
  have hsum : (a + b).toInt = a.toInt + b.toInt := by
    rw [BitVec.toInt_add]; exact Int.bmod_eq_of_le h.1 h.2
  obtain ⟨hz, hn⟩ := beq_zero_and_msb_of_toInt hsum
  simp only [addFlags, Config.nOnWrap, negative, hz, hn]

/-- Z and N of a subtraction whose exact difference fits, as the order of the operands. -/
theorem subFlags_eq_exact {a b : Word} (h : -(2 : Int) ^ 31 ≤ a.toInt - b.toInt ∧ a.toInt - b.toInt < 2 ^ 31) :
    subFlags a b =
      { z := decide (a = b), n := decide (a.toInt < b.toInt), c := decide (b.toNat ≤ a.toNat) } := by
  have hdiff : (a - b).toInt = a.toInt - b.toInt := by
    rw [BitVec.toInt_sub]; exact Int.bmod_eq_of_le h.1 h.2
  obtain ⟨hz, hn⟩ := beq_zero_and_msb_of_toInt hdiff
  simp only [subFlags, Config.nOnWrap, negative, Config.subCarry, subCarry, hz, hn, Int.sub_eq_zero, BitVec.toInt_inj,
    sub_neg]

/-- The flags of any subtraction: N is bit 31 of the wrapped difference, C the carry out of a + not b + 1. -/
theorem subFlags_eq_wrapped (a b : Word) : subFlags a b =
    { z := decide (a = b)
      n := (a - b).getLsbD 31
      c := decide (2 ^ 32 ≤ a.toNat + (2 ^ 32 - 1 - b.toNat) + 1) } := by
  have hz : (a - b == 0) = decide (a = b) := by
    rw [Bool.beq_eq_decide_eq, decide_eq_decide]; exact sub_eq_zero
  have hc : b.toNat ≤ a.toNat ↔ 2 ^ 32 ≤ a.toNat + (2 ^ 32 - 1 - b.toNat) + 1 := by
    have := b.isLt
    omega
  simp only [subFlags, Config.nOnWrap, negative, Config.subCarry, subCarry, hz, hc, BitVec.msb_eq_getLsbD_last]

/-! ## Additions and subtractions, with and without overflow (R197) -/

theorem overflows_iff (r : Int) : overflows r = true ↔ r < -(2 : Int) ^ 31 ∨ 2 ^ 31 - 1 < r := decide_eq_true_iff

theorem overflows_eq_false {r : Int} (h : -(2 : Int) ^ 31 ≤ r ∧ r < 2 ^ 31) : overflows r = false := by
  rw [Bool.eq_false_iff, Ne, overflows_iff]
  omega

section
variable {s : State} (d : Reg) {a b : Word}

theorem addChecked_next (hadv : CanAdvance s)
    (h : -(2 : Int) ^ 31 ≤ a.toInt + b.toInt ∧ a.toInt + b.toInt < 2 ^ 31) :
    ∃ t, addChecked d a b s = .next t ∧ GivesRegFlags d (a + b) (addFlags a b) s t := by
  rw [addChecked, overflows_eq_false h]
  exact writeFlagged_next hadv d _ _

theorem subChecked_next (hadv : CanAdvance s)
    (h : -(2 : Int) ^ 31 ≤ a.toInt - b.toInt ∧ a.toInt - b.toInt < 2 ^ 31) :
    ∃ t, subChecked d a b s = .next t ∧ GivesRegFlags d (a - b) (subFlags a b) s t := by
  rw [subChecked, overflows_eq_false h]
  exact writeFlagged_next hadv d _ _

/-- An addition that wraps, in terms of the value `n` of its second operand. -/
theorem addWrapped_next (hadv : CanAdvance s) {n : Nat} (hn : b.toNat = n) :
    ∃ t, writeFlagged d (a + b) (addFlags a b) s = .next t ∧
      GivesRegFlags d (BitVec.ofNat 32 (a.toNat + n))
        { z := decide ((a.toNat + n) % 2 ^ 32 = 0)
          n := decide (2 ^ 31 ≤ (a.toNat + n) % 2 ^ 32)
          c := decide (2 ^ 32 ≤ a.toNat + n) } s t := by
  subst hn
  rw [← addFlags_eq_wrapped, ← BitVec.add_def]
  exact writeFlagged_next hadv d _ _

theorem addChecked_raised (h : a.toInt + b.toInt < -(2 : Int) ^ 31 ∨ 2 ^ 31 - 1 < a.toInt + b.toInt) :
    ∃ t, addChecked d a b s = .next t ∧ Raised 0x06#8 s t := by
  rw [addChecked, (overflows_iff _).2 h]
  exact ⟨_, rfl, raise_raised codeArithmeticOverflow s⟩

theorem subChecked_raised (h : a.toInt - b.toInt < -(2 : Int) ^ 31 ∨ 2 ^ 31 - 1 < a.toInt - b.toInt) :
    ∃ t, subChecked d a b s = .next t ∧ Raised 0x06#8 s t := by
  rw [subChecked, (overflows_iff _).2 h]
  exact ⟨_, rfl, raise_raised codeArithmeticOverflow s⟩

end

/-! ## An executed instruction, as the operation it stands for (R190 to R206) -/

section
variable {f : Form} {s : State} (hx : executes f s = true) (d a b : Reg)
include hx

theorem exec_add : exec (.add f d a b) s = addChecked d (readX a s) (readX b s) s := by
  rw [exec, execAdd, guarded_true hx]

theorem exec_addi (imm : Int) : exec (.addi f d a imm) s = addChecked d (readX a s) (sext imm) s := by
  rw [exec, execAddi, guarded_true hx]

theorem exec_addu : exec (.addu f d a b) s =
    writeFlagged d (readX a s + readX b s) (addFlags (readX a s) (readX b s)) s := by
  rw [exec, execAddu, guarded_true hx]

theorem exec_addiu (imm : Nat) : exec (.addiu f d a imm) s =
    writeFlagged d (readX a s + zext imm) (addFlags (readX a s) (zext imm)) s := by
  rw [exec, execAddiu, guarded_true hx]

theorem exec_sub : exec (.sub f d a b) s = subChecked d (readX a s) (readX b s) s := by
  rw [exec, execSub, guarded_true hx]

theorem exec_subu : exec (.subu f d a b) s =
    writeFlagged d (readX a s - readX b s) (subFlags (readX a s) (readX b s)) s := by
  rw [exec, execSubu, guarded_true hx]

theorem exec_muli (imm : Int) : exec (.muli f d a imm) s = multiply d ((readX a s).toInt * (sext imm).toInt) s := by
  rw [exec, execMuli, guarded_true hx]

theorem exec_muls : exec (.muls f d a b) s = multiply d ((readX a s).toInt * (readX b s).toInt) s := by
  rw [exec, execMuls, guarded_true hx]

theorem exec_mulu : exec (.mulu f d a b) s = multiply d ((readX a s).toNat * (readX b s).toNat : Nat) s := by
  rw [exec, execMulu, guarded_true hx]

theorem exec_mulus : exec (.mulus f d a b) s = multiply d (((readX a s).toNat : Int) * (readX b s).toInt) s := by
  rw [exec, execMulus, guarded_true hx]

theorem exec_muls16 : exec (.muls16 f d a b) s =
    writeResult d (lowWord (lowSigned (readX a s) * lowSigned (readX b s))) s := by
  rw [exec, execMuls16, guarded_true hx]

theorem exec_mulu16 : exec (.mulu16 f d a b) s =
    writeResult d (lowWord (lowUnsigned (readX a s) * lowUnsigned (readX b s) : Nat)) s := by
  rw [exec, execMulu16, guarded_true hx]

theorem exec_mulus16 : exec (.mulus16 f d a b) s =
    writeResult d (lowWord (lowUnsigned (readX a s) * lowSigned (readX b s))) s := by
  rw [exec, execMulus16, guarded_true hx]

theorem exec_mulhi_of_valid {v : Word} (hv : s.mulHi = some v) : exec (.mulhi f d) s = writeResult d v s := by
  rw [exec, execMulhi, guarded_true hx, hv]

theorem exec_mulhi_of_invalid (hnone : s.mulHi = none) : exec (.mulhi f d) s = .fault .mulhiUnpaired := by
  rw [exec, execMulhi, guarded_true hx, hnone]

end

/-! ## EXCEPTION_CS and `mul_hi` over all instructions -/

theorem setWidth_ccbRead_exceptionCs (s : State) : (ccbRead 0x17#8 s).setWidth 8 = s.ccb.exceptionCs := by
  have hread : ccbRead 0x17#8 s = s.ccb.exceptionCs.setWidth 32 := rfl
  rw [hread, BitVec.setWidth_setWidth_of_le _ (by decide), BitVec.setWidth_eq]

/-- EXCEPTION_CS is read only (R45). -/
theorem ccbWrite_exceptionCs (off : BitVec 8) (v : Word) (s : State) :
    (ccbWrite off v s).ccb.exceptionCs = s.ccb.exceptionCs := by
  rw [← setWidth_ccbRead_exceptionCs, ← setWidth_ccbRead_exceptionCs]
  by_cases h : 0x17#8 = off
  · rw [ccbWrite_of_noWidth (h ▸ rfl)]
  · rw [ccbRead_ccbWrite_other h]

/-- An instruction leaves EXCEPTION_CS as it is, or takes an exception, with code 06h only if it checks for overflow. -/
theorem Did.exceptionCs {i : Instr} {s t : State} (hd : Did i s t) :
    t.ccb.exceptionCs = s.ccb.exceptionCs ∨ (t.ccb.exceptionCs = codeArithmeticOverflow → ChecksOverflow i) := by
  cases hd with
  | exception c hc => exact .inr hc
  | exceptionPopped c hc => exact .inr fun h => absurd h hc
  | ccb f b a imm hi off => exact .inl (by rw [ended_ccb, ccbWrite_exceptionCs])
  | register d v cr outs tok => exact .inl (by rw [ended_ccb, writeX_ccb]; rfl)
  | nothing | memory | sets | disables | enables | switches | returns | toUser | calls => exact .inl rfl

/-- Only an executed 32-bit multiplication leaves the latch valid (R39). -/
theorem Did.mulHi {i : Instr} {s t : State} (hd : Did i s t) : t.mulHi = none ∨ Multiplies i s := by
  cases hd with
  | register d v cr outs tok delayed mulHi block _ hm => exact hm.imp id And.left
  | nothing | exception | exceptionPopped | ccb | memory | sets | disables | enables | switches | returns | toUser
  | calls => exact .inl rfl

end Sys2Proof.Machine

/-! SUPPORT. The statements of `40_arithmetic.md`, in a namespace of their own: two bear the name of an operation. -/

namespace Sys2Proof.Arithmetic

open Sys2Proof.Machine

/-- Settles O8: the sum is checked and fits, and its flags are those of the exact sum. -/
theorem addChecked : Obligations.AddChecked := by
  intro f d a b imm s hx hadv
  rw [exec_add hx, exec_addi hx]
  refine ⟨fun h => ?_, fun h => ?_, toInt_sext⟩
  · rw [← addFlags_eq_exact h]
    exact addChecked_next d hadv h
  · rw [← addFlags_eq_exact h]
    exact addChecked_next d hadv h

/-- Settles O9: the sum is written as it wraps, and its flags are those of the wrapped sum. -/
theorem addWrapping : Obligations.AddWrapping := by
  intro f d a b imm s hx hadv himm
  rw [exec_addu hx, exec_addiu hx]
  exact ⟨addWrapped_next d hadv rfl, addWrapped_next d hadv (toNat_zext (himm.trans (by decide)))⟩

/-- Settles O10: `sub` by the flags of the exact difference, `subu` by those of the wrapped one. -/
theorem subtract : Obligations.Subtract := by
  intro f d a b s hx hadv
  rw [exec_sub hx, exec_subu hx]
  refine ⟨fun h => ?_, ?_⟩
  · rw [← subFlags_eq_exact h]
    exact subChecked_next d hadv h
  · rw [← subFlags_eq_wrapped]
    exact writeFlagged_next hadv d _ _

/-- Settles O11: the three raise where their exact result does not fit, and what any instruction that completes can have
done leaves EXCEPTION_CS alone or puts another code there. -/
theorem arithmeticOverflow : Obligations.ArithmeticOverflow := by
  refine ⟨fun f d a b imm s hx => ?_, fun i s t he hcode hold => ?_⟩
  · rw [exec_add hx, exec_addi hx, exec_sub hx]
    exact ⟨addChecked_raised d, addChecked_raised d, subChecked_raised d⟩
  · rcases (exec_did he).exceptionCs with hsame | hchecks
    · exact absurd (hsame.symm.trans hcode) hold
    · exact hchecks hcode

/-- Settles O12: each instruction forms its exact product and ends by the rule of a 32-bit multiplication or of an
instruction that writes one register. -/
theorem multiply : Obligations.Multiply := by
  intro f d a b imm s hx hadv h0 h1
  have hsext : (sext imm).toInt = imm := toInt_sext (by omega) (by omega)
  rw [exec_muli hx, exec_muls hx, exec_mulu hx, exec_mulus hx, exec_muls16 hx, exec_mulu16 hx, exec_mulus16 hx, hsext]
  simp only [lowSigned_eq, lowUnsigned_eq, lowWord, BitVec.ofInt_natCast]
  exact ⟨multiply_next hadv d _, multiply_next hadv d _, multiply_next hadv d _, multiply_next hadv d _,
    writeResult_next hadv d _, writeResult_next hadv d _, writeResult_next hadv d _⟩

/-- Settles O13: `mulhi` by the latch it finds, and the latch that any instruction that completes leaves. -/
theorem mulhi : Obligations.Mulhi := by
  refine ⟨fun f d s hx => ⟨fun v hv hadv => ?_, exec_mulhi_of_invalid hx d⟩, fun i s t he hvalid => ?_⟩
  · rw [exec_mulhi_of_valid hx d hv]
    exact writeResult_next hadv d v
  · exact (exec_did he).mulHi.resolve_left hvalid

end Sys2Proof.Arithmetic

/-! SUPPORT. The instructions of `41_bitfield.md`: parts of a word as arithmetic on its value, joined parts, and the
sign extension of the low bits. -/

namespace Sys2Proof.Machine

/-! ## Parts of a word -/

theorem toNat_extractLsb'_eq (v : Word) (lo len : Nat) :
    (v.extractLsb' lo len).toNat = v.toNat / 2 ^ lo % 2 ^ len := by
  rw [BitVec.extractLsb'_toNat, Nat.shiftRight_eq_div_pow]

theorem toNat_extractLsb'_zero (v : Word) (len : Nat) : (v.extractLsb' 0 len).toNat = v.toNat % 2 ^ len := by
  rw [toNat_extractLsb'_eq, pow_zero, Nat.div_one]

theorem setWidth_extractLsb'_eq_ofNat (v : Word) (lo len : Nat) :
    (v.extractLsb' lo len).setWidth 32 = BitVec.ofNat 32 (v.toNat / 2 ^ lo % 2 ^ len) := by
  apply BitVec.eq_of_toNat_eq
  rw [BitVec.toNat_setWidth, toNat_extractLsb'_eq, BitVec.toNat_ofNat]

/-- R210. -/
theorem byteOf_eq_ofNat (v : Word) (k : BitVec 2) :
    byteOf v k = BitVec.ofNat 32 (v.toNat / 2 ^ (8 * k.toNat) % 2 ^ 8) :=
  setWidth_extractLsb'_eq_ofNat v _ _

/-- R213: nothing is above the upper halfword. -/
theorem halfOf_eq_ofNat (v : Word) (h : BitVec 1) :
    halfOf v h = BitVec.ofNat 32 (if h = 0#1 then v.toNat % 2 ^ 16 else v.toNat / 2 ^ 16) := by
  rw [halfOf, setWidth_extractLsb'_eq_ofNat]
  rcases BitVec.eq_zero_or_eq_one h with rfl | rfl
  · simp
  · have hupper : v.toNat / 2 ^ 16 < 2 ^ 16 := by omega
    exact congrArg (BitVec.ofNat 32) (Nat.mod_eq_of_lt hupper)

/-- R220, where the length fits. -/
theorem extractField_of_le {len : BitVec 6} (h : len.toNat ≤ 32) (count : Nat) (v : Word) (lsb : BitVec 5) :
    extractField count v len lsb = BitVec.ofNat 32 (v.toNat / 2 ^ lsb.toNat % 2 ^ len.toNat) := if_pos h

/-! ## Joined parts -/

/-- R218. -/
theorem append_bytes_eq_ofNat (v w : Word) :
    0#16 ++ v.extractLsb' 0 8 ++ w.extractLsb' 0 8 = BitVec.ofNat 32 (2 ^ 8 * (v.toNat % 2 ^ 8) + w.toNat % 2 ^ 8) := by
  apply BitVec.eq_of_toNat_eq
  simp only [toNat_append_eq, toNat_extractLsb'_zero, BitVec.toNat_ofNat]
  omega

/-- Two halfwords joined (R214, R215, R219). -/
theorem append_halfwords_eq_ofNat (h l : BitVec 16) : h ++ l = BitVec.ofNat 32 (2 ^ 16 * h.toNat + l.toNat) := by
  apply BitVec.eq_of_toNat_eq
  rw [toNat_append_eq, BitVec.toNat_ofNat]
  omega

/-! ## Sign extension (R221) -/

/-- The low `p + 1` bits, read as a signed number. -/
theorem signExtendAt_eq (v : Word) (p : BitVec 5) :
    signExtendAt v p = (v.setWidth (p.toNat + 1)).signExtend 32 := by
  have hmsb : (v.setWidth (p.toNat + 1)).msb = v.getLsbD p.toNat := by
    simp [BitVec.msb_eq_getLsbD_last]
  rw [signExtendAt, BitVec.signExtend, BitVec.toInt_eq_msb_cond, hmsb, BitVec.toNat_setWidth]
  split <;> simp

theorem getLsbD_signExtendAt (v : Word) (p : BitVec 5) {j : Nat} (hj : j < 32) :
    (signExtendAt v p).getLsbD j = if j ≤ p.toNat then v.getLsbD j else v.getLsbD p.toNat := by
  rw [signExtendAt_eq, BitVec.getLsbD_signExtend, BitVec.msb_eq_getLsbD_last]
  by_cases hp : j ≤ p.toNat
  · simp [hj, hp]
  · simp [hj, hp]

/-! ## An executed instruction, as the word it writes (R210 to R219) -/

/-- An instruction of 32-bit mode only, in that mode. -/
theorem wideOnly_true {s : State} (h : s.psr.il = true) (k : State → Result) : wideOnly k s = k s := if_pos h

section
variable {f : Form} {s : State} (hx : executes f s = true) (d a b : Reg)
include hx

theorem exec_exb (k : BitVec 2) : exec (.exb f d a k) s = writeResult d (byteOf (readX a s) k) s := by
  rw [exec, execExb, guarded_true hx]

theorem exec_exh (h : BitVec 1) : exec (.exh f d a h) s = writeResult d (halfOf (readX a s) h) s := by
  rw [exec, execExh, guarded_true hx]

theorem exec_conb : exec (.conb f d a b) s =
    writeResult d (0#16 ++ (readX a s).extractLsb' 0 8 ++ (readX b s).extractLsb' 0 8) s := by
  rw [exec, execConb, guarded_true hx]

theorem exec_conh : exec (.conh f d a b) s =
    writeResult d ((readX b s).extractLsb' 0 16 ++ (readX a s).extractLsb' 0 16) s := by
  rw [exec, execConh, guarded_true hx]

theorem exec_exbf : exec (.exbf f d a b) s = writeResult d
    (extractField s.freeCount (readX a s) ((readX b s).extractLsb' 5 6) ((readX b s).extractLsb' 0 5)) s := by
  rw [exec, execExbf, guarded_true hx]

theorem exec_sexti (p : BitVec 5) : exec (.sexti f d a p) s = writeResult d (signExtendAt (readX a s) p) s := by
  rw [exec, execSexti, guarded_true hx]

theorem exec_sext : exec (.sext f d a b) s =
    writeResult d (signExtendAt (readX a s) ((readX b s).extractLsb' 0 5)) s := by
  rw [exec, execSext, guarded_true hx]

end

section
variable {s : State} (hil : s.psr.il = true) (d : Reg)
include hil

theorem exec_exbfi (a : Reg) (len : BitVec 6) (lsb : BitVec 5) : exec (.exbfi d a len lsb) s =
    writeResult d (extractField s.freeCount (readX a s) len lsb) s := by
  rw [exec, execExbfi, wideOnly_true hil]

theorem exec_lli (imm : BitVec 16) : exec (.lli d imm) s = writeResult d (0#16 ++ imm) s := by
  rw [exec, execLli, wideOnly_true hil]

theorem exec_lui (imm : BitVec 16) : exec (.lui d imm) s =
    writeResult d (imm ++ (readSet s.psr.rswr d s).extractLsb' 0 16) s := by
  rw [exec, execLui, wideOnly_true hil, readTarget]

end

/-! ## Results -/

section
variable {s : State} (hadv : CanAdvance s) (d : Reg)
include hadv

/-- A field of a length that fits is written. -/
theorem writeField_next {len : BitVec 6} (h : len.toNat ≤ 32) (count : Nat) (v : Word) (lsb : BitVec 5) :
    ∃ t, writeResult d (extractField count v len lsb) s = .next t ∧
      GivesReg d (BitVec.ofNat 32 (v.toNat / 2 ^ lsb.toNat % 2 ^ len.toNat)) s t := by
  rw [← extractField_of_le h count]
  exact writeResult_next hadv d _

/-- Whatever word is written, nothing else changes. -/
theorem writeResult_next_some (v : Word) : ∃ t w, writeResult d v s = .next t ∧ GivesReg d w s t := by
  obtain ⟨t, ht, hgives⟩ := writeResult_next hadv d v
  exact ⟨t, v, ht, hgives⟩

/-- The sign extended word is written, bit by bit. -/
theorem writeSignExtended_next (v : Word) (p : BitVec 5) :
    ∃ t r, writeResult d (signExtendAt v p) s = .next t ∧ GivesReg d r s t ∧
      ∀ j < 32, r.getLsbD j = if j ≤ p.toNat then v.getLsbD j else v.getLsbD p.toNat := by
  obtain ⟨t, ht, hgives⟩ := writeResult_next hadv d (signExtendAt v p)
  exact ⟨t, _, ht, hgives, fun _ hj => getLsbD_signExtendAt v p hj⟩

end

end Sys2Proof.Machine

/-! SUPPORT. The statements of `41_bitfield.md`, in a namespace of their own: one bears the name of an operation. -/

namespace Sys2Proof.BitField

open Sys2Proof.Machine

/-- Settles O14: each instruction writes the word that its parts make. -/
theorem bytesAndHalfwords : Obligations.BytesAndHalfwords := by
  intro f d a b k h s hx hadv
  rw [exec_exb hx, exec_exh hx, exec_conb hx, exec_conh hx, byteOf_eq_ofNat, halfOf_eq_ofNat, append_bytes_eq_ofNat,
    append_halfwords_eq_ofNat, toNat_extractLsb'_zero, toNat_extractLsb'_zero]
  exact ⟨writeResult_next hadv d _, writeResult_next hadv d _, writeResult_next hadv d _, writeResult_next hadv d _⟩

/-- Settles O15: both instructions write one field, `exbf` the one that two parts of its second source name. -/
theorem extractField : Obligations.ExtractField := by
  intro f d a b len lsb s hx hadv
  rw [exec_exbf hx, ← toNat_extractLsb'_eq, ← toNat_extractLsb'_zero]
  refine ⟨fun h => writeField_next hadv d h _ _ _, fun _ => writeResult_next_some hadv d _, fun hil h => ?_,
    fun hil _ => ?_⟩
  · rw [exec_exbfi hil]
    exact writeField_next hadv d h _ _ _
  · rw [exec_exbfi hil]
    exact writeResult_next_some hadv d _

/-- Settles O16: each instruction joins two halfwords, the upper one first. -/
theorem loadConstant : Obligations.LoadConstant := by
  intro d imm s hil hadv
  have hzero : BitVec.ofNat 32 imm.toNat = 0#16 ++ imm := by
    rw [append_halfwords_eq_ofNat, BitVec.toNat_zero, Nat.mul_zero, Nat.zero_add]
  rw [exec_lli hil, exec_lui hil, hzero, append_halfwords_eq_ofNat imm, toNat_extractLsb'_zero]
  exact ⟨writeResult_next hadv d _, writeResult_next hadv d _⟩

/-- Settles O17: both instructions extend the sign from bit p, which is the immediate or the low five bits of the second
source. -/
theorem signExtend : Obligations.SignExtend := by
  intro f d a b p s hx hadv
  rw [exec_sexti hx, exec_sext hx, ← toNat_extractLsb'_zero]
  exact ⟨writeSignExtended_next hadv d _ p, writeSignExtended_next hadv d _ _⟩

end Sys2Proof.BitField

/-! SUPPORT. The instructions of `42_logic_shift.md`: bits of an immediate, shift amounts, and the three shifts with the
flags of the left one. -/

namespace Sys2Proof.Machine

/-! ## Bits -/

/-- An immediate is zero extended (`00_scope.md` R8). -/
theorem getLsbD_zext (imm : Nat) {j : Nat} (hj : j < 32) : (zext imm).getLsbD j = imm.testBit j := by
  rw [zext, BitVec.getLsbD_ofNat, decide_eq_true hj, Bool.true_and]

theorem getLsbD_not_of_lt (v : Word) {j : Nat} (hj : j < 32) : (~~~v).getLsbD j = !v.getLsbD j := by
  rw [BitVec.getLsbD_not, decide_eq_true hj, Bool.true_and]

theorem getLsbD_and_zext (v : Word) (imm : Nat) {j : Nat} (hj : j < 32) :
    (v &&& zext imm).getLsbD j = (v.getLsbD j && imm.testBit j) := by
  rw [BitVec.getLsbD_and, getLsbD_zext imm hj]

theorem getLsbD_or_zext (v : Word) (imm : Nat) {j : Nat} (hj : j < 32) :
    (v ||| zext imm).getLsbD j = (v.getLsbD j || imm.testBit j) := by
  rw [BitVec.getLsbD_or, getLsbD_zext imm hj]

/-! ## Shifts (R231 to R237) -/

theorem shiftAmount_le (k : BitVec 6) : shiftAmount k ≤ 32 := min_le_right _ _

theorem shiftAmount_amountBits (v : Word) : shiftAmount (amountBits v) = min (v.toNat % 2 ^ 6) 32 := by
  rw [shiftAmount, amountBits, toNat_extractLsb'_zero]

theorem shiftLeft_eq (v : Word) (n : Nat) : shiftLeft v n = v <<< n :=
  congrArg (BitVec.ofNat 32) (Nat.shiftLeft_eq v.toNat n).symm

theorem shiftRightLogic_eq (v : Word) (n : Nat) : shiftRightLogic v n = v >>> n := by
  apply BitVec.eq_of_toNat_eq
  have hfits : v.toNat / 2 ^ n < 2 ^ 32 := (Nat.div_le_self _ _).trans_lt v.isLt
  rw [shiftRightLogic, BitVec.toNat_ofNat, Nat.mod_eq_of_lt hfits, BitVec.toNat_ushiftRight, Nat.shiftRight_eq_div_pow]

/-- Division that rounds down fills with the sign (log 38). -/
theorem shiftRightArith_eq (v : Word) (n : Nat) : shiftRightArith v n = v.sshiftRight n := by
  rw [shiftRightArith, BitVec.sshiftRight_eq, Int.shiftRight_eq_div_pow, Nat.cast_pow, Nat.cast_ofNat]

/-- Bit 32 of the exact product is the last bit shifted out; without a shift there is none. -/
theorem testBit_mul_two_pow_eq (v : Word) {n : Nat} (hn : n ≤ 32) :
    (v.toNat * 2 ^ n).testBit 32 = (decide (0 < n) && v.getLsbD (32 - n)) := by
  rw [Nat.testBit_mul_two_pow, BitVec.testBit_toNat, decide_eq_true hn, Bool.true_and]
  rcases Nat.eq_zero_or_pos n with rfl | hpos
  · exact BitVec.getLsbD_of_ge v 32 le_rfl
  · rw [decide_eq_true hpos, Bool.true_and]

/-- The flags of a left shift, as those of the shifted word. -/
theorem sllFlags_eq (v : Word) {n : Nat} (hn : n ≤ 32) : sllFlags v n =
    { z := decide (v <<< n = 0#32)
      n := (v <<< n).getLsbD 31
      c := decide (0 < n) && v.getLsbD (32 - n) } := by
  have hword : BitVec.ofNat 32 (v.toNat * 2 ^ n) = v <<< n := shiftLeft_eq v n
  rw [sllFlags, hword, testBit_mul_two_pow_eq v hn, BitVec.msb_eq_getLsbD_last, Bool.beq_eq_decide_eq]
  rfl

/-! ## An executed instruction, as the word and the flags it writes -/

section
variable {f : Form} {s : State} (hx : executes f s = true) (d a b : Reg)
include hx

theorem exec_and : exec (.and f d a b) s = writeResult d (readX a s &&& readX b s) s := by
  rw [exec, execAnd, guarded_true hx]

theorem exec_andi (imm : Nat) : exec (.andi f d a imm) s = writeResult d (readX a s &&& zext imm) s := by
  rw [exec, execAndi, guarded_true hx]

theorem exec_not : exec (.not f d a) s = writeResult d (~~~(readX a s)) s := by
  rw [exec, execNot, guarded_true hx]

theorem exec_or : exec (.or f d a b) s = writeResult d (readX a s ||| readX b s) s := by
  rw [exec, execOr, guarded_true hx]

theorem exec_ori (imm : Nat) : exec (.ori f d a imm) s = writeResult d (readX a s ||| zext imm) s := by
  rw [exec, execOri, guarded_true hx]

theorem exec_xor : exec (.xor f d a b) s = writeResult d (readX a s ^^^ readX b s) s := by
  rw [exec, execXor, guarded_true hx]

theorem exec_sll : exec (.sll f d a b) s =
    writeFlagged d (shiftLeft (readX a s) (shiftAmount (amountBits (readX b s))))
      (sllFlags (readX a s) (shiftAmount (amountBits (readX b s)))) s := by
  rw [exec, execSll, guarded_true hx]

theorem exec_slli (imm : BitVec 6) : exec (.slli f d a imm) s =
    writeFlagged d (shiftLeft (readX a s) (shiftAmount imm)) (sllFlags (readX a s) (shiftAmount imm)) s := by
  rw [exec, execSlli, guarded_true hx]

theorem exec_sra : exec (.sra f d a b) s =
    writeResult d (shiftRightArith (readX a s) (shiftAmount (amountBits (readX b s)))) s := by
  rw [exec, execSra, guarded_true hx]

theorem exec_srai (imm : BitVec 6) : exec (.srai f d a imm) s =
    writeResult d (shiftRightArith (readX a s) (shiftAmount imm)) s := by
  rw [exec, execSrai, guarded_true hx]

theorem exec_srl : exec (.srl f d a b) s =
    writeResult d (shiftRightLogic (readX a s) (shiftAmount (amountBits (readX b s)))) s := by
  rw [exec, execSrl, guarded_true hx]

theorem exec_srli (imm : BitVec 6) : exec (.srli f d a imm) s =
    writeResult d (shiftRightLogic (readX a s) (shiftAmount imm)) s := by
  rw [exec, execSrli, guarded_true hx]

end

/-! ## Results -/

section
variable {s : State} (hadv : CanAdvance s) (d : Reg)
include hadv

/-- A word of which `p` holds is written. -/
theorem writeResult_next_of {p : Word → Prop} {v : Word} (hp : p v) :
    ∃ t r, writeResult d v s = .next t ∧ GivesReg d r s t ∧ p r := by
  obtain ⟨t, ht, hgives⟩ := writeResult_next hadv d v
  exact ⟨t, v, ht, hgives, hp⟩

/-- A word shifted left is written, with its flags in C0. -/
theorem writeShiftedLeft_next (v : Word) (k : BitVec 6) :
    ∃ t, writeFlagged d (shiftLeft v (shiftAmount k)) (sllFlags v (shiftAmount k)) s = .next t ∧
      ∃ n, n = shiftAmount k ∧
        GivesRegFlags d (v <<< n)
          { z := decide (v <<< n = 0#32)
            n := (v <<< n).getLsbD 31
            c := decide (0 < n) && v.getLsbD (32 - n) } s t := by
  rw [shiftLeft_eq, sllFlags_eq v (shiftAmount_le k)]
  obtain ⟨t, ht, hgives⟩ := writeFlagged_next hadv d _ _
  exact ⟨t, ht, _, rfl, hgives⟩

end

end Sys2Proof.Machine

/-! SUPPORT. The statements of `42_logic_shift.md`, in a namespace of their own. -/

namespace Sys2Proof.LogicShift

open Sys2Proof.Machine

/-- Settles O18: each instruction writes one word, whose bits are the operation on the bits of its sources. -/
theorem booleanOps : Obligations.BooleanOps := by
  intro f d a b imm s hx hadv _
  rw [exec_and hx, exec_or hx, exec_xor hx, exec_not hx, exec_andi hx, exec_ori hx]
  refine ⟨?and, ?or, ?xor, ?not, ?andi, ?ori⟩
  case and => exact writeResult_next_of hadv d fun _ => BitVec.getLsbD_and
  case or => exact writeResult_next_of hadv d fun _ => BitVec.getLsbD_or
  case xor => exact writeResult_next_of hadv d fun _ => BitVec.getLsbD_xor
  case not => exact writeResult_next_of hadv d fun _ => getLsbD_not_of_lt _
  case andi => exact writeResult_next_of hadv d fun _ => getLsbD_and_zext _ imm
  case ori => exact writeResult_next_of hadv d fun _ => getLsbD_or_zext _ imm

/-- Settles O19: a shift by a register is the shift by six of its bits; the left ones write C0 as well. -/
theorem shifts : Obligations.Shifts := by
  intro f d a b imm s hx hadv
  rw [exec_sll hx, exec_slli hx, exec_sra hx, exec_srai hx, exec_srl hx, exec_srli hx, ← shiftAmount_amountBits,
    ← shiftAmount]
  refine ⟨writeShiftedLeft_next hadv d _ _, writeShiftedLeft_next hadv d _ imm, ?_⟩
  simp only [shiftRightArith_eq, shiftRightLogic_eq]
  exact ⟨writeResult_next hadv d _, writeResult_next hadv d _, writeResult_next hadv d _, writeResult_next hadv d _⟩

end Sys2Proof.LogicShift

/-! SUPPORT. The instructions of `43_compare_branch_jump.md`: the flags of a comparison as the orders of its operands, the
exceptions of a taken transfer, and the slot behind it. -/

namespace Sys2Proof.Machine

/-! ## Comparison (R245, R263) -/

/-- Z and N of the exact difference, as the order of the operands. -/
theorem cmpFlags_eq (a b : Word) :
    cmpFlags a b = { z := decide (a = b), n := decide (a.toInt < b.toInt), c := decide (b.toNat ≤ a.toNat) } := by
  simp only [cmpFlags, Config.subCarry, subCarry, Int.sub_eq_zero, BitVec.toInt_inj, sub_neg]

/-- The same where the second operand is a sign extended immediate that fits. -/
theorem cmpFlags_sext {imm : Int} (h0 : -(2 : Int) ^ 31 ≤ imm) (h1 : imm < (2 : Int) ^ 31) (a : Word) :
    cmpFlags a (sext imm) =
      { z := decide (a.toInt = imm), n := decide (a.toInt < imm), c := decide ((sext imm).toNat ≤ a.toNat) } := by
  simp only [cmpFlags_eq, ← BitVec.toInt_inj, toInt_sext h0 h1]

/-- The order of two words that a condition stands for after their comparison: signed, but for `c` and `nc`. -/
def Ordered (cond : Cond) (a b : Word) : Prop :=
  match cond with
  | .c => b.toNat ≤ a.toNat
  | .egt => b.toInt ≤ a.toInt
  | .elt => a.toInt ≤ b.toInt
  | .eq => a = b
  | .gt => b.toInt < a.toInt
  | .lt => a.toInt < b.toInt
  | .ne => a ≠ b
  | .nc => a.toNat < b.toNat

/-- A condition on the flags of a comparison is its order (R37). -/
theorem condTrue_cmpFlags_iff (cond : Cond) (a b : Word) :
    condTrue cond (cmpFlags a b) = true ↔ Ordered cond a b := by
  rw [cmpFlags_eq]
  cases cond with
  | c | eq | ne | nc => simp [condTrue, Ordered]
  | egt | elt | gt | lt =>
    simp only [condTrue, Ordered, ← BitVec.toInt_inj, Bool.or_eq_true, Bool.and_eq_true, Bool.not_eq_true',
      decide_eq_true_eq, decide_eq_false_iff_not]
    omega

/-- The flags that a completed `cmp` leaves in its condition register. -/
theorem readCr_of_exec_cmp {w : Width} {k : CReg} {a b : Reg} {s t : State} (h : exec (.cmp w k a b) s = .next t) :
    readCr k t = cmpFlags (readX a s) (readX b s) := by
  obtain ⟨-, rfl⟩ := retire_cases (s := setCr k (cmpFlags (readX a s) (readX b s)) s) h
  exact (readCr_setCr k k _ s).trans (if_pos rfl)

/-! ## The exceptions of a taken transfer (R248 to R250) -/

/-- The value of a register is an exact target in range, and stands for itself. -/
theorem ofInt_toNat (v : Word) : BitVec.ofInt 32 (v.toNat : Int) = v := by
  rw [BitVec.ofInt_natCast, BitVec.ofNat_toNat, BitVec.setWidth_eq]

section
variable {s : State} {t : Int} (relative : Bool)

/-- A target in range raises 03h before 09h (log 41). -/
theorem transferFault_of_inRange (h0 : 0 ≤ t) (h1 : t < (2 : Int) ^ 32) :
    transferFault relative t s =
      if t % s.ilen ≠ 0 then some codeMisalignedJump
      else if s.psr.um && !instrAllowed .jump (BitVec.ofInt 32 t) s then some codeIllegalJump
      else none := by
  have hrange : (relative && decide (t < 0 ∨ (2 : Int) ^ 32 - 1 < t)) = false := by
    rw [decide_eq_false (by omega), Bool.and_false]
  have halign : (BitVec.ofInt 32 t).toNat % s.ilen ≠ 0 ↔ t % s.ilen ≠ 0 := by
    nth_rw 2 [← toNat_ofInt_of_range h0 h1]
    norm_cast
  simp only [transferFault, hrange, halign, Bool.false_eq_true, if_false]

theorem transferFault_eq_none (h0 : 0 ≤ t) (h1 : t < (2 : Int) ^ 32) (ha : t % s.ilen = 0)
    (hp : s.psr.um = true → instrAllowed .jump (BitVec.ofInt 32 t) s = true) : transferFault relative t s = none := by
  have hviolates : ¬((s.psr.um && !instrAllowed .jump (BitVec.ofInt 32 t) s) = true) := by simpa using hp
  rw [transferFault_of_inRange relative h0 h1, if_neg (not_not_intro ha), if_neg hviolates]

/-- Only the exact target of a relative transfer can leave the address space (R248). -/
theorem transferFault_of_overflow (h : t < 0 ∨ (2 : Int) ^ 32 ≤ t) :
    transferFault true t s = some codeJumpOverflow := by
  have hrange : (true && decide (t < 0 ∨ (2 : Int) ^ 32 - 1 < t)) = true := by
    rw [decide_eq_true (by omega), Bool.and_true]
  rw [transferFault, if_pos hrange]

theorem transferFault_of_misaligned (h0 : 0 ≤ t) (h1 : t < (2 : Int) ^ 32) (ha : t % s.ilen ≠ 0) :
    transferFault relative t s = some codeMisalignedJump := by
  rw [transferFault_of_inRange relative h0 h1, if_pos ha]

theorem transferFault_of_notAllowed (h0 : 0 ≤ t) (h1 : t < (2 : Int) ^ 32) (ha : t % s.ilen = 0)
    (hum : s.psr.um = true) (hp : instrAllowed .jump (BitVec.ofInt 32 t) s = false) :
    transferFault relative t s = some codeIllegalJump := by
  have hviolates : (s.psr.um && !instrAllowed .jump (BitVec.ofInt 32 t) s) = true := by rw [hum, hp]; rfl
  rw [transferFault_of_inRange relative h0 h1, if_neg (not_not_intro ha), if_pos hviolates]

end

section
variable {s : State} {v : Word}

theorem toNat_inRange (v : Word) : 0 ≤ (v.toNat : Int) ∧ (v.toNat : Int) < (2 : Int) ^ 32 :=
  ⟨Int.natCast_nonneg _, by exact_mod_cast v.isLt⟩

theorem transferFault_register_eq_none (ha : v.toNat % s.ilen = 0)
    (hp : s.psr.um = true → instrAllowed .jump v s = true) : transferFault false v.toNat s = none := by
  obtain ⟨h0, h1⟩ := toNat_inRange v
  exact transferFault_eq_none false h0 h1 (by exact_mod_cast ha) (by rwa [ofInt_toNat])

theorem transferFault_register_of_misaligned (ha : v.toNat % s.ilen ≠ 0) :
    transferFault false v.toNat s = some codeMisalignedJump := by
  obtain ⟨h0, h1⟩ := toNat_inRange v
  exact transferFault_of_misaligned false h0 h1 (by exact_mod_cast ha)

theorem transferFault_register_of_notAllowed (ha : v.toNat % s.ilen = 0) (hum : s.psr.um = true)
    (hp : instrAllowed .jump v s = false) : transferFault false v.toNat s = some codeIllegalJump := by
  obtain ⟨h0, h1⟩ := toNat_inRange v
  exact transferFault_of_notAllowed false h0 h1 (by exact_mod_cast ha) hum (by rwa [ofInt_toNat])

end

/-! ## A transfer outside a slot, as the operation it stands for (R251 to R262) -/

section
variable {s : State} (hd : s.delayedPc = none)
include hd

theorem notInSlot_of_none (k : State → Result) : notInSlot k s = k s := by
  rw [notInSlot, hd]; rfl

theorem exec_jmp (w : Width) (imm : Int) : exec (.jmp w imm) s = transfer true (relativeTarget imm s) s :=
  notInSlot_of_none hd _

theorem exec_jal (w : Width) (imm : Int) : exec (.jal w imm) s = transferLink true (relativeTarget imm s) s :=
  notInSlot_of_none hd _

theorem exec_branchOf_taken {cond : Cond} {k : CReg} (hc : condTrue cond (readCr k s) = true) (w : Width) (imm : Int) :
    exec (branchOf cond w k imm) s = transfer true (relativeTarget imm s) s := by
  rw [exec_branchOf, branch_of_condTrue hc, notInSlot_of_none hd]

theorem exec_jmpr {f : Form} (hx : executes f s = true) (a : Reg) :
    exec (.jmpr f a) s = transfer false (readX a s).toNat s :=
  (if_pos hx).trans (notInSlot_of_none hd _)

theorem exec_jalr {f : Form} (hx : executes f s = true) (a : Reg) :
    exec (.jalr f a) s = transferLink false (readX a s).toNat s :=
  (if_pos hx).trans (notInSlot_of_none hd _)

end

/-- `i` makes a transfer to the exact target `t`, with or without a link. -/
def TakesTransfer (i : Instr) (relative : Bool) (t : Int) (s : State) : Prop :=
  exec i s = transfer relative t s ∨ exec i s = transferLink relative t s

/-- A transfer that raises does nothing else: no link is written. -/
theorem TakesTransfer.raised {i : Instr} {relative : Bool} {t : Int} {s : State} {c : BitVec 8}
    (h : TakesTransfer i relative t s) (hf : transferFault relative t s = some c) :
    ∃ u, exec i s = .next u ∧ Raised c s u := by
  refine ⟨_, ?_, raise_raised c s⟩
  rcases h with h | h <;> rw [h]
  · rw [transfer, hf]; rfl
  · rw [transferLink, hf]; rfl

/-! ## The slot of a taken transfer (R246) -/

section
variable {s : State} {target : Word} (hd : s.delayedPc = some target)
include hd

theorem notInSlot_of_pending (k : State → Result) : notInSlot k s = .fault .forbiddenInSlot := by
  rw [notInSlot, hd]; rfl

theorem branch_of_pending (cond : Cond) (k : CReg) (imm : Int) : branch cond k imm s = .fault .forbiddenInSlot :=
  notInSlot_of_pending hd _

/-- What the slot may not hold stops the machine where it is executed; in user mode `retu` is illegal first (log 13). -/
theorem exec_forbiddenInSlot {i : Instr} (hi : i.notInSlot = true) (hx : ∀ f, i.condForm = some f → executes f s = true)
    (hum : (∃ w, i = .retu w) → s.psr.um = false) : exec i s = .fault .forbiddenInSlot := by
  cases i with
  | bc | begt | belt | beq | bgt | blt | bne | bnc => exact branch_of_pending hd ..
  | jal | jmp => exact notInSlot_of_pending hd _
  | swm | reti =>
    simp only [exec, execSwm, execReti]
    exact notInSlot_of_pending hd _
  | jalr f | jmpr f => exact (if_pos (hx f rfl)).trans (notInSlot_of_pending hd _)
  | scall f => exact (guarded_true (hx f rfl) _).trans (notInSlot_of_pending hd _)
  | retu w => exact (if_neg (Bool.eq_false_iff.1 (hum ⟨w, rfl⟩))).trans (notInSlot_of_pending hd _)
  | _ => cases hi

theorem followingPc_of_pending : followingPc s = target := by
  rw [followingPc, hd, Option.getD_some]

end

/-- The instruction in a slot used the pending target up: it went there, or to exception entry, which drops it (log 40). -/
def EndsSlot (target : Word) (s t : State) : Prop :=
  t.delayedPc = none ∧
    (t.pc = target ∨
      (t.pc = seen .exceptionEntry offExcepAddr s ∧ t.psr.toByte = 0x0E#8 ∧ t.ccb.exceptionPc = s.pc ∧
        t.ccb.exceptionPsr = s.psr.toByte))

theorem endsSlot_ended {s u : State} {target : Word} {mulHi : Option Word} {block : Bool}
    (hd : u.delayedPc = some target) : EndsSlot target s (ended none mulHi block u) :=
  ⟨rfl, .inl (followingPc_of_pending hd)⟩

theorem endsSlot_of_entersException {s t : State} {target : Word} {c : BitVec 8} (h : EntersException c s t) :
    EndsSlot target s t :=
  ⟨h.delayedPc, .inr ⟨h.pc, h.psr, h.exceptionPc, h.exceptionPsr⟩⟩

/-- An exception that pops the hardware stack enters where one that does not would (R334). -/
theorem endsSlot_popStack {s t : State} {target : Word} (h : EndsSlot target (popStack s) t) : EndsSlot target s t := by
  unfold EndsSlot at h
  rw [seen_popStack (by decide)] at h
  exact h

/-- Whatever an instruction has done in a slot: it ended at the target or took an exception. The four that run with slots
of their own and new transfers are done outside a slot only. -/
theorem Did.endsSlot {i : Instr} {s t : State} {target : Word} (hp : s.delayedPc = some target) (h : Did i s t) :
    EndsSlot target s t := by
  have hpending : s.delayedPc ≠ none := by rw [hp]; exact Option.some_ne_none _
  cases h with
  | nothing cr outs tok delayed block hd =>
    obtain rfl := hd.resolve_right hpending
    exact endsSlot_ended hp
  | register d v cr outs tok delayed mulHi block hd =>
    obtain rfl := hd.resolve_right hpending
    exact endsSlot_ended ((writeX_delayedPc (touched cr outs tok s) d v).trans hp)
  | exception c => exact endsSlot_of_entersException (raise_raised c s).toEntersException
  | exceptionPopped c =>
    exact endsSlot_popStack (endsSlot_of_entersException (raise_raised c (popStack s)).toEntersException)
  | ccb => exact endsSlot_ended ((ccbWrite_delayedPc ..).trans hp)
  | memory | sets | disables | enables => exact endsSlot_ended hp
  | switches _ _ _ _ hd | returns _ _ hd | toUser _ _ hd | calls _ _ hd => exact absurd hd hpending

end Sys2Proof.Machine

/-! SUPPORT. The statements of `43_compare_branch_jump.md`, in a namespace of their own: one bears the name of a function
of Lean's library. -/

namespace Sys2Proof.CompareBranchJump

open Sys2Proof.Machine

/-- Settles O20: both instructions write the flags of the exact difference, which are those of the order. -/
theorem compare : Obligations.Compare := by
  intro w k a b imm s hadv h0 h1
  rw [← cmpFlags_eq, ← cmpFlags_sext (by omega) (by omega)]
  exact ⟨setCr_next hadv k _, setCr_next hadv k _⟩

/-- Settles O21: each condition is read from the flags that `cmp` has left, and is the order it stands for. -/
theorem compareOrders : Obligations.CompareOrders := by
  intro w k a b s t h
  have horder (cond : Cond) : executes (.cex cond k) t = true ↔ Ordered cond (readX a s) (readX b s) := by
    rw [executes, readCr_of_exec_cmp h]
    exact condTrue_cmpFlags_iff cond _ _
  exact ⟨horder .lt, horder .elt, horder .gt, horder .egt, horder .eq, horder .ne, horder .c, horder .nc⟩

/-- Settles O22: a taken branch is a transfer that raises nothing, one not taken only ends. -/
theorem branches : Obligations.Branches := by
  refine fun cond w k imm s hd hadv => ⟨fun hc h0 h1 ha hp => ?_, fun hc => ?_⟩
  · rw [exec_branchOf_taken hd hc]
    exact transfer_next hadv (transferFault_eq_none true h0 h1 ha hp)
  · rw [exec_branchOf, branch_of_not_condTrue hc hd]
    exact retire_next hadv true

/-- Settles O23: each jump is a transfer, with or without a link, that raises nothing. -/
theorem jumps : Obligations.Jumps := by
  intro w f a imm s hd hadv
  refine ⟨?_, fun hx ha hp => ?_⟩
  · rintro T rfl h0 h1 ha hp
    have hf := transferFault_eq_none true h0 h1 ha hp
    rw [exec_jmp hd, exec_jal hd]
    exact ⟨transfer_next hadv hf, transferLink_next hadv hf⟩
  · have hf := transferFault_register_eq_none ha hp
    have hjump := transfer_next hadv hf
    have hlink := transferLink_next hadv hf
    rw [ofInt_toNat] at hjump hlink
    rw [exec_jmpr hd hx, exec_jalr hd hx]
    exact ⟨hjump, hlink⟩

/-- Settles O24: such an instruction makes one transfer, whose exception is the first of the three that its target has. -/
theorem transferExceptions : Obligations.TransferExceptions := by
  rintro cond w k imm f a s hd T rfl
  refine ⟨fun i hi => ?_, fun hx i hi => ?_⟩
  · have htakes : TakesTransfer i true (relativeTarget imm s) s := by
      rcases hi with rfl | rfl | ⟨rfl, hc⟩
      · exact .inl (exec_jmp hd w imm)
      · exact .inr (exec_jal hd w imm)
      · exact .inl (exec_branchOf_taken hd hc w imm)
    exact ⟨fun h => htakes.raised (transferFault_of_overflow h),
      fun h0 h1 ha => htakes.raised (transferFault_of_misaligned true h0 h1 ha),
      fun h0 h1 ha hum hp => htakes.raised (transferFault_of_notAllowed true h0 h1 ha hum hp)⟩
  · have htakes : TakesTransfer i false (readX a s).toNat s := by
      rcases hi with rfl | rfl
      · exact .inl (exec_jmpr hd hx a)
      · exact .inr (exec_jalr hd hx a)
    exact ⟨fun ha => htakes.raised (transferFault_register_of_misaligned ha),
      fun ha hum hp => htakes.raised (transferFault_register_of_notAllowed ha hum hp)⟩

/-- Settles O25: what is forbidden stops at the check for a pending target, and whatever an instruction that completes has
done uses that target up. -/
theorem branchSlot : Obligations.BranchSlot :=
  fun _ _ _ hd => ⟨exec_forbiddenInSlot hd, fun _ he => (exec_did he).endsSlot hd⟩

end Sys2Proof.CompareBranchJump

/-! SUPPORT. Data accesses (`20_memory.md` R101 to R107): what `ld` and `st` do where they raise nothing, and that an
access to memory or to the device changes data memory, the record and the owner of the bus only. -/

namespace Sys2Proof.Machine

/-! ## The state behind an access -/

/-- `s` with another data memory, record of outputs and owner of the bus. -/
def accessed (m : List (Nat × Word)) (outs : List BusEvent) (tok : BusOwner) (s : State) : State :=
  { s with dmem := m, outputs := outs, busToken := tok }

section
variable {m : List (Nat × Word)} {outs : List BusEvent} {tok : BusOwner} {s t : State}

theorem SameSystem.of_accessed (h : SameSystem (accessed m outs tok s) t) : SameSystem s t where
  retiBase := h.retiBase
  extOffset := h.extOffset
  tmr0Div := h.tmr0Div
  tmr1Div := h.tmr1Div
  extHandler := h.extHandler
  bootSel := h.bootSel
  bootAddr := h.bootAddr
  stored := h.stored
  inputs := h.inputs
  freeCount := h.freeCount
  hwstack := h.hwstack
  servOrder := h.servOrder
  acceptWait := h.acceptWait
  ccb := h.ccb

theorem Ends.of_accessed (h : Ends (accessed m outs tok s) t) : Ends s t where
  pc := h.pc
  delayedPc := h.delayedPc
  mulHi := h.mulHi
  intBlock := h.intBlock
  ccbInflight := h.ccbInflight

theorem CanAdvance.accessed (h : CanAdvance s) (m : List (Nat × Word)) (outs : List BusEvent) (tok : BusOwner) :
    CanAdvance (accessed m outs tok s) := h

/-- A register is written after a read that the device saw, or that took the bus. -/
theorem writeResult_accessed_next (h : CanAdvance s) (outs : List BusEvent) (tok : BusOwner) (d : Reg) (v : Word) :
    ∃ t, writeResult d v (accessed s.dmem outs tok s) = .next t ∧ OnlyReg d v s t ∧ SameFlags s t ∧ SameMemory s t ∧
      SameSystem s t ∧ SameStatus s t ∧ t.outputs = outs ∧ t.busToken = tok ∧ Ends s t := by
  obtain ⟨t, ht, hreg, hflags, ⟨hmem, hsys, hstatus, hout, htok⟩, hends⟩ :=
    writeResult_next (h.accessed s.dmem outs tok) d v
  exact ⟨t, ht, hreg, hflags, hmem, hsys.of_accessed, hstatus, hout, htok, hends.of_accessed⟩

/-- An instruction ends after a write; both memories read as they do behind it. -/
theorem retire_accessed_next (h : CanAdvance s) (m : List (Nat × Word)) (outs : List BusEvent) (tok : BusOwner) :
    ∃ t, retire (accessed m outs tok s) = .next t ∧ SameMemory (accessed m outs tok s) t ∧ SameRegs s t ∧
      SameFlags s t ∧ SameSystem s t ∧ SameStatus s t ∧ t.outputs = outs ∧ t.busToken = tok ∧ Ends s t := by
  obtain ⟨t, ht, hregs, hflags, ⟨hmem, hsys, hstatus, hout, htok⟩, hends⟩ :=
    retire_next (h.accessed m outs tok) false
  exact ⟨t, ht, hmem, hregs, hflags, hsys.of_accessed, hstatus, hout, htok, Ends.of_accessed hends⟩

end

/-! ## A cell after a write -/

/-- A cell per address (R101; log 1): a write is read back, and no other address reads otherwise. -/
theorem read_write_toNat {m : List (Nat × Word)} (hm : Memory.wf m = true) (a b v : Word) :
    Memory.read (Memory.write m a.toNat v) b.toNat = if b = a then v else Memory.read m b.toNat := by
  rw [Memory.read_write hm]
  exact if_congr BitVec.toNat_inj rfl rfl

/-- Two exact addresses in range are the same word only where they are equal. -/
theorem ofInt_eq_ofInt_iff {x y : Int} (hx0 : 0 ≤ x) (hx1 : x < (2 : Int) ^ 32) (hy0 : 0 ≤ y)
    (hy1 : y < (2 : Int) ^ 32) : BitVec.ofInt 32 x = BitVec.ofInt 32 y ↔ x = y := by
  rw [← BitVec.toNat_inj, ← Int.natCast_inj, toNat_ofInt_of_range hx0 hx1, toNat_ofInt_of_range hy0 hy1]

/-! ## An executed access that raises nothing, by its window (R104) -/

section
variable {f : Form} {a : Reg} {imm : Int} {s : State} (hx : executes f s = true)
  (hf : dataFault (effectiveAddress a imm s) s = none)
include hx hf

theorem exec_ld (d : Reg) : exec (.ld f d a imm) s =
    writeResult d (memRead (BitVec.ofInt 32 (effectiveAddress a imm s)) s)
      (readEffect (BitVec.ofInt 32 (effectiveAddress a imm s)) s) := by
  rw [exec, execLd, guarded_true hx]
  simp only [hf]

theorem exec_ld_mem (hw : windowOf (BitVec.ofInt 32 (effectiveAddress a imm s)) s = .mem) (d : Reg) :
    exec (.ld f d a imm) s = writeResult d (s.readData (BitVec.ofInt 32 (effectiveAddress a imm s)))
      (accessed s.dmem s.outputs .core s) := by
  rw [exec_ld hx hf, memRead, readEffect, hw]
  rfl

theorem exec_ld_ccb {off : BitVec 8} (hw : windowOf (BitVec.ofInt 32 (effectiveAddress a imm s)) s = .ccb off)
    (d : Reg) : exec (.ld f d a imm) s = writeResult d (ccbRead off s) s := by
  rw [exec_ld hx hf, memRead, readEffect, hw]

theorem exec_ld_pcb {p : Word} (hw : windowOf (BitVec.ofInt 32 (effectiveAddress a imm s)) s = .pcb p) (d : Reg) :
    exec (.ld f d a imm) s = writeResult d (Config.pcbRead s.freeCount p)
      (accessed s.dmem (.pcbRead p :: s.outputs) .core s) := by
  rw [exec_ld hx hf, memRead, readEffect, hw]
  rfl

theorem exec_st_mem (hw : windowOf (BitVec.ofInt 32 (effectiveAddress a imm s)) s = .mem) (b : Reg) :
    exec (.st f b a imm) s =
      retire (accessed (Memory.write s.dmem (BitVec.ofInt 32 (effectiveAddress a imm s)).toNat (readX b s))
        s.outputs .core s) := by
  rw [exec, execSt, guarded_true hx]
  simp only [hf, memWrite, hw]
  rfl

theorem exec_st_pcb {p : Word} (hw : windowOf (BitVec.ofInt 32 (effectiveAddress a imm s)) s = .pcb p) (b : Reg) :
    exec (.st f b a imm) s = retire (accessed s.dmem (.pcbWrite p (readX b s) :: s.outputs) .core s) := by
  rw [exec, execSt, guarded_true hx]
  simp only [hf, memWrite, hw]
  rfl

end

/-! ## The instruction behind an access -/

section
variable {s t : State}

theorem Ends.settled (h : Ends s t) (hs : Settled s) : Settled t := by
  rw [Settled, h.ccbInflight, show s.ccbInflight = [] from hs]
  rfl

/-- With no CCB write in flight the windows are those of the CCB as it stands (R104). -/
theorem SameSystem.windowOf_eq (h : SameSystem s t) (hs : Settled s) (ht : Settled t) (a : Word) :
    windowOf a t = windowOf a s := by
  rw [windowOf_settled ht, windowOf_settled hs, h.ccb]

/-- Super user mode may access all data (R116). -/
theorem allowed_of_superUser (hum : s.psr.um = false) (a : Word) : s.psr.um = true → dataAllowed a s = true :=
  fun hu => absurd (hum.symm.trans hu) Bool.false_ne_true

theorem SameFlags.executes_eq (h : SameFlags s t) (f : Form) : executes f t = executes f s := by
  cases f with
  | cex cond k => rw [executes, executes, h]
  | w32 | w16 => rfl

/-- The register that was written, in the set that was written, unless it is PSR (R24). -/
theorem OnlyReg.readSet_eq {two : Bool} {d : Reg} {v : Word} (h : OnlyReg d v s t) (hset : s.psr.rswr = two)
    (hd : ¬(two = true ∧ d = 29#5)) : readSet two d t = v := by
  obtain ⟨hread, -⟩ := h
  rw [hread, if_pos ⟨hset.symm, rfl, hd⟩]

end

/-! ## The CCB by offset -/

/-- The vector of a source (R49, R50). -/
theorem ccbRead_intVec (src : Source) (s : State) :
    ccbRead (BitVec.ofNat 8 (4 + src.val)) s = s.ccb.intVec[src] := by
  have hoff : (BitVec.ofNat 8 (4 + src.val)).toNat = 4 + src.val := by
    rw [BitVec.toNat_ofNat]
    omega
  unfold ccbRead
  rw [dif_pos (by omega)]
  simp only [hoff, Nat.add_sub_cancel_left]
  rfl

end Sys2Proof.Machine

/-! SUPPORT. The statements of `44_load_store_move.md`, in a namespace of their own. -/

namespace Sys2Proof.LoadStoreMove

open Sys2Proof.Machine

/-- Settles O29: an allowed `ld` writes one register, behind the access that its window makes; the table of R45 is what
`ccbRead` gives, offset by offset. -/
theorem load : Obligations.Load := by
  refine ⟨?_, fun s => ⟨fun src => ccbRead_intVec src s, rfl, rfl, rfl, rfl, rfl, rfl, rfl, rfl, rfl, rfl, rfl, rfl,
    rfl, rfl, rfl, rfl, rfl, rfl, rfl, rfl, rfl, rfl, rfl, rfl, rfl, rfl, rfl, rfl, ?_, fun off h => ccbRead_unused h s⟩⟩
  · rintro f d a imm s hx hadv ea rfl h0 h1 ha
    have hf := dataFault_eq_none h0 h1 ha
    refine ⟨fun hw => ?_, fun off hw => ?_, fun p hw => ?_⟩
    · rw [exec_ld_mem hx hf hw]
      exact writeResult_accessed_next hadv s.outputs .core d _
    · rw [exec_ld_ccb hx hf hw]
      exact writeResult_next hadv d _
    · rw [exec_ld_pcb hx hf hw]
      obtain ⟨t, ht⟩ := writeResult_accessed_next hadv (.pcbRead p :: s.outputs) .core d (Config.pcbRead s.freeCount p)
      exact ⟨t, _, ht⟩
  · rintro e rfl
    exact ⟨rfl, rfl, rfl⟩

/-- Settles O30: an allowed `st` ends behind one write, of a cell or to the device. -/
theorem store : Obligations.Store := by
  rintro f b a imm s ⟨-, hdmem⟩ hx hadv ea rfl h0 h1 ha
  have hf := dataFault_eq_none h0 h1 ha
  refine ⟨fun hw => ?_, fun p hw => ?_⟩
  · rw [exec_st_mem hx hf hw]
    obtain ⟨t, ht, ⟨hdata, hcode⟩, hframe⟩ := retire_accessed_next hadv _ s.outputs .core
    exact ⟨t, ht, ⟨fun x => (hdata x).trans (read_write_toNat hdmem _ x _), hcode⟩, hframe⟩
  · rw [exec_st_pcb hx hf hw]
    exact retire_accessed_next hadv s.dmem _ .core

/-- An allowed `st` to memory that has completed. -/
theorem onlyCell_of_exec_st {f : Form} {b a : Reg} {imm : Int} {s t : State} (hcanon : Canonical s)
    (hx : executes f s = true) (h0 : 0 ≤ effectiveAddress a imm s) (h1 : effectiveAddress a imm s < (2 : Int) ^ 32)
    (ha : s.psr.um = true → dataAllowed (BitVec.ofInt 32 (effectiveAddress a imm s)) s = true)
    (hw : windowOf (BitVec.ofInt 32 (effectiveAddress a imm s)) s = .mem) (h : exec (.st f b a imm) s = .next t) :
    OnlyCell (BitVec.ofInt 32 (effectiveAddress a imm s)) (readX b s) s t ∧ SameFlags s t ∧ SameSystem s t ∧
      t.psr = s.psr ∧ Ends s t := by
  have hst := exec_st_mem hx (dataFault_eq_none h0 h1 ha) hw b
  have hadv : CanAdvance s := (retire_cases (hst.symm.trans h)).1
  obtain ⟨hmem, -⟩ := store f b a imm s hcanon hx hadv _ rfl h0 h1 ha
  obtain ⟨t', ht', hcell, -, hflags, hsys, ⟨hpsr, -⟩, -, -, hends⟩ := hmem hw
  cases ht'.symm.trans h
  exact ⟨hcell, hflags, hsys, hpsr, hends⟩

/-- An allowed `ld` from memory that has completed. -/
theorem onlyReg_of_exec_ld {f : Form} {d a : Reg} {imm : Int} {s t : State} (hx : executes f s = true)
    (h0 : 0 ≤ effectiveAddress a imm s) (h1 : effectiveAddress a imm s < (2 : Int) ^ 32)
    (ha : s.psr.um = true → dataAllowed (BitVec.ofInt 32 (effectiveAddress a imm s)) s = true)
    (hw : windowOf (BitVec.ofInt 32 (effectiveAddress a imm s)) s = .mem) (h : exec (.ld f d a imm) s = .next t) :
    OnlyReg d (s.readData (BitVec.ofInt 32 (effectiveAddress a imm s))) s t := by
  rw [exec_ld_mem hx (dataFault_eq_none h0 h1 ha) hw] at h
  obtain ⟨-, rfl⟩ := writeResult_cases h
  exact onlyReg_writeX d _ (accessed s.dmem s.outputs .core s) rfl rfl (writeX_psr ..) rfl rfl rfl

/-- Settles O33: `st` leaves the window of every address as it was and replaces one cell, which `ld` then puts in its
register. -/
theorem loadAfterStore : Obligations.LoadAfterStore := by
  rintro f f' b a d c imm imm' s t u hx hx' hcanon hum hs ea rfl h0 h1 hw hst hld ea' rfl h0' h1' hw' hd
  have ha := allowed_of_superUser hum (BitVec.ofInt 32 (effectiveAddress a imm s))
  obtain ⟨⟨hcell, -⟩, hflags, hsys, hpsr, hends⟩ := onlyCell_of_exec_st hcanon hx h0 h1 ha hw hst
  have hw't := (hsys.windowOf_eq hs (hends.settled hs) _).trans hw'
  have hx't := (hflags.executes_eq f').trans hx'
  have ha't := allowed_of_superUser (s := t) (by rw [hpsr, hum]) (BitVec.ofInt 32 (effectiveAddress c imm' t))
  have hreg := onlyReg_of_exec_ld hx't h0' h1' ha't hw't hld
  calc readSet s.psr.rswr d u = t.readData (BitVec.ofInt 32 (effectiveAddress c imm' t)) :=
        hreg.readSet_eq (congrArg Psr.rswr hpsr) hd
    _ = if BitVec.ofInt 32 (effectiveAddress c imm' t) = BitVec.ofInt 32 (effectiveAddress a imm s) then readX b s
        else s.readData (BitVec.ofInt 32 (effectiveAddress c imm' t)) := hcell _
    _ = _ := if_congr (ofInt_eq_ofInt_iff h0' h1' h0 h1) rfl rfl

end Sys2Proof.LoadStoreMove

/-! SUPPORT. Coprocessor accesses (`45_coprocessor.md` R280 to R284): an access adds one event to the record and touches
nothing else of the core. -/

namespace Sys2Proof.Machine

/-- `C<k>_IR` as a field of the number that COP_CONF is (R67). -/
theorem copInstrReg_eq_ofNat (conf : BitVec 28) (k : BitVec 2) :
    copInstrReg (conf.setWidth 32) k = BitVec.ofNat 5 (conf.toNat / 2 ^ (5 * k.toNat)) := by
  have hconf : (conf.setWidth 32).toNat = conf.toNat := BitVec.toNat_setWidth_of_le (by decide)
  apply BitVec.eq_of_toNat_eq
  rw [copInstrReg, toNat_extractLsb'_eq, hconf, BitVec.toNat_ofNat]

/-! ## An executed instruction, as the access that it makes -/

theorem exec_cop {s : State} (hil : s.psr.il = true) (hs : Settled s) (k : BitVec 2) (w : BitVec 24) :
    exec (.cop k w) s =
      retire (copWrite k (BitVec.ofNat 5 (s.ccb.copConf.toNat / 2 ^ (5 * k.toNat))) (w.setWidth 32) s) := by
  have hconf : seen .cop offCopConf s = s.ccb.copConf.setWidth 32 := seen_settled hs .cop offCopConf
  rw [exec, execCop, wideOnly_true hil, hconf, copInstrReg_eq_ofNat]

section
variable {f : Form} {s : State} (hx : executes f s = true) (k : BitVec 2)
include hx

theorem exec_movtc (r : BitVec 5) (a : Reg) :
    exec (.movtc f k r a) s = retire (copWrite k r (readX a s) s) := by
  rw [exec, execMovtc, guarded_true hx]

theorem exec_movfc (d : Reg) (r : BitVec 5) :
    exec (.movfc f k d r) s = writeResult d (Config.copRead s.freeCount k r) (copAccess k r s) := by
  rw [exec, execMovfc, guarded_true hx]

end

/-! ## The state behind the access -/

section
variable {s : State} (hadv : CanAdvance s) (k : BitVec 2) (r : BitVec 5)
include hadv

/-- An instruction ends after the write of a coprocessor's register. -/
theorem retire_copWrite_next (v : Word) :
    ∃ t, retire (copWrite k r v s) = .next t ∧ t.outputs = .copWrite k r v :: s.outputs ∧ t.busToken = s.busToken ∧
      SameRegs s t ∧ SameFlags s t ∧ SameMemory s t ∧ SameSystem s t ∧ SameStatus s t ∧ Ends s t := by
  obtain ⟨t, ht, hmem, hregs, hflags, hsys, hstatus, hout, htok, hends⟩ :=
    retire_accessed_next hadv s.dmem (.copWrite k r v :: s.outputs) s.busToken
  exact ⟨t, ht, hout, htok, hregs, hflags, hmem, hsys, hstatus, hends⟩

/-- A register takes what the coprocessor answers. -/
theorem writeResult_copAccess_next (d : Reg) (v : Word) :
    ∃ t, writeResult d v (copAccess k r s) = .next t ∧ OnlyReg d v s t ∧ t.outputs = .copRead k r :: s.outputs ∧
      t.busToken = s.busToken ∧ SameFlags s t ∧ SameMemory s t ∧ SameSystem s t ∧ SameStatus s t ∧ Ends s t := by
  obtain ⟨t, ht, hreg, hflags, hmem, hsys, hstatus, hout, htok, hends⟩ :=
    writeResult_accessed_next hadv (.copRead k r :: s.outputs) s.busToken d v
  exact ⟨t, ht, hreg, hout, htok, hflags, hmem, hsys, hstatus, hends⟩

end

end Sys2Proof.Machine

/-! SUPPORT. The statement of `45_coprocessor.md`, in a namespace of its own. -/

namespace Sys2Proof.CoprocessorAccess

open Sys2Proof.Machine

/-- Settles O34: `cop` and `movtc` end behind one write to the device, of the register that COP_CONF names (R280) or the
instruction does (R282); `movfc` puts in its register what the device answers to one read (R281). -/
theorem coprocessor : Obligations.Coprocessor := by
  intro f k d a r w s hadv
  refine ⟨fun hil hs => ?_, fun hx => ?_, fun hx => ?_⟩
  · rw [exec_cop hil hs]
    exact retire_copWrite_next hadv k _ _
  · rw [exec_movtc hx]
    exact retire_copWrite_next hadv k r _
  · rw [exec_movfc hx]
    obtain ⟨t, ht⟩ := writeResult_copAccess_next hadv k r d (Config.copRead s.freeCount k r)
    exact ⟨t, _, ht⟩

end Sys2Proof.CoprocessorAccess

/-! SUPPORT. Mandatory slots (`46_system.md` R293 to R296): `nop` is the word of zeros and no other (R145), so a slot that
the model accepts is one that holds zeros, and the first that does not stops the machine. -/

namespace Sys2Proof

/-! ## Only zeros decode to `nop` -/

theorem ifClear_eq_ok_iff {clear : Bool} {op : BitVec 6} {d i : Instr} :
    ifClear clear op d = .ok i ↔ clear = true ∧ d = i := by
  cases clear <;> simp [ifClear]

theorem ifPlain_eq_ok_iff {w : BitVec 32} {clear : Bool} {d i : Instr} :
    ifPlain w clear d = .ok i ↔ cexBit w = false ∧ clear = true ∧ d = i := by
  cases h : cexBit w <;> simp [ifPlain, h, ifClear_eq_ok_iff]

/-- The other opcodes are read by formats that give other mnemonics (R148). -/
theorem opcode32_of_decode32_nop {w : BitVec 32} {v : Width} (h : decode32 w = .ok (.nop v)) : opcode32 w = 0#6 := by
  unfold decode32 at h
  split at h
  case h_1 hop => exact BitVec.eq_of_toNat_eq hop
  all_goals
    simp [decR3, decR2, decRI, decRU, decRM, decSH, decSX, decXB, decXH, decXF, decD, decDR, decS, decSR, decCF, decCT,
      decCO, decB, decJ, decCR, decCI, decLI, decT, decM2, decM6, decM1, decZC, ifPlain_eq_ok_iff, ifClear_eq_ok_iff,
      ite_eq_iff] at h

theorem opcode16_of_decode16_nop {x : BitVec 16} {v : Width} (h : decode16 x = .ok (.nop v)) : opcode16 x = 0#6 := by
  unfold decode16 at h
  split at h
  case h_1 hop => exact BitVec.eq_of_toNat_eq hop
  all_goals
    simp [decR3', decR2', decRI', decRU', decRM', decSH', decSX', decXB', decXH', decD', decDR', decS', decSR', decCF',
      decCT', decB', decJ', decCR', decCI', decT', decM2', decM6', decM1', decZC', ifClear_eq_ok_iff, ite_eq_iff] at h

/-- R145, R148: opcode 0 and no bit outside the opcode. -/
theorem decode32_eq_nop_iff {w : BitVec 32} : decode32 w = .ok (.nop .w32) ↔ w = 0#32 := by
  refine ⟨fun h => ?_, fun h => by rw [h]; rfl⟩
  have hop := opcode32_of_decode32_nop h
  have hz : decode32 w = decZ .nop w := by rw [decode32, hop]; rfl
  obtain ⟨hcex, hlow, -⟩ := ifPlain_eq_ok_iff.1 (hz.symm.trans h)
  have hhigh : isZero w 31 26 = true := beq_iff_eq.2 hop
  apply BitVec.eq_of_getLsbD_eq
  intro i hi
  rw [BitVec.getLsbD_zero]
  rcases Nat.lt_trichotomy i 25 with hlt | rfl | hgt
  · exact (isZero_iff w 24 0).1 hlow i (Nat.zero_le i) (by omega)
  · exact hcex
  · exact (isZero_iff w 31 26).1 hhigh i hgt (by omega)

theorem decode16_eq_nop_iff {x : BitVec 16} : decode16 x = .ok (.nop .w16) ↔ x = 0#16 := by
  refine ⟨fun h => ?_, fun h => by rw [h]; rfl⟩
  have hop := opcode16_of_decode16_nop h
  have hz : decode16 x = decZ' .nop x := by rw [decode16, hop]; rfl
  obtain ⟨hlow, -⟩ := ifClear_eq_ok_iff.1 (hz.symm.trans h)
  have hhigh : isZero x 15 10 = true := beq_iff_eq.2 hop
  apply BitVec.eq_of_getLsbD_eq
  intro i hi
  rw [BitVec.getLsbD_zero]
  rcases Nat.lt_or_ge i 10 with hlt | hge
  · exact (isZero_iff x 9 0).1 hlow i (Nat.zero_le i) (by omega)
  · exact (isZero_iff x 15 10).1 hhigh i hge (by omega)

end Sys2Proof

namespace Sys2Proof.Machine

/-- A slot that the model accepts is a slot of zeros (R145). -/
theorem isNopAt_iff (w : Width) (a : Word) (s : State) : isNopAt w a s = true ↔ NopAt w a s := by
  unfold isNopAt NopAt
  rw [decide_eq_true_iff]
  cases w with
  | w32 =>
    have hbytes : s.codeBytes a 4 = [s.readCode a, s.readCode (a + 1), s.readCode (a + 1 + 1),
      s.readCode (a + 1 + 1 + 1)] := rfl
    show decodeBytes .w32 (s.codeBytes a 4) = _ ↔ s.codeBytes a 4 = _
    rw [hbytes, decodeBytes_w32, decode32_eq_nop_iff]
    simp only [List.cons.injEq, and_true]
    bv_omega
  | w16 =>
    have hbytes : s.codeBytes a 2 = [s.readCode a, s.readCode (a + 1)] := rfl
    show decodeBytes .w16 (s.codeBytes a 2) = _ ↔ s.codeBytes a 2 = _
    rw [hbytes, decodeBytes_w16, decode16_eq_nop_iff]
    simp only [List.cons.injEq, and_true]
    bv_omega

/-! ## One slot -/

section
variable {n : Nat} {w : Width} {a : Nat} {s : State} (why : Fault) (ha : a < 2 ^ 32)
  (hp : s.psr.um = true → instrAllowed (.slot n) (BitVec.ofNat 32 a) s = true)
include ha hp

/-- Where the mode may fetch, a slot is wrong only for what it holds. -/
theorem slotFault_of_allowed :
    slotFault why n w a s = if isNopAt w (BitVec.ofNat 32 a) s then none else some why := by
  have hprotected : (s.psr.um && !instrAllowed (.slot n) (BitVec.ofNat 32 a) s) = false := by
    cases hum : s.psr.um
    · rfl
    · rw [hp hum]; rfl
  rw [slotFault, if_neg (by omega), hprotected, codeModified_eq_false, if_neg Bool.false_ne_true,
    if_neg Bool.false_ne_true]

theorem slotFault_of_nop (hn : NopAt w (BitVec.ofNat 32 a) s) : slotFault why n w a s = none := by
  rw [slotFault_of_allowed why ha hp, if_pos ((isNopAt_iff ..).2 hn)]

theorem slotFault_of_not_nop (hn : ¬NopAt w (BitVec.ofNat 32 a) s) : slotFault why n w a s = some why := by
  rw [slotFault_of_allowed why ha hp, if_neg (mt (isNopAt_iff ..).1 hn)]

end

section
variable {n : Nat} {s : State} (why : Fault)

theorem SlotOk.slotFault_eq (h : SlotOk n s) :
    slotFault why n s.psr.width (s.pc.toNat + n * s.ilen) s = none := by
  obtain ⟨ha, hn, hp⟩ := h
  exact slotFault_of_nop why ha hp hn

theorem SlotNotNop.slotFault_eq (h : SlotNotNop n s) :
    slotFault why n s.psr.width (s.pc.toNat + n * s.ilen) s = some why := by
  obtain ⟨ha, hn, hp⟩ := h
  exact slotFault_of_not_nop why ha hp hn

end

/-! ## The slots of `reti`, `retu` and `scall` -/

section
variable {s : State} {why : Fault}

theorem slotsFault_of_slotOk {n first : Nat} (h : ∀ m, first ≤ m → m < first + n → SlotOk m s) :
    slotsFault why n first s = none := by
  induction n generalizing first with
  | zero => rfl
  | succ n ih =>
    have hfirst := (h first (Nat.le_refl _) (by omega)).slotFault_eq why
    have hrest := ih (first := first + 1) fun m hlo hhi => h m (by omega) (by omega)
    simp only [slotsFault, hfirst, hrest]

/-- Of good slots and a bad one behind them, the bad one counts. -/
theorem slotsFault_of_slotNotNop {n first k : Nat} (hlo : first ≤ k) (hhi : k < first + n)
    (hok : ∀ m, first ≤ m → m < k → SlotOk m s) (hbad : SlotNotNop k s) : slotsFault why n first s = some why := by
  induction n generalizing first with
  | zero => omega
  | succ n ih =>
    rcases Nat.eq_or_lt_of_le hlo with rfl | hlt
    · simp only [slotsFault, hbad.slotFault_eq why]
    · have hfirst := (hok first (Nat.le_refl _) hlt).slotFault_eq why
      have hrest := ih hlt (by omega) fun m hm => hok m (by omega)
      simp only [slotsFault, hfirst, hrest]

end

theorem superOnly_of_superUser {s : State} (h : s.psr.um = false) (k : State → Result) : superOnly k s = k s :=
  if_neg (Bool.eq_false_iff.1 h)

/-- The state behind `n` mandatory slots, or the fault of the first bad one. -/
def overSlots (why : Fault) (n : Nat) (next : State → State) (s : State) : Result :=
  match slotsFault why n 1 s with
  | some f => .fault f
  | none => .next (next s)

section
variable {s : State} (why : Fault) {n : Nat} (next : State → State)

theorem overSlots_of_slotOk (h : ∀ m, 1 ≤ m → m ≤ n → SlotOk m s) : overSlots why n next s = .next (next s) := by
  rw [overSlots, slotsFault_of_slotOk fun m hlo hhi => h m hlo (by omega)]

theorem overSlots_of_slotNotNop {k : Nat} (hlo : 1 ≤ k) (hhi : k ≤ n) (hok : ∀ m, 1 ≤ m → m < k → SlotOk m s)
    (hbad : SlotNotNop k s) : overSlots why n next s = .fault why := by
  rw [overSlots, slotsFault_of_slotNotNop hlo (by omega) hok hbad]

/-- The only slot of `retu` and `scall`. -/
theorem overSlots_one_of_slotOk (h : SlotOk 1 s) : overSlots why 1 next s = .next (next s) :=
  overSlots_of_slotOk why next fun m hlo hhi => by rwa [Nat.le_antisymm hhi hlo]

theorem overSlots_one_of_slotNotNop (h : SlotNotNop 1 s) : overSlots why 1 next s = .fault why :=
  overSlots_of_slotNotNop why next (Nat.le_refl 1) (Nat.le_refl 1) (fun m hlo hlt => by omega) h

end

section
variable {s : State} (hd : s.delayedPc = none)
include hd

theorem exec_reti (w : Width) (hs : s.hwstack ≠ []) :
    exec (.reti w) s = overSlots .retiSlotNotNop 3 returnFromInterrupt s := by
  rw [exec, execReti, notInSlot_of_none hd]
  split
  · exact absurd ‹s.hwstack = []› hs
  · rfl

theorem exec_reti_of_empty (w : Width) (hs : s.hwstack = []) : exec (.reti w) s = .fault .retiEmptyStack := by
  rw [exec, execReti, notInSlot_of_none hd, hs]

theorem exec_retu (w : Width) (hum : s.psr.um = false) :
    exec (.retu w) s = overSlots .retuSlotNotNop 1 returnToUser s := by
  rw [exec, execRetu, superOnly_of_superUser hum, notInSlot_of_none hd]
  rfl

theorem exec_scall {f : Form} (hx : executes f s = true) :
    exec (.scall f) s = overSlots .scallSlotNotNop 1 systemCall s := by
  rw [exec, execScall, guarded_true hx, notInSlot_of_none hd]
  rfl

/-! ## The slots of `swm` -/

theorem exec_swm_16 (w : Width) : exec (.swm w 16#6) s = switchMode false s := by
  rw [exec, execSwm, notInSlot_of_none hd]
  rfl

theorem exec_swm_32 (w : Width) : exec (.swm w 32#6) s = switchMode true s := by
  rw [exec, execSwm, notInSlot_of_none hd]
  rfl

theorem exec_swm_reserved (w : Width) {imm : BitVec 6} (h16 : imm.toNat ≠ 16) (h32 : imm.toNat ≠ 32) :
    exec (.swm w imm) s = .fault .swmReserved := by
  rw [exec, execSwm, notInSlot_of_none hd, if_neg h16, if_neg h32]

end

section
variable {toWide : Bool} {s : State}

theorem switchMode_of_slotNotNop (h : SlotNotNop 1 s) : switchMode toWide s = .fault .swmSlotNotNop := by
  have hfirst := h.slotFault_eq .swmSlotNotNop
  rw [Nat.one_mul] at hfirst
  rw [switchMode, hfirst]

/-- The address of the first slot as `swm` writes it. -/
theorem SlotOk.first_slotFault_eq (why : Fault) (h : SlotOk 1 s) :
    slotFault why 1 s.psr.width (s.pc.toNat + s.ilen) s = none := by
  have hfirst := h.slotFault_eq why
  rwa [Nat.one_mul] at hfirst

variable (h : SlotOk 1 s)
  (hp : s.psr.um = true → instrAllowed (.slot 2) (BitVec.ofNat 32 (swmSlot2 toWide s).1) s = true)
include h hp

/-- The second slot is read in the new mode. -/
theorem switchMode_of_not_nop (ha : (swmSlot2 toWide s).1 < 2 ^ 32)
    (hn : ¬NopAt (Psr.width { s.psr with il := toWide }) (BitVec.ofNat 32 (swmSlot2 toWide s).1) s) :
    switchMode toWide s = .fault .swmSlotNotNop := by
  have hfirst := h.first_slotFault_eq .swmSlotNotNop
  have hsecond := slotFault_of_not_nop .swmSlotNotNop ha hp hn
  rw [Psr.width] at hsecond
  simp only [switchMode, hfirst, hsecond]

theorem switchMode_of_nop (ha : (swmSlot2 toWide s).2 < 2 ^ 32)
    (hn : NopAt (Psr.width { s.psr with il := toWide }) (BitVec.ofNat 32 (swmSlot2 toWide s).1) s) :
    switchMode toWide s = .next (continueAt (BitVec.ofNat 32 (swmSlot2 toWide s).2) 3
      { s with psr := { s.psr with il := toWide } }) := by
  have hfirst := h.first_slotFault_eq .swmSlotNotNop
  have hle : (swmSlot2 toWide s).1 ≤ (swmSlot2 toWide s).2 := by
    cases toWide
    · exact Nat.le_add_right _ 2
    · exact Nat.le_add_right _ 4
  have hsecond := slotFault_of_nop .swmSlotNotNop (hle.trans_lt ha) hp hn
  rw [Psr.width] at hsecond
  simp only [switchMode, hfirst, hsecond, if_neg (Nat.not_le.2 ha)]

end

end Sys2Proof.Machine

/-! SUPPORT. The instructions of `46_system.md`: images of condition registers, changes of PSR, what an instruction leaves
that ran with its slots, and what an exception and each writer of PSR do to the mode. -/

namespace Sys2Proof.Machine

/-! ## Images of condition registers (R298, R299; log 7) -/

/-- The image in a word that a condition register is loaded from. -/
theorem getElem_unpackFlags (v : Word) (k : CReg) : (unpackFlags v)[k.toNat]'k.isLt =
    { z := v.getLsbD (3 * k.toNat + 2), n := v.getLsbD (3 * k.toNat + 1), c := v.getLsbD (3 * k.toNat) } := by
  simp [unpackFlags, unpackFlagsIn, Flags.ofImageIn, crPlace, Config.crPack]

theorem unpackFlags_packFlags (cr : Vector Flags 8) : unpackFlags (packFlags cr) = cr :=
  unpackFlagsIn_packFlagsIn crPackLegal_default cr

/-- So a word that condition registers are stored in shows them where it would be loaded from. -/
theorem getLsbD_packFlags (s : State) (k : CReg) :
    (packFlags s.cr).getLsbD (3 * k.toNat + 2) = (readCr k s).z ∧
    (packFlags s.cr).getLsbD (3 * k.toNat + 1) = (readCr k s).n ∧
    (packFlags s.cr).getLsbD (3 * k.toNat) = (readCr k s).c := by
  have hk := getElem_unpackFlags (packFlags s.cr) k
  simp only [unpackFlags_packFlags] at hk
  rw [readCr, hk]
  exact ⟨rfl, rfl, rfl⟩

/-- Eight images of three bits. -/
theorem packFlags_lt (cr : Vector Flags 8) : (packFlags cr).toNat < 2 ^ 24 := by
  simp only [packFlags, packFlagsIn, toNat_append_eq, BitVec.toNat_ofNat]
  omega

/-- An instruction that loads all condition registers. -/
theorem retire_cr_next {s : State} (h : CanAdvance s) (cr : Vector Flags 8) :
    ∃ t, retire { s with cr := cr } = .next t ∧ SameRegs s t ∧ OnlyComputes s t ∧ Ends s t ∧
      ∀ k, readCr k t = cr[k.toNat]'k.isLt :=
  ⟨_, retire_eq_ended h, ⟨readSet_congr rfl rfl rfl rfl rfl, rfl⟩,
    ⟨⟨fun _ => rfl, fun _ => rfl⟩, ⟨⟨⟨rfl, rfl, rfl, rfl, rfl, rfl, rfl, rfl, rfl, rfl⟩, rfl, rfl, rfl⟩, rfl⟩,
      ⟨rfl, rfl⟩, ⟨rfl, rfl⟩⟩, ⟨rfl, rfl, rfl, rfl, rfl⟩, fun _ => rfl⟩

/-! ## Changes of PSR (R290 to R292) -/

/-- An instruction that changes PSR but for IL, the window after `di` and the writes in flight. -/
theorem retire_psr_next {s : State} (h : CanAdvance s) (p : Psr) (hil : p.il = s.psr.il) (di : Bool)
    (l : List CcbWrite) :
    ∃ t, retire { s with psr := p, diWindow := di, ccbInflight := l } = .next t ∧ t.psr = p ∧ t.diWindow = di ∧
      t.ccbInflight = ageCcb 1 l ∧ ChangesPsrOnly s t :=
  ⟨_, retire_eq_ended (h.congr rfl rfl hil), rfl, rfl, rfl,
    ⟨rfl, rfl, rfl, rfl, fun _ => rfl, ⟨fun _ => rfl, fun _ => rfl⟩,
      ⟨⟨⟨rfl, rfl, rfl, rfl, rfl, rfl, rfl, rfl, rfl, rfl⟩, rfl, rfl, rfl⟩, rfl⟩, ⟨rfl, rfl⟩,
      followingPc_congr rfl rfl hil, rfl, rfl, rfl, rfl⟩⟩

/-! ## Behind the slots -/

section
variable (a : Word) (n : Nat) (p : Psr) (s : State)

theorem sameSystem_continueAt (q r : Word) :
    SameSystem s (continueAt a n { s with psr := p, spsr := q, pr31 := r }) :=
  ⟨⟨⟨rfl, rfl, rfl, rfl, rfl, rfl, rfl, rfl, rfl, rfl⟩, rfl, rfl, rfl⟩, rfl⟩

theorem afterSlots_continueAt : AfterSlots n s (continueAt a n { s with psr := p }) :=
  ⟨rfl, rfl, rfl, rfl, fun _ => rfl, ⟨fun _ => rfl, fun _ => rfl⟩, ⟨rfl, rfl⟩, rfl, rfl, rfl, rfl, rfl, rfl⟩

/-- `swm` and `retu` change nothing but PSR and pc. -/
theorem continueAt_psr_frame : AfterSlots n s (continueAt a n { s with psr := p }) ∧
    SameSystem s (continueAt a n { s with psr := p }) :=
  ⟨afterSlots_continueAt a n p s, sameSystem_continueAt a n p s s.spsr s.pr31⟩

end

/-! ## `reti` (R294) -/

theorem toByte_ofByte (b : BitVec 8) : (Psr.ofByte b).toByte = b &&& 0x1F#8 := by
  revert b
  decide

theorem getLsbD_and_not_twoPow (v : BitVec 12) (x src : Source) :
    (v &&& ~~~(BitVec.twoPow 12 src.val)).getLsbD x.val = (v.getLsbD x.val && decide (x ≠ src)) := by
  simp [Fin.ext_iff]

section
variable {s : State} {e : StackEntry} {rest : List StackEntry} (hstack : s.hwstack = e :: rest)
include hstack

theorem retiEntry_of_cons : retiEntry s = e := by
  rw [retiEntry, hstack, List.headD_cons]

variable (hs : Settled s)
include hs

/-- With no write in flight `reti` restores the top entry. -/
theorem seen_reti_settled : seen .reti offRetiAddr s = e.addr ∧ (seen .reti offRetiPsr s).setWidth 8 = e.psr ∧
    (seen .reti offRetiCr0 s).setWidth 3 = e.cr0 := by
  have hcr0 : (ccbRead offRetiCr0 s).setWidth 3 = (retiEntry s).cr0 := by
    show ((retiEntry s).cr0.setWidth 32).setWidth 3 = _
    rw [BitVec.setWidth_setWidth_of_le _ (by decide), BitVec.setWidth_eq]
  have haddr : ccbRead offRetiAddr s = (retiEntry s).addr := rfl
  rw [seen_settled hs, seen_settled hs, seen_settled hs, haddr, setWidth_ccbRead_offRetiPsr, hcr0,
    retiEntry_of_cons hstack]
  exact ⟨rfl, rfl, rfl⟩

theorem returnFromInterrupt_psr_settled : (returnFromInterrupt s).psr = Psr.ofByte e.psr := by
  rw [← (seen_reti_settled hstack hs).2.1]
  rfl

end

/-- `reti` with a source in service, the newest of `serv_order`. -/
theorem returnFromInterrupt_of_served {s : State} {src : Source} {older : List Source}
    (h : s.servOrder = src :: older) :
    (returnFromInterrupt s).servOrder = older ∧
    (returnFromInterrupt s).ccb = { s.ccb with intServ := s.ccb.intServ &&& ~~~(BitVec.twoPow 12 src.val) } ∧
    (returnFromInterrupt s).outputs = if 4 ≤ src.val then .intDone src :: s.outputs else s.outputs := by
  simp [returnFromInterrupt, h]

theorem sameBehind_returnFromInterrupt (s : State) : SameBehind s (returnFromInterrupt s) :=
  ⟨rfl, rfl, rfl, rfl, rfl, rfl, rfl, rfl, rfl, rfl⟩

theorem readCr_zero_returnFromInterrupt (s : State) :
    readCr 0 (returnFromInterrupt s) = Flags.ofImage ((seen .reti offRetiCr0 s).setWidth 3) :=
  (readCr_setCr 0#3 0#3 _ s).trans (if_pos rfl)

theorem readCr_returnFromInterrupt_of_ne {k : CReg} (h : k ≠ 0#3) (s : State) :
    readCr k (returnFromInterrupt s) = readCr k s :=
  (readCr_setCr 0#3 k _ s).trans (if_neg h)

/-! ## `scall` (R296) -/

/-- SPSR as `scall` finds it is one that it held just before (log 12). -/
theorem spsrAtScall_cases (s : State) :
    spsrAtScall s = s.spsr ∨ ∃ x ∈ s.spsrInflight, spsrAtScall s = x.old := by
  cases hl : s.spsrInflight with
  | nil => exact .inl (by rw [spsrAtScall, hl])
  | cons w ws =>
    have hlt : Config.spsrChoice s.freeCount % (ws.length + 2) < (s.spsr :: (w :: ws).map SpsrWrite.old).length := by
      simpa using Nat.mod_lt _ (Nat.succ_pos _)
    have hmem : spsrAtScall s ∈ s.spsr :: (w :: ws).map SpsrWrite.old := by
      rw [spsrAtScall, hl]
      simp only [← List.map_cons, List.getD_eq_getElem _ _ hlt]
      exact List.getElem_mem hlt
    rw [List.mem_cons, List.mem_map] at hmem
    exact hmem.imp_right fun ⟨x, hx, hold⟩ => ⟨x, hx, hold.symm⟩

theorem spsrAtScall_of_none {s : State} (h : s.spsrInflight = []) : spsrAtScall s = s.spsr := by
  rw [spsrAtScall, h]

/-- SPSR behind `scall`, as a number: PSR below, the bits above kept. -/
theorem systemCall_spsr_toNat (s : State) :
    (systemCall s).spsr.toNat = 2 ^ 8 * ((spsrAtScall s).toNat / 2 ^ 8) + s.psr.toByte.toNat := by
  have hv := (spsrAtScall s).isLt
  show ((spsrAtScall s).extractLsb' 8 24 ++ s.psr.toByte).toNat = _
  rw [toNat_append_eq, toNat_extractLsb'_eq, Nat.mod_eq_of_lt (by omega)]

theorem systemCall_spsr_low (s : State) : (systemCall s).spsr.toNat % 2 ^ 8 = s.psr.toByte.toNat := by
  have hb := s.psr.toByte.isLt
  rw [systemCall_spsr_toNat]
  omega

theorem systemCall_spsr_high (s : State) : (systemCall s).spsr.toNat / 2 ^ 8 = (spsrAtScall s).toNat / 2 ^ 8 := by
  have hb := s.psr.toByte.isLt
  rw [systemCall_spsr_toNat]
  omega

theorem sameSystem_systemCall (s : State) : SameSystem s (systemCall s) := sameSystem_continueAt ..

/-- With no CCB write in flight `scall` goes to SYSTEM_ADDR. -/
theorem systemCall_pc_settled {s : State} (h : Settled s) : (systemCall s).pc = s.ccb.systemAddr :=
  seen_settled h .scall offSystemAddr

/-! ## Which instructions change PSR (R301, R302) -/

/-- What an exception leaves of PSR, the address it was taken at and the one it goes to. -/
structure TookException (s t : State) : Prop where
  psr : t.psr = Psr.handler
  pc : t.pc = seen .exceptionEntry offExcepAddr s
  exceptionPc : t.ccb.exceptionPc = s.pc
  exceptionPsr : t.ccb.exceptionPsr = s.psr.toByte

theorem tookException_takeException (c : BitVec 8) (s : State) :
    TookException s (ageInflight 1 (takeException c s)) := ⟨rfl, rfl, rfl, rfl⟩

/-- A pop of the hardware stack (R334) changes nothing of that. -/
theorem tookException_takeException_popStack (c : BitVec 8) (s : State) :
    TookException s (ageInflight 1 (takeException c (popStack s))) :=
  ⟨rfl, seen_popStack (by decide) .exceptionEntry s, rfl, rfl⟩

/-- With no CCB write in flight an exception goes to EXCEP_ADDR. -/
theorem TookException.pc_settled {s t : State} (h : TookException s t) (hs : Settled s) : t.pc = s.ccb.excepAddr :=
  h.pc.trans (seen_settled hs .exceptionEntry offExcepAddr)

/-- `chrs`, `di`, `ei` or `swm`. -/
def ChangesPsrInMode (i : Instr) : Prop :=
  (∃ w imm, i = .chrs w imm) ∨ (∃ w, i = .di w ∨ i = .ei w) ∨ ∃ w imm, i = .swm w imm

/-- What an instruction that completes has done to PSR. -/
inductive PsrAfter (i : Instr) (s : State) : State → Prop where
  | kept {t : State} (h : t.psr = s.psr) : PsrAfter i s t
  | exception {t : State} (h : TookException s t) : PsrAfter i s t
  | inMode {t : State} (hi : ChangesPsrInMode i) (hum : t.psr.um = s.psr.um) : PsrAfter i s t
  | returns (w : Width) (hi : i = .reti w) (hstack : s.hwstack ≠ []) : PsrAfter i s (returnFromInterrupt s)
  | toUser (w : Width) (hi : i = .retu w) (hum : s.psr.um = false) : PsrAfter i s (returnToUser s)
  | calls (f : Form) (hi : i = .scall f) : PsrAfter i s (systemCall s)

theorem Did.psrAfter {i : Instr} {s t : State} (h : Did i s t) : PsrAfter i s t := by
  cases h with
  | nothing | memory => exact .kept rfl
  | register d v cr outs tok => exact .kept (writeX_psr (touched cr outs tok s) d v)
  | ccb => exact .kept (ccbWrite_psr ..)
  | exception c => exact .exception (tookException_takeException c s)
  | exceptionPopped c => exact .exception (tookException_takeException_popStack c s)
  | sets w imm hi => exact .inMode (.inl ⟨w, imm, hi⟩) rfl
  | disables w hi => exact .inMode (.inr (.inl ⟨w, .inl hi⟩)) rfl
  | enables w hi => exact .inMode (.inr (.inl ⟨w, .inr hi⟩)) rfl
  | switches w imm wide hi => exact .inMode (.inr (.inr ⟨w, imm, hi⟩)) rfl
  | returns w hi _ hstack => exact .returns w hi hstack
  | toUser w hi _ hum => exact .toUser w hi hum
  | calls f hi => exact .calls f hi

/-- With no write in flight the mode behind `reti` is that of the image on top of the stack. -/
theorem um_returnFromInterrupt {s : State} (hs : Settled s) (hstack : s.hwstack ≠ []) :
    ∃ e ∈ s.hwstack.head?, e.psr.getLsbD 0 = (returnFromInterrupt s).psr.um := by
  obtain ⟨e, rest, hcons⟩ := List.exists_cons_of_ne_nil hstack
  refine ⟨e, by rw [hcons]; rfl, ?_⟩
  rw [returnFromInterrupt_psr_settled hcons hs]
  rfl

end Sys2Proof.Machine

/-! SUPPORT. The statements of `46_system.md`, in a namespace of their own: four bear the name of an operation. -/

namespace Sys2Proof.SystemInstructions

open Sys2Proof.Machine

/-- Settles O35: `nop` only ends, `rcon` loads the images that its source shows, and `scon` stores a word from which the
same would be loaded. -/
theorem nopAndConditionRegisters : Obligations.NopAndConditionRegisters := by
  intro w d a s hadv
  refine ⟨retire_next hadv false, ?_, ?_⟩
  · obtain ⟨t, ht, hregs, hframe, hends, hcr⟩ := retire_cr_next hadv (unpackFlags (readX a s))
    exact ⟨t, ht, hregs, hframe, hends, fun k => (hcr k).trans (getElem_unpackFlags _ k)⟩
  · obtain ⟨t, ht, hgives⟩ := writeResult_next hadv d (packFlags s.cr)
    exact ⟨t, _, ht, hgives, packFlags_lt s.cr, getLsbD_packFlags s⟩

/-- Settles O36: in super user mode each of the three is one change of PSR, the window and the writes in flight. -/
theorem statusInstructions : Obligations.StatusInstructions := by
  intro w imm s hum hadv
  simp only [exec, execChrs, execDi, execEi, superOnly_of_superUser hum]
  exact ⟨retire_psr_next hadv { s.psr with rswr := imm.getLsbD 1, rsrd := imm.getLsbD 0 } rfl s.diWindow s.ccbInflight,
    retire_psr_next hadv { s.psr with ie := false } rfl s.psr.ie s.ccbInflight,
    retire_psr_next hadv { s.psr with ie := true } rfl s.diWindow (settleForEi s.ccbInflight)⟩

/-- Settles O38: both slots good, `swm` goes on behind them in the new mode. -/
theorem switchMode : Obligations.SwitchMode := by
  intro w imm s hd
  refine ⟨fun himm h1 ha hn hp => ?_, fun himm h1 ha hn hp => ?_, exec_swm_reserved hd w⟩
  · obtain rfl : imm = 16#6 := BitVec.eq_of_toNat_eq himm
    exact ⟨_, (exec_swm_16 hd w).trans (switchMode_of_nop (toWide := false) h1 hp ha hn), rfl, rfl,
      continueAt_psr_frame ..⟩
  · obtain rfl : imm = 32#6 := BitVec.eq_of_toNat_eq himm
    exact ⟨_, (exec_swm_32 hd w).trans (switchMode_of_nop (toWide := true) h1 hp ha hn), rfl, rfl,
      continueAt_psr_frame ..⟩

/-- Settles O39: behind good slots `reti` is `returnFromInterrupt`, which with no write in flight restores the top entry. -/
theorem returnFromInterrupt : Obligations.ReturnFromInterrupt := by
  intro w s hd
  have hnext (hstack : s.hwstack ≠ []) (h1 : SlotOk 1 s) (h2 : SlotOk 2 s) (h3 : SlotOk 3 s) :
      exec (.reti w) s = .next (Machine.returnFromInterrupt s) := by
    refine (exec_reti hd w hstack).trans (overSlots_of_slotOk _ _ fun m hlo hhi => ?_)
    obtain rfl | rfl | rfl : m = 1 ∨ m = 2 ∨ m = 3 := by omega
    · exact h1
    · exact h2
    · exact h3
  refine ⟨fun hstack h1 h2 h3 => ⟨_, hnext hstack h1 h2 h3, rfl, toByte_ofByte _, rfl, rfl⟩,
    fun e rest src older hs hstack hserv h1 h2 h3 => ?_, exec_reti_of_empty hd w⟩
  obtain ⟨haddr, -, hcr0⟩ := seen_reti_settled hstack hs
  obtain ⟨horder, hccb, houtputs⟩ := returnFromInterrupt_of_served hserv
  refine ⟨_, hnext (by rw [hstack]; exact List.cons_ne_nil e rest) h1 h2 h3, haddr, ?_, ?_, fun k hk => ?_, ?_, horder,
    fun x => ?_, ?_, houtputs, rfl, rfl, rfl, rfl, ⟨fun _ => rfl, fun _ => rfl⟩, rfl, rfl, rfl, rfl,
    sameBehind_returnFromInterrupt s, rfl, rfl, ?_, rfl⟩
  · rw [returnFromInterrupt_psr_settled hstack hs, toByte_ofByte]
  · rw [readCr_zero_returnFromInterrupt, hcr0]
    rfl
  · exact readCr_returnFromInterrupt_of_ne hk s
  · show s.hwstack.tail = rest
    rw [hstack, List.tail_cons]
  · rw [hccb, getLsbD_and_not_twoPow]
  · rw [hccb]
  · show ageCcb 4 (dropRetiWrites s.ccbInflight) = []
    rw [show s.ccbInflight = [] from hs]
    rfl

/-- Settles O40: behind a good slot `retu` changes PSR and goes to PR31. -/
theorem returnToUser : Obligations.ReturnToUser := by
  intro w s hum hd h1
  exact ⟨_, (exec_retu hd w hum).trans (overSlots_one_of_slotOk _ _ h1), rfl, rfl, continueAt_psr_frame ..⟩

/-- Settles O41: behind a good slot `scall` is `systemCall`; the upper bits of SPSR are those that it found there. -/
theorem systemCall : Obligations.SystemCall := by
  intro f s hx hd h1 hs
  refine ⟨_, (exec_scall hd hx).trans (overSlots_one_of_slotOk _ _ h1), systemCall_pc_settled hs, handler_toByte, rfl,
    systemCall_spsr_low s, fun hnone => ?_, ⟨spsrAtScall s, ?_, systemCall_spsr_high s⟩, rfl, rfl, fun _ => rfl,
    ⟨fun _ => rfl, fun _ => rfl⟩, sameSystem_systemCall s, ⟨rfl, rfl⟩, rfl, rfl, rfl, rfl, rfl, rfl⟩
  · rw [systemCall_spsr_high, spsrAtScall_of_none hnone]
  · exact spsrAtScall_cases s

/-- Settles O42: the first bad slot of those that an instruction runs with stops the machine by that instruction's name. -/
theorem slotMustBeNop : Obligations.SlotMustBeNop := by
  intro w f s hd
  refine ⟨fun n hlo hhi hok hbad hstack => ?_, fun hbad => ⟨fun hum => ?_, fun hx => ?_, ?_, ?_⟩, ?_⟩
  · exact (exec_reti hd w hstack).trans (overSlots_of_slotNotNop _ _ hlo hhi hok hbad)
  · exact (exec_retu hd w hum).trans (overSlots_one_of_slotNotNop _ _ hbad)
  · exact (exec_scall hd hx).trans (overSlots_one_of_slotNotNop _ _ hbad)
  · exact (exec_swm_16 hd w).trans (switchMode_of_slotNotNop hbad)
  · exact (exec_swm_32 hd w).trans (switchMode_of_slotNotNop hbad)
  · rintro h1 imm v a (⟨rfl, rfl, rfl⟩ | ⟨rfl, rfl, rfl⟩) ha hp hn
    · exact (exec_swm_16 hd w).trans (switchMode_of_not_nop (toWide := false) h1 hp ha hn)
    · exact (exec_swm_32 hd w).trans (switchMode_of_not_nop (toWide := true) h1 hp ha hn)

/-- Settles O57: what every instruction can have done to PSR, by `PsrAfter`. -/
theorem psrWriters : Obligations.PsrWriters := by
  intro i s t he hne
  cases (exec_did he).psrAfter with
  | kept h => exact absurd h hne
  | exception h =>
    exact .inr (.inr (.inr (.inr ⟨by rw [h.psr]; exact handler_toByte, h.exceptionPc, h.exceptionPsr⟩)))
  | inMode hi =>
    rcases hi with hi | ⟨w, hi | hi⟩ | hi
    · exact .inl hi
    · exact .inr (.inl ⟨w, .inl hi⟩)
    · exact .inr (.inl ⟨w, .inr (.inl hi)⟩)
    · exact .inr (.inr (.inl hi))
  | returns w hi => exact .inr (.inl ⟨w, .inr (.inr (.inr hi))⟩)
  | toUser w hi => exact .inr (.inl ⟨w, .inr (.inr (.inl hi))⟩)
  | calls f hi => exact .inr (.inr (.inr (.inl ⟨f, hi⟩)))

/-- Settles O58: of what an instruction can have done to PSR only `scall`, an exception and `reti` can leave user mode, and
only `retu` and `reti` can enter it. -/
theorem modeTransitions : Obligations.ModeTransitions := by
  intro i s t hs he
  cases (exec_did he).psrAfter with
  | kept h | inMode _ h =>
    rw [h]
    exact ⟨fun hu ht => Bool.noConfusion (hu.symm.trans ht), fun hu ht => Bool.noConfusion (hu.symm.trans ht)⟩
  | exception h =>
    rw [h.psr]
    exact ⟨fun _ _ => .inr (.inl ⟨handler_toByte, h.exceptionPc, h.pc_settled hs⟩),
      fun _ ht => absurd ht Bool.false_ne_true⟩
  | returns w hi hstack =>
    obtain ⟨e, hmem, hum⟩ := um_returnFromInterrupt hs hstack
    exact ⟨fun _ ht => .inr (.inr ⟨⟨w, hi⟩, e, hmem, hum.trans ht⟩), fun _ ht => .inr ⟨⟨w, hi⟩, e, hmem, hum.trans ht⟩⟩
  | toUser w hi hum => exact ⟨fun hu => absurd (hum.symm.trans hu) Bool.false_ne_true, fun _ _ => .inl ⟨w, hi⟩⟩
  | calls f hi =>
    exact ⟨fun _ _ => .inl ⟨⟨f, hi⟩, handler_toByte, systemCall_pc_settled hs⟩,
      fun _ ht => absurd ht Bool.false_ne_true⟩

end Sys2Proof.SystemInstructions

/-! SUPPORT. Which instructions a mode does not have (`60_exceptions.md` R324), and the code of `trap` (R327). -/

namespace Sys2Proof.Machine

theorem superOnly_of_userMode {s : State} (h : s.psr.um = true) (k : State → Result) :
    superOnly k s = raise codeIllegalInstruction s := if_pos h

theorem wideOnly_of_narrow {s : State} (h : s.psr.il = false) (k : State → Result) :
    wideOnly k s = raise codeIllegalInstruction s := if_neg (by rw [h]; exact Bool.false_ne_true)

/-- R341 (a): the privileged instructions look at the mode before anything else. -/
theorem exec_privileged {i : Instr} {w : Width} {imm : BitVec 2} {s : State} (hum : s.psr.um = true)
    (hi : i = .chrs w imm ∨ i = .di w ∨ i = .ei w ∨ i = .retu w) : exec i s = raise codeIllegalInstruction s := by
  rcases hi with rfl | rfl | rfl | rfl
  · rw [exec, execChrs, superOnly_of_userMode hum]
  · rw [exec, execDi, superOnly_of_userMode hum]
  · rw [exec, execEi, superOnly_of_userMode hum]
  · rw [exec, execRetu, superOnly_of_userMode hum]

/-- R166: so do the instructions of 32-bit mode only. -/
theorem exec_wide {i : Instr} {d a : Reg} {len : BitVec 6} {lsb : BitVec 5} {c : BitVec 16} {k : BitVec 2}
    {w : BitVec 24} {s : State} (hil : s.psr.il = false)
    (hi : i = .exbfi d a len lsb ∨ i = .lli d c ∨ i = .lui d c ∨ i = .cop k w) :
    exec i s = raise codeIllegalInstruction s := by
  rcases hi with rfl | rfl | rfl | rfl
  · rw [exec, execExbfi, wideOnly_of_narrow hil]
  · rw [exec, execLli, wideOnly_of_narrow hil]
  · rw [exec, execLui, wideOnly_of_narrow hil]
  · rw [exec, execCop, wideOnly_of_narrow hil]

/-- R147: the opcode of a 16-bit word is its upper six bits. -/
theorem opcode16_toNat (h : BitVec 16) : (opcode16 h).toNat = h.toNat / 2 ^ 10 := by
  have hh := h.isLt
  rw [opcode16, field, BitVec.extractLsb'_toNat, Nat.shiftRight_eq_div_pow]
  exact Nat.mod_eq_of_lt (by omega)

theorem decode16_of_wide_opcode {h : BitVec 16}
    (ho : h.toNat / 2 ^ 10 = 0x11 ∨ h.toNat / 2 ^ 10 = 0x13 ∨ h.toNat / 2 ^ 10 = 0x37) : decode16 h = .illegal16 := by
  rw [← opcode16_toNat] at ho
  rcases ho with ho | ho | ho
  all_goals simp only [decode16, ho]

/-- R327: 111b in front of the immediate. -/
theorem codeTrap_eq_ofNat (imm : BitVec 5) : codeTrap imm = BitVec.ofNat 8 (0xE0 + imm.toNat) := by
  apply BitVec.eq_of_toNat_eq
  simp only [codeTrap, toNat_append_eq, BitVec.toNat_ofNat]
  omega

theorem exec_trap (w : Width) (imm : BitVec 5) (s : State) :
    exec (.trap w imm) s = raise (BitVec.ofNat 8 (0xE0 + imm.toNat)) s := by
  rw [← codeTrap_eq_ofNat, exec, execTrap]

/-- An exception of the fetch itself executes no instruction. -/
theorem fetchException_of_ne {c : BitVec 8} (h : c ≠ codeIllegalInstruction) (s : State) :
    fetchException c s = .next (takeException c s) := if_neg h

end Sys2Proof.Machine

/-! SUPPORT. Interrupts (`60_exceptions.md` R345 to R356): the rank of a source, which source is the acceptable one, how
long it waits, and what its entry and a request do to INT_SERV, INT_PEND and the latched OFFSETs. -/

namespace Sys2Proof.Machine

/-! ## Priorities (R346 to R348) -/

/-- With no CCB write in flight the priority is the field of COP_INT_PRI or EXT_INT_PRI. -/
theorem priority_settled {s : State} (hs : Settled s) (x : Source) :
    priority x s = if x.val < 4 then s.ccb.copIntPri.toNat / 2 ^ (4 * x.val) % 16
      else if s.extHandler then 15
      else s.ccb.extIntPri.toNat / 2 ^ (4 * (x.val - 4)) % 16 := by
  have hcop : (ccbRead offCopIntPri s).toNat = s.ccb.copIntPri.toNat :=
    BitVec.toNat_setWidth_of_le (by decide : 16 ≤ 32)
  have hext : ccbRead offExtIntPri s = s.ccb.extIntPri := rfl
  rw [priority, seen_settled hs, seen_settled hs, toNat_extractLsb'_eq, toNat_extractLsb'_eq, hcop, hext]
  rfl

/-- Ranking by priority and then by source number is ranking by one number, as there are twelve sources. -/
theorem outranks_iff {rank : Source → Nat} {s : State} (hrank : ∀ x, rank x = 12 * priority x s + x.val)
    (a b : Source) : outranks a b s = true ↔ rank a < rank b := by
  rw [outranks, decide_eq_true_eq, hrank, hrank]
  omega

/-! ## The acceptable source (R346) -/

theorem wins_iff (src : Source) (s : State) : wins src s = true ↔
    eligible src s = true ∧ (∀ t, t ≠ src → eligible t s = true → outranks src t s = true) ∧
      ∀ t, inService t s = true → outranks src t s = true := by
  simp only [wins, Bool.and_eq_true, List.all_eq_true, List.mem_finRange, not_true_eq_false, false_or, Bool.or_eq_true,
    beq_iff_eq, Bool.not_eq_true', forall_and, or_assoc, Bool.eq_false_iff, ne_eq, imp_iff_not_or, not_not]

/-- Of two sources that win each would outrank the other. -/
theorem eq_of_wins {a b : Source} {s : State} (ha : wins a s = true) (hb : wins b s = true) : a = b := by
  obtain ⟨ea, ha, -⟩ := (wins_iff a s).1 ha
  obtain ⟨eb, hb, -⟩ := (wins_iff b s).1 hb
  by_contra hne
  have hab := (outranks_iff (fun _ => rfl) a b).1 (ha b (Ne.symm hne) eb)
  have hba := (outranks_iff (fun _ => rfl) b a).1 (hb a hne ea)
  exact absurd hab (Nat.lt_asymm hba)

theorem acceptable_eq_some_iff {s : State} {src : Source} :
    acceptable s = some src ↔ (s.psr.ie = true ∨ s.diWindow = true) ∧ wins src s = true := by
  rw [acceptable, ← Bool.or_eq_true]
  split
  case isFalse h => exact iff_of_false (Option.some_ne_none src).symm fun hw => h hw.1
  case isTrue h =>
    refine ⟨fun hf => ⟨h, List.find?_some (p := fun src => wins src s) hf⟩, fun ⟨_, hw⟩ => ?_⟩
    cases hf : (List.finRange 12).find? fun src => wins src s with
    | none => exact absurd hw (List.find?_eq_none.1 hf src (List.mem_finRange src))
    | some t => rw [eq_of_wins (List.find?_some (p := fun src => wins src s) hf) hw]

/-! ## The boundary (R352; log 16) -/

theorem boundaryBlocked_iff (s : State) : boundaryBlocked s = true ↔ s.intBlock = true ∨ s.delayedPc ≠ none := by
  rw [boundaryBlocked, Bool.or_eq_true, Option.isSome_iff_ne_none]

/-- An acceptable request keeps the wait that it has and starts a new one otherwise. -/
theorem waitFor_eq {s : State} {src : Source} {n : Nat}
    (h : s.acceptWait = some (src, n) ∨
      ((∀ m, s.acceptWait ≠ some (src, m)) ∧ n = Config.acceptDelay s.freeCount)) : waitFor src s = n := by
  rw [waitFor]
  rcases h with h | ⟨h, rfl⟩
  · rw [h]
    exact if_pos rfl
  · split
    case h_1 t m hw => exact if_neg (by rintro rfl; exact h m hw)
    case h_2 => rfl

theorem atBoundary_of_blocked {s : State} {src : Source} (ha : acceptable s = some src)
    (hb : boundaryBlocked s = true) : atBoundary s = .goOn { s with diWindow := false } := by
  simp only [atBoundary, ha, hb, if_true]

section
variable {s : State} {src : Source} (ha : acceptable s = some src) (hb : boundaryBlocked s = false)
include ha hb

theorem atBoundary_of_wait_zero (hw : waitFor src s = 0) : atBoundary s = .taken src s := by
  simp only [atBoundary, ha, hb, hw, Bool.false_eq_true, if_false]

theorem atBoundary_of_wait_succ {n : Nat} (hw : waitFor src s = n + 1) :
    atBoundary s = .goOn { s with diWindow := false, acceptWait := some (src, n) } := by
  simp only [atBoundary, ha, hb, hw, Bool.false_eq_true, if_false]

end

/-! ## Interrupt entry (R350 to R354) -/

theorem getLsbD_or_twoPow (v : BitVec 12) (x src : Source) :
    (v ||| BitVec.twoPow 12 src.val).getLsbD x.val = (v.getLsbD x.val || decide (x = src)) := by
  have hx := x.isLt
  simp [Fin.ext_iff]

/-- Log 7: Z, N, C in bits 2, 1, 0. -/
theorem getLsbD_image (f : Flags) :
    f.image.getLsbD 2 = f.z ∧ f.image.getLsbD 1 = f.n ∧ f.image.getLsbD 0 = f.c := by
  obtain ⟨z, n, c⟩ := f
  revert z n c
  decide

theorem entryPsr_settled {s : State} (hs : Settled s) (src : Source) :
    entryPsr src s = { ie := false, il := s.ccb.intModeIl.getLsbD src.val, rswr := !s.ccb.intModeUm.getLsbD src.val,
                       rsrd := !s.ccb.intModeUm.getLsbD src.val, um := s.ccb.intModeUm.getLsbD src.val } := by
  have hlt : src.val < 32 := by omega
  have hbit (v : BitVec 12) : (v.setWidth 32).getLsbD src.val = v.getLsbD src.val := by
    simp only [BitVec.getLsbD_setWidth, hlt, decide_true, Bool.true_and]
  have hil : ccbRead offIntModeIl s = s.ccb.intModeIl.setWidth 32 := rfl
  have hum : ccbRead offIntModeUm s = s.ccb.intModeUm.setWidth 32 := rfl
  simp only [entryPsr, seen_settled hs, hil, hum, hbit]

section
variable {s : State} {src : Source} (hs : Settled s)
include hs

/-- R353: the vector as it stands, where no external handler takes part. -/
theorem vectorOf_direct (h : s.extHandler = false ∨ src.val < 4) : vectorOf src s = s.ccb.intVec[src] := by
  have hno : ¬(s.extHandler = true ∧ 4 ≤ src.val) := by
    rintro ⟨hx, h4⟩
    rcases h with h | h
    · exact Bool.false_ne_true (h.symm.trans hx)
    · omega
  simp only [vectorOf, seen_settled hs, dif_neg hno]
  exact ccbRead_intVec src s

/-- R353: with the external handler the latched OFFSET, times 16, below the upper 20 bits of the vector. -/
theorem vectorOf_external (hx : s.extHandler = true) (h4 : 4 ≤ src.val) :
    (vectorOf src s).toNat = s.ccb.intVec[src].toNat / 2 ^ 12 * 2 ^ 12
      + 16 * (s.extOffset[src.val - 4]'(by have := src.isLt; omega)).toNat := by
  have hv : ccbRead (offIntVec src) s = s.ccb.intVec[src] := ccbRead_intVec src s
  simp only [vectorOf, seen_settled hs, hv, dif_pos (And.intro hx h4), toNat_append_eq, toNat_extractLsb'_eq,
    BitVec.toNat_ofNat]
  omega

end

/-! ## Events of the environment (R345) -/

theorem latchOffset_of_internal {s : State} {src : Source} (h : s.extHandler = false ∨ src.val < 4) (o : BitVec 8) :
    latchOffset src o s = s := by
  refine dif_neg ?_
  rintro ⟨hx, h4⟩
  rcases h with h | h
  · exact Bool.false_ne_true (h.symm.trans hx)
  · omega

/-- Log 44: with the external handler the OFFSET of the source, and no other, is latched. -/
theorem latchOffset_extOffset {s : State} (hx : s.extHandler = true) (src : Source) (o : BitVec 8) (k : Fin 8) :
    (latchOffset src o s).extOffset[k] = if src.val = k.val + 4 then o else s.extOffset[k] := by
  by_cases h4 : 4 ≤ src.val
  · have hi : src.val - 4 = k.val ↔ src.val = k.val + 4 := by omega
    simp only [latchOffset, hx, h4, and_self, dite_true, Fin.getElem_fin, Vector.getElem_set, hi]
  · rw [latchOffset_of_internal (.inr (by omega)), if_neg (by omega)]

theorem applyEvent_masterWrite_of_external {s : State} (h : s.busToken = .external) (a v : Word) :
    applyEvent (.masterWrite a v) s = s.writeData a v := by
  simp only [applyEvent, h]

theorem applyEvent_masterWrite_of_core {s : State} (h : s.busToken = .core) (a v : Word) :
    applyEvent (.masterWrite a v) s = s := by
  simp only [applyEvent, h]

end Sys2Proof.Machine

/-! SUPPORT. Both timers in one turn (`60_exceptions.md` R375 to R381), with no CCB write in flight. -/

namespace Sys2Proof.Machine

/-! ## Counts, requests, the watchdog -/

/-- A timer's count and divider replaced. -/
def setTimer (one : Bool) (c : Word) (d : BitVec 8) (s : State) : State :=
  if one then { s with ccb := { s.ccb with tmr1Cnt := c }, tmr1Div := d }
  else { s with ccb := { s.ccb with tmr0Cnt := c }, tmr0Div := d }

theorem setDivider_ccbSet (one : Bool) (c : Word) (d : BitVec 8) (s : State) :
    setDivider one d (ccbSet (offCnt one) c s) = setTimer one c d s := by
  cases one <;> rfl

/-- Where the step brings a timer: an enabled one as far as its ticks lead, a disabled one to a zero divider (R376,
R377). -/
structure TimerStep (one : Bool) (s : State) (c : Word) (d : BitVec 8) : Prop where
  enabled : tmrBit one 15 s = true →
    c.toNat = tmrAfter one (tmrTicks one s) s ∧ d.toNat = tmrCycles one s % (tmrField one 0 8 s + 1)
  disabled : tmrBit one 15 s = false → c.toNat = tmrCnt one s ∧ d.toNat = 0

/-- With no write in flight a timer counts in its own register. -/
theorem setSeen_settled {s : State} (hs : Settled s) (use : CcbUse) (off : BitVec 8) (v : Word) :
    setSeen use off v s = ccbSet off v s := by
  simp only [setSeen, seenIndex, lagging, show s.ccbInflight = [] from hs, List.filter_nil, List.map_nil]

theorem runTimer_settled {s : State} (hs : Settled s) (one : Bool) :
    ∃ c d, runTimer one s = setTimer one c d s ∧ TimerStep one s c d := by
  obtain ⟨hen, -⟩ := timerConf_settled hs one
  obtain ⟨hdiv, hcnt, -⟩ := timerResult_eq hs one
  cases he : tmrBit one 15 s with
  | true =>
    refine ⟨(timerResult one s).cnt, (timerResult one s).div, ?_, fun _ => ⟨hcnt, hdiv⟩, fun h => ?_⟩
    · rw [runTimer, if_pos (hen.trans he), setSeen_settled hs, setDivider_ccbSet]
    · exact absurd (h.symm.trans he) Bool.false_ne_true
  | false =>
    refine ⟨if one then s.ccb.tmr1Cnt else s.ccb.tmr0Cnt, 0, ?_, fun h => ?_, fun _ => ⟨?_, rfl⟩⟩
    · rw [runTimer_of_disabled (hen.trans he)]
      cases one <;> rfl
    · exact absurd (he.symm.trans h) Bool.false_ne_true
    · cases one <;> rfl

/-- What one timer does is no matter to the other. -/
theorem timerStep_of_setTimer_false {s : State} {c0 c : Word} {d0 d : BitVec 8}
    (h : TimerStep true (setTimer false c0 d0 s) c d) : TimerStep true s c d := ⟨h.enabled, h.disabled⟩

/-- The timer makes an interrupt request on the line of `src` in the coming step (R378, R379). -/
def TmrRequests (one : Bool) (s : State) (src : Source) : Prop :=
  tmrBit one 13 s = true ∧ TmrReaches one s ∧ src.val = 4 + tmrField one 8 3 s

/-- A timer's request is a pending bit. -/
theorem timerRequest_settled {b : State} (hb : Settled b) (one : Bool) (s : State) :
    ∃ p, timerRequest one b s = { s with ccb := { s.ccb with intPend := p } } ∧
      ∀ x : Source, p.getLsbD x.val = true ↔ s.ccb.intPend.getLsbD x.val = true ∨ TmrRequests one b x := by
  obtain ⟨-, -, hgint, -, hintn, -⟩ := timerConf_settled hb one
  have hfires : (timerFires one b && (timerConf one b).gint) = true ↔ TmrReaches one b ∧ tmrBit one 13 b = true := by
    rw [Bool.and_eq_true, timerFires_iff hb, hgint]
  rw [timerRequest]
  split
  case isTrue h =>
    obtain ⟨hr, hg⟩ := hfires.1 h
    have hline : (Fin.natAdd 4 ((timerConf one b).intn.toFin : Fin 8) : Fin 12).val = 4 + tmrField one 8 3 b :=
      congrArg (4 + ·) hintn
    refine ⟨_, rfl, fun x => ?_⟩
    rw [getLsbD_or_twoPow, Bool.or_eq_true, decide_eq_true_eq, Fin.ext_iff, hline]
    exact or_congr Iff.rfl ⟨fun hx => ⟨hg, hr, hx⟩, fun hx => hx.2.2⟩
  case isFalse h =>
    refine ⟨_, rfl, fun x => ⟨.inl, ?_⟩⟩
    rintro (hp | ⟨hg, hr, -⟩)
    · exact hp
    · exact absurd (hfires.2 ⟨hr, hg⟩) h

theorem watchdogFires_iff {s : State} (hs : Settled s) (one : Bool) :
    watchdogFires one s = true ↔ tmrBit one 12 s = true ∧ TmrReaches one s := by
  obtain ⟨-, -, -, hwdog, -⟩ := timerConf_settled hs one
  rw [watchdogFires, Bool.and_eq_true, timerFires_iff hs, hwdog, and_comm]

/-! ## The timers' turn -/

/-- What the timers' turn leaves where no watchdog expires: counts, dividers and requests, and nothing else changed. -/
structure TimersRan (s t : State) : Prop where
  step : ∀ one, (tmrBit one 15 s = true →
      tmrCnt one t = tmrAfter one (tmrTicks one s) s ∧
      tmrDivider one t = tmrCycles one s % (tmrField one 0 8 s + 1)) ∧
    (tmrBit one 15 s = false → tmrCnt one t = tmrCnt one s ∧ tmrDivider one t = 0)
  intPend : ∀ x : Source, t.ccb.intPend.getLsbD x.val = true ↔ s.ccb.intPend.getLsbD x.val = true ∨
    ∃ one, TmrRequests one s x
  frame : { t with ccb := s.ccb, tmr0Div := s.tmr0Div, tmr1Div := s.tmr1Div } = s
  ccb : { t.ccb with tmr0Cnt := s.ccb.tmr0Cnt, tmr1Cnt := s.ccb.tmr1Cnt, intPend := s.ccb.intPend } = s.ccb

theorem tickTimers_of_watchdog {s : State} (hs : Settled s) {one : Bool} (hw : tmrBit one 12 s = true)
    (hr : TmrReaches one s) : tickTimers s = coreReset s := by
  have hfires := (watchdogFires_iff hs one).2 ⟨hw, hr⟩
  refine if_pos ?_
  rw [Bool.or_eq_true]
  cases one with
  | false => exact .inl hfires
  | true => exact .inr hfires

/-- Both timers where the step brings them, and these requests pending. -/
theorem timersRan_setTimer {s : State} {c0 c1 : Word} {d0 d1 : BitVec 8} {p : BitVec 12}
    (h0 : TimerStep false s c0 d0) (h1 : TimerStep true s c1 d1)
    (hp : ∀ x : Source, p.getLsbD x.val = true ↔ s.ccb.intPend.getLsbD x.val = true ∨ ∃ one, TmrRequests one s x) :
    TimersRan s { s with
      ccb := { s.ccb with tmr0Cnt := c0, tmr1Cnt := c1, intPend := p }, tmr0Div := d0, tmr1Div := d1 } := by
  refine ⟨fun one => ?_, hp, rfl, rfl⟩
  cases one with
  | false => exact ⟨h0.enabled, h0.disabled⟩
  | true => exact ⟨h1.enabled, h1.disabled⟩

theorem tickTimers_of_no_watchdog {s : State} (hs : Settled s)
    (hw : ∀ one, tmrBit one 12 s = true → ¬TmrReaches one s) : TimersRan s (tickTimers s) := by
  have hquiet (one : Bool) : watchdogFires one s ≠ true := fun h =>
    have ⟨hbit, hr⟩ := (watchdogFires_iff hs one).1 h
    hw one hbit hr
  obtain ⟨c0, d0, h0, hstep0⟩ := runTimer_settled hs false
  obtain ⟨c1, d1, h1, hstep1⟩ := runTimer_settled (s := setTimer false c0 d0 s) hs true
  obtain ⟨p0, h2, hp0⟩ := timerRequest_settled hs false (setTimer true c1 d1 (setTimer false c0 d0 s))
  obtain ⟨p1, h3, hp1⟩ := timerRequest_settled hs true
    { setTimer true c1 d1 (setTimer false c0 d0 s) with
      ccb := { (setTimer true c1 d1 (setTimer false c0 d0 s)).ccb with intPend := p0 } }
  have hp (x : Source) : p1.getLsbD x.val = true ↔
      s.ccb.intPend.getLsbD x.val = true ∨ ∃ one, TmrRequests one s x := by
    rw [Bool.exists_bool, ← or_assoc]
    exact (hp1 x).trans (or_congr (hp0 x) Iff.rfl)
  rw [tickTimers, if_neg (by rw [Bool.or_eq_true, not_or]; exact ⟨hquiet false, hquiet true⟩), h0, h1, h2, h3]
  exact timersRan_setTimer hstep0 (timerStep_of_setTimer_false hstep1) hp

/-- A count that is not above MAX goes round with CONT, and stops there without (R377). -/
theorem tmrAfter_of_le {s : State} {one : Bool} (h : tmrCnt one s ≤ tmrMax one s) (k : Nat) :
    tmrAfter one k s = if tmrBit one 14 s then (tmrCnt one s + k) % (tmrMax one s + 1)
      else min (tmrCnt one s + k) (tmrMax one s) := if_pos h

/-- A timer that is disabled or has no GINT makes no request. -/
theorem not_tmrRequests {s : State} {one : Bool} (h : tmrBit one 15 s = false ∨ tmrBit one 13 s = false)
    (src : Source) : ¬TmrRequests one s src := by
  rintro ⟨hg, ⟨he, -⟩, -⟩
  rcases h with h | h
  · exact Bool.false_ne_true (h.symm.trans he)
  · exact Bool.false_ne_true (h.symm.trans hg)

/-- So the requests are those of the other timer. -/
theorem exists_tmrRequests_iff {s : State} {one : Bool}
    (h : tmrBit (!one) 15 s = false ∨ tmrBit (!one) 13 s = false) (src : Source) :
    (∃ x, TmrRequests x s src) ↔ TmrRequests one s src := by
  refine ⟨fun ⟨x, hx⟩ => ?_, fun hr => ⟨one, hr⟩⟩
  rcases Bool.eq_or_eq_not x one with rfl | rfl
  · exact hx
  · exact absurd hx (not_tmrRequests h src)

end Sys2Proof.Machine

/-! SUPPORT. Guard distances (`70_reset_and_hazards.md` R415): which writes stay in flight. -/

namespace Sys2Proof.Machine

/-- Outside the guard distance of a use the register is seen as it stands. -/
theorem seen_of_outside {use : CcbUse} {off : BitVec 8} {s : State}
    (h : ∀ w ∈ s.ccbInflight, w.offset = off → guards use < w.age) : seen use off s = ccbRead off s := by
  rcases seen_cases use off s with hs | ⟨w, hw, ho, ha, -⟩
  · exact hs
  · exact absurd (h w hw ho) (Nat.not_lt.2 ha)

theorem mem_ageCcb_iff {n : Nat} {l : List CcbWrite} {w : CcbWrite} :
    w ∈ ageCcb n l ↔ w.age ≤ 4 ∧ ∃ x ∈ l, w = { x with age := x.age + n } := by
  simp only [ageCcb, List.mem_filter, List.mem_map, decide_eq_true_eq, and_comm, eq_comm (b := w)]

theorem mem_ageSpsr_iff {n : Nat} {l : List SpsrWrite} {w : SpsrWrite} :
    w ∈ ageSpsr n l ↔ w.age ≤ 3 ∧ ∃ x ∈ l, w = { x with age := x.age + n } := by
  simp only [ageSpsr, List.mem_filter, List.mem_map, decide_eq_true_eq, and_comm, eq_comm (b := w)]

theorem mem_settleForEi_iff {l : List CcbWrite} {w : CcbWrite} :
    w ∈ settleForEi l ↔ w ∈ l ∧ ¬(0x04 ≤ w.offset.toNat ∧ w.offset.toNat ≤ 0x16 ∧ 2 < w.age) := by
  rw [settleForEi, List.mem_filter, Bool.not_eq_true', ← Bool.not_eq_true, Bool.and_eq_true, decide_eq_true_eq,
    decide_eq_true_eq, and_assoc]

theorem mem_dropRetiWrites_iff {l : List CcbWrite} {w : CcbWrite} :
    w ∈ dropRetiWrites l ↔ w ∈ l ∧ ¬(0x28 ≤ w.offset.toNat ∧ w.offset.toNat ≤ 0x2A) := by
  rw [dropRetiWrites, List.mem_filter, Bool.not_eq_true', decide_eq_false_iff_not]

end Sys2Proof.Machine

/-! SUPPORT. The statements of `60_exceptions.md` and `70_reset_and_hazards.md`, in a namespace of their own: one bears
the name of an operation. -/

namespace Sys2Proof.ExceptionsAndHazards

open Sys2Proof.Machine

/-- Settles O44: `trap` is an exception entry of that code. -/
theorem trap : Obligations.Trap := by
  intro w imm s
  exact ⟨_, exec_trap w imm s, (raise_raised _ s).toEntersException⟩

/-- Settles O37: mode is judged before anything else, and the three opcodes have no 16-bit format. -/
theorem illegalInstruction : Obligations.IllegalInstruction := by
  refine ⟨fun w imm i s hum hi => ?_, fun d a len lsb c k w i s hil hi => ?_, fun h => decode16_of_wide_opcode⟩
  · exact ⟨_, exec_privileged hum hi, raise_raised codeIllegalInstruction s⟩
  · exact ⟨_, exec_wide hil hi, raise_raised codeIllegalInstruction s⟩

/-- Settles O43: what an instruction's exception and a fetch's leave, and what `ld` then reads at 17h to 19h. -/
theorem exceptionEntry : Obligations.ExceptionEntry := by
  intro c s
  refine ⟨⟨_, rfl, raise_raised c s, fun hs => ?_, rfl, rfl, rfl⟩, fun hc => ?_, fun w imm => exec_trap w imm s⟩
  · exact seen_settled hs .exceptionEntry offExcepAddr
  · exact ⟨_, fetchException_of_ne hc s, takeException_raisedAtFetch c s⟩

/-- Settles O46: the acceptable source is the one that wins, and the rank of the statement decides who outranks whom. -/
theorem acceptableRequest : Obligations.AcceptableRequest := by
  intro s src hs rank hrank
  have hout (a b : Source) : outranks a b s = true ↔ rank a < rank b :=
    outranks_iff (fun x => by rw [hrank, priority_settled hs]) a b
  have hel (t : Source) : eligible t s = true ↔
      s.ccb.intPend.getLsbD t.val = true ∧ s.ccb.intMask.getLsbD t.val = true := by
    rw [eligible_settled hs, BitVec.getLsbD_and, Bool.and_eq_true]
  simp only [acceptable_eq_some_iff, wins_iff, hout, hel, inService, and_imp, and_assoc]

/-- Settles O47: the four outcomes of `atBoundary`, by whether there is an acceptable source, whether the boundary is
blocked, and what is left of the wait. -/
theorem interruptBoundary : Obligations.InterruptBoundary := by
  intro s src
  refine ⟨fun u hu => ?_, fun ha hb hd n hn => ?_, fun ha hb => ?_, atBoundary_of_notAcceptable⟩
  · rcases atBoundary_cases s with ⟨x, hx, hacc, hb, hd⟩ | ⟨wait, hgo⟩
    · cases hx.symm.trans hu
      exact ⟨rfl, hacc, hb, hd⟩
    · cases hgo.symm.trans hu
  · have hfree : boundaryBlocked s = false := by simp only [boundaryBlocked, hb, hd, Option.isSome_none, Bool.or_self]
    have hwait := waitFor_eq hn
    refine ⟨fun h0 => atBoundary_of_wait_zero ha hfree (hwait.trans h0), fun m hm => ?_⟩
    exact atBoundary_of_wait_succ ha hfree (hwait.trans hm)
  · exact atBoundary_of_blocked ha ((boundaryBlocked_iff s).2 hb)

/-- Settles O48: what is stacked, the two bits of the source, PSR and the vector, each by its lemma; the rest is not
touched. -/
theorem interruptEntry : Obligations.InterruptEntry := by
  intro src s hs
  refine ⟨fun h => if_pos h, fun h => ⟨_, if_neg (Nat.not_le.2 h), ⟨_, rfl, rfl, rfl, getLsbD_image _⟩, rfl, ?_⟩⟩
  refine ⟨fun x => getLsbD_or_twoPow _ x src, fun x => getLsbD_and_not_twoPow _ x src, rfl, entryPsr_settled hs src,
    vectorOf_direct hs, vectorOf_external hs, rfl, rfl, rfl, rfl, rfl, rfl, rfl, rfl, ⟨fun _ => rfl, fun _ => rfl⟩,
    ⟨rfl, rfl, rfl, rfl, rfl, rfl, rfl, rfl, rfl, rfl⟩, rfl, rfl, rfl, rfl, ?_, rfl⟩
  exact congrArg dropRetiWrites hs

/-- Settles O49: each event by what it sets, a master's write by reading canonical memory after a write, and the shape
of a step by its definition. -/
theorem requestCapture : Obligations.RequestCapture := by
  refine ⟨?_, fun s => ⟨rfl, rfl, rfl⟩, ?_, fun s => ⟨fun hi => ?_, fun es rest hi => ?_⟩, fun s => ⟨rfl, ?_, ?_⟩⟩
  · rintro src o s t rfl
    obtain ⟨off, hoff⟩ := request_eq src o s
    refine ⟨fun x => ?_, fun h => ?_, fun hx k => latchOffset_extOffset (s := setPending src s) hx src o k, ?_⟩
    · rw [hoff]
      exact getLsbD_or_twoPow _ x src
    · rw [applyEvent, latchOffset_of_internal (s := setPending src s) h o]
      rfl
    · rw [hoff]
  · rintro a v s t hcanon rfl
    refine ⟨fun hb => applyEvent_masterWrite_of_core hb a v, fun hb => ?_⟩
    rw [applyEvent_masterWrite_of_external hb]
    exact ⟨⟨fun b => read_write_toNat hcanon.2 a b v, fun b => rfl⟩, rfl⟩
  · simp only [applyInputs, hi]
  · simp only [applyInputs, hi, applyEvents_eq_foldl]
  · intro src u hb
    simp only [step, hb]
  · intro u hb
    exact step_of_goOn hb

/-- Settles O51: a watchdog that expires resets the core, and otherwise both timers run. -/
theorem watchdog : Obligations.Watchdog := by
  rintro s t hs rfl
  refine ⟨fun ⟨one, hw, hr⟩ => tickTimers_of_watchdog hs hw hr, fun hw => ?_⟩
  obtain ⟨hstep, hpend, hframe, hccb⟩ := tickTimers_of_no_watchdog hs hw
  exact ⟨hstep, hpend, hframe, hccb⟩

/-- Settles O50: no watchdog can expire where none is set, and a count that is not above MAX goes round or stops. -/
theorem timerPeriod : Obligations.TimerPeriod := by
  rintro s t one hs hw0 hw1 rfl
  have hnone : ∀ x, tmrBit x 12 s = true → ¬TmrReaches x s := by
    intro x hx
    cases x with
    | false => exact absurd (hw0.symm.trans hx) Bool.false_ne_true
    | true => exact absurd (hw1.symm.trans hx) Bool.false_ne_true
  obtain ⟨hstep, hpend, hframe, hccb⟩ := tickTimers_of_no_watchdog hs hnone
  obtain ⟨henabled, hdisabled⟩ := hstep one
  refine ⟨hdisabled, fun he => ?_, fun hother x => ?_, hframe, hccb⟩
  · obtain ⟨hcnt, hdiv⟩ := henabled he
    refine ⟨hdiv, fun hle hcont => ?_, fun hle hcont => ?_, hcnt⟩
    · rw [hcnt, tmrAfter_of_le hle, if_pos hcont]
    · rw [hcnt, tmrAfter_of_le hle, if_neg (by rw [hcont]; exact Bool.false_ne_true)]
  · rw [hpend, exists_tmrRequests_iff hother, TmrRequests, TmrReaches]
    refine or_congr Iff.rfl ⟨?_, ?_⟩
    · rintro ⟨hg, ⟨he, hk⟩, hx⟩
      exact ⟨he, hg, hx, hk⟩
    · rintro ⟨he, hg, hx, hk⟩
      exact ⟨hg, ⟨he, hk⟩, hx⟩

/-- Settles O52: what an implicit use sees by `seen_cases`, the table of guards, and which writes stay in flight. -/
theorem guardDistance : Obligations.GuardDistance := by
  refine ⟨fun use off s => ⟨seen_of_outside, seen_cases use off s⟩, ?_, fun n l w => ?_, fun n l w => mem_ageSpsr_iff⟩
  · exact ⟨rfl, rfl, rfl, rfl, rfl, fun _ => rfl, rfl, rfl, rfl, rfl, rfl, rfl, rfl, rfl, fun _ => rfl⟩
  · exact ⟨mem_ageCcb_iff, mem_settleForEi_iff, mem_dropRetiWrites_iff⟩

end Sys2Proof.ExceptionsAndHazards
